-- ==== Sys2Proof/Word.lean ====
section
/-! DEFINITION. The word types of the PPU core: every data path is one byte wide (spec/20_memory.md R104), CPU
addresses have 16 bits, PPU addresses 14 (R90), and the two loopy registers 15 (spec/10_state.md R47). -/

namespace Sys2Proof

/-- A byte: the width of every access (R104). -/
abbrev Byte := BitVec 8

/-- A CPU bus address (R130). -/
abbrev CpuAddr := BitVec 16

/-- A PPU video-memory address (R90, space 2). -/
abbrev PpuAddr := BitVec 14

/-- The width of the address/scroll registers `v` and `t` (R47). -/
abbrev Loopy := BitVec 15

end Sys2Proof
end

