-- ==== Sys2Proof/Config.lean ====
section
/-! DEFINITION. The parameters of spec/00_scope.md R9 as plain data (held in `State.cfg`, so that every statement
about all states holds for every value of every OPEN parameter), the numbers the spec fixes, and the two free values
that stand for answers of the host which no script in the state supplies. -/

namespace Sys2Proof

/-- `STANDARD` (R3, R9): the two timing standards. -/
inductive Standard where
  | std260
  | std310
deriving DecidableEq, Repr

/-- `RENDER_2007_INCREMENT` (R9, R218): what a PPUDATA access during rendering does to `v`. -/
inductive Increment2007 where
  | glitch
  | plain
deriving DecidableEq, Repr

/-- The parameters of R9. A name-table bank exists when its id is below `ntWritable.length`, and the list says which
banks are RAM (`NT_WRITABLE`); `chrWritable` says, for each 1 KiB bank of `CHR`, whether it is RAM (`PT_WRITABLE`); a
bank past the list's end is ROM (log entry 3). -/
structure Config where
  standard         : Standard
  clockDivider     : Nat
  predictMargin    : Nat
  repredictHorizon : Nat
  dmaBurnCycles    : Nat
  render2007       : Increment2007
  ntWritable       : List Bool
  chrWritable      : List Bool
deriving DecidableEq, Repr

namespace Config

/-- The number of the last scanline (R3): 260 or 310. -/
def lastLine (c : Config) : Int :=
  match c.standard with
  | .std260 => 260
  | .std310 => 310

/-- The cartridge has the name-table bank `b` (R92, R96). -/
def hasBank (c : Config) (b : Nat) : Bool := decide (b < c.ntWritable.length)

/-- `NT_WRITABLE(b)` (R9, R95). -/
def ntBankWritable (c : Config) (b : Nat) : Bool := c.ntWritable.getD b false

/-- `PT_WRITABLE` of the byte `k` of `CHR` (R9, R92), by 1 KiB bank. -/
def chrByteWritable (c : Config) (k : Nat) : Bool := c.chrWritable.getD (k / 1024) false

/-- The bounds R9 puts on the OPEN numbers: `CLOCK_DIVIDER` ≥ 1 and `REPREDICT_HORIZON` ≥ 1. -/
def wf (c : Config) : Bool := decide (1 ≤ c.clockDivider) && decide (1 ≤ c.repredictHorizon)

/-- The parameter values of `State.reset`: the common assumptions of spec/95_test_vectors.md, two RAM name-table banks
and 8 KiB of pattern RAM. DESIGN CHOICE (log entry 1): every statement is about all values of `State.cfg`. -/
def common : Config where
  standard := .std260
  clockDivider := 4
  predictMargin := 0
  repredictHorizon := 400000
  dmaBurnCycles := 514
  render2007 := .glitch
  ntWritable := [true, true]
  chrWritable := List.replicate 8 true

/-- `CYCLES_PER_LINE` (R9). -/
def cyclesPerLine : Nat := 341

/-- `DMA_INITIAL_DELAY` (R9). -/
def dmaInitialDelay : Nat := 3

/-- `DMA_PHASE_CYCLES` (R9). -/
def dmaPhaseCycles : Nat := 3

/-- `DMA_BYTES` (R9). -/
def dmaBytes : Nat := 256

/-- FREE VALUE (log entry 6): the byte the host answers to the `draw`-th unscripted `cpuRead` of an address. No body:
nothing can be proved of it (spec/93_implementation_defined.md U9, any value). -/
opaque freeCpuByte (draw : Nat) (addr : CpuAddr) : Byte

/-- FREE VALUE (log entry 6): the timestamp the host answers to the `draw`-th unscripted `hostNow` (R185, U9). -/
opaque freeHostNow (draw : Nat) : Nat

end Config

end Sys2Proof
end

