-- ==== Sys2Proof/Syntax.lean ====
section
/-! DEFINITION. The operations of the core (spec/30_encoding.md): one constructor per row of spec/opcode_table.json. The
core executes no instruction stream; its "instructions" are the transactions its interface accepts. -/

namespace Sys2Proof

/-- A name-table map: the physical bank of each of the four slots (spec/20_memory.md R96). -/
abbrev NtMap := Vector Nat 4

/-- One view of the pattern map: for each 1 KiB page of `$0000–$1FFF` the byte of `CHR` it starts at (R97). -/
abbrev PtPages := Vector Nat 8

/-- `PT_MAP` (R64, R97): the background and the sprite view. -/
structure PtMap where
  bg  : PtPages
  spr : PtPages
deriving DecidableEq, Repr

/-- The `view` operand of `remapPatterns` (R97). -/
inductive RemapView where
  | bg
  | spr
  | both
deriving DecidableEq, Repr

/-- The draw `POWERON_MEMORY` (R9, R443): for each memory the (address, byte) pairs it holds; an address no pair
names is drawn as 0. Name-table addresses are `bank · 1024 + offset`, frame addresses `line · 256 + column`. -/
structure PowerOnMemory where
  nt    : List Host.Cell
  chr   : List Host.Cell
  pal   : List Host.Cell
  oam   : List Host.Cell
  frame : List Host.Cell
deriving DecidableEq, Repr

/-- The operations. A bus operation carries the host time `now` of the access (R23) and, for a write, the data
operand `d` (R130). The mirror bits `A[12:3]` are no operand: they have no effect (R133, R202). -/
inductive Instr where
  | rdCtrl    (now : Nat)
  | rdMask    (now : Nat)
  | rdStatus  (now : Nat)
  | rdOamAddr (now : Nat)
  | rdOamData (now : Nat)
  | rdScroll  (now : Nat)
  | rdAddr    (now : Nat)
  | rdData    (now : Nat)
  | wrCtrl    (d : Byte) (now : Nat)
  | wrMask    (d : Byte) (now : Nat)
  | wrStatus  (d : Byte) (now : Nat)
  | wrOamAddr (d : Byte) (now : Nat)
  | wrOamData (d : Byte) (now : Nat)
  | wrScroll  (d : Byte) (now : Nat)
  | wrAddr    (d : Byte) (now : Nat)
  | wrData    (d : Byte) (now : Nat)
  | dmaTrigger (d : Byte) (now : Nat)
  | sync    (now : Nat)
  | predict (horizon : Nat)
  | reset   (now : Nat)
  | powerOn (now : Nat) (draw : PowerOnMemory) (ntMap : NtMap) (ptMap : PtMap)
  | remapNametables (map : NtMap)
  | remapPatterns (view : RemapView) (start pageSize source : Nat)
  | statusQuery
  | frameBuffer
deriving DecidableEq, Repr

end Sys2Proof
end

