-- ==== Sys2Proof/WellFormed.lean ====
section
/-! DEFINITION. The operands an operation may have. Every operand of every operation is a value of its type, except the
draw of `powerOn`, whose pairs must name addresses that exist. -/

namespace Sys2Proof

/-- Every pair names an address below `size`. -/
def drawInside (size : Nat) (cells : List Host.Cell) : Bool := cells.all fun c => decide (c.1 < size)

/-- The draw names palette addresses below 32, OAM addresses below 256 and frame addresses below 256·240 (R91, R63). The
name-table and pattern addresses are unbounded: how many banks exist is the cartridge's (R92). -/
def PowerOnMemory.wf (m : PowerOnMemory) : Bool :=
  drawInside 32 m.pal && drawInside 256 m.oam && drawInside (240 * 256) m.frame

/-- The operands are ones the spec gives the operation (R132, R134: the naturals are unbounded). -/
def Instr.wf : Instr → Bool
  | .rdCtrl _ => true
  | .rdMask _ => true
  | .rdStatus _ => true
  | .rdOamAddr _ => true
  | .rdOamData _ => true
  | .rdScroll _ => true
  | .rdAddr _ => true
  | .rdData _ => true
  | .wrCtrl _ _ => true
  | .wrMask _ _ => true
  | .wrStatus _ _ => true
  | .wrOamAddr _ _ => true
  | .wrOamData _ _ => true
  | .wrScroll _ _ => true
  | .wrAddr _ _ => true
  | .wrData _ _ => true
  | .dmaTrigger _ _ => true
  | .sync _ => true
  | .predict _ => true
  | .reset _ => true
  | .powerOn _ draw _ _ => draw.wf
  | .remapNametables _ => true
  | .remapPatterns _ _ _ _ => true
  | .statusQuery => true
  | .frameBuffer => true

end Sys2Proof
end

