-- ==== Sys2Proof/Decode.lean ====
section
/-! DEFINITION. Decoding and encoding of transactions (spec/30_encoding.md). A raw transaction is what R130 and R132
say it is: a 17-bit access word with its data operand and its time outside the word, or a selector byte with its
operand tuple. Decoding is total: each request gives an operation or a named rejection. -/

namespace Sys2Proof

/-- The operand tuple of a host call (R132). The spec gives the operands no bit encoding, so they are held as values; a
selector reads the fields it has and no other (log entry 4). -/
structure HostArgs where
  now      : Nat
  horizon  : Nat
  draw     : PowerOnMemory
  ntMap    : NtMap
  ptMap    : PtMap
  view     : RemapView
  start    : Nat
  pageSize : Nat
  source   : Nat
deriving DecidableEq, Repr

/-- A raw transaction as the host presents it: format `BUS` (R130) or format `HOST` (R132). -/
inductive Request where
  | bus  (acc : BitVec 17) (d : Byte) (now : Nat)
  | host (sel : Byte) (args : HostArgs)
deriving DecidableEq, Repr

/-- The results of the decode of R135: the sixteen register accesses and the DMA page write. -/
inductive BusOp where
  | rdCtrl
  | rdMask
  | rdStatus
  | rdOamAddr
  | rdOamData
  | rdScroll
  | rdAddr
  | rdData
  | wrCtrl
  | wrMask
  | wrStatus
  | wrOamAddr
  | wrOamData
  | wrScroll
  | wrAddr
  | wrData
  | dmaTrigger
deriving DecidableEq, Repr

/-- Why a request is no operation: `notDecoded` for an access the core does not see (R135), `reservedSelector` for the
selectors `$00` and `$09–$FF` (R138). Both are safe: the core does nothing. -/
inductive DecodeError where
  | notDecoded
  | reservedSelector
deriving DecidableEq, Repr

/-- The read of register `R` (R135). -/
def busReadOp (r : BitVec 3) : BusOp :=
  match r.toNat with
  | 0 => .rdCtrl
  | 1 => .rdMask
  | 2 => .rdStatus
  | 3 => .rdOamAddr
  | 4 => .rdOamData
  | 5 => .rdScroll
  | 6 => .rdAddr
  | _ => .rdData

/-- The write of register `R` (R135). -/
def busWriteOp (r : BitVec 3) : BusOp :=
  match r.toNat with
  | 0 => .wrCtrl
  | 1 => .wrMask
  | 2 => .wrStatus
  | 3 => .wrOamAddr
  | 4 => .wrOamData
  | 5 => .wrScroll
  | 6 => .wrAddr
  | _ => .wrData

/-- The complete decode of a `BUS` access word (R135); `none` is `NOT_DECODED`. -/
def decodeBus (acc : BitVec 17) : Option BusOp :=
  let write := acc.getLsbD 16
  let addr := acc.extractLsb' 0 16
  if addr = 0x4014#16 then
    if write then some .dmaTrigger else none
  else if addr.extractLsb' 13 3 = 1#3 then
    let r := addr.extractLsb' 0 3
    some (if write then busWriteOp r else busReadOp r)
  else none

/-- The operation a decoded access is, with its data operand and its time. -/
def BusOp.instr (op : BusOp) (d : Byte) (now : Nat) : Instr :=
  match op with
  | .rdCtrl => .rdCtrl now
  | .rdMask => .rdMask now
  | .rdStatus => .rdStatus now
  | .rdOamAddr => .rdOamAddr now
  | .rdOamData => .rdOamData now
  | .rdScroll => .rdScroll now
  | .rdAddr => .rdAddr now
  | .rdData => .rdData now
  | .wrCtrl => .wrCtrl d now
  | .wrMask => .wrMask d now
  | .wrStatus => .wrStatus d now
  | .wrOamAddr => .wrOamAddr d now
  | .wrOamData => .wrOamData d now
  | .wrScroll => .wrScroll d now
  | .wrAddr => .wrAddr d now
  | .wrData => .wrData d now
  | .dmaTrigger => .dmaTrigger d now

/-- The host call a selector names (R132). -/
def decodeHost (sel : Byte) (a : HostArgs) : Option Instr :=
  match sel.toNat with
  | 0x01 => some (.sync a.now)
  | 0x02 => some (.predict a.horizon)
  | 0x03 => some (.reset a.now)
  | 0x04 => some (.powerOn a.now a.draw a.ntMap a.ptMap)
  | 0x05 => some (.remapNametables a.ntMap)
  | 0x06 => some (.remapPatterns a.view a.start a.pageSize a.source)
  | 0x07 => some .statusQuery
  | 0x08 => some .frameBuffer
  | _ => none

/-- The decoder: total on every request. -/
def decode (r : Request) : Except DecodeError Instr :=
  match r with
  | .bus acc d now =>
    match decodeBus acc with
    | some op => .ok (op.instr d now)
    | none => .error .notDecoded
  | .host sel args =>
    match decodeHost sel args with
    | some i => .ok i
    | none => .error .reservedSelector

/-- The empty power-on draw: every byte 0. -/
def PowerOnMemory.zero : PowerOnMemory := ⟨[], [], [], [], []⟩

/-- The operand tuple whose operands are all zero. -/
def HostArgs.zero : HostArgs where
  now := 0
  horizon := 0
  draw := .zero
  ntMap := Vector.replicate 4 0
  ptMap := ⟨Vector.replicate 8 0, Vector.replicate 8 0⟩
  view := .bg
  start := 0
  pageSize := 0
  source := 0

/-- The canonical access word of a bus operation: its lowest address (R40, R130, R131). -/
def BusOp.word : BusOp → BitVec 17
  | .rdCtrl => 0x02000#17
  | .rdMask => 0x02001#17
  | .rdStatus => 0x02002#17
  | .rdOamAddr => 0x02003#17
  | .rdOamData => 0x02004#17
  | .rdScroll => 0x02005#17
  | .rdAddr => 0x02006#17
  | .rdData => 0x02007#17
  | .wrCtrl => 0x12000#17
  | .wrMask => 0x12001#17
  | .wrStatus => 0x12002#17
  | .wrOamAddr => 0x12003#17
  | .wrOamData => 0x12004#17
  | .wrScroll => 0x12005#17
  | .wrAddr => 0x12006#17
  | .wrData => 0x12007#17
  | .dmaTrigger => 0x14014#17

/-- The encoder: the request that presents an operation (R130 to R132). A read carries no data operand; it is 0. -/
def encode : Instr → Request
  | .rdCtrl now => .bus BusOp.rdCtrl.word 0 now
  | .rdMask now => .bus BusOp.rdMask.word 0 now
  | .rdStatus now => .bus BusOp.rdStatus.word 0 now
  | .rdOamAddr now => .bus BusOp.rdOamAddr.word 0 now
  | .rdOamData now => .bus BusOp.rdOamData.word 0 now
  | .rdScroll now => .bus BusOp.rdScroll.word 0 now
  | .rdAddr now => .bus BusOp.rdAddr.word 0 now
  | .rdData now => .bus BusOp.rdData.word 0 now
  | .wrCtrl d now => .bus BusOp.wrCtrl.word d now
  | .wrMask d now => .bus BusOp.wrMask.word d now
  | .wrStatus d now => .bus BusOp.wrStatus.word d now
  | .wrOamAddr d now => .bus BusOp.wrOamAddr.word d now
  | .wrOamData d now => .bus BusOp.wrOamData.word d now
  | .wrScroll d now => .bus BusOp.wrScroll.word d now
  | .wrAddr d now => .bus BusOp.wrAddr.word d now
  | .wrData d now => .bus BusOp.wrData.word d now
  | .dmaTrigger d now => .bus BusOp.dmaTrigger.word d now
  | .sync now => .host 0x01#8 { HostArgs.zero with now := now }
  | .predict horizon => .host 0x02#8 { HostArgs.zero with horizon := horizon }
  | .reset now => .host 0x03#8 { HostArgs.zero with now := now }
  | .powerOn now draw ntMap ptMap =>
    .host 0x04#8 { HostArgs.zero with now := now, draw := draw, ntMap := ntMap, ptMap := ptMap }
  | .remapNametables map => .host 0x05#8 { HostArgs.zero with ntMap := map }
  | .remapPatterns view start pageSize source =>
    .host 0x06#8 { HostArgs.zero with view := view, start := start, pageSize := pageSize, source := source }
  | .statusQuery => .host 0x07#8 HostArgs.zero
  | .frameBuffer => .host 0x08#8 HostArgs.zero

/-- The request a table word stands for, with every operand zero: a row of at most 8 bits is a `HOST` selector, a wider
one a `BUS` access word (the table's format column). -/
def requestOfTableWord (nbits w : Nat) : Request :=
  if nbits ≤ 8 then .host (BitVec.ofNat 8 w) HostArgs.zero else .bus (BitVec.ofNat 17 w) 0 0

/-- The operation the decoder reads from a table word; `none` where the word is wider than its format or the decoder
rejects it. -/
def decodeTableWord (nbits w : Nat) : Option Instr :=
  if w < (if nbits ≤ 8 then 2 ^ 8 else 2 ^ 17) then
    match decode (requestOfTableWord nbits w) with
    | .ok i => some i
    | .error _ => none
  else none

end Sys2Proof
end

