-- ==== Sys2Proof/Machine/State.lean ====
section
/-! DEFINITION. The state of the core (spec/10_state.md), grouped as the spec groups it, its value right after reset,
and the reasons a step can stop. Plain data throughout. -/

namespace Sys2Proof.Machine

/-- `ClockState` and the driver fields (R31 to R33). `stepEnd` is the end time `ts` of the cycle step in progress, which
R161 makes the value of `cycleClock` during a replay. -/
structure Clock where
  lastSyncTimestamp : Nat
  remainder         : Nat
  syncDepth         : Nat
  remeasure         : Bool
  stepEnd           : Nat
deriving DecidableEq, Repr

/-- `ScanStatus` and the line budget (R35): the position of the next cycle to execute (R36). -/
structure Scan where
  scanline       : Int
  cycleInLine    : Nat
  lineCyclesLeft : Nat
  oddFrame       : Bool
deriving DecidableEq, Repr

/-- The port registers, the status flags and the address registers (R40 to R48). -/
structure Ports where
  ctrl           : Byte
  mask           : Byte
  vblank         : Bool
  sprite0Hit     : Bool
  spriteOverflow : Bool
  oamAddr        : Byte
  lastWritten    : Byte
  readBuffer     : Byte
  v              : Loopy
  t              : Loopy
  x              : BitVec 3
  w              : Bool
deriving DecidableEq, Repr

/-- An attribute byte with its shift amount, one of 0, 2, 4, 6 (R50, R255). -/
structure Attr where
  byte  : Byte
  shift : BitVec 3
deriving DecidableEq, Repr

/-- One entry of `bgLine` (R50): `pix = 0` is transparent. -/
structure BgPixel where
  pix : BitVec 2
  pal : BitVec 2
deriving DecidableEq, Repr

/-- The transparent background pixel (R50, R264). -/
def BgPixel.transparent : BgPixel := ⟨0, 0⟩

/-- The background pipeline registers (R50). `line` is `bgLine`, as the columns that are not transparent. `reloadCounter`
counts to 16 (R262). -/
structure Background where
  patLo         : BitVec 16
  patHi         : BitVec 16
  attrCur       : Attr
  attrNext      : Attr
  reloadCounter : Nat
  ntByte        : Byte
  atByte        : Byte
  atShift       : BitVec 3
  ptLo          : Byte
  ptHi          : Byte
  fineXLine     : BitVec 3
  line          : List (Nat × BgPixel)
deriving DecidableEq, Repr

/-- The evaluator's states (R52, R292). -/
inductive EvalState where
  | copyEntry
  | scan
  | overflow
  | done
deriving DecidableEq, Repr

/-- `SpriteEvaluation` (R52). `n` and `m` are the entry and byte parts of an OAM address; secondary OAM itself is
`State.sec`. -/
structure Evaluator where
  state       : EvalState
  subState    : Nat
  n           : BitVec 6
  m           : BitVec 2
  copiedCount : Nat
  writeLocked : Bool
  secIndex    : Vector (BitVec 6) 8
deriving DecidableEq, Repr

/-- One `SpriteRenderSlot` (R55). -/
structure Slot where
  originalIndex  : BitVec 6
  lowShift       : Byte
  highShift      : Byte
  attributeLatch : Byte
  xCounter       : Byte
  dead           : Bool
deriving DecidableEq, Repr

/-- The sprite fetch temporaries `sfY`, `sfTile`, `sfAttr`, `sfX`, `sfLo` (R57). -/
structure SpriteFetch where
  y    : Byte
  tile : Byte
  attr : Byte
  x    : Byte
  lo   : Byte
deriving DecidableEq, Repr

/-- The phase of the OAM DMA (R58). -/
inductive DmaPhase where
  | read
  | write
deriving DecidableEq, Repr

/-- `OAMDmaState` (R58). -/
structure Dma where
  timer        : Nat
  readAddress  : CpuAddr
  writeAddress : BitVec 9
  buffer       : Byte
  phase        : DmaPhase
deriving DecidableEq, Repr

/-- The prediction bookkeeping (R61, R62). `nmiRegistered` is a finite set, held as a strictly rising list. -/
structure Prediction where
  nmiRegistered    : List Nat
  predictedThrough : Nat
  pendingHorizon   : Nat
deriving DecidableEq, Repr

/-- The mapping configuration (R64): the bank of each name-table slot and the two views of the pattern map. -/
structure Maps where
  ntMap : NtMap
  ptMap : PtMap
deriving DecidableEq, Repr

/-- The interrupt kinds the callbacks name (R24). The core raises only `nmi` (R405, R408). -/
inductive IntKind where
  | nmi
  | irq
deriving DecidableEq, Repr

/-- The diagnostic kinds (R404). -/
inductive DiagKind where
  | configError
  | invariantViolation
  | reentrantSync
deriving DecidableEq, Repr

/-- The mapper hooks (R420). -/
inductive HookEvent where
  | scanlineStart (line : Int)
  | hblankStart   (line : Int)
  | prefetchStart (line : Int)
  | addr          (a : PpuAddr)
deriving DecidableEq, Repr

/-- The output events of the core: hook calls, callbacks to the host and diagnostics (R12, R23). -/
inductive Event where
  | hook           (h : HookEvent)
  | cpuRead        (a : CpuAddr)
  | setInterrupt   (kind : IntKind) (ts : Nat)
  | clearInterrupt (kind : IntKind)
  | cpuBurn        (cycles : Nat)
  | diag           (kind : DiagKind)
deriving DecidableEq, Repr

/-- The six phases of `statusQuery` (R136). -/
inductive Phase where
  | evaluating
  | rasterizing
  | horizontalBlank
  | forcedBlank
  | idling
  | verticalBlank
deriving DecidableEq, Repr

/-- What the last transaction returned to its caller: nothing, the byte of a bus read (R130), a phase (R180) or the pixel
buffer (R344). -/
inductive Result where
  | none
  | byte  (b : Byte)
  | phase (p : Phase)
  | frame (pixels : List Host.Cell)
deriving DecidableEq, Repr

/-- A call back into the core that a hook or a callback may make (R23, R167, R382, R420, R441). -/
inductive HookCall where
  | bus             (acc : BitVec 17) (d : Byte) (now : Nat)
  | sync            (now : Nat)
  | predict         (horizon : Nat)
  | reset           (now : Nat)
  | remapNametables (map : NtMap)
  | remapPatterns   (view : RemapView) (start pageSize source : Nat)
deriving DecidableEq, Repr

/-- The host's answer to one `cpuRead`: the calls it makes back into the core first, and the byte. -/
structure CpuAnswer where
  calls : List HookCall
  byte  : Byte
deriving DecidableEq, Repr

/-- The state of the core. The first group is the spec's state; `pending` to `result` are the model's own fields: the
transactions the host has presented (oldest first), its answers to hooks, to the callbacks that return nothing
(`noticeScript`), to `cpuRead` and to `hostNow`, in call order (inputs, R163, U9, U10), the counter of free values, the
host-visible trace (newest first, R12) and the last result. -/
structure State where
  cfg          : Config
  clock        : Clock
  scan         : Scan
  ports        : Ports
  bg           : Background
  eval         : Evaluator
  slots        : Vector Slot 8
  fetch        : SpriteFetch
  dma          : Dma
  pred         : Prediction
  maps         : Maps
  nt           : List Host.Cell
  chr          : List Host.Cell
  pal          : List Host.Cell
  oam          : List Host.Cell
  sec          : List Host.Cell
  frame        : List Host.Cell
  pending      : List Request
  hookScript   : List (List HookCall)
  noticeScript : List (List HookCall)
  cpuScript    : List CpuAnswer
  hostNows     : List Nat
  drawCount    : Nat
  trace        : List Event
  result       : Result
deriving DecidableEq, Repr

/-- No operation of the core stops with a fault (R400), so the type has no constructor. -/
inductive Fault where
deriving DecidableEq, Repr

/-- Why a step refuses. `notModelled` is raised by `exec` for an instruction without a meaning; no arm raises it. Safe:
nothing is claimed of such an instruction. -/
inductive Refusal where
  | notModelled (mnemonic : String)
deriving DecidableEq, Repr

/-- The reset value of the scan status (R38). -/
def Scan.reset : Scan := ⟨-1, 1, 341, false⟩

/-- The reset values of the port registers (R41 to R47). -/
def Ports.reset : Ports where
  ctrl := 0
  mask := 0
  vblank := false
  sprite0Hit := false
  spriteOverflow := false
  oamAddr := 0
  lastWritten := 0
  readBuffer := 0
  v := 0
  t := 0
  x := 0
  w := false

/-- The reset values of the background pipeline: all 0, `bgLine` transparent (R50, R442). -/
def Background.reset : Background where
  patLo := 0
  patHi := 0
  attrCur := ⟨0, 0⟩
  attrNext := ⟨0, 0⟩
  reloadCounter := 0
  ntByte := 0
  atByte := 0
  atShift := 0
  ptLo := 0
  ptHi := 0
  fineXLine := 0
  line := []

/-- The reset values of the evaluator (R52). -/
def Evaluator.reset : Evaluator where
  state := .done
  subState := 0
  n := 0
  m := 0
  copiedCount := 0
  writeLocked := false
  secIndex := Vector.replicate 8 0

/-- The reset value of a render slot: dead, every other field 0 (R55). -/
def Slot.reset : Slot := ⟨0, 0, 0, 0, 0, true⟩

/-- The reset values of the sprite fetch temporaries (R57). -/
def SpriteFetch.reset : SpriteFetch := ⟨0, 0, 0, 0, 0⟩

/-- The reset value of the DMA state: idle (R58). -/
def Dma.reset : Dma := ⟨0, 0, 0, 0, .read⟩

/-- The reset value of the prediction bookkeeping, with `lastSyncTimestamp = now` (R61, R62). -/
def Prediction.reset (now : Nat) : Prediction := ⟨[], now, 0⟩

/-- The mapping at reset: DESIGN CHOICE (log entry 2), the horizontal mirroring of R96 and the first 8 KiB of `CHR` in
both views. -/
def Maps.reset : Maps :=
  ⟨#v[0, 0, 1, 1],
    ⟨#v[0, 1024, 2048, 3072, 4096, 5120, 6144, 7168], #v[0, 1024, 2048, 3072, 4096, 5120, 6144, 7168]⟩⟩

/-- The machine right after reset at host time 0: the values of R442, no transaction pending, and no memory byte listed
(what an unlisted byte reads as is `Space.unlisted`). -/
def State.reset : State where
  cfg := Config.common
  clock := ⟨0, 0, 0, false, 0⟩
  scan := Scan.reset
  ports := Ports.reset
  bg := Background.reset
  eval := Evaluator.reset
  slots := Vector.replicate 8 Slot.reset
  fetch := SpriteFetch.reset
  dma := Dma.reset
  pred := Prediction.reset 0
  maps := Maps.reset
  nt := []
  chr := []
  pal := []
  oam := []
  sec := []
  frame := []
  pending := []
  hookScript := []
  noticeScript := []
  cpuScript := []
  hostNows := []
  drawCount := 0
  trace := []
  result := .none

end Sys2Proof.Machine
end

