-- ==== Sys2Proof/Machine/Operands.lean ====
section
/-! DEFINITION. The operand forms: the fields of the loopy registers and how port writes assemble them
(spec/41_register_ports.md), the address forms of the fetches (spec/42_background.md, spec/44_sprite_render.md), the
updates of `v`, and the palette index. -/

namespace Sys2Proof.Machine

/-- `v = {fineY:3, ntSel:2, coarseY:5, coarseX:5}` (R48). -/
def loopy (fineY : BitVec 3) (ntSel : BitVec 2) (coarseY coarseX : BitVec 5) : Loopy :=
  fineY ++ ntSel ++ coarseY ++ coarseX

/-- Bits 14:12 (R48). -/
def fineY (v : Loopy) : BitVec 3 := v.extractLsb' 12 3

/-- Bits 11:10 (R48). -/
def ntSel (v : Loopy) : BitVec 2 := v.extractLsb' 10 2

/-- Bits 9:5 (R48). -/
def coarseY (v : Loopy) : BitVec 5 := v.extractLsb' 5 5

/-- Bits 4:0 (R48). -/
def coarseX (v : Loopy) : BitVec 5 := v.extractLsb' 0 5

/-- Bits 13:0 of `v`: the PPU address (R48). -/
def ppuAddr (v : Loopy) : PpuAddr := v.extractLsb' 0 14

/-- `t[11:10] <- d[1:0]` (R205). -/
def withNtSel (t : Loopy) (d : Byte) : Loopy := loopy (fineY t) (d.extractLsb' 0 2) (coarseY t) (coarseX t)

/-- `t[4:0] <- d[7:3]` (R206). -/
def withCoarseX (t : Loopy) (d : Byte) : Loopy := loopy (fineY t) (ntSel t) (coarseY t) (d.extractLsb' 3 5)

/-- `t[14:12] <- d[2:0]; t[9:5] <- d[7:3]` (R207). -/
def withY (t : Loopy) (d : Byte) : Loopy := loopy (d.extractLsb' 0 3) (ntSel t) (d.extractLsb' 3 5) (coarseX t)

/-- `t[13:8] <- d[5:0]; t[14] <- 0` (R208). -/
def withHighByte (t : Loopy) (d : Byte) : Loopy := 0#1 ++ d.extractLsb' 0 6 ++ t.extractLsb' 0 8

/-- `t[7:0] <- d` (R209). -/
def withLowByte (t : Loopy) (d : Byte) : Loopy := t.extractLsb' 8 7 ++ d

/-- `coarseXInc()` (R259). -/
def coarseXInc (v : Loopy) : Loopy :=
  if coarseX v = 31#5 then loopy (fineY v) (ntSel v ^^^ 1#2) (coarseY v) 0#5
  else loopy (fineY v) (ntSel v) (coarseY v) (coarseX v + 1#5)

/-- `yInc()` (R259). -/
def yInc (v : Loopy) : Loopy :=
  if (fineY v).toNat < 7 then loopy (fineY v + 1#3) (ntSel v) (coarseY v) (coarseX v)
  else if coarseY v = 29#5 then loopy 0#3 (ntSel v ^^^ 2#2) 0#5 (coarseX v)
  else if coarseY v = 31#5 then loopy 0#3 (ntSel v) 0#5 (coarseX v)
  else loopy 0#3 (ntSel v) (coarseY v + 1#5) (coarseX v)

/-- `copyHori()`: `v[10] <- t[10]; v[4:0] <- t[4:0]` (R259). -/
def copyHori (t v : Loopy) : Loopy :=
  loopy (fineY v) ((ntSel v).extractLsb' 1 1 ++ (ntSel t).extractLsb' 0 1) (coarseY v) (coarseX t)

/-- `copyVert()`: `v[14:11] <- t[14:11]; v[9:5] <- t[9:5]` (R259). -/
def copyVert (t v : Loopy) : Loopy :=
  loopy (fineY t) ((ntSel t).extractLsb' 1 1 ++ (ntSel v).extractLsb' 0 1) (coarseY t) (coarseX v)

/-- Name-table fetch address (R253). -/
def ntAddr (v : Loopy) : PpuAddr := 0x2000#14 ||| (v.extractLsb' 0 12).setWidth 14

/-- Attribute fetch address (R254). -/
def atAddr (v : Loopy) : PpuAddr :=
  (0x23C0#15 ||| (v &&& 0x0C00#15) ||| ((v >>> 4) &&& 0x38#15) ||| ((v >>> 2) &&& 0x07#15)).setWidth 14

/-- Attribute shift amount: 4·`coarseY[1]` + 2·`coarseX[1]` (R255). -/
def atShiftOf (v : Loopy) : BitVec 3 := (((v >>> 4) &&& 4#15) ||| (v &&& 2#15)).setWidth 3

/-- The palette selector of an attribute byte at a shift amount (R50, R255). -/
def paletteOf (a : Attr) : BitVec 2 := (a.byte >>> a.shift.toNat).extractLsb' 0 2

/-- `ctrl.NMIE`, bit 7 (R41). -/
def Ports.nmie (p : Ports) : Bool := p.ctrl.getLsbD 7

/-- `ctrl.H16`, bit 5 (R41). -/
def Ports.h16 (p : Ports) : Bool := p.ctrl.getLsbD 5

/-- `ctrl.BPT`, bit 4 (R41). -/
def Ports.bpt (p : Ports) : Bool := p.ctrl.getLsbD 4

/-- `ctrl.SPT`, bit 3 (R41). -/
def Ports.spt (p : Ports) : Bool := p.ctrl.getLsbD 3

/-- `ctrl.INC32`, bit 2 (R41). -/
def Ports.inc32 (p : Ports) : Bool := p.ctrl.getLsbD 2

/-- `mask.GREY`, bit 0 (R42). -/
def Ports.grey (p : Ports) : Bool := p.mask.getLsbD 0

/-- `mask.BGL`, bit 1 (R42). -/
def Ports.bgl (p : Ports) : Bool := p.mask.getLsbD 1

/-- `mask.SPL`, bit 2 (R42). -/
def Ports.spl (p : Ports) : Bool := p.mask.getLsbD 2

/-- `mask.BG`, bit 3 (R42). -/
def Ports.showBg (p : Ports) : Bool := p.mask.getLsbD 3

/-- `mask.SPR`, bit 4 (R42). -/
def Ports.showSpr (p : Ports) : Bool := p.mask.getLsbD 4

/-- `renderingEnabled` (R42). -/
def Ports.renderingEnabled (p : Ports) : Bool := p.showBg || p.showSpr

/-- The base of a 4 KiB pattern table (R41). -/
def patternBase (second : Bool) : PpuAddr := if second then 0x1000#14 else 0x0000#14

/-- Background pattern address (R256); `plane` is 0 for the low byte and 8 for the high byte. -/
def ptAddr (p : Ports) (ntByte : Byte) (plane : PpuAddr) : PpuAddr :=
  patternBase p.bpt + 16#14 * ntByte.setWidth 14 + plane + (fineY p.v).setWidth 14

/-- The sprite height (R41, R294). -/
def spriteHeight (p : Ports) : Nat := if p.h16 then 16 else 8

/-- `inRange(L, y, h)`: `0 ≤ L − y < h` in signed integers (R295). -/
def inRange (line : Int) (y : Byte) (h : Nat) : Bool := decide (0 ≤ line - y.toNat) && decide (line - y.toNat < h)

/-- The row a sprite's fetch reads: `(L − sfY) & (h − 1)`, mirrored by the vertical flip bit (R333). -/
def spriteRow (line : Int) (f : SpriteFetch) (h : Nat) : Nat :=
  let row := ((line - f.y.toNat) % h).toNat
  if f.attr.getLsbD 7 then (h - 1) - row else row

/-- `sprAddr(L, i, plane)` (R333); `valid` says that the slot is below `copiedCount`. -/
def sprAddr (p : Ports) (line : Int) (f : SpriteFetch) (valid : Bool) (plane : PpuAddr) : PpuAddr :=
  let h := spriteHeight p
  let tile := if valid then f.tile else 0xFF#8
  let row := if valid then spriteRow line f h else 0
  if h = 8 then patternBase p.spt + 16#14 * tile.setWidth 14 + BitVec.ofNat 14 row + plane
  else
    let idx := if row ≥ 8 then (tile &&& 0xFE#8) + 1#8 else tile &&& 0xFE#8
    let row8 := if row ≥ 8 then row - 8 else row
    patternBase (tile.getLsbD 0) + 16#14 * idx.setWidth 14 + BitVec.ofNat 14 row8 + plane

/-- `palIndex(a)` (R100): 32 entries, with `$10/$14/$18/$1C` the same bytes as `$00/$04/$08/$0C`. -/
def palIndex (a : PpuAddr) : BitVec 5 :=
  let i := a.extractLsb' 0 5
  if i &&& 0x13#5 = 0x10#5 then i &&& 0x0F#5 else i

/-- The byte of `CHR` a pattern address reads through a view's pages (R97). -/
def chrIndex (pages : PtPages) (a : PpuAddr) : Nat :=
  pages[(a.extractLsb' 10 3).toNat]?.getD 0 + (a.extractLsb' 0 10).toNat

/-- The bank of the name-table slot an address falls in (R95, R96). -/
def ntBank (map : NtMap) (a : PpuAddr) : Nat := map[(a.extractLsb' 10 2).toNat]?.getD 0

/-- The index of a name-table byte: `NTMEM[ntMap[s]][a & $3FF]` (R95). -/
def ntIndex (map : NtMap) (a : PpuAddr) : Nat := ntBank map a * 1024 + (a.extractLsb' 0 10).toNat

/-- The CPU address of a bus access word (R130). -/
def inRegisterWindow (a : CpuAddr) : Bool := decide (a.extractLsb' 13 3 = 1#3)

end Sys2Proof.Machine
end

