-- ==== Sys2Proof/Machine/Flags.lean ====
section
/-! DEFINITION. The status flags of PPUSTATUS (spec/10_state.md R43) and everything that computes, sets or clears one. -/

namespace Sys2Proof.Machine

/-- The PPUSTATUS value with bit 7 given: flags in bits 6 and 5, the shadow in bits 4:0 (R211). -/
def statusByte (p : Ports) (bit7 : Bool) : Byte :=
  BitVec.ofBool bit7 ++ BitVec.ofBool p.sprite0Hit ++ BitVec.ofBool p.spriteOverflow ++ p.lastWritten.extractLsb' 0 5

/-- Entering vertical blank sets `vblank` (R175). -/
def Ports.enterVBlank (p : Ports) : Ports := { p with vblank := true }

/-- The frame start clears the three per-frame flags (R176). -/
def Ports.startFrame (p : Ports) : Ports := { p with vblank := false, sprite0Hit := false, spriteOverflow := false }

/-- A status read clears `vblank` and the write toggle (R210). -/
def Ports.statusRead (p : Ports) : Ports := { p with vblank := false, w := false }

/-- The evaluator's overflow flag (R297). -/
def Ports.setOverflow (p : Ports) : Ports := { p with spriteOverflow := true }

/-- Sprite-0 hit (R341): a winner copied from OAM entry 0 over a background pixel that is not transparent. -/
def sprite0Hits (winnerIndex : Option (BitVec 6)) (bg : BgPixel) : Bool :=
  match winnerIndex with
  | some i => decide (i = 0#6) && decide (bg.pix ≠ 0#2)
  | none => false

/-- `spriteZeroCheck` (R341): the flag is set by a hit and otherwise kept. -/
def Ports.spriteZeroCheck (p : Ports) (winnerIndex : Option (BitVec 6)) (bg : BgPixel) : Ports :=
  { p with sprite0Hit := p.sprite0Hit || sprite0Hits winnerIndex bg }

end Sys2Proof.Machine
end

