-- ==== Sys2Proof/Machine/Ops.lean ====
section
/-! DEFINITION. The named operations over memory, the trace and the interrupt callbacks: the cell lists that hold every
memory, the PPU address map (spec/20_memory.md R95), OAM writes (R102), and signalling the NMI
(spec/60_exceptions.md R405), which is all the core has in the place of taking an exception (R412). -/

namespace Sys2Proof.Machine

/-- Reading a cell list: the listed value, else what an unlisted address reads as. -/
def cellsRead {α : Type} (unlisted : α) : List (Nat × α) → Nat → α
  | [], _ => unlisted
  | (k, b) :: rest, a => if k = a then b else cellsRead unlisted rest a

/-- Removing an address from a cell list. -/
def cellsErase {α : Type} (m : List (Nat × α)) (a : Nat) : List (Nat × α) := m.filter fun c => decide (c.1 ≠ a)

/-- Listing a value at an address, in rising order. -/
def cellsInsert {α : Type} : List (Nat × α) → Nat → α → List (Nat × α)
  | [], a, b => [(a, b)]
  | (k, c) :: rest, a, b =>
    if a < k then (a, b) :: (k, c) :: rest
    else if a = k then (a, b) :: rest
    else (k, c) :: cellsInsert rest a b

/-- Writing a cell list in canonical form: a write of the unlisted value removes the entry. -/
def cellsWrite {α : Type} [DecidableEq α] (unlisted : α) (m : List (Nat × α)) (a : Nat) (b : α) : List (Nat × α) :=
  if b = unlisted then cellsErase m a else cellsInsert m a b

/-- The core's byte memories (R92, R52, R63). -/
inductive Space where
  | nt
  | chr
  | pal
  | oam
  | sec
  | frame
deriving DecidableEq, Repr

/-- What an unlisted address reads as: `$FF` in secondary OAM, its reset value (R52), and 0 elsewhere, the draw R443
allows. DESIGN CHOICE, unsafe (log entry 5). -/
def Space.unlisted : Space → Byte
  | .nt => 0x00#8
  | .chr => 0x00#8
  | .pal => 0x00#8
  | .oam => 0x00#8
  | .sec => 0xFF#8
  | .frame => 0x00#8

/-- The memory an address exists in: palette 32, OAM 256, secondary OAM 32, frame 240·256 (R9); the banks of the name
tables and of `CHR` are the cartridge's (R92). -/
def Space.holds : Space → Nat → Bool
  | .nt, _ => true
  | .chr, _ => true
  | .pal, a => decide (a < 32)
  | .oam, a => decide (a < 256)
  | .sec, a => decide (a < 32)
  | .frame, a => decide (a < 240 * 256)

/-- The bits an address of a memory stores: palette bytes hold 6 bits (R101), bits 4:2 of an OAM attribute byte do not
exist (R56, R102). -/
def Space.stored : Space → Nat → Byte → Byte
  | .nt, _, b => b
  | .chr, _, b => b
  | .pal, _, b => b &&& 0x3F#8
  | .oam, a, b => if a % 4 = 2 then b &&& 0xE3#8 else b
  | .sec, _, b => b
  | .frame, _, b => b

/-- Reading a byte of a memory. -/
def readCell (sp : Space) (m : List Host.Cell) (a : Nat) : Byte := cellsRead sp.unlisted m a

/-- Writing a byte of a memory. -/
def writeCell (sp : Space) (m : List Host.Cell) (a : Nat) (b : Byte) : List Host.Cell := cellsWrite sp.unlisted m a b

/-- The canonical form of a cell list: addresses strictly rising, no entry equal to the unlisted value. -/
abbrev CellsWf {α : Type} (unlisted : α) (m : List (Nat × α)) : Prop :=
  m.Pairwise (fun c d => c.1 < d.1) ∧ ∀ c ∈ m, c.2 ≠ unlisted

/-- The canonical form of a memory: a canonical cell list of addresses that exist, holding only bits that exist. -/
abbrev Memory.wf (sp : Space) (m : List Host.Cell) : Prop :=
  CellsWf sp.unlisted m ∧ ∀ c ∈ m, sp.holds c.1 = true ∧ sp.stored c.1 c.2 = c.2

/-- Loading a power-on draw into a memory on top of `base` (R440): pairs at addresses that do not exist are dropped, bits
that do not exist are cleared (log entry 7). -/
def loadCells (sp : Space) (base draw : List Host.Cell) : List Host.Cell :=
  draw.foldl (fun m c => if sp.holds c.1 then writeCell sp m c.1 (sp.stored c.1 c.2) else m) base

/-- `OAM[i]` (R12). -/
def oamByte (s : State) (i : Byte) : Byte := readCell .oam s.oam i.toNat

/-- `SEC[i]` (R12). -/
def secByte (s : State) (i : BitVec 5) : Byte := readCell .sec s.sec i.toNat

/-- `SEC[i] <- b` (R12). -/
def setSec (i : BitVec 5) (b : Byte) (s : State) : State := { s with sec := writeCell .sec s.sec i.toNat b }

/-- `PAL[palIndex(a)]` (R95, R100). -/
def palByte (s : State) (a : PpuAddr) : Byte := readCell .pal s.pal (palIndex a).toNat

/-- The two views of the pattern map (R97). -/
inductive PatternView where
  | bg
  | spr
deriving DecidableEq, Repr

/-- The pages of a view (R97). -/
def viewPages (m : PtMap) : PatternView → PtPages
  | .bg => m.bg
  | .spr => m.spr

/-- `VRead(a)` through a pattern view (R95). -/
def vRead (view : PatternView) (s : State) (a : PpuAddr) : Byte :=
  if a < 0x2000#14 then readCell .chr s.chr (chrIndex (viewPages s.maps.ptMap view) a)
  else if a < 0x3F00#14 then readCell .nt s.nt (ntIndex s.maps.ntMap a)
  else palByte s a

/-- `VWrite(a, d)`, through the background view (R95); a write to ROM is ignored (R112). -/
def vWrite (a : PpuAddr) (d : Byte) (s : State) : State :=
  if a < 0x2000#14 then
    let k := chrIndex s.maps.ptMap.bg a
    if s.cfg.chrByteWritable k then { s with chr := writeCell .chr s.chr k d } else s
  else if a < 0x3F00#14 then
    if s.cfg.ntBankWritable (ntBank s.maps.ntMap a) then
      { s with nt := writeCell .nt s.nt (ntIndex s.maps.ntMap a) d }
    else s
  else { s with pal := writeCell .pal s.pal (palIndex a).toNat (d &&& 0x3F#8) }

/-- What `OAMWrite` stores at an OAM address: bits 4:2 of a byte 2 are not stored (R102). -/
def oamStored (i d : Byte) : Byte := if i &&& 3#8 = 2#8 then d &&& 0xE3#8 else d

/-- `OAMWrite(d)` (R102): store at the cursor, advance it modulo 256. -/
def oamWrite (d : Byte) (s : State) : State :=
  let i := s.ports.oamAddr
  { s with oam := writeCell .oam s.oam i.toNat (oamStored i d), ports := { s.ports with oamAddr := i + 1#8 } }

/-- Recording an output event in the host-visible trace (R12). -/
def emit (e : Event) (s : State) : State := { s with trace := e :: s.trace }

/-- `diag(kind)`: an output event with no effect on the core's state (R12, R404). -/
def diag (k : DiagKind) (s : State) : State := emit (.diag k) s

/-- The codes of the diagnostic kinds (R404). -/
def DiagKind.code : DiagKind → Nat
  | .configError => 1
  | .invariantViolation => 2
  | .reentrantSync => 3

/-- The codes of the phases (R136). -/
def Phase.code : Phase → Nat
  | .evaluating => 0
  | .rasterizing => 1
  | .horizontalBlank => 2
  | .forcedBlank => 3
  | .idling => 4
  | .verticalBlank => 5

/-- The trace in call order. -/
def State.events (s : State) : List Event := s.trace.reverse

/-- A transaction that returns nothing. -/
def noResult (s : State) : State := { s with result := .none }

/-- A bus read returns a byte (R130). -/
def returnByte (b : Byte) (s : State) : State := { s with result := .byte b }

/-- `cycleClock` (R161): the end of the last executed cycle between calls, the end of the step in progress during a replay. -/
def cycleClock (s : State) : Nat :=
  if s.clock.syncDepth > 0 then s.clock.stepEnd else s.clock.lastSyncTimestamp - s.clock.remainder

/-- Calling one of the callbacks that return nothing, `cpuSetInterrupt`, `cpuClearInterrupt` or `cpuBurn` (R23): the event,
and the state it leaves, which calls back into the core may have changed (R167). -/
abbrev Notify := Event → State → State

/-- Signalling one NMI edge to the host's interrupt queue between replays, where the callback makes no call (log entry 26).
The NMI is the only interrupt the core raises (R405); taking it is the CPU's (R412). -/
def signalNmi (ts : Nat) (s : State) : State := emit (.setInterrupt .nmi ts) s

/-- Withdrawing the pending NMI registrations between replays (R407). -/
def withdrawNmi (s : State) : State := emit (.clearInterrupt .nmi) s

/-- `nmiEdgeNow()` (R406). -/
def nmiEdgeNow (notify : Notify) (s : State) : State := notify (.setInterrupt .nmi (cycleClock s)) s

/-- `ts ∈ nmiRegistered` (R385). -/
def nmiIsRegistered (s : State) (ts : Nat) : Bool := decide (ts ∈ s.pred.nmiRegistered)

/-- `nmiRegistered <- nmiRegistered \ {ts}` (R385). -/
def unregisterNmi (ts : Nat) (s : State) : State :=
  { s with pred := { s.pred with nmiRegistered := s.pred.nmiRegistered.filter (fun u => decide (u ≠ ts)) } }

/-- A new element of a strictly rising list. -/
def insertRising (ts : Nat) : List Nat → List Nat
  | [] => [ts]
  | u :: rest => if ts < u then ts :: u :: rest else if ts = u then u :: rest else u :: insertRising ts rest

/-- `nmiRegistered <- nmiRegistered ∪ {ts}` (R380). -/
def registerNmi (ts : Nat) (s : State) : State :=
  { s with pred := { s.pred with nmiRegistered := insertRising ts s.pred.nmiRegistered } }

/-- `realNmiEdge(ts)` (R385): the edge of a real step, registered with the host unless a forecast did. -/
def realNmiEdge (notify : Notify) (ts : Nat) (s : State) : State :=
  if nmiIsRegistered s ts then unregisterNmi ts s else notify (.setInterrupt .nmi ts) s

/-- `hostNow()` (R185): the host's next answer, a free value when the script in the state has none. -/
def hostNow (s : State) : State × Nat :=
  match s.hostNows with
  | [] => ({ s with drawCount := s.drawCount + 1 }, Config.freeHostNow s.drawCount)
  | t :: rest => ({ s with hostNows := rest }, t)

end Sys2Proof.Machine
end

