-- ==== Sys2Proof/Machine/Predictor.lean ====
section
/-! DEFINITION. The Interrupt Predictor (spec/46_predictor.md): a forecast-only replica of the scan state machine. -/

namespace Sys2Proof.Machine

/-- The line after `line` (R174): the last line, and any line out of range (R179), is followed by line −1. -/
def nextLine (c : Config) (line : Int) : Int :=
  if line = c.lastLine ∨ line < -1 ∨ c.lastLine < line then -1 else line + 1

/-- The replica (R380, R383): exactly the state that decides when an NMI edge happens. -/
structure Replica where
  line : Int
  c    : Nat
  left : Nat
  odd  : Bool
  bg   : Bool
  nmie : Bool
deriving DecidableEq, Repr

/-- The replica of a state (R380). -/
def replicaOf (s : State) : Replica where
  line := s.scan.scanline
  c := s.scan.cycleInLine
  left := s.scan.lineCyclesLeft
  odd := s.scan.oddFrame
  bg := s.ports.showBg
  nmie := s.ports.nmie

/-- The replica's line after `line` (R380). -/
def replicaNextLine (c : Config) (line : Int) : Int := if line = c.lastLine then -1 else line + 1

/-- The replica's cycle ends its line (R172, R174). -/
def Replica.endsLine (r : Replica) : Bool :=
  decide ((if r.line = -1 ∧ r.c = 340 ∧ r.odd = true ∧ r.bg = true then 1 else r.left) - 1 = 0)

/-- The replica's cycle enters line 241 with the NMI enabled (R380). -/
def Replica.edge (cfg : Config) (r : Replica) : Bool :=
  r.endsLine && decide (replicaNextLine cfg r.line = 241) && r.nmie

/-- One cycle of the replica (R380). -/
def Replica.cycle (cfg : Config) (r : Replica) : Replica :=
  if r.endsLine then
    { r with
      line := replicaNextLine cfg r.line
      odd := if replicaNextLine cfg r.line = -1 then !r.odd else r.odd
      c := 1
      left := Config.cyclesPerLine }
  else { r with c := r.c + 1, left := r.left - 1 }

/-- The edges the replica finds in the next `n` cycles, in order; `ts` is the end time of the first of them (R380, R381). -/
def forecastEdges (cfg : Config) : Nat → Nat → Replica → List Nat
  | 0, _, _ => []
  | n + 1, ts, r =>
    let rest := forecastEdges cfg n (ts + cfg.clockDivider) (r.cycle cfg)
    if r.edge cfg then ts :: rest else rest

/-- `forecastNmi(ts)` (R380): each edge is registered once. -/
def forecastNmi (s : State) (ts : Nat) : State :=
  if nmiIsRegistered s ts then s else signalNmi ts (registerNmi ts s)

/-- The forecast itself (R380), at a cycle boundary. The end time of the first cycle is `origin + CLOCK_DIVIDER` with
`origin = lastSyncTimestamp − remainder`. -/
def runForecast (horizon : Nat) (s : State) : State :=
  let h := horizon + s.cfg.predictMargin
  let n := (s.clock.remainder + h) / s.cfg.clockDivider
  let first := s.clock.lastSyncTimestamp + s.cfg.clockDivider - s.clock.remainder
  let found := (forecastEdges s.cfg n first (replicaOf s)).foldl forecastNmi s
  { found with
    pred := { found.pred with predictedThrough := max s.pred.predictedThrough (s.clock.lastSyncTimestamp + h) } }

/-- A forecast requested inside a replay is deferred to its end (R382). -/
def deferForecast (horizon : Nat) (s : State) : State :=
  { s with pred := { s.pred with pendingHorizon := max s.pred.pendingHorizon horizon } }

/-- `predict(horizon)` (R380). -/
def predict (horizon : Nat) (s : State) : State :=
  if horizon = 0 then diag .invariantViolation s
  else if s.clock.syncDepth > 0 then deferForecast horizon s
  else runForecast horizon s

/-- `nmiRegistered <- {}; predictedThrough <- lastSyncTimestamp` (R386). -/
def forgetForecast (s : State) : State :=
  { s with pred := { s.pred with nmiRegistered := [], predictedThrough := s.clock.lastSyncTimestamp } }

/-- `invalidateNmi()` (R386). -/
def invalidateNmi (notify : Notify) (s : State) : State :=
  predict s.cfg.repredictHorizon (forgetForecast (notify (.clearInterrupt .nmi) s))

end Sys2Proof.Machine
end

