-- ==== Sys2Proof/Machine/SpriteEval.lean ====
section
/-! DEFINITION. The Sprite Evaluator (spec/43_sprite_eval.md), which builds secondary OAM for the next line, with the
overflow-flag defect. -/

namespace Sys2Proof.Machine

/-- `OAM[4n + m]` (R294, R297): the address is the entry number above the byte number. -/
def evalByte (s : State) (m : BitVec 2) : Byte := oamByte s (s.eval.n ++ m)

/-- The index `4·copiedCount + m` of secondary OAM (R294). -/
def secIndexOf (copied : Nat) (m : BitVec 2) : BitVec 5 := BitVec.ofNat 5 (4 * copied + m.toNat)

/-- `evalReset()` (R293). -/
def evalReset (e : Evaluator) : Evaluator :=
  { e with state := .copyEntry, n := 0, m := 0, subState := 0, copiedCount := 0, writeLocked := false }

/-- `nextN()` (R294). -/
def nextN (e : Evaluator) : Evaluator :=
  if e.n = 63#6 then { e with n := 0, state := .done }
  else { e with n := e.n + 1#6, state := if e.writeLocked then .overflow else e.state }

/-- `advanceNorDone()` (R297). -/
def advanceNorDone (e : Evaluator) : Evaluator :=
  if e.n = 63#6 then { e with n := 0, state := .done } else { e with n := e.n + 1#6 }

/-- `m <- (m + 1) mod 4; if m = 0: advanceNorDone()` (R297, R298). -/
def stepByte (e : Evaluator) : Evaluator :=
  let e := { e with m := e.m + 1#2 }
  if e.m = 0#2 then advanceNorDone e else e

/-- The evaluator after a matched Y byte: the entry's index is recorded and byte 1 is next (R294). -/
def matchEntry (e : Evaluator) : Evaluator :=
  { e with secIndex := e.secIndex.setIfInBounds e.copiedCount e.n, m := 1#2 }

/-- The evaluator after the last byte of an entry (R294). -/
def finishEntry (e : Evaluator) : Evaluator :=
  let copied := e.copiedCount + 1
  nextN { e with m := 0, copiedCount := copied, writeLocked := if copied = 8 then true else e.writeLocked }

/-- The evaluator after a copied byte (R294). -/
def copyByte (e : Evaluator) : Evaluator := if e.m.toNat < 3 then { e with m := e.m + 1#2 } else finishEntry e

/-- One step in `CopyEntry` (R294). -/
def copyEntryStep (line : Int) (s : State) : State :=
  if s.eval.m = 0#2 then
    let y := evalByte s 0#2
    if inRange line y (spriteHeight s.ports) then
      setSec (secIndexOf s.eval.copiedCount 0#2) y { s with eval := matchEntry s.eval }
    else { s with eval := nextN s.eval }
  else
    setSec (secIndexOf s.eval.copiedCount s.eval.m) (evalByte s s.eval.m) { s with eval := copyByte s.eval }

/-- `overflowStep(L, h)` (R297): the hardware defect, `m` stepping with `n`. -/
def overflowStep (line : Int) (s : State) : State :=
  if inRange line (evalByte s s.eval.m) (spriteHeight s.ports) then
    { s with
      ports := s.ports.setOverflow
      eval := stepByte { s.eval with state := .scan, subState := 1 } }
  else { s with eval := advanceNorDone { s.eval with m := s.eval.m + 1#2 } }

/-- `scanStep()` (R298). -/
def scanStep (e : Evaluator) : Evaluator :=
  if 1 ≤ e.subState ∧ e.subState ≤ 3 then
    let e := stepByte { e with subState := e.subState + 1 }
    if e.subState = 4 then { e with subState := 0, m := 0 } else e
  else advanceNorDone e

/-- `evalStep(L)` (R294). -/
def evalStep (line : Int) (s : State) : State :=
  match s.eval.state with
  | .copyEntry => copyEntryStep line s
  | .overflow => overflowStep line s
  | .scan => { s with eval := scanStep s.eval }
  | .done => s

/-- `spriteEvalCycle(L, c)` (R290, R291). -/
def spriteEvalCycle (line : Int) (c : Nat) (s : State) : State :=
  if 1 ≤ c ∧ c ≤ 64 ∧ c % 2 = 0 then setSec (BitVec.ofNat 5 (c / 2 - 1)) 0xFF#8 s
  else if c = 65 then { s with eval := evalReset s.eval }
  else if 66 ≤ c ∧ c ≤ 256 ∧ c % 2 = 0 then evalStep line s
  else s

end Sys2Proof.Machine
end

