-- ==== Sys2Proof/Machine/Background.lean ====
section
/-! DEFINITION. The Background Pipeline (spec/42_background.md). A fetch calls the mapper's address hook (R257), so the
fetching operations take the hook as an argument: a hook may change the state (R167). -/

namespace Sys2Proof.Machine

/-- Calling a mapper hook: the event, and the state it leaves. -/
abbrev Hook := HookEvent → State → State

/-- The visible lines (R14, R37). -/
def visibleLine (line : Int) : Bool := decide (0 ≤ line) && decide (line ≤ 239)

/-- The rendering lines (R14). -/
def renderingLine (line : Int) : Bool := decide (-1 ≤ line) && decide (line ≤ 239)

/-- The fetch classes (R251). -/
inductive FetchClass where
  | noFetch
  | visibleOnly
  | always
deriving DecidableEq, Repr

/-- The fetch-class table (R251). -/
def fetchClass (c : Nat) : FetchClass :=
  if 1 ≤ c ∧ c ≤ 256 then .visibleOnly
  else if 321 ≤ c ∧ c ≤ 340 then .always
  else .noFetch

/-- `fetching(L, c)` (R251). -/
def fetching (line : Int) (c : Nat) : Bool :=
  match fetchClass c with
  | .always => true
  | .visibleOnly => visibleLine line
  | .noFetch => false

/-- The state a background fetch leaves: the address hook is called (R257). -/
def afterFetch (hook : Hook) (a : PpuAddr) (s : State) : State := hook (.addr a) s

/-- `ntByte <- bgFetch(ntAddr())` (R252, R253). -/
def fetchNt (hook : Hook) (s : State) : State :=
  let a := ntAddr s.ports.v
  let s := afterFetch hook a s
  { s with bg := { s.bg with ntByte := vRead .bg s a } }

/-- `{atByte, atShift} <- {bgFetch(atAddr()), atShiftOf(v)}` (R252, R254, R255), left to right (log entry 12). -/
def fetchAt (hook : Hook) (s : State) : State :=
  let a := atAddr s.ports.v
  let s := afterFetch hook a s
  { s with bg := { s.bg with atByte := vRead .bg s a, atShift := atShiftOf s.ports.v } }

/-- `ptLo <- bgFetch(ptAddr(0))` (R252, R256). -/
def fetchPtLo (hook : Hook) (s : State) : State :=
  let a := ptAddr s.ports s.bg.ntByte 0#14
  let s := afterFetch hook a s
  { s with bg := { s.bg with ptLo := vRead .bg s a } }

/-- `ptHi <- bgFetch(ptAddr(8)); coarseXInc()` (R252, R256). -/
def fetchPtHi (hook : Hook) (s : State) : State :=
  let a := ptAddr s.ports s.bg.ntByte 8#14
  let s := afterFetch hook a s
  { s with
    bg := { s.bg with ptHi := vRead .bg s a }
    ports := { s.ports with v := coarseXInc s.ports.v } }

/-- The fetch slot of a fetching cycle (R252); in cycles 337–340 both fetches are of the name table. -/
def fetchSlot (hook : Hook) (c : Nat) (s : State) : State :=
  match (c - 1) % 8 with
  | 1 => fetchNt hook s
  | 3 => if c ≥ 337 then fetchNt hook s else fetchAt hook s
  | 5 => fetchPtLo hook s
  | 7 => fetchPtHi hook s
  | _ => s

/-- `shiftBg()` (R262). -/
def shiftBg (b : Background) : Background :=
  { b with patLo := b.patLo <<< 1, patHi := b.patHi <<< 1, reloadCounter := min (b.reloadCounter + 1) 16 }

/-- `reloadBg()` (R261). -/
def reloadBg (b : Background) : Background :=
  { b with
    patLo := b.patLo.extractLsb' 8 8 ++ b.ptLo
    patHi := b.patHi.extractLsb' 8 8 ++ b.ptHi
    attrCur := b.attrNext
    attrNext := ⟨b.atByte, b.atShift⟩
    reloadCounter := 0 }

/-- The cycles in the shift ranges (R260). -/
def shiftCycle (line : Int) (c : Nat) : Bool :=
  (visibleLine line && decide (2 ≤ c ∧ c ≤ 257)) || decide (322 ≤ c ∧ c ≤ 337)

/-- `c ∈ RELOAD and ((vis and c <= 257) or c >= 329)` (R260). -/
def reloadCycle (line : Int) (c : Nat) : Bool :=
  decide (c % 8 = 1) && ((visibleLine line && decide (9 ≤ c ∧ c ≤ 257)) || decide (c = 329 ∨ c = 337))

/-- The two plane bits of the pixel at the fine-X tap (R263, R264). -/
def tapPixel (b : Background) : BitVec 2 :=
  let i := 15 - b.fineXLine.toNat
  BitVec.ofBool (b.patHi.getLsbD i) ++ BitVec.ofBool (b.patLo.getLsbD i)

/-- The attribute the tapped pixel belongs to (R264). -/
def tapAttr (b : Background) : Attr :=
  if b.reloadCounter + b.fineXLine.toNat < 8 then b.attrCur else b.attrNext

/-- The background pixel of column `col` (R264): transparent when off, clipped or of colour 0. -/
def bgPixelAt (p : Ports) (b : Background) (col : Nat) : BgPixel :=
  if p.showBg ∧ (col ≥ 8 ∨ p.bgl = true) ∧ tapPixel b ≠ 0#2 then ⟨tapPixel b, paletteOf (tapAttr b)⟩
  else BgPixel.transparent

/-- `bgLine[col]` (R250). -/
def bgLineAt (b : Background) (col : Nat) : BgPixel := cellsRead BgPixel.transparent b.line col

/-- `bgLine[col] <- p`. -/
def setBgLine (col : Nat) (p : BgPixel) (b : Background) : Background :=
  { b with line := cellsWrite BgPixel.transparent b.line col p }

/-- `bgPixel(col)` (R264). -/
def bgPixel (col : Nat) (s : State) : State := { s with bg := setBgLine col (bgPixelAt s.ports s.bg col) s.bg }

/-- Applying an update of `v`. -/
def setV (v : Loopy) (s : State) : State := { s with ports := { s.ports with v := v } }

/-- `bgCycle(L, c)` (R260). -/
def bgCycle (hook : Hook) (line : Int) (c : Nat) (s : State) : State :=
  let vis := visibleLine line
  let s := if vis && decide (c = 1) then { s with bg := { s.bg with fineXLine := s.ports.x } } else s
  let s := if shiftCycle line c then { s with bg := shiftBg s.bg } else s
  let s := if reloadCycle line c then { s with bg := reloadBg s.bg } else s
  let s := if fetching line c then fetchSlot hook c s else s
  let s := if vis && decide (c = 256) then setV (yInc s.ports.v) s else s
  let s := if c = 257 then setV (copyHori s.ports.t s.ports.v) s else s
  let s := if line = -1 ∧ 280 ≤ c ∧ c ≤ 304 then setV (copyVert s.ports.t s.ports.v) s else s
  if vis && decide (1 ≤ c ∧ c ≤ 256) then bgPixel (c - 1) s else s

end Sys2Proof.Machine
end

