-- ==== Sys2Proof/Machine/SpriteRender.lean ====
section
/-! DEFINITION. The sprite fetch, the render slots and the priority multiplexer (spec/44_sprite_render.md). -/

namespace Sys2Proof.Machine

/-- Applying a function to each of the eight slots. -/
def mapSlots (f : Slot → Slot) (v : Vector Slot 8) : Vector Slot 8 :=
  ⟨(v.toList.map f).toArray, by simp⟩

/-- Every slot dead (R331, R332). -/
def killSlots (v : Vector Slot 8) : Vector Slot 8 := mapSlots (fun s => { s with dead := true }) v

/-- `blankCycle(L, c)` (R331): a rendering-line cycle in forced blank. -/
def blankCycle (line : Int) (c : Nat) (s : State) : State :=
  let s := if visibleLine line && decide (1 ≤ c ∧ c ≤ 256) then
      { s with bg := setBgLine (c - 1) BgPixel.transparent s.bg } else s
  if c = 257 then { s with slots := killSlots s.slots } else s

/-- The sprite temporaries latched from secondary OAM (R332); `sfLo` is kept. -/
def latchSprite (s : State) (i : Nat) : SpriteFetch :=
  { s.fetch with
    y := secByte s (secIndexOf4 i 0)
    tile := secByte s (secIndexOf4 i 1)
    attr := secByte s (secIndexOf4 i 2)
    x := secByte s (secIndexOf4 i 3) }
where
  /-- The index `4i + k` of secondary OAM. -/
  secIndexOf4 (i k : Nat) : BitVec 5 := BitVec.ofNat 5 (4 * i + k)

/-- `sfLo <- sprFetch(sprAddr(L, i, 0))` (R332, R334). -/
def fetchSprLo (hook : Hook) (line : Int) (i : Nat) (s : State) : State :=
  let a := sprAddr s.ports line s.fetch (decide (i < s.eval.copiedCount)) 0#14
  let s := afterFetch hook a s
  { s with fetch := { s.fetch with lo := vRead .spr s a } }

/-- The slot a completed fetch fills (R332). On line −1 it is dead (R296, R336), also where the evaluator was not reset on that
line (its cycle 65 was in forced blank) and `copiedCount` is still the one of the line evaluated last; on a visible line such
entries still count, by R302 and R332 as they stand. DEDUCED (log entry 29). -/
def filledSlot (line : Int) (e : Evaluator) (f : SpriteFetch) (i : Nat) (hi : Byte) : Slot :=
  if 0 ≤ line ∧ i < e.copiedCount then ⟨e.secIndex[i]?.getD 0, f.lo, hi, f.attr, f.x, false⟩ else ⟨0, 0, 0, 0, 0, true⟩

/-- `hi <- sprFetch(sprAddr(L, i, 8))` and the slot filled from it (R332, R334). -/
def fetchSprHi (hook : Hook) (line : Int) (i : Nat) (s : State) : State :=
  let a := sprAddr s.ports line s.fetch (decide (i < s.eval.copiedCount)) 8#14
  let s := afterFetch hook a s
  { s with slots := s.slots.setIfInBounds i (filledSlot line s.eval s.fetch i (vRead .spr s a)) }

/-- `spriteFetchCycle(L, c)` (R330, R332). -/
def spriteFetchCycle (hook : Hook) (line : Int) (c : Nat) (s : State) : State :=
  if 257 ≤ c ∧ c ≤ 320 then
    let s := { s with ports := { s.ports with oamAddr := 0 } }
    let i := (c - 257) / 8
    let s := if c = 257 then { s with slots := killSlots s.slots } else s
    match (c - 257) % 8 with
    | 1 => { s with fetch := latchSprite s i }
    | 5 => fetchSprLo hook line i s
    | 7 => fetchSprHi hook line i s
    | _ => s
  else s

/-- The colour index a slot shows in the current column: 0 when it is dead or still counting (R337). -/
def Slot.pixel (s : Slot) : BitVec 2 :=
  if s.dead then 0#2
  else if s.xCounter ≠ 0#8 then 0#2
  else if s.attributeLatch.getLsbD 6 then
    BitVec.ofBool (s.highShift.getLsbD 0) ++ BitVec.ofBool (s.lowShift.getLsbD 0)
  else BitVec.ofBool (s.highShift.getLsbD 7) ++ BitVec.ofBool (s.lowShift.getLsbD 7)

/-- A live slot's shift by one pixel, and its death once both registers are transparent (R337). -/
def Slot.shift (s : Slot) : Slot :=
  let lo := if s.attributeLatch.getLsbD 6 then s.lowShift >>> 1 else s.lowShift <<< 1
  let hi := if s.attributeLatch.getLsbD 6 then s.highShift >>> 1 else s.highShift <<< 1
  { s with lowShift := lo, highShift := hi, dead := decide (lo = 0#8) && decide (hi = 0#8) }

/-- One column's clock of a slot (R337, R338): every live slot is clocked. -/
def Slot.clock (s : Slot) : Slot :=
  if s.dead then s
  else if s.xCounter ≠ 0#8 then { s with xCounter := s.xCounter - 1#8 }
  else s.shift

/-- A winning sprite pixel: its slot's OAM index, attributes and colour index (R337). -/
structure Winner where
  index : BitVec 6
  attr  : Byte
  pix   : BitVec 2
deriving DecidableEq, Repr

/-- The first opaque pixel in slot order (R337, R338). -/
def firstOpaque : List Slot → Option Winner
  | [] => none
  | s :: rest => if s.pixel ≠ 0#2 then some ⟨s.originalIndex, s.attributeLatch, s.pixel⟩ else firstOpaque rest

/-- The winner of a column after clipping and disable (R337, R339). -/
def columnWinner (p : Ports) (slots : Vector Slot 8) (col : Nat) : Option Winner :=
  if p.renderingEnabled = true ∧ ¬(p.showSpr = false ∨ (col < 8 ∧ p.spl = false)) then firstOpaque slots.toList else none

/-- The palette index of the priority multiplexer (R340, R342). -/
def resolveIndex (win : Option Winner) (bg : BgPixel) : BitVec 5 :=
  let background : BitVec 5 := if bg.pix ≠ 0#2 then 0#1 ++ bg.pal ++ bg.pix else 0#5
  match win with
  | some w => if w.attr.getLsbD 5 = false ∨ bg.pix = 0#2 then 1#1 ++ w.attr.extractLsb' 0 2 ++ w.pix else background
  | none => background

/-- `colour(idx)` (R343). -/
def colour (s : State) (idx : BitVec 5) : Byte :=
  let b := palByte s (0x3F00#14 ||| idx.setWidth 14)
  if s.ports.grey then b &&& 0x30#8 else b

/-- The index of `frame[L][col]`. -/
def frameIndex (line : Int) (col : Nat) : Nat := line.toNat * 256 + col

/-- `composePixel(L, col)` (R337, R341 to R343). -/
def composePixel (line : Int) (col : Nat) (s : State) : State :=
  let bg := bgLineAt s.bg col
  let win := columnWinner s.ports s.slots col
  { s with
    slots := if s.ports.renderingEnabled then mapSlots Slot.clock s.slots else s.slots
    ports := s.ports.spriteZeroCheck (win.map (·.index)) bg
    frame := writeCell .frame s.frame (frameIndex line col) (colour s (resolveIndex win bg)) }

end Sys2Proof.Machine
end

