-- ==== Sys2Proof/Machine/Driver.lean ====
section
/-! DEFINITION. The OAM DMA sub-timer (spec/45_oam_dma.md) and the Clock/Scanline Driver (spec/40_clock_driver.md): the
per-cycle step and the synchronization entry point. The callbacks that give control to the host during a cycle are an
argument: what they may do is `Callbacks.lean`'s. -/

namespace Sys2Proof.Machine

/-- The callbacks of R23 that give control to the host during a cycle. -/
structure Callbacks where
  hook    : Hook
  cpuRead : CpuAddr → State → State × Byte
  notify  : Notify

/-- The DMA's read phase (R362): the callback, then the address step and the next phase, also where the callback itself made
a trigger (R360). DEDUCED (log entry 27). -/
def dmaReadPhase (cb : Callbacks) (s : State) : State :=
  let r := cb.cpuRead s.dma.readAddress s
  { r.1 with
    dma := { r.1.dma with
      buffer := r.2
      readAddress := r.1.dma.readAddress + 1#16
      phase := .write
      timer := Config.dmaPhaseCycles } }

/-- The DMA's write phase (R362). -/
def dmaWritePhase (s : State) : State :=
  let s := oamWrite s.dma.buffer s
  let count := s.dma.writeAddress + 1#9
  if count.toNat < Config.dmaBytes then
    { s with dma := { s.dma with writeAddress := count, phase := .read, timer := Config.dmaPhaseCycles } }
  else { s with dma := { s.dma with writeAddress := count } }

/-- `dmaTick()` (R362). -/
def dmaTick (cb : Callbacks) (s : State) : State :=
  if s.dma.timer = 0 then s
  else
    let s := { s with dma := { s.dma with timer := s.dma.timer - 1 } }
    if s.dma.timer > 0 then s
    else
      match s.dma.phase with
      | .read => dmaReadPhase cb s
      | .write => dmaWritePhase s

/-- `enterVBlank(ts)` (R175). -/
def enterVBlank (notify : Notify) (ts : Nat) (s : State) : State :=
  let s := { s with ports := s.ports.enterVBlank }
  if s.ports.nmie then realNmiEdge notify ts s else s

/-- `startFrame()` (R176). -/
def startFrame (s : State) : State :=
  { s with ports := s.ports.startFrame, scan := { s.scan with oddFrame := !s.scan.oddFrame } }

/-- `endOfScanline(L, ts)` (R174). -/
def endOfScanline (cb : Callbacks) (line : Int) (ts : Nat) (s : State) : State :=
  let next := nextLine s.cfg line
  let s := { s with scan := { s.scan with scanline := next } }
  let s := if next = 241 then enterVBlank cb.notify ts s else s
  let s := if next = -1 then startFrame s else s
  let s := cb.hook (.scanlineStart next) s
  { s with scan := { s.scan with cycleInLine := 1, lineCyclesLeft := Config.cyclesPerLine } }

/-- The counters of one cycle (R164). -/
def countDown (s : State) : State :=
  { s with scan := { s.scan with lineCyclesLeft := s.scan.lineCyclesLeft - 1, cycleInLine := s.scan.cycleInLine + 1 } }

/-- The counter updates of a step and, at the end of the line, the transition (R164, R174). -/
def countCycle (cb : Callbacks) (line : Int) (ts : Nat) (s : State) : State :=
  let s := countDown s
  if s.scan.lineCyclesLeft = 0 then endOfScanline cb line ts s else s

/-- The counter updates of a step at an unexpected position (R179, R402, the spec's D53): counters only. At the end of the line
the position goes to the next line, line −1 after a line out of range, and nothing else of R174 happens: no vertical blank, no
frame start, no hook. What follows a line in range is DEDUCED (log entry 16). -/
def countOnly (line : Int) (s : State) : State :=
  let s := countDown s
  if s.scan.lineCyclesLeft = 0 then
    { s with scan := ⟨nextLine s.cfg line, 1, Config.cyclesPerLine, s.scan.oddFrame⟩ }
  else s

/-- The position is one the machine can be at (R35, R179). -/
def positionExpected (s : State) : Bool :=
  decide (-1 ≤ s.scan.scanline ∧ s.scan.scanline ≤ s.cfg.lastLine ∧ 1 ≤ s.scan.cycleInLine ∧ s.scan.cycleInLine ≤ 341)

/-- The units of a rendering-line cycle (R164). -/
def renderCycle (hook : Hook) (line : Int) (c : Nat) (s : State) : State :=
  let s := if c = 257 then hook (.hblankStart line) s else s
  let s := if c = 321 then hook (.prefetchStart line) s else s
  let s := if s.ports.renderingEnabled then
      spriteFetchCycle hook line c (spriteEvalCycle line c (bgCycle hook line c s))
    else blankCycle line c s
  if visibleLine line && decide (1 ≤ c ∧ c ≤ 256) then composePixel line (c - 1) s else s

/-- The odd-frame skip: line −1 ends with cycle 340 (R172). -/
def oddFrameSkip (line : Int) (c : Nat) (s : State) : State :=
  if line = -1 ∧ c = 340 ∧ s.scan.oddFrame = true ∧ s.ports.showBg = true then
    { s with scan := { s.scan with lineCyclesLeft := 1 } }
  else s

/-- `step(ts)` (R164): one PPU cycle that ends at master time `ts`; at an unexpected position only the counters move (R179). -/
def ppuCycle (cb : Callbacks) (ts : Nat) (s : State) : State :=
  let s := { s with clock := { s.clock with stepEnd := ts } }
  let line := s.scan.scanline
  let c := s.scan.cycleInLine
  if positionExpected s then
    let s := dmaTick cb s
    let s := if renderingLine line then renderCycle cb.hook line c s else s
    countCycle cb line ts (oddFrameSkip line c s)
  else countOnly line (diag .invariantViolation s)

/-- The replay of `n` cycles, the first of which ends at `ts` (R160, R161). -/
def replay (cb : Callbacks) : Nat → Nat → State → State
  | 0, _, s => s
  | n + 1, ts, s => replay cb n (ts + s.cfg.clockDivider) (ppuCycle cb ts s)

/-- One pass of the loop of `sync` (R160): elapsed time becomes whole cycles, the rest is buffered, the cycles run. -/
def syncPass (cb : Callbacks) (now : Nat) (s : State) : State :=
  let total := (now - s.clock.lastSyncTimestamp) + s.clock.remainder
  let first := s.clock.lastSyncTimestamp + s.cfg.clockDivider - s.clock.remainder
  replay cb (total / s.cfg.clockDivider) first
    { s with clock := { s.clock with remainder := total % s.cfg.clockDivider, lastSyncTimestamp := now } }

/-- The passes of `sync` (R160): a pass in which a DMA trigger set `remeasure` is followed by one up to the host's
re-measured time (R185, R361). Only a nested trigger sets the flag, so the passes are at most `extra + 1` (log entry 9). -/
def syncPasses (cb : Callbacks) : Nat → Nat → State → State
  | extra, now, s =>
    let s := syncPass cb now s
    if s.clock.remeasure then
      let r := hostNow { s with clock := { s.clock with remeasure := false } }
      match extra with
      | 0 => r.1
      | extra + 1 => syncPasses cb extra (max now r.2) r.1
    else s

/-- How many callbacks the script in the state still answers. -/
def scriptLength (s : State) : Nat := s.hookScript.length + s.noticeScript.length + s.cpuScript.length

/-- A forecast deferred during the replay runs at its end (R160, R382). -/
def runDeferred (s : State) : State :=
  if s.pred.pendingHorizon > 0 then
    predict s.pred.pendingHorizon { s with pred := { s.pred with pendingHorizon := 0 } }
  else s

/-- `sync(now)` (R160). -/
def sync (cb : Callbacks) (now : Nat) (s : State) : State :=
  if s.clock.syncDepth > 0 then diag .reentrantSync s
  else if now < s.clock.lastSyncTimestamp then diag .invariantViolation s
  else
    let s := syncPasses cb (scriptLength s + 1) now { s with clock := { s.clock with syncDepth := 1 } }
    runDeferred { s with clock := { s.clock with syncDepth := 0 } }

end Sys2Proof.Machine
end

