-- ==== Sys2Proof/Machine/Ports.lean ====
section
/-! DEFINITION. The register effects of the seventeen bus operations (spec/41_register_ports.md, spec/45_oam_dma.md
R360): what an access does after its catch-up (R166). The write prologue's shadow (R200) is part of each write; a PPUDATA
access takes the mapper's address hook as an argument (R215, R216), an access that calls the host's other callbacks those. -/

namespace Sys2Proof.Machine

/-- `lastWritten <- d`, the part of the write prologue that follows the catch-up (R200). -/
def setLastWritten (d : Byte) (s : State) : State := { s with ports := { s.ports with lastWritten := d } }

/-- The read of a write-only register: the last byte written to any register (R213). -/
def readShadow (s : State) : State := returnByte s.ports.lastWritten s

/-- The effect of `RD_CTRL` (R213). -/
def rdCtrl (s : State) : State := readShadow s

/-- The effect of `RD_MASK` (R213). -/
def rdMask (s : State) : State := readShadow s

/-- The effect of `RD_OAMADDR` (R213). -/
def rdOamAddr (s : State) : State := readShadow s

/-- The effect of `RD_SCROLL` (R213). -/
def rdScroll (s : State) : State := readShadow s

/-- The effect of `RD_ADDR` (R213). -/
def rdAddr (s : State) : State := readShadow s

/-- The race position: the step that set `vblank` was the last one executed (R210, R219). -/
def atRace (s : State) : Bool :=
  decide (s.scan.scanline = 241) && decide (s.scan.cycleInLine = 1) && s.ports.vblank

/-- `raceRead()`, step 3: the frame's NMI is withdrawn (R219). Step 1 is `rdStatus`'s bit 7, step 2 its flag writes. -/
def raceRead (notify : Notify) (s : State) : State :=
  if s.ports.nmie then
    invalidateNmi notify (unregisterNmi (cycleClock s) (notify (.clearInterrupt .nmi) s))
  else s

/-- The effect of `RD_STATUS` (R210, R211, R219). -/
def rdStatus (notify : Notify) (s : State) : State :=
  let race := atRace s
  let r := statusByte s.ports (s.ports.vblank && !race)
  let s := if race then raceRead notify s else s
  returnByte r { s with ports := s.ports.statusRead }

/-- The effect of `RD_OAMDATA` (R217). -/
def rdOamData (s : State) : State := returnByte (oamByte s s.ports.oamAddr) s

/-- `incrementV()` (R218). -/
def incrementV (s : State) : State :=
  if s.ports.renderingEnabled && renderingLine s.scan.scanline && decide (s.cfg.render2007 = .glitch) then
    setV (yInc (coarseXInc s.ports.v)) s
  else setV (s.ports.v + (if s.ports.inc32 then 32#15 else 1#15)) s

/-- The value a PPUDATA read returns (R216). -/
def dataReadValue (s : State) (a : PpuAddr) : Byte :=
  if a < 0x3F00#14 then s.ports.readBuffer
  else (vRead .bg s a &&& 0x3F#8) ||| (s.ports.lastWritten &&& 0xC0#8)

/-- The byte a PPUDATA read refills the buffer with: under the palette, the name-table byte (R216). -/
def dataReadRefill (s : State) (a : PpuAddr) : Byte :=
  if a < 0x3F00#14 then vRead .bg s a else vRead .bg s (a - 0x1000#14)

/-- The effect of `RD_DATA` (R216). -/
def rdData (hook : Hook) (s : State) : State :=
  let a := ppuAddr s.ports.v
  let s := hook (.addr a) s
  let r := dataReadValue s a
  returnByte r (incrementV { s with ports := { s.ports with readBuffer := dataReadRefill s a } })

/-- The effect of `WR_CTRL` (R205): the invalidation runs before the immediate edge. -/
def wrCtrl (notify : Notify) (d : Byte) (s : State) : State :=
  let s := setLastWritten d s
  let oldE := s.ports.nmie
  let s := { s with ports := { s.ports with ctrl := d, t := withNtSel s.ports.t d } }
  let s := if oldE ≠ d.getLsbD 7 then invalidateNmi notify s else s
  let s := if oldE = false ∧ d.getLsbD 7 = true ∧ s.ports.vblank = true then nmiEdgeNow notify s else s
  noResult s

/-- The effect of `WR_MASK` (R204). -/
def wrMask (notify : Notify) (d : Byte) (s : State) : State :=
  let s := setLastWritten d s
  let oldBg := s.ports.showBg
  let s := { s with ports := { s.ports with mask := d } }
  noResult (if oldBg ≠ d.getLsbD 3 then invalidateNmi notify s else s)

/-- The effect of `WR_STATUS`: the prologue only (R203). -/
def wrStatus (d : Byte) (s : State) : State := noResult (setLastWritten d s)

/-- The effect of `WR_OAMADDR` (R212). -/
def wrOamAddr (d : Byte) (s : State) : State :=
  let s := setLastWritten d s
  noResult { s with ports := { s.ports with oamAddr := d } }

/-- The effect of `WR_OAMDATA` (R214). -/
def wrOamData (d : Byte) (s : State) : State := noResult (oamWrite d (setLastWritten d s))

/-- The effect of `WR_SCROLL`: the first write (R206) or the second (R207), as `w` says. -/
def wrScroll (d : Byte) (s : State) : State :=
  let s := setLastWritten d s
  noResult (if s.ports.w then { s with ports := { s.ports with t := withY s.ports.t d, w := false } }
    else { s with ports := { s.ports with t := withCoarseX s.ports.t d, x := d.extractLsb' 0 3, w := true } })

/-- The effect of `WR_ADDR`: the high byte (R208), or the low byte and the copy into `v` (R209), as `w` says. -/
def wrAddr (d : Byte) (s : State) : State :=
  let s := setLastWritten d s
  noResult (if s.ports.w then
      { s with ports := { s.ports with t := withLowByte s.ports.t d, v := withLowByte s.ports.t d, w := false } }
    else { s with ports := { s.ports with t := withHighByte s.ports.t d, w := true } })

/-- The effect of `WR_DATA` (R215). -/
def wrData (hook : Hook) (d : Byte) (s : State) : State :=
  let s := setLastWritten d s
  let a := ppuAddr s.ports.v
  noResult (incrementV (vWrite a d (hook (.addr a) s)))

/-- The effect of `DMA_TRIGGER` (R360): the transfer starts from byte 0 of the page `d`, and a trigger inside a replay asks
it to re-measure (R361). -/
def dmaTrigger (notify : Notify) (d : Byte) (s : State) : State :=
  let s := { s with
    dma := { s.dma with
      readAddress := d ++ 0#8
      writeAddress := 0
      phase := .read
      timer := Config.dmaInitialDelay } }
  let s := notify (.cpuBurn s.cfg.dmaBurnCycles) s
  noResult (if s.clock.syncDepth > 0 then { s with clock := { s.clock with remeasure := true } } else s)

/-- The effect of a decoded bus access (R135). -/
def busEffect (hook : Hook) (notify : Notify) (op : BusOp) (d : Byte) (s : State) : State :=
  match op with
  | .rdCtrl => rdCtrl s
  | .rdMask => rdMask s
  | .rdStatus => rdStatus notify s
  | .rdOamAddr => rdOamAddr s
  | .rdOamData => rdOamData s
  | .rdScroll => rdScroll s
  | .rdAddr => rdAddr s
  | .rdData => rdData hook s
  | .wrCtrl => wrCtrl notify d s
  | .wrMask => wrMask notify d s
  | .wrStatus => wrStatus d s
  | .wrOamAddr => wrOamAddr d s
  | .wrOamData => wrOamData d s
  | .wrScroll => wrScroll d s
  | .wrAddr => wrAddr d s
  | .wrData => wrData hook d s
  | .dmaTrigger => dmaTrigger notify d s

end Sys2Proof.Machine
end

