-- ==== Sys2Proof/Machine/Remap.lean ====
section
/-! DEFINITION. Installing the mapper's maps (spec/20_memory.md R96, R97): at once, or a configuration error (R401). -/

namespace Sys2Proof.Machine

/-- Every bank a name-table map names is one the cartridge has (R96). -/
def ntMapValid (c : Config) (map : NtMap) : Bool := map.toList.all c.hasBank

/-- `remapNametables(map)` (R96). -/
def remapNametables (map : NtMap) (s : State) : State :=
  if ntMapValid s.cfg map then { s with maps := { s.maps with ntMap := map } } else diag .configError s

/-- A pattern remap is one R97 allows: a page of 1, 2, 4 or 8 KiB, aligned, inside `$0000–$1FFF`. -/
def remapValid (start pageSize : Nat) : Bool :=
  (decide (pageSize = 1024) || decide (pageSize = 2048) || decide (pageSize = 4096) || decide (pageSize = 8192)) &&
    decide (start % pageSize = 0) && decide (start + pageSize ≤ 0x2000)

/-- The pages of one view after a remap: the 1 KiB pages of `[start, start + pageSize)` read `CHR` from `source` on. -/
def remapPages (start pageSize source : Nat) (pages : PtPages) : PtPages :=
  Vector.ofFn fun j : Fin 8 =>
    if start ≤ 1024 * j.val ∧ 1024 * j.val < start + pageSize then source + (1024 * j.val - start) else pages[j]

/-- The pattern map after a remap of the view or views named (R97). -/
def remapViews (view : RemapView) (start pageSize source : Nat) (m : PtMap) : PtMap :=
  match view with
  | .bg => { m with bg := remapPages start pageSize source m.bg }
  | .spr => { m with spr := remapPages start pageSize source m.spr }
  | .both => ⟨remapPages start pageSize source m.bg, remapPages start pageSize source m.spr⟩

/-- `remapPatterns(view, start, pageSize, source)` (R97). -/
def remapPatterns (view : RemapView) (start pageSize source : Nat) (s : State) : State :=
  if remapValid start pageSize then
    { s with maps := { s.maps with ptMap := remapViews view start pageSize source s.maps.ptMap } }
  else diag .configError s

end Sys2Proof.Machine
end

