-- ==== Sys2Proof/Machine/Reset.lean ====
section
/-! DEFINITION. Power-on and reset (spec/70_reset_and_hazards.md R440 to R443). -/

namespace Sys2Proof.Machine

/-- `resetRegisters()` (R442); `predictedThrough` is set from the `lastSyncTimestamp` the state holds. -/
def resetRegisters (s : State) : State :=
  { s with
    scan := Scan.reset
    ports := Ports.reset
    bg := Background.reset
    eval := Evaluator.reset
    sec := []
    slots := Vector.replicate 8 Slot.reset
    fetch := SpriteFetch.reset
    dma := Dma.reset
    pred := { s.pred with nmiRegistered := [], predictedThrough := s.clock.lastSyncTimestamp } }

/-- The clock of R441: time up to `now` is dropped, the driver's flags are cleared. -/
def restartClock (now : Nat) (s : State) : State :=
  { s with
    clock := { s.clock with lastSyncTimestamp := now, remainder := 0, remeasure := false, stepEnd := now }
    pred := { s.pred with pendingHorizon := 0 } }

/-- `reset(now)` (R441). -/
def resetCore (now : Nat) (s : State) : State :=
  if s.clock.syncDepth > 0 then diag .reentrantSync s
  else if now < s.clock.lastSyncTimestamp then diag .invariantViolation s
  else resetRegisters (restartClock now (withdrawNmi s))

/-- The pattern memory after power-on: RAM bytes are drawn, ROM bytes are the cartridge's and kept (R440, R443). -/
def drawnChr (c : Config) (chr draw : List Host.Cell) : List Host.Cell :=
  loadCells .chr (chr.filter fun b => !c.chrByteWritable b.1) (draw.filter fun b => c.chrByteWritable b.1)

/-- `powerOn(now)` with the draw and the cartridge's maps (R440). The maps are installed as they are given, also where `NT_MAP`
names a bank the cartridge lacks, which R92 excludes and no rule covers: DESIGN CHOICE (log entry 28). -/
def powerOnCore (now : Nat) (draw : PowerOnMemory) (ntMap : NtMap) (ptMap : PtMap) (s : State) : State :=
  let s := restartClock now { s with clock := { s.clock with syncDepth := 0 } }
  { resetRegisters s with
    maps := ⟨ntMap, ptMap⟩
    nt := loadCells .nt [] draw.nt
    chr := drawnChr s.cfg s.chr draw.chr
    pal := loadCells .pal [] draw.pal
    oam := loadCells .oam [] draw.oam
    frame := loadCells .frame [] draw.frame }

end Sys2Proof.Machine
end

