-- ==== Sys2Proof/Machine/Callbacks.lean ====
section
/-! DEFINITION. The callbacks that give control to the host (spec/00_scope.md R23) and re-entrancy
(spec/40_clock_driver.md R167, R168). What a hook or `cpuRead` does is an input (U9, U10): the state holds the host's
answers in call order. An answer's calls back into the core run at once, and they may call hooks and callbacks themselves,
which take the answers that follow. -/

namespace Sys2Proof.Machine

/-- A bus access by its word: an access the core does not decode does nothing (R135). -/
def busAccess (cb : Callbacks) (acc : BitVec 17) (d : Byte) (now : Nat) (s : State) : State :=
  match decodeBus acc with
  | some op => busEffect cb.hook cb.notify op d (sync cb now s)
  | none => s

/-- One call back into the core (R167, R382, R420, R441). -/
def hookCall (cb : Callbacks) (call : HookCall) (s : State) : State :=
  match call with
  | .bus acc d now => busAccess cb acc d now s
  | .sync now => sync cb now s
  | .predict horizon => predict horizon s
  | .reset now => resetCore now s
  | .remapNametables map => remapNametables map s
  | .remapPatterns view start pageSize source => remapPatterns view start pageSize source s

/-- The calls of one answer, in order. -/
def runCalls (run : HookCall → State → State) (calls : List HookCall) (s : State) : State :=
  calls.foldl (fun s c => run c s) s

/-- A mapper hook (R170, R420): the event, then what the host's next answer does; with no answer left it does nothing. -/
def hookWith (run : HookCall → State → State) (h : HookEvent) (s : State) : State :=
  let s := emit (.hook h) s
  match s.hookScript with
  | [] => s
  | calls :: rest => runCalls run calls { s with hookScript := rest }

/-- A callback that returns nothing (R23): the event, then, during a replay, what the host's next answer does (R167); with no
answer left, and between replays, it does nothing (log entry 26). -/
def notifyWith (run : HookCall → State → State) (e : Event) (s : State) : State :=
  let s := emit e s
  if s.clock.syncDepth > 0 then
    match s.noticeScript with
    | [] => s
    | calls :: rest => runCalls run calls { s with noticeScript := rest }
  else s

/-- The nested bus read a `cpuRead` of a port address is (R366): its catch-up is a no-op with a diagnostic (R168). -/
def nestedPortRead (hook : Hook) (notify : Notify) (a : CpuAddr) (s : State) : State :=
  if inRegisterWindow a then
    match decodeBus (0#1 ++ a) with
    | some op => busEffect hook notify op 0 (diag .reentrantSync s)
    | none => s
  else s

/-- `cpuRead(a)` (R362, R366): the event, the nested read when `a` is a port, then the host's next answer; with no answer
left the byte is a free value (log entry 6). -/
def cpuReadWith (run : HookCall → State → State) (a : CpuAddr) (s : State) : State × Byte :=
  let s := nestedPortRead (hookWith run) (notifyWith run) a (emit (.cpuRead a) s)
  match s.cpuScript with
  | [] => ({ s with drawCount := s.drawCount + 1 }, Config.freeCpuByte s.drawCount a)
  | answer :: rest => (runCalls run answer.calls { s with cpuScript := rest }, answer.byte)

/-- The callbacks whose answers' calls are run by `run`. -/
def callbacksWith (run : HookCall → State → State) : Callbacks where
  hook := hookWith run
  cpuRead := cpuReadWith run
  notify := notifyWith run

/-- The callbacks to a depth of nesting. Every call back into the core uses up one answer of the script, so a depth of the
script's length is never exceeded (log entry 8). -/
def callbacks : Nat → Callbacks
  | 0 => callbacksWith fun _ s => s
  | n + 1 => callbacksWith (hookCall (callbacks n))

/-- The callbacks of a state: nested as deep as its script is long. -/
def hostCallbacks (s : State) : Callbacks := callbacks (scriptLength s)

/-- Calling a mapper hook between cycles (R215, R216). -/
def callHook (h : HookEvent) (s : State) : State := (hostCallbacks s).hook h s

/-- Calling a callback that returns nothing, in an access made by the CPU (R205, R219, R360). -/
def callNotify (e : Event) (s : State) : State := (hostCallbacks s).notify e s

/-- The catch-up before an access, `sync(now)` (R107, R166). -/
def catchUp (now : Nat) (s : State) : State := sync (hostCallbacks s) now s

end Sys2Proof.Machine
end

