-- ==== Sys2Proof/Machine/BusReads.lean ====
section
/-! DEFINITION. The meanings of the eight `RD_*` operations (spec/41_register_ports.md §3): the read prologue's catch-up
(R201), then the register effect. -/

namespace Sys2Proof.Machine

/-- `RD_CTRL` (R213). -/
def execRdCtrl (now : Nat) (s : State) : Host.Outcome State Fault Refusal := .next (rdCtrl (catchUp now s))

/-- `RD_MASK` (R213). -/
def execRdMask (now : Nat) (s : State) : Host.Outcome State Fault Refusal := .next (rdMask (catchUp now s))

/-- `RD_STATUS` (R210). -/
def execRdStatus (now : Nat) (s : State) : Host.Outcome State Fault Refusal := .next (rdStatus callNotify (catchUp now s))

/-- `RD_OAMADDR` (R213). -/
def execRdOamAddr (now : Nat) (s : State) : Host.Outcome State Fault Refusal := .next (rdOamAddr (catchUp now s))

/-- `RD_OAMDATA` (R217). -/
def execRdOamData (now : Nat) (s : State) : Host.Outcome State Fault Refusal := .next (rdOamData (catchUp now s))

/-- `RD_SCROLL` (R213). -/
def execRdScroll (now : Nat) (s : State) : Host.Outcome State Fault Refusal := .next (rdScroll (catchUp now s))

/-- `RD_ADDR` (R213). -/
def execRdAddr (now : Nat) (s : State) : Host.Outcome State Fault Refusal := .next (rdAddr (catchUp now s))

/-- `RD_DATA` (R216). -/
def execRdData (now : Nat) (s : State) : Host.Outcome State Fault Refusal := .next (rdData callHook (catchUp now s))

end Sys2Proof.Machine
end

