-- ==== Sys2Proof/Machine/BusWrites.lean ====
section
/-! DEFINITION. The meanings of the eight `WR_*` operations (spec/41_register_ports.md §2) and of the DMA page write
(spec/45_oam_dma.md R360): the catch-up (R200), then the register effect. -/

namespace Sys2Proof.Machine

/-- `WR_CTRL` (R205). -/
def execWrCtrl (d : Byte) (now : Nat) (s : State) : Host.Outcome State Fault Refusal :=
  .next (wrCtrl callNotify d (catchUp now s))

/-- `WR_MASK` (R204). -/
def execWrMask (d : Byte) (now : Nat) (s : State) : Host.Outcome State Fault Refusal :=
  .next (wrMask callNotify d (catchUp now s))

/-- `WR_STATUS` (R203). -/
def execWrStatus (d : Byte) (now : Nat) (s : State) : Host.Outcome State Fault Refusal :=
  .next (wrStatus d (catchUp now s))

/-- `WR_OAMADDR` (R212). -/
def execWrOamAddr (d : Byte) (now : Nat) (s : State) : Host.Outcome State Fault Refusal :=
  .next (wrOamAddr d (catchUp now s))

/-- `WR_OAMDATA` (R214). -/
def execWrOamData (d : Byte) (now : Nat) (s : State) : Host.Outcome State Fault Refusal :=
  .next (wrOamData d (catchUp now s))

/-- `WR_SCROLL` (R206, R207). -/
def execWrScroll (d : Byte) (now : Nat) (s : State) : Host.Outcome State Fault Refusal :=
  .next (wrScroll d (catchUp now s))

/-- `WR_ADDR` (R208, R209). -/
def execWrAddr (d : Byte) (now : Nat) (s : State) : Host.Outcome State Fault Refusal := .next (wrAddr d (catchUp now s))

/-- `WR_DATA` (R215). -/
def execWrData (d : Byte) (now : Nat) (s : State) : Host.Outcome State Fault Refusal :=
  .next (wrData callHook d (catchUp now s))

/-- `DMA_TRIGGER` (R360). -/
def execDmaTrigger (d : Byte) (now : Nat) (s : State) : Host.Outcome State Fault Refusal :=
  .next (dmaTrigger callNotify d (catchUp now s))

end Sys2Proof.Machine
end

