-- ==== Sys2Proof/Machine/HostCalls.lean ====
section
/-! DEFINITION. The meanings of the eight host calls (spec/30_encoding.md R132). None but `sync` runs cycles. -/

namespace Sys2Proof.Machine

/-- `SYNC` (R160). -/
def execSync (now : Nat) (s : State) : Host.Outcome State Fault Refusal := .next (noResult (catchUp now s))

/-- `PREDICT` (R380). -/
def execPredict (horizon : Nat) (s : State) : Host.Outcome State Fault Refusal := .next (noResult (predict horizon s))

/-- `RESET` (R441). -/
def execReset (now : Nat) (s : State) : Host.Outcome State Fault Refusal := .next (noResult (resetCore now s))

/-- `POWERON` (R440). -/
def execPowerOn (now : Nat) (draw : PowerOnMemory) (ntMap : NtMap) (ptMap : PtMap) (s : State) :
    Host.Outcome State Fault Refusal := .next (noResult (powerOnCore now draw ntMap ptMap s))

/-- `REMAP_NAMETABLES` (R96). -/
def execRemapNametables (map : NtMap) (s : State) : Host.Outcome State Fault Refusal :=
  .next (noResult (remapNametables map s))

/-- `REMAP_PATTERNS` (R97). -/
def execRemapPatterns (view : RemapView) (start pageSize source : Nat) (s : State) :
    Host.Outcome State Fault Refusal := .next (noResult (remapPatterns view start pageSize source s))

/-- The phase of a position (R180). -/
def phaseOf (s : State) : Phase :=
  if 241 ≤ s.scan.scanline then .verticalBlank
  else if s.scan.scanline = 240 then .idling
  else if s.ports.renderingEnabled = false then .forcedBlank
  else if s.scan.scanline = -1 then .evaluating
  else if 1 ≤ s.scan.cycleInLine ∧ s.scan.cycleInLine ≤ 256 then .rasterizing
  else .horizontalBlank

/-- `STATUS_QUERY` (R180): it does not sync (R108). -/
def execStatusQuery (s : State) : Host.Outcome State Fault Refusal := .next { s with result := .phase (phaseOf s) }

/-- `FRAME_BUFFER` (R344): it does not sync (R108). -/
def execFrameBuffer (s : State) : Host.Outcome State Fault Refusal := .next { s with result := .frame s.frame }

end Sys2Proof.Machine
end

