-- ==== Sys2Proof/Machine/Dispatch.lean ====
section
/-! DEFINITION. The dispatch: one arm per operation of spec/opcode_table.json. -/

namespace Sys2Proof.Machine

def exec (i : Instr) (s : State) : Host.Outcome State Fault Refusal :=
  match i with
  | .rdCtrl now => Sys2Proof.Machine.execRdCtrl now s
  | .rdMask now => Sys2Proof.Machine.execRdMask now s
  | .rdStatus now => Sys2Proof.Machine.execRdStatus now s
  | .rdOamAddr now => Sys2Proof.Machine.execRdOamAddr now s
  | .rdOamData now => Sys2Proof.Machine.execRdOamData now s
  | .rdScroll now => Sys2Proof.Machine.execRdScroll now s
  | .rdAddr now => Sys2Proof.Machine.execRdAddr now s
  | .rdData now => Sys2Proof.Machine.execRdData now s
  | .wrCtrl d now => Sys2Proof.Machine.execWrCtrl d now s
  | .wrMask d now => Sys2Proof.Machine.execWrMask d now s
  | .wrStatus d now => Sys2Proof.Machine.execWrStatus d now s
  | .wrOamAddr d now => Sys2Proof.Machine.execWrOamAddr d now s
  | .wrOamData d now => Sys2Proof.Machine.execWrOamData d now s
  | .wrScroll d now => Sys2Proof.Machine.execWrScroll d now s
  | .wrAddr d now => Sys2Proof.Machine.execWrAddr d now s
  | .wrData d now => Sys2Proof.Machine.execWrData d now s
  | .dmaTrigger d now => Sys2Proof.Machine.execDmaTrigger d now s
  | .sync now => Sys2Proof.Machine.execSync now s
  | .predict horizon => Sys2Proof.Machine.execPredict horizon s
  | .reset now => Sys2Proof.Machine.execReset now s
  | .powerOn now draw ntMap ptMap => Sys2Proof.Machine.execPowerOn now draw ntMap ptMap s
  | .remapNametables map => Sys2Proof.Machine.execRemapNametables map s
  | .remapPatterns view start pageSize source => Sys2Proof.Machine.execRemapPatterns view start pageSize source s
  | .statusQuery => Sys2Proof.Machine.execStatusQuery s
  | .frameBuffer => Sys2Proof.Machine.execFrameBuffer s

end Sys2Proof.Machine
end

