-- ==== Sys2Proof/Machine/Fetch.lean ====
section
/-! DEFINITION. Taking the next transaction from the queue, and what the core does with one that is no operation. -/

namespace Sys2Proof.Machine

/-- The oldest transaction the host has presented. -/
def nextRequest (s : State) : Option Request := s.pending.head?

/-- The transaction leaves the queue. -/
def popPending (s : State) : State := { s with pending := s.pending.tail }

/-- A request the decoder rejects: an access the core does not see does nothing (R135), a reserved selector does nothing
and emits a diagnostic (R138). -/
def rejectRequest (e : DecodeError) (s : State) : State :=
  match e with
  | .notDecoded => noResult s
  | .reservedSelector => noResult (diag .invariantViolation s)

/-- Presenting a transaction ahead of the others. -/
def presentNext (r : Request) (s : State) : State := { s with pending := r :: s.pending }

end Sys2Proof.Machine
end

