-- ==== Sys2Proof/Machine/Step.lean ====
section
/-! DEFINITION. One step of the machine: the oldest transaction the host has presented is taken, decoded and run. -/

namespace Sys2Proof.Machine

/-- One step: one transaction, run whole. The core is single-threaded and cooperative and has no background thread (R109,
R422): with no transaction presented it does nothing, and time passes only through a transaction's catch-up (R107, log entry
10). -/
def step (s : State) : Host.Outcome State Fault Refusal :=
  match nextRequest s with
  | none => .next s
  | some r =>
    match decode r with
    | .ok i => exec i (popPending s)
    | .error e => .next (rejectRequest e (popPending s))

/-- The host presents the transaction of a table word next, with its operands zero (log entry 10). -/
def State.withFetchWord (s : State) (nbits w : Nat) : State := presentNext (requestOfTableWord nbits w) s

end Sys2Proof.Machine
end

