-- ==== Sys2Proof/Safety.lean ====
section
/-! DEFINITION. What counts as a legal state, in the terms claims use: the ranges spec/10_state.md gives the fields, the
canonical form of the memories, and the position and clock invariants. Each part is kept by every step on its own. -/

namespace Sys2Proof.Machine

/-- Every memory is in canonical form, holds addresses that exist and bits that exist (R56, R92, R101, R102). -/
structure MemoryOk (s : State) : Prop where
  nt    : Memory.wf .nt s.nt
  chr   : Memory.wf .chr s.chr
  pal   : Memory.wf .pal s.pal
  oam   : Memory.wf .oam s.oam
  sec   : Memory.wf .sec s.sec
  frame : Memory.wf .frame s.frame
  line  : CellsWf BgPixel.transparent s.bg.line ∧ ∀ c ∈ s.bg.line, c.1 < 256

/-- The clock between calls (R31 to R33, R62): the remainder is below the divider, no replay is running, nothing is
deferred. `remainder ≤ lastSyncTimestamp` because both count from the last reset. -/
structure ClockOk (s : State) : Prop where
  config     : s.cfg.wf = true
  remainder  : s.clock.remainder < s.cfg.clockDivider
  elapsed    : s.clock.remainder ≤ s.clock.lastSyncTimestamp
  syncDepth  : s.clock.syncDepth = 0
  remeasure  : s.clock.remeasure = false
  noDeferred : s.pred.pendingHorizon = 0

/-- The scan position (R35, R36): in range, with `cycleInLine + lineCyclesLeft = 342`. -/
structure ScanOk (s : State) : Prop where
  lineLow  : -1 ≤ s.scan.scanline
  lineHigh : s.scan.scanline ≤ s.cfg.lastLine
  cycleLow : 1 ≤ s.scan.cycleInLine
  cycleHigh : s.scan.cycleInLine ≤ 341
  budget   : s.scan.cycleInLine + s.scan.lineCyclesLeft = 342

/-- The evaluator's ranges (R52): entries are copied only below the eighth, and `Overflow` is the locked mode (R292). -/
structure EvaluatorOk (s : State) : Prop where
  copied   : s.eval.copiedCount ≤ 8
  copying  : s.eval.state = .copyEntry → s.eval.copiedCount < 8 ∧ s.eval.writeLocked = false
  overflow : s.eval.state = .overflow → s.eval.copiedCount = 8 ∧ s.eval.writeLocked = true
  subState : s.eval.subState ≤ 3

/-- The ranges of the pipelines and the DMA (R50, R58, R262): shift amounts are even, the reload counter saturates at 16, a
transfer in progress waits at most 3 cycles and has bytes left. -/
structure PipelineOk (s : State) : Prop where
  attrCur  : s.bg.attrCur.shift.getLsbD 0 = false
  attrNext : s.bg.attrNext.shift.getLsbD 0 = false
  atShift  : s.bg.atShift.getLsbD 0 = false
  reload   : s.bg.reloadCounter ≤ 16
  timer    : s.dma.timer ≤ 3
  bytes    : s.dma.writeAddress.toNat ≤ 256
  running  : s.dma.timer ≠ 0 → s.dma.writeAddress.toNat < 256

/-- The set of forecast edges is in its canonical form (R61). -/
def ForecastOk (s : State) : Prop := s.pred.nmiRegistered.Pairwise (· < ·)

/-- No callback of the host calls back into the core, and the host answers no hook (R170, a missing hook is a no-op). -/
def Unscripted (s : State) : Prop := s.hookScript = [] ∧ s.noticeScript = [] ∧ s.cpuScript = []

/-- No byte of a DMA transfer that is running is read from a port (R366): every address it can still reach lies outside
`$2000–$3FFF`. -/
def ReadsNoPort (s : State) : Prop :=
  s.dma.timer = 0 ∨ ∀ k : Nat, k < 256 → (s.dma.readAddress + BitVec.ofNat 16 k).extractLsb' 13 3 ≠ 1#3

/-- The cycles of one pass of `sync` up to `now` (R160, R161): the elapsed time and the remainder as whole cycles, the first
of which ends one cycle after the last one executed, and the rest buffered. -/
def replayUpTo (cb : Callbacks) (now : Nat) (s : State) : State :=
  let total := (now - s.clock.lastSyncTimestamp) + s.clock.remainder
  replay cb (total / s.cfg.clockDivider) (s.clock.lastSyncTimestamp + s.cfg.clockDivider - s.clock.remainder)
    { s with clock := { s.clock with remainder := total % s.cfg.clockDivider, lastSyncTimestamp := now } }

/-- The loop of `sync` (R160), from the start of a pass up to `now` at `s` to the end of the last pass: a pass in which
`remeasure` was set clears it and is followed by one up to the later of `now` and the host's time (R185). -/
inductive SyncLoop (cb : Callbacks) : Nat → State → State → Prop
  | last (now : Nat) (s ended : State) :
    ended = replayUpTo cb now s → ended.clock.remeasure = false → SyncLoop cb now s ended
  | again (now host : Nat) (s paused resumed ended : State) :
    paused = replayUpTo cb now s → paused.clock.remeasure = true →
    (resumed, host) = hostNow { paused with clock := { paused.clock with remeasure := false } } →
    SyncLoop cb (max now host) resumed ended → SyncLoop cb now s ended

/-- The NMI registrations among the events of a trace, newest first. -/
def nmiSignals (trace : List Event) : List Nat :=
  trace.filterMap fun e =>
    match e with
    | .setInterrupt .nmi ts => some ts
    | .setInterrupt .irq _ => none
    | .hook _ => none
    | .cpuRead _ => none
    | .clearInterrupt _ => none
    | .cpuBurn _ => none
    | .diag _ => none

end Sys2Proof.Machine
end

