-- ==== Sys2Proof/Certificates/Slice0/Obligations.lean ====
section
/-! DEFINITION. The statements for the provers: what the rules of spec/ say the operations, the per-cycle units and the
whole machine do. In a statement about a bus access, `catchUp now s` is the state after the access's own `sync(now)`
(R107, R166), and the statement says what the access itself does to it and that nothing else changes. `callHook` and
`callNotify` are the calls to the mapper and to the host: between replays `callNotify` only records its event, in a replay
the host's answer may call back into the core (R167, log entry 26; `HookCallsApplyAtOnce`). -/

open Sys2Proof Sys2Proof.Machine

/-! ## Encoding -/

/-- The mask column of spec/opcode_table.json for a bus operation. -/
def Sys2Proof.BusOp.tableMask : BusOp → BitVec 17
  | .dmaTrigger => 0x1FFFF#17
  | .rdCtrl => 0x1E007#17
  | .rdMask => 0x1E007#17
  | .rdStatus => 0x1E007#17
  | .rdOamAddr => 0x1E007#17
  | .rdOamData => 0x1E007#17
  | .rdScroll => 0x1E007#17
  | .rdAddr => 0x1E007#17
  | .rdData => 0x1E007#17
  | .wrCtrl => 0x1E007#17
  | .wrMask => 0x1E007#17
  | .wrStatus => 0x1E007#17
  | .wrOamAddr => 0x1E007#17
  | .wrOamData => 0x1E007#17
  | .wrScroll => 0x1E007#17
  | .wrAddr => 0x1E007#17
  | .wrData => 0x1E007#17

/-- R130 to R132: decoding the encoding of any well-formed operation gives it back with every operand, and a request that
decodes differs from its operation's encoding only in the mirror bits `A[12:3]`, a read's data byte and the operands its
selector does not have. -/
def Obligations.DecodeAndEncodeAgree : Prop :=
  (∀ i : Instr, i.wf = true → decode (encode i) = .ok i) ∧
  (∀ (acc : BitVec 17) (d : Byte) (now : Nat) (i : Instr), decode (.bus acc d now) = .ok i →
    ∃ word : BitVec 17,
      encode i = .bus word (if acc.getLsbD 16 then d else 0) now ∧
      (acc = word ∨ (acc &&& 0x1E007#17 = word ∧ word.extractLsb' 13 3 = 1#3))) ∧
  (∀ (sel : Byte) (args : HostArgs) (i : Instr), decode (.host sel args) = .ok i →
    ∃ args' : HostArgs, encode i = .host sel args' ∧ decode (.host sel args') = .ok i)

/-- R135: an access word decodes to the operation whose row of the table it matches, and to no other; the words that match
no row are exactly the reads of `$4014` and the addresses outside `$2000–$3FFF`. -/
def Obligations.BusWordsDecodeByTheTable : Prop :=
  ∀ acc : BitVec 17,
    (∀ op : BusOp, decodeBus acc = some op ↔ acc &&& op.tableMask = op.word) ∧
    (decodeBus acc = none ↔ acc.extractLsb' 13 3 ≠ 1#3 ∧ acc ≠ 0x14014#17)

/-- Access words written out from R40 and R130: a read and a write of several registers, by their lowest address and by a
mirror, the DMA page write, and host selectors of R132. -/
def Obligations.WrittenOutWordsDecode : Prop :=
  decode (.bus 0b0_0010000000000010#17 0 7) = .ok (.rdStatus 7) ∧
  decode (.bus 0b0_0011111111111110#17 0 7) = .ok (.rdAddr 7) ∧
  decode (.bus 0b1_0010000000000000#17 0x83 7) = .ok (.wrCtrl 0x83 7) ∧
  decode (.bus 0b1_0011111111111111#17 0x2A 7) = .ok (.wrData 0x2A 7) ∧
  decode (.bus 0b1_0100000000010100#17 0x02 7) = .ok (.dmaTrigger 0x02 7) ∧
  decode (.bus 0b0_0100000000010100#17 0 7) = .error .notDecoded ∧
  decode (.host 0b00000001#8 { HostArgs.zero with now := 9 }) = .ok (.sync 9) ∧
  decode (.host 0b00000010#8 { HostArgs.zero with horizon := 9 }) = .ok (.predict 9) ∧
  decode (.host 0b00000011#8 { HostArgs.zero with now := 9 }) = .ok (.reset 9) ∧
  decode (.host 0b00000111#8 HostArgs.zero) = .ok .statusQuery ∧
  decode (.host 0b00001001#8 HostArgs.zero) = .error .reservedSelector

/-- R202: two accesses to the register window with the same direction and register index do the same. -/
def Obligations.MirroredAddressesActAlike : Prop :=
  ∀ (s : State) (acc acc' : BitVec 17) (d : Byte) (now : Nat),
    acc.extractLsb' 13 3 = 1#3 → acc &&& 0x1E007#17 = acc' &&& 0x1E007#17 →
    step (presentNext (.bus acc d now) s) = step (presentNext (.bus acc' d now) s)

/-- R109, R422: the core is one single-threaded unit with no background thread: a step takes the oldest transaction presented
and runs it whole, and with none presented nothing happens (the queue of transactions is log entry 10's). -/
def Obligations.StepRunsThePresentedOperation : Prop :=
  (∀ (s : State) (r : Request) (rest : List Request) (i : Instr),
    s.pending = r :: rest → decode r = .ok i → i.wf = true → step s = exec i { s with pending := rest }) ∧
  (∀ s : State, s.pending = [] → step s = .next s)

/-- R135, R138: a reserved selector does nothing and emits `diag(InvariantViolation)`; an access that is not decoded does
nothing. -/
def Obligations.RejectedRequestsDoNothing : Prop :=
  (∀ (s : State) (rest : List Request) (sel : Byte) (args : HostArgs),
    s.pending = .host sel args :: rest → (sel = 0x00#8 ∨ 0x09#8 ≤ sel) →
    step s = .next { s with pending := rest, trace := .diag .invariantViolation :: s.trace, result := .none }) ∧
  (∀ (s : State) (rest : List Request) (acc : BitVec 17) (d : Byte) (now : Nat),
    s.pending = .bus acc d now :: rest → acc.extractLsb' 13 3 ≠ 1#3 → acc ≠ 0x14014#17 →
    step s = .next { s with pending := rest, result := .none })

/-! ## Register reads -/

/-- R106, R201, R213, R217: the reads of the five write-only registers return the last byte written to any register, an
OAMDATA read returns `OAM[oamAddr]`, and none of them changes anything else (that a read keeps the shadow is the spec's D9,
the read during rendering its D26). -/
def Obligations.ReadsWithoutSideEffects : Prop :=
  ∀ (now : Nat) (s : State),
    (∀ i : Instr, i = .rdCtrl now ∨ i = .rdMask now ∨ i = .rdOamAddr now ∨ i = .rdScroll now ∨ i = .rdAddr now →
      exec i s = .next { catchUp now s with result := .byte (catchUp now s).ports.lastWritten }) ∧
    exec (.rdOamData now) s =
      .next { catchUp now s with
        result := .byte (readCell .oam (catchUp now s).oam (catchUp now s).ports.oamAddr.toNat) }

/-- R210, R211: away from the race position a status read returns the three flags and the low bits of the shadow, clears
`vblank` and `w`, and changes nothing else. -/
def Obligations.StatusReadReturnsAndClears : Prop :=
  ∀ (now : Nat) (s : State), let c := catchUp now s
    ¬(c.scan.scanline = 241 ∧ c.scan.cycleInLine = 1 ∧ c.ports.vblank = true) →
    ∃ r : Byte,
      exec (.rdStatus now) s =
        .next { c with ports := { c.ports with vblank := false, w := false }, result := .byte r } ∧
      r.getLsbD 7 = c.ports.vblank ∧ r.getLsbD 6 = c.ports.sprite0Hit ∧ r.getLsbD 5 = c.ports.spriteOverflow ∧
      r.extractLsb' 0 5 = c.ports.lastWritten.extractLsb' 0 5

/-- R219: a status read at the race position returns bit 7 = 0 and clears `vblank` and `w`; with NMI enabled it withdraws
the NMI, forgets the edge at `cycleClock` and invalidates the forecast. The race is the spec's D7; that bits 4:0 are the
shadow's is its D8, and that the race read returns them log entry 20 (DEDUCED). -/
def Obligations.StatusReadRace : Prop :=
  ∀ (now : Nat) (s : State), let c := catchUp now s
    let forget (t : State) : State :=
      { t with pred := { t.pred with nmiRegistered := t.pred.nmiRegistered.filter (fun ts => decide (ts ≠ cycleClock c)) } }
    c.scan.scanline = 241 → c.scan.cycleInLine = 1 → c.ports.vblank = true →
    ∃ (r : Byte) (x : State),
      exec (.rdStatus now) s =
        .next { x with ports := { x.ports with vblank := false, w := false }, result := .byte r } ∧
      r.getLsbD 7 = false ∧ r.getLsbD 6 = c.ports.sprite0Hit ∧ r.getLsbD 5 = c.ports.spriteOverflow ∧
      r.extractLsb' 0 5 = c.ports.lastWritten.extractLsb' 0 5 ∧
      (c.ports.ctrl.getLsbD 7 = false → x = c) ∧
      (c.ports.ctrl.getLsbD 7 = true →
        x = invalidateNmi callNotify (forget (callNotify (.clearInterrupt .nmi) c))) ∧
      (c.clock.syncDepth = 0 → x.ports = c.ports ∧
        (c.ports.ctrl.getLsbD 7 = true →
          x = invalidateNmi callNotify (forget { c with trace := .clearInterrupt .nmi :: c.trace })))

/-- R216, R218: a PPUDATA read calls the address hook, returns the buffer (below the palette) or the palette byte with the
shadow's top bits, refills the buffer, steps `v`, and changes nothing else. -/
def Obligations.PpuDataRead : Prop :=
  ∀ (now : Nat) (s : State), let c := catchUp now s
    let a := c.ports.v.extractLsb' 0 14
    let h := callHook (.addr a) c
    ∃ (r buffer : Byte) (v' : Loopy),
      exec (.rdData now) s =
        .next { h with ports := { h.ports with readBuffer := buffer, v := v' }, result := .byte r } ∧
      (a < 0x3F00#14 → r = h.ports.readBuffer ∧ buffer = vRead .bg h a) ∧
      (0x3F00#14 ≤ a →
        r = (vRead .bg h a &&& 0x3F#8) ||| (h.ports.lastWritten &&& 0xC0#8) ∧
        buffer = readCell .nt h.nt (ntIndex h.maps.ntMap (a - 0x1000#14))) ∧
      (h.ports.renderingEnabled = true → -1 ≤ h.scan.scanline → h.scan.scanline ≤ 239 → h.cfg.render2007 = .glitch →
        v' = yInc (coarseXInc h.ports.v)) ∧
      ((h.ports.renderingEnabled = false ∨ h.scan.scanline < -1 ∨ 239 < h.scan.scanline ∨ h.cfg.render2007 = .plain) →
        v' = h.ports.v + (if h.ports.ctrl.getLsbD 2 then 32#15 else 1#15))

/-! ## Register writes -/

/-- R203, R212: a PPUSTATUS write sets the shadow, an OAMADDR write the cursor and the shadow, and nothing else. -/
def Obligations.StatusAndOamAddrWrites : Prop :=
  ∀ (d : Byte) (now : Nat) (s : State), let c := catchUp now s
    exec (.wrStatus d now) s = .next { c with ports := { c.ports with lastWritten := d }, result := .none } ∧
    exec (.wrOamAddr d now) s =
      .next { c with ports := { c.ports with lastWritten := d, oamAddr := d }, result := .none }

/-- R102, R214: an OAMDATA write stores one byte at the cursor, bits 4:2 of an attribute byte dropped, and advances the
cursor modulo 256; every other byte of OAM and everything else is unchanged. -/
def Obligations.OamDataWriteStoresOneByte : Prop :=
  ∀ (d : Byte) (now : Nat) (s : State), let c := catchUp now s
    ∃ oam' : List Host.Cell,
      exec (.wrOamData d now) s =
        .next { c with
          oam := oam'
          ports := { c.ports with lastWritten := d, oamAddr := c.ports.oamAddr + 1#8 }
          result := .none } ∧
      readCell .oam oam' c.ports.oamAddr.toNat = (if c.ports.oamAddr.toNat % 4 = 2 then d &&& 0xE3#8 else d) ∧
      ∀ i : Nat, i ≠ c.ports.oamAddr.toNat → readCell .oam oam' i = readCell .oam c.oam i

/-- R206, R207: the first PPUSCROLL write puts `d[7:3]` into `t[4:0]` and `d[2:0]` into `x` and sets `w`; the second puts
`d[2:0]` into `t[14:12]` and `d[7:3]` into `t[9:5]` and clears `w`; the rest of `t` and everything else is kept. -/
def Obligations.ScrollWrites : Prop :=
  ∀ (d : Byte) (now : Nat) (s : State), let c := catchUp now s
    (c.ports.w = false → ∃ t' : Loopy,
      exec (.wrScroll d now) s =
        .next { c with
          ports := { c.ports with lastWritten := d, t := t', x := d.extractLsb' 0 3, w := true }, result := .none } ∧
      t'.extractLsb' 0 5 = d.extractLsb' 3 5 ∧ t'.extractLsb' 5 10 = c.ports.t.extractLsb' 5 10) ∧
    (c.ports.w = true → ∃ t' : Loopy,
      exec (.wrScroll d now) s =
        .next { c with ports := { c.ports with lastWritten := d, t := t', w := false }, result := .none } ∧
      t'.extractLsb' 12 3 = d.extractLsb' 0 3 ∧ t'.extractLsb' 5 5 = d.extractLsb' 3 5 ∧
      t'.extractLsb' 10 2 = c.ports.t.extractLsb' 10 2 ∧ t'.extractLsb' 0 5 = c.ports.t.extractLsb' 0 5)

/-- R208, R209: the first PPUADDR write puts `d[5:0]` into `t[13:8]`, clears `t[14]` and sets `w`; the second puts `d` into
`t[7:0]`, copies `t` into `v` and clears `w`; the rest of `t` and everything else is kept. -/
def Obligations.AddrWrites : Prop :=
  ∀ (d : Byte) (now : Nat) (s : State), let c := catchUp now s
    (c.ports.w = false → ∃ t' : Loopy,
      exec (.wrAddr d now) s =
        .next { c with ports := { c.ports with lastWritten := d, t := t', w := true }, result := .none } ∧
      t'.extractLsb' 8 6 = d.extractLsb' 0 6 ∧ t'.getLsbD 14 = false ∧
      t'.extractLsb' 0 8 = c.ports.t.extractLsb' 0 8) ∧
    (c.ports.w = true → ∃ t' : Loopy,
      exec (.wrAddr d now) s =
        .next { c with ports := { c.ports with lastWritten := d, t := t', v := t', w := false }, result := .none } ∧
      t'.extractLsb' 0 8 = d ∧ t'.extractLsb' 8 7 = c.ports.t.extractLsb' 8 7)

/-- R205, R406: a PPUCTRL write sets `ctrl`, `t[11:10]` and the shadow; a change of `NMIE` then invalidates the forecast, and
enabling it while `vblank` is set gives an edge at `cycleClock` after the invalidation (the invalidation and the edge are
the spec's D33). -/
def Obligations.CtrlWrite : Prop :=
  ∀ (d : Byte) (now : Nat) (s : State), let c := catchUp now s
    ∃ (t' : Loopy) (p : State),
      p = { c with ports := { c.ports with lastWritten := d, ctrl := d, t := t' } } ∧
      t'.extractLsb' 10 2 = d.extractLsb' 0 2 ∧ t'.extractLsb' 12 3 = c.ports.t.extractLsb' 12 3 ∧
      t'.extractLsb' 0 10 = c.ports.t.extractLsb' 0 10 ∧
      (c.ports.ctrl.getLsbD 7 = d.getLsbD 7 → exec (.wrCtrl d now) s = .next { p with result := .none }) ∧
      (c.ports.ctrl.getLsbD 7 ≠ d.getLsbD 7 → let x := invalidateNmi callNotify p
        ((d.getLsbD 7 = false ∨ x.ports.vblank = false) → exec (.wrCtrl d now) s = .next { x with result := .none }) ∧
        (d.getLsbD 7 = true → x.ports.vblank = true →
          exec (.wrCtrl d now) s =
            .next { callNotify (.setInterrupt .nmi (cycleClock c)) x with result := .none }) ∧
        (c.clock.syncDepth = 0 → x.ports = p.ports ∧
          (d.getLsbD 7 = true → c.ports.vblank = true →
            exec (.wrCtrl d now) s =
              .next { x with trace := .setInterrupt .nmi (cycleClock c) :: x.trace, result := .none })))

/-- R204: a PPUMASK write sets `mask` and the shadow; a change of `mask.BG` invalidates the forecast (the spec's D33). -/
def Obligations.MaskWrite : Prop :=
  ∀ (d : Byte) (now : Nat) (s : State), let c := catchUp now s
    let p : State := { c with ports := { c.ports with lastWritten := d, mask := d } }
    (c.ports.mask.getLsbD 3 = d.getLsbD 3 → exec (.wrMask d now) s = .next { p with result := .none }) ∧
    (c.ports.mask.getLsbD 3 ≠ d.getLsbD 3 →
      exec (.wrMask d now) s = .next { invalidateNmi callNotify p with result := .none })

/-- R95, R101, R112, R215, R218: a PPUDATA write calls the address hook, stores at most one byte, where the address map
puts `v[13:0]`, steps `v`, and changes nothing else; a write to ROM stores nothing. -/
def Obligations.PpuDataWrite : Prop :=
  ∀ (d : Byte) (now : Nat) (s : State), let c := catchUp now s
    let a := c.ports.v.extractLsb' 0 14
    let h := callHook (.addr a) { c with ports := { c.ports with lastWritten := d } }
    ∃ (chr' nt' pal' : List Host.Cell) (v' : Loopy),
      exec (.wrData d now) s =
        .next { h with chr := chr', nt := nt', pal := pal', ports := { h.ports with v := v' }, result := .none } ∧
      (∀ k, readCell .chr chr' k =
        if a < 0x2000#14 ∧ h.cfg.chrByteWritable k = true ∧ k = chrIndex h.maps.ptMap.bg a then d
        else readCell .chr h.chr k) ∧
      (∀ k, readCell .nt nt' k =
        if 0x2000#14 ≤ a ∧ a < 0x3F00#14 ∧ h.cfg.ntBankWritable (ntBank h.maps.ntMap a) = true ∧
          k = ntIndex h.maps.ntMap a then d
        else readCell .nt h.nt k) ∧
      (∀ k, readCell .pal pal' k =
        if 0x3F00#14 ≤ a ∧ k = (palIndex a).toNat then d &&& 0x3F#8 else readCell .pal h.pal k) ∧
      (h.ports.renderingEnabled = true → -1 ≤ h.scan.scanline → h.scan.scanline ≤ 239 → h.cfg.render2007 = .glitch →
        v' = yInc (coarseXInc h.ports.v)) ∧
      ((h.ports.renderingEnabled = false ∨ h.scan.scanline < -1 ∨ 239 < h.scan.scanline ∨ h.cfg.render2007 = .plain) →
        v' = h.ports.v + (if h.ports.ctrl.getLsbD 2 then 32#15 else 1#15))

/-- R360, R361: a DMA trigger loads the page, starts the 3-cycle delay, asks the host to burn `DMA_BURN_CYCLES`, and sets
`remeasure` only inside a replay. -/
def Obligations.DmaTriggerStartsTheTransfer : Prop :=
  ∀ (d : Byte) (now : Nat) (s : State), let c := catchUp now s
    let started : State := { c with
      dma := { c.dma with
        readAddress := BitVec.ofNat 16 (256 * d.toNat), writeAddress := 0, phase := .read, timer := 3 } }
    let x := callNotify (.cpuBurn c.cfg.dmaBurnCycles) started
    (c.clock.syncDepth = 0 →
      exec (.dmaTrigger d now) s =
        .next { started with trace := .cpuBurn c.cfg.dmaBurnCycles :: c.trace, result := .none }) ∧
    (c.clock.syncDepth > 0 →
      exec (.dmaTrigger d now) s = .next { x with clock := { x.clock with remeasure := true }, result := .none }) ∧
    (c.clock.syncDepth > 0 → c.noticeScript = [] →
      x = { started with trace := .cpuBurn c.cfg.dmaBurnCycles :: c.trace })

/-! ## The driver -/

/-- R160, R168, R402, R441: a nested `sync`, the catch-up of a nested bus access and a nested `reset` only emit
`diag(ReentrantSync)`; a `sync` or a `reset` to a time before the last sync only emits `diag(InvariantViolation)`. -/
def Obligations.ImproperSyncsAreDiagnosedNoOps : Prop :=
  ∀ (now : Nat) (s : State),
    (s.clock.syncDepth > 0 →
      let u : State := { s with trace := .diag .reentrantSync :: s.trace }
      catchUp now s = u ∧
      exec (.sync now) s = .next { u with result := .none } ∧
      exec (.reset now) s = .next { u with result := .none }) ∧
    (s.clock.syncDepth = 0 → now < s.clock.lastSyncTimestamp →
      let u : State := { s with trace := .diag .invariantViolation :: s.trace }
      catchUp now s = u ∧
      exec (.sync now) s = .next { u with result := .none } ∧
      exec (.reset now) s = .next { u with result := .none })

/-- R160, R161, R185, R361: a pass of `sync` turns the elapsed time and the remainder into `n = total / CLOCK_DIVIDER` cycles,
the `k`-th ending at `lastSyncTimestamp − remainder + k · CLOCK_DIVIDER`, replays exactly them and buffers the rest; a pass
in which a nested DMA trigger set `remeasure` is followed by one up to the host's time (`SyncLoop`), and the last one left it
clear. A deferred forecast runs at the end. Where the first pass is the last, the cycles are written out. -/
def Obligations.SyncReplaysTheElapsedCycles : Prop :=
  ∀ (now : Nat) (s : State), s.clock.syncDepth = 0 → s.clock.lastSyncTimestamp ≤ now →
    let finishes (ended : State) : Prop :=
      let idle : State := { ended with clock := { ended.clock with syncDepth := 0 } }
      ended.clock.remeasure = false ∧
      (ended.pred.pendingHorizon = 0 → exec (.sync now) s = .next { idle with result := .none }) ∧
      (0 < ended.pred.pendingHorizon →
        exec (.sync now) s =
          .next { predict ended.pred.pendingHorizon { idle with pred := { idle.pred with pendingHorizon := 0 } } with
            result := .none })
    let total := (now - s.clock.lastSyncTimestamp) + s.clock.remainder
    let start : State := { s with clock := { s.clock with
      syncDepth := 1, remainder := total % s.cfg.clockDivider, lastSyncTimestamp := now } }
    let once := replay (hostCallbacks s) (total / s.cfg.clockDivider)
      (s.clock.lastSyncTimestamp + s.cfg.clockDivider - s.clock.remainder) start
    (once.clock.remeasure = false → finishes once) ∧
    ∃ ended : State,
      SyncLoop (hostCallbacks s) now { s with clock := { s.clock with syncDepth := 1 } } ended ∧ finishes ended

/-- R162: two syncs leave the state one sync to the later time leaves, when no callback calls back into the core and no DMA
transfer that is running reads a port (such a read is itself a bus access, R366). -/
def Obligations.CycleConservation : Prop :=
  ∀ (a b : Nat) (s : State), ClockOk s → Unscripted s → ReadsNoPort s →
    s.clock.lastSyncTimestamp ≤ a → a ≤ b →
    ∃ m : State, exec (.sync a) s = .next m ∧ exec (.sync b) m = exec (.sync b) s

/-- R167, R168, R170, R366, R450: what the host does in a hook or a callback. An answer's calls run at once, in order; with no
answer left only the event is recorded, and so it is for a callback that returns nothing between replays (log entry 26). In
a replay a bus access among the calls skips its catch-up (with the diagnostic) and applies its effect at once, whichever
operation it decodes to, and an undecoded one does nothing: a read of `$2002` sees and clears the flag as it stands, a write
of `$2003` sets the cursor. A `cpuRead` of a port is such a read first; a byte the host does not answer is a free value
(log entry 6). -/
def Obligations.HookCallsApplyAtOnce : Prop :=
  ∀ s : State, let inner := callbacks (scriptLength s - 1)
    let answered (calls : List HookCall) (t : State) : State := calls.foldl (fun t c => hookCall inner c t) t
    (∀ h : HookEvent, let t : State := { s with trace := .hook h :: s.trace }
      (s.hookScript = [] → callHook h s = t) ∧
      ∀ calls rest, s.hookScript = calls :: rest → callHook h s = answered calls { t with hookScript := rest }) ∧
    (∀ e : Event, let t : State := { s with trace := e :: s.trace }
      ((s.clock.syncDepth = 0 ∨ s.noticeScript = []) → callNotify e s = t) ∧
      ∀ calls rest, s.clock.syncDepth > 0 → s.noticeScript = calls :: rest →
        callNotify e s = answered calls { t with noticeScript := rest }) ∧
    (∀ a : CpuAddr, let cb := hostCallbacks s
      let t : State := { s with trace := .cpuRead a :: s.trace }
      ∃ u : State,
        (decodeBus (0#1 ++ a) = none → u = t) ∧
        (∀ op, decodeBus (0#1 ++ a) = some op →
          u = busEffect cb.hook cb.notify op 0#8 { t with trace := .diag .reentrantSync :: t.trace }) ∧
        (u.cpuScript = [] → (cb.cpuRead a s).1 = { u with drawCount := u.drawCount + 1 }) ∧
        ∀ answer rest, u.cpuScript = answer :: rest →
          cb.cpuRead a s = (answered answer.calls { u with cpuScript := rest }, answer.byte)) ∧
    (∀ (cb : Callbacks) (acc : BitVec 17) (d : Byte) (now : Nat), s.clock.syncDepth > 0 →
      let told : State := { s with trace := .diag .reentrantSync :: s.trace }
      hookCall cb (.sync now) s = told ∧
      (∀ op, decodeBus acc = some op → hookCall cb (.bus acc d now) s = busEffect cb.hook cb.notify op d told) ∧
      (decodeBus acc = none → hookCall cb (.bus acc d now) s = s) ∧
      (decodeBus acc = some .rdStatus → ¬(s.scan.scanline = 241 ∧ s.scan.cycleInLine = 1) →
        ∃ r : Byte,
          hookCall cb (.bus acc d now) s =
            { told with ports := { s.ports with vblank := false, w := false }, result := .byte r } ∧
          r.getLsbD 7 = s.ports.vblank) ∧
      (decodeBus acc = some .wrOamAddr →
        hookCall cb (.bus acc d now) s =
          { told with ports := { s.ports with lastWritten := d, oamAddr := d }, result := .none }))

/-- R164, R172, R174, R176, R177: how one cycle moves the scan position, when no callback calls back into the core: the
line ends with cycle 341, or with cycle 340 of line −1 in an odd frame with the background shown (D4); after the last line
comes line −1, which toggles `oddFrame` (the spec's choice D5). -/
def Obligations.OneCycleMovesTheScanPosition : Prop :=
  ∀ (ts : Nat) (s : State), ScanOk s → Unscripted s → s.clock.syncDepth = 1 →
    let u := ppuCycle (hostCallbacks s) ts s
    let skip := s.scan.scanline = -1 ∧ s.scan.cycleInLine = 340 ∧ s.scan.oddFrame = true ∧ s.ports.mask.getLsbD 3 = true
    (s.scan.cycleInLine < 341 → ¬skip →
      u.scan = ⟨s.scan.scanline, s.scan.cycleInLine + 1, s.scan.lineCyclesLeft - 1, s.scan.oddFrame⟩) ∧
    (s.scan.cycleInLine = 341 ∨ skip → s.scan.scanline < s.cfg.lastLine →
      u.scan = ⟨s.scan.scanline + 1, 1, 341, s.scan.oddFrame⟩) ∧
    (s.scan.cycleInLine = 341 → s.scan.scanline = s.cfg.lastLine → u.scan = ⟨-1, 1, 341, !s.scan.oddFrame⟩)

/-- R179, R402: a cycle at an unexpected position runs no unit: only the counters move and a diagnostic is emitted, also at
the end of the line, where the position goes to the start of the next line, of line −1 after a line out of range, with no
vertical blank, no frame start and no hook (the spec's D53; what follows a line in range is log entry 16's, DEDUCED). -/
def Obligations.UnexpectedPositionOnlyCounts : Prop :=
  ∀ (cb : Callbacks) (ts : Nat) (s : State),
    (s.scan.scanline < -1 ∨ s.cfg.lastLine < s.scan.scanline ∨ s.scan.cycleInLine < 1 ∨ 341 < s.scan.cycleInLine) →
    let next := if -1 ≤ s.scan.scanline ∧ s.scan.scanline < s.cfg.lastLine then s.scan.scanline + 1 else -1
    ppuCycle cb ts s =
      { s with
        clock := { s.clock with stepEnd := ts }
        scan :=
          if 2 ≤ s.scan.lineCyclesLeft then
            ⟨s.scan.scanline, s.scan.cycleInLine + 1, s.scan.lineCyclesLeft - 1, s.scan.oddFrame⟩
          else ⟨next, 1, 341, s.scan.oddFrame⟩
        trace := .diag .invariantViolation :: s.trace }

/-- R178: from the start of line −1 a frame is back there after `(lastLine + 2) · 341` cycles, one less when the odd-frame
skip of R172 happens (the spec's D4), and not sooner; the next frame has the other parity (R176: that `oddFrame` toggles on
entering line −1 is the spec's choice D5). -/
def Obligations.FrameLength : Prop :=
  ∀ (ts : Nat) (s : State), Unscripted s → s.clock.syncDepth = 1 →
    s.scan.scanline = -1 → s.scan.cycleInLine = 1 → s.scan.lineCyclesLeft = 341 →
    let n := (s.cfg.lastLine + 2).toNat * 341 - (if s.scan.oddFrame && s.ports.mask.getLsbD 3 then 1 else 0)
    (replay (hostCallbacks s) n ts s).scan = ⟨-1, 1, 341, !s.scan.oddFrame⟩ ∧
    ∀ k, 0 < k → k < n →
      ¬((replay (hostCallbacks s) k ts s).scan.scanline = -1 ∧ (replay (hostCallbacks s) k ts s).scan.cycleInLine = 1)

/-- R444: from the reset position, `vblank` is first set by the 82522nd cycle. -/
def Obligations.FirstVBlankAfterReset : Prop :=
  ∀ (ts : Nat) (s : State), Unscripted s → s.clock.syncDepth = 1 → s.scan = ⟨-1, 1, 341, false⟩ → s.ports.vblank = false →
    (∀ k, k < 82522 → (replay (hostCallbacks s) k ts s).ports.vblank = false) ∧
    (replay (hostCallbacks s) 82522 ts s).ports.vblank = true

/-- R175, R385, R405: the cycle that enters line 241 sets `vblank`; with NMI enabled it registers the edge at its end time,
unless a forecast did, whose entry it removes; with NMI disabled it registers nothing. -/
def Obligations.EnteringVBlankSignalsTheNmi : Prop :=
  ∀ (ts : Nat) (s : State), Unscripted s → s.clock.syncDepth = 1 → s.dma.timer = 0 →
    s.scan.scanline = 240 → s.scan.cycleInLine = 341 → s.scan.lineCyclesLeft = 1 →
    let u := ppuCycle (hostCallbacks s) ts s
    u.ports = { s.ports with vblank := true } ∧
    (s.ports.ctrl.getLsbD 7 = true → ts ∉ s.pred.nmiRegistered →
      u.trace = .hook (.scanlineStart 241) :: .setInterrupt .nmi ts :: s.trace ∧ u.pred = s.pred) ∧
    (s.ports.ctrl.getLsbD 7 = true → ts ∈ s.pred.nmiRegistered →
      u.trace = .hook (.scanlineStart 241) :: s.trace ∧ ts ∉ u.pred.nmiRegistered ∧
      ∀ t, t ≠ ts → (t ∈ u.pred.nmiRegistered ↔ t ∈ s.pred.nmiRegistered)) ∧
    (s.ports.ctrl.getLsbD 7 = false → u.trace = .hook (.scanlineStart 241) :: s.trace ∧ u.pred = s.pred)

/-! ## The predictor -/

/-- R380, R381, R382, R388, R389, R402: `predict` changes no real state: only the bookkeeping and the trace. Between calls it
registers the edges the replica finds in the cycles that end by `lastSyncTimestamp + horizon + PREDICT_MARGIN`, signalling
each that was not registered before, in order. A zero horizon is a diagnosed no-op, a horizon inside a replay is deferred, and
with `NMIE = 0` nothing is registered. -/
def Obligations.PredictKeepsTheRealState : Prop :=
  ∀ (horizon : Nat) (s : State),
    let reach := horizon + s.cfg.predictMargin
    let edges := forecastEdges s.cfg ((s.clock.remainder + reach) / s.cfg.clockDivider)
      (s.clock.lastSyncTimestamp + s.cfg.clockDivider - s.clock.remainder) (replicaOf s)
    ∃ u : State, exec (.predict horizon) s = .next u ∧
      u = { s with pred := u.pred, trace := u.trace, result := .none } ∧
      (horizon = 0 → u.pred = s.pred ∧ u.trace = .diag .invariantViolation :: s.trace) ∧
      (horizon ≠ 0 → s.clock.syncDepth > 0 →
        u.trace = s.trace ∧ u.pred = { s.pred with pendingHorizon := max s.pred.pendingHorizon horizon }) ∧
      (horizon ≠ 0 → s.clock.syncDepth = 0 →
        u.pred.predictedThrough = max s.pred.predictedThrough (s.clock.lastSyncTimestamp + reach) ∧
        u.pred.pendingHorizon = s.pred.pendingHorizon ∧
        (∀ ts, ts ∈ u.pred.nmiRegistered ↔ ts ∈ s.pred.nmiRegistered ∨ ts ∈ edges) ∧
        u.trace =
          ((edges.filter fun ts => decide (ts ∉ s.pred.nmiRegistered)).map (Event.setInterrupt .nmi)).reverse ++ s.trace ∧
        (s.clock.remainder ≤ s.clock.lastSyncTimestamp → ∀ ts ∈ edges,
          s.clock.lastSyncTimestamp - s.clock.remainder < ts ∧ ts ≤ s.clock.lastSyncTimestamp + reach)) ∧
      (horizon ≠ 0 → s.clock.syncDepth = 0 → s.ports.ctrl.getLsbD 7 = false →
        u.trace = s.trace ∧ u.pred.nmiRegistered = s.pred.nmiRegistered)

/-- R380: a forecast run twice over the same span registers each edge once: the second run changes nothing. -/
def Obligations.ForecastTwiceRegistersOnce : Prop :=
  ∀ (horizon : Nat) (s u : State), horizon ≠ 0 → exec (.predict horizon) s = .next u → exec (.predict horizon) u = .next u

/-- R386: between cycles, invalidating leaves exactly the edges of a fresh forecast registered, after one
`cpuClearInterrupt(NMI)`, each edge signalled once, and changes no real state. -/
def Obligations.InvalidationReplacesTheForecast : Prop :=
  ∀ s : State, s.cfg.wf = true → s.clock.syncDepth = 0 →
    let u := invalidateNmi callNotify s
    let h := s.cfg.repredictHorizon + s.cfg.predictMargin
    let edges := forecastEdges s.cfg ((s.clock.remainder + h) / s.cfg.clockDivider)
      (s.clock.lastSyncTimestamp + s.cfg.clockDivider - s.clock.remainder) (replicaOf s)
    u = { s with pred := u.pred, trace := u.trace } ∧
    u.pred.nmiRegistered = edges ∧
    u.pred.predictedThrough = s.clock.lastSyncTimestamp + h ∧
    u.trace = (edges.map (Event.setInterrupt .nmi)).reverse ++ .clearInterrupt .nmi :: s.trace

/-- R381, R383: with nothing forecast before, no callback into the core and no running DMA that reads a port, the edges the
replica forecasts over `n` cycles are the NMI edges the real cycles make, at the same times and in the same order. -/
def Obligations.ForecastMatchesTheRealCycles : Prop :=
  ∀ (n ts : Nat) (s : State), ScanOk s → Unscripted s → s.clock.syncDepth = 1 → ReadsNoPort s →
    s.pred.nmiRegistered = [] →
    nmiSignals (replay (hostCallbacks s) n ts s).trace =
      (forecastEdges s.cfg n ts (replicaOf s)).reverse ++ nmiSignals s.trace

/-! ## Power-on, reset and the maps -/

/-- R441, R442: between calls, `reset` withdraws the NMI registrations, sets the clock to `now` and every field to its reset
value (secondary OAM to `$FF`), and keeps memory, maps, frame and configuration. -/
def Obligations.ResetSetsTheResetValues : Prop :=
  ∀ (now : Nat) (s : State), s.clock.syncDepth = 0 → s.clock.lastSyncTimestamp ≤ now →
    exec (.reset now) s =
      .next { s with
        clock := ⟨now, 0, 0, false, now⟩
        scan := ⟨-1, 1, 341, false⟩
        ports := ⟨0, 0, false, false, false, 0, 0, 0, 0, 0, 0, false⟩
        bg := ⟨0, 0, ⟨0, 0⟩, ⟨0, 0⟩, 0, 0, 0, 0, 0, 0, 0, []⟩
        eval := ⟨.done, 0, 0, 0, 0, false, Vector.replicate 8 0⟩
        sec := []
        slots := Vector.replicate 8 ⟨0, 0, 0, 0, 0, true⟩
        fetch := ⟨0, 0, 0, 0, 0⟩
        dma := ⟨0, 0, 0, 0, .read⟩
        pred := ⟨[], now, 0⟩
        trace := .clearInterrupt .nmi :: s.trace
        result := .none } ∧
    ∀ i : Nat, readCell .sec [] i = 0xFF#8

/-- R440, R443: `powerOn` sets every field to its reset value, the maps to the cartridge's, and the memories to the draw
(given here in canonical form); pattern RAM is drawn and pattern ROM kept; no collaborator is called. -/
def Obligations.PowerOnTakesTheDraw : Prop :=
  ∀ (now : Nat) (draw : PowerOnMemory) (ntMap : NtMap) (ptMap : PtMap) (s : State),
    Memory.wf .nt draw.nt → Memory.wf .pal draw.pal → Memory.wf .oam draw.oam → Memory.wf .frame draw.frame →
    ∃ chr' : List Host.Cell,
      exec (.powerOn now draw ntMap ptMap) s =
        .next { s with
          clock := ⟨now, 0, 0, false, now⟩
          scan := Scan.reset
          ports := Ports.reset
          bg := Background.reset
          eval := Evaluator.reset
          sec := []
          slots := Vector.replicate 8 Slot.reset
          fetch := SpriteFetch.reset
          dma := Dma.reset
          pred := ⟨[], now, 0⟩
          maps := ⟨ntMap, ptMap⟩
          nt := draw.nt
          chr := chr'
          pal := draw.pal
          oam := draw.oam
          frame := draw.frame
          result := .none } ∧
      (∀ k, s.cfg.chrByteWritable k = false → readCell .chr chr' k = readCell .chr s.chr k) ∧
      (Memory.wf .chr draw.chr →
        ∀ k, s.cfg.chrByteWritable k = true → readCell .chr chr' k = readCell .chr draw.chr k)

/-- R96, R401: a name-table remap whose banks all exist replaces the four entries at once; any other only emits
`diag(ConfigError)`. -/
def Obligations.NametableRemap : Prop :=
  ∀ (map : NtMap) (s : State),
    ((∀ b ∈ map.toList, b < s.cfg.ntWritable.length) →
      exec (.remapNametables map) s = .next { s with maps := { s.maps with ntMap := map }, result := .none }) ∧
    ((∃ b ∈ map.toList, s.cfg.ntWritable.length ≤ b) →
      exec (.remapNametables map) s = .next { s with trace := .diag .configError :: s.trace, result := .none })

/-- R97, R401: a valid pattern remap makes the addresses of `[start, start + pageSize)` read `CHR` from `source` on in the
view or views named, and changes no other address of either view; an invalid one only emits `diag(ConfigError)`. -/
def Obligations.PatternRemap : Prop :=
  ∀ (view : RemapView) (start pageSize source : Nat) (s : State),
    let valid := pageSize ∈ [1024, 2048, 4096, 8192] ∧ start % pageSize = 0 ∧ start + pageSize ≤ 0x2000
    (valid → ∃ m : PtMap,
      exec (.remapPatterns view start pageSize source) s =
        .next { s with maps := { s.maps with ptMap := m }, result := .none } ∧
      ∀ a : PpuAddr, a < 0x2000#14 →
        let inside := start ≤ a.toNat ∧ a.toNat < start + pageSize
        chrIndex m.bg a =
          (if inside ∧ view ≠ .spr then source + (a.toNat - start) else chrIndex s.maps.ptMap.bg a) ∧
        chrIndex m.spr a =
          (if inside ∧ view ≠ .bg then source + (a.toNat - start) else chrIndex s.maps.ptMap.spr a)) ∧
    (¬valid →
      exec (.remapPatterns view start pageSize source) s =
        .next { s with trace := .diag .configError :: s.trace, result := .none })

/-- R108, R136, R180, R344: the phase of a status query and the pixels of a frame-buffer query; neither changes anything or
syncs. -/
def Obligations.QueriesAnswerWithoutSyncing : Prop :=
  ∀ s : State, exec .frameBuffer s = .next { s with result := .frame s.frame } ∧
    ∃ p : Phase,
      exec .statusQuery s = .next { s with result := .phase p } ∧
      (241 ≤ s.scan.scanline → p.code = 5) ∧
      (s.scan.scanline = 240 → p.code = 4) ∧
      (s.scan.scanline ≤ 239 → s.ports.mask.getLsbD 3 = false → s.ports.mask.getLsbD 4 = false → p.code = 3) ∧
      (s.ports.mask.getLsbD 3 = true ∨ s.ports.mask.getLsbD 4 = true →
        (s.scan.scanline = -1 → p.code = 0) ∧
        (0 ≤ s.scan.scanline → s.scan.scanline ≤ 239 → 1 ≤ s.scan.cycleInLine → s.scan.cycleInLine ≤ 256 →
          p.code = 1) ∧
        (0 ≤ s.scan.scanline → s.scan.scanline ≤ 239 → 257 ≤ s.scan.cycleInLine → p.code = 2))

/-! ## Video memory and the background -/

/-- R95, R96, R97, R100: what each address of the video space reads, in either view: below `$2000` the byte of `CHR` its 1 KiB
page of the view is mapped to, below `$3F00` the byte of the bank `ntMap` gives its name-table slot, and from there on the
palette. So `$3000–$3EFF` reads the name tables of `$2000–$2EFF`; palette addresses repeat every 32 bytes (`palIndex` as a
remainder); the entries `$10`, `$14`, `$18`, `$1C` are those of `$00`, `$04`, `$08`, `$0C`, and no others are shared. How banks
and pages are numbered is log entry 3's. -/
def Obligations.VideoAddressMirrors : Prop :=
  (∀ (view : PatternView) (s : State) (a : PpuAddr),
    let pages : PtPages := match view with
      | .bg => s.maps.ptMap.bg
      | .spr => s.maps.ptMap.spr
    (a < 0x2000#14 → vRead view s a = readCell .chr s.chr (pages[a.toNat / 1024 % 8] + a.toNat % 1024)) ∧
    (0x2000#14 ≤ a → a < 0x3F00#14 →
      vRead view s a = readCell .nt s.nt (1024 * s.maps.ntMap[a.toNat / 1024 % 4] + a.toNat % 1024)) ∧
    (0x3F00#14 ≤ a → vRead view s a = readCell .pal s.pal (palIndex a).toNat)) ∧
  (∀ (view : PatternView) (s : State) (a : PpuAddr), 0x3000#14 ≤ a → a < 0x3F00#14 →
    vRead view s a = vRead view s (a - 0x1000#14)) ∧
  (∀ (view : PatternView) (s : State) (a : PpuAddr), 0x3F00#14 ≤ a → a < 0x3FE0#14 →
    vRead view s a = vRead view s (a + 32#14)) ∧
  (∀ a : PpuAddr, (palIndex a).toNat = if a.toNat % 4 = 0 then a.toNat % 16 else a.toNat % 32) ∧
  (∀ a b : PpuAddr, palIndex a = palIndex b ↔
    a.toNat % 32 = b.toNat % 32 ∨ (a.toNat % 4 = 0 ∧ a.toNat % 16 = b.toNat % 16))

/-- R259, R260: the four updates of `v`, field by field, and the cycles in which the background makes them, under a mapper
that only watches the bus: coarse X with the last fetch of a tile, `yInc` after it at cycle 256 of a visible line, `copyHori`
at 257, `copyVert` at 280 to 304 of line −1, and none in any other (the cycles are the spec's D18). -/
def Obligations.ScrollRegisterUpdates : Prop :=
  (∀ v t : Loopy,
    (coarseX v ≠ 31#5 → coarseXInc v = v + 1#15) ∧
    (coarseX v = 31#5 → coarseXInc v = (v - 31#15) ^^^ 0x0400#15) ∧
    (fineY v ≠ 7#3 → yInc v = v + 0x1000#15) ∧
    (fineY v = 7#3 → coarseY v ≠ 29#5 → coarseY v ≠ 31#5 → yInc v = (v &&& 0x0FFF#15) + 0x20#15) ∧
    (fineY v = 7#3 → coarseY v = 29#5 → yInc v = (v &&& 0x0C1F#15) ^^^ 0x0800#15) ∧
    (fineY v = 7#3 → coarseY v = 31#5 → yInc v = v &&& 0x0C1F#15) ∧
    copyHori t v = (v &&& 0x7BE0#15) ||| (t &&& 0x041F#15) ∧
    copyVert t v = (v &&& 0x041F#15) ||| (t &&& 0x7BE0#15)) ∧
  ∀ (line : Int) (c : Nat) (s : State), -1 ≤ line → line ≤ 239 → 1 ≤ c → c ≤ 341 →
    let watch : Hook := fun h t => { t with trace := .hook h :: t.trace }
    let fetches := (0 ≤ line ∧ c ≤ 256) ∨ (321 ≤ c ∧ c ≤ 340)
    (bgCycle watch line c s).ports = { s.ports with
      v :=
        if 0 ≤ line ∧ c = 256 then yInc (coarseXInc s.ports.v)
        else if fetches ∧ c % 8 = 0 then coarseXInc s.ports.v
        else if c = 257 then copyHori s.ports.t s.ports.v
        else if line = -1 ∧ 280 ≤ c ∧ c ≤ 304 then copyVert s.ports.t s.ports.v
        else s.ports.v }

/-- R253 to R256: the fetch addresses as sums of the fields. -/
def Obligations.BackgroundFetchAddresses : Prop :=
  ∀ (p : Ports) (nt : Byte),
    (ntAddr p.v).toNat = 0x2000 + p.v.toNat % 0x1000 ∧
    (atAddr p.v).toNat =
      0x23C0 + 0x400 * (ntSel p.v).toNat + 8 * ((coarseY p.v).toNat / 4) + (coarseX p.v).toNat / 4 ∧
    (atShiftOf p.v).toNat = 4 * ((coarseY p.v).toNat / 2 % 2) + 2 * ((coarseX p.v).toNat / 2 % 2) ∧
    (ptAddr p nt 0#14).toNat = (if p.ctrl.getLsbD 4 then 0x1000 else 0) + 16 * nt.toNat + (fineY p.v).toNat ∧
    (ptAddr p nt 8#14).toNat = (if p.ctrl.getLsbD 4 then 0x1000 else 0) + 16 * nt.toNat + 8 + (fineY p.v).toNat

/-- R260, R264, R265: the column's entry of `bgLine` becomes the tapped pixel with its tile's palette, transparent when the
background is off, clipped or of colour 0; other columns and everything else are unchanged. It happens last in cycles 1 to
256 of a visible line, for the column before the cycle's number, and in no other cycle (under a mapper that only watches the
bus). -/
def Obligations.BackgroundPixelOfAColumn : Prop :=
  (∀ (col : Nat) (s : State), let u := bgPixel col s
    let i := 15 - s.bg.fineXLine.toNat
    let attr := if s.bg.reloadCounter + s.bg.fineXLine.toNat < 8 then s.bg.attrCur else s.bg.attrNext
    let opaquePixel := (s.bg.patHi.getLsbD i = true ∨ s.bg.patLo.getLsbD i = true) ∧ s.ports.mask.getLsbD 3 = true ∧
      (8 ≤ col ∨ s.ports.mask.getLsbD 1 = true)
    u = { s with bg := { s.bg with line := u.bg.line } } ∧
    (∀ k, k ≠ col → bgLineAt u.bg k = bgLineAt s.bg k) ∧
    (¬opaquePixel → bgLineAt u.bg col = ⟨0, 0⟩) ∧
    (opaquePixel →
      (bgLineAt u.bg col).pix.toNat =
        2 * (if s.bg.patHi.getLsbD i then 1 else 0) + (if s.bg.patLo.getLsbD i then 1 else 0) ∧
      (bgLineAt u.bg col).pal.toNat = attr.byte.toNat / 2 ^ attr.shift.toNat % 4)) ∧
  ∀ (line : Int) (c : Nat) (s : State), -1 ≤ line → line ≤ 239 → 1 ≤ c → c ≤ 341 →
    let watch : Hook := fun h t => { t with trace := .hook h :: t.trace }
    let u := bgCycle watch line c s
    (0 ≤ line → c ≤ 256 → u = bgPixel (c - 1) { u with bg := { u.bg with line := s.bg.line } }) ∧
    ((line = -1 ∨ 257 ≤ c) → u.bg.line = s.bg.line)

/-- R260 to R262: in which cycles the background shifts and reloads, under a mapper that only watches the bus. A shift moves
both planes left by one and counts, to 16 at most (D17); a reload, always with a shift, puts the latches below what was
shifted, hands the attribute on and clears the count; in every other cycle all of this is kept. Where the background
fetches nothing (cycle 257 of a visible line) nothing else changes, no latch and no other port, but `v` by `copyHori`,
whatever the mapper does. -/
def Obligations.ReloadHandsTheTileOn : Prop :=
  (∀ (hook : Hook) (line : Int) (s : State), 0 ≤ line → line ≤ 239 →
    let u := bgCycle hook line 257 s
    u = { s with
      bg := { s.bg with
        patLo := u.bg.patLo, patHi := u.bg.patHi, attrCur := s.bg.attrNext
        attrNext := ⟨s.bg.atByte, s.bg.atShift⟩, reloadCounter := 0 }
      ports := { s.ports with v := copyHori s.ports.t s.ports.v } } ∧
    u.bg.patLo.extractLsb' 8 8 = s.bg.patLo.extractLsb' 7 8 ∧ u.bg.patLo.extractLsb' 0 8 = s.bg.ptLo ∧
    u.bg.patHi.extractLsb' 8 8 = s.bg.patHi.extractLsb' 7 8 ∧ u.bg.patHi.extractLsb' 0 8 = s.bg.ptHi) ∧
  ∀ (line : Int) (c : Nat) (s : State), -1 ≤ line → line ≤ 239 → 1 ≤ c → c ≤ 341 →
    let watch : Hook := fun h t => { t with trace := .hook h :: t.trace }
    let u := bgCycle watch line c s
    let shifts := (0 ≤ line ∧ 2 ≤ c ∧ c ≤ 257) ∨ (322 ≤ c ∧ c ≤ 337)
    let reloads := (0 ≤ line ∧ 9 ≤ c ∧ c ≤ 257 ∧ c % 8 = 1) ∨ c = 329 ∨ c = 337
    (reloads →
      u.bg.patLo.extractLsb' 8 8 = s.bg.patLo.extractLsb' 7 8 ∧ u.bg.patLo.extractLsb' 0 8 = s.bg.ptLo ∧
      u.bg.patHi.extractLsb' 8 8 = s.bg.patHi.extractLsb' 7 8 ∧ u.bg.patHi.extractLsb' 0 8 = s.bg.ptHi ∧
      u.bg.attrCur = s.bg.attrNext ∧ u.bg.attrNext = ⟨s.bg.atByte, s.bg.atShift⟩ ∧ u.bg.reloadCounter = 0) ∧
    (shifts → ¬reloads →
      u.bg.patLo.toNat = 2 * s.bg.patLo.toNat % 0x10000 ∧ u.bg.patHi.toNat = 2 * s.bg.patHi.toNat % 0x10000 ∧
      u.bg.attrCur = s.bg.attrCur ∧ u.bg.attrNext = s.bg.attrNext ∧
      u.bg.reloadCounter = min (s.bg.reloadCounter + 1) 16) ∧
    (¬shifts →
      u.bg.patLo = s.bg.patLo ∧ u.bg.patHi = s.bg.patHi ∧ u.bg.attrCur = s.bg.attrCur ∧
      u.bg.attrNext = s.bg.attrNext ∧ u.bg.reloadCounter = s.bg.reloadCounter)

/-- R251 to R257, R260, R263: the fetch slots under a mapper that only watches the bus: which byte each fetching cycle latches,
from which address (in cycles 337 to 340 both fetches are of the name table), which cycles of a rendering line fetch, and
that cycle 1 of a visible line, and no other, samples fine X (the cycles are the spec's D18, the sample its D17). -/
def Obligations.FetchSlotsLatchTheirBytes : Prop :=
  ∀ (c : Nat) (s : State), 1 ≤ c → c ≤ 341 →
    let watch : Hook := fun h t => { t with trace := .hook h :: t.trace }
    let p := (c - 1) % 8
    let u := fetchSlot watch c s
    (p % 2 = 0 → u = s) ∧
    (p = 1 ∨ (p = 3 ∧ 337 ≤ c) → u = { s with
      trace := .hook (.addr (ntAddr s.ports.v)) :: s.trace
      bg := { s.bg with ntByte := vRead .bg s (ntAddr s.ports.v) } }) ∧
    (p = 3 → c ≤ 336 → u = { s with
      trace := .hook (.addr (atAddr s.ports.v)) :: s.trace
      bg := { s.bg with atByte := vRead .bg s (atAddr s.ports.v), atShift := atShiftOf s.ports.v } }) ∧
    (p = 5 → u = { s with
      trace := .hook (.addr (ptAddr s.ports s.bg.ntByte 0#14)) :: s.trace
      bg := { s.bg with ptLo := vRead .bg s (ptAddr s.ports s.bg.ntByte 0#14) } }) ∧
    (p = 7 → u = { s with
      trace := .hook (.addr (ptAddr s.ports s.bg.ntByte 8#14)) :: s.trace
      bg := { s.bg with ptHi := vRead .bg s (ptAddr s.ports s.bg.ntByte 8#14) }
      ports := { s.ports with v := coarseXInc s.ports.v } }) ∧
    ∀ line : Int, -1 ≤ line → line ≤ 239 →
      let b := bgCycle watch line c s
      let latched := if (0 ≤ line ∧ c ≤ 256) ∨ (321 ≤ c ∧ c ≤ 340) then u else s
      b = { s with trace := latched.trace, ports := b.ports, bg := b.bg } ∧
      b.bg.ntByte = latched.bg.ntByte ∧ b.bg.atByte = latched.bg.atByte ∧ b.bg.atShift = latched.bg.atShift ∧
      b.bg.ptLo = latched.bg.ptLo ∧ b.bg.ptHi = latched.bg.ptHi ∧
      b.bg.fineXLine = if 0 ≤ line ∧ c = 1 then s.ports.x else s.bg.fineXLine

/-- R266: the background cycles 321 to 341 of a rendering line fetch the next line's first two tiles: at its start the planes
hold the tile at the scroll position above the next one, with their attributes, and the reload counter is 0 (the spec's D17, D18). -/
def Obligations.PrefetchLoadsTheFirstTwoTiles : Prop :=
  ∀ (line : Int) (s : State), -1 ≤ line → line ≤ 239 →
    let watch : Hook := fun h t => { t with trace := .hook h :: t.trace }
    let u := (List.range' 321 21).foldl (fun t c => bgCycle watch line c t) s
    let v0 := s.ports.v
    let v1 := coarseXInc v0
    let plane (v : Loopy) (k : PpuAddr) : Byte :=
      vRead .bg s (ptAddr { s.ports with v := v } (vRead .bg s (ntAddr v)) k)
    u.bg.patLo = plane v0 0#14 ++ plane v1 0#14 ∧
    u.bg.patHi = plane v0 8#14 ++ plane v1 8#14 ∧
    u.bg.attrCur = ⟨vRead .bg s (atAddr v0), atShiftOf v0⟩ ∧
    u.bg.attrNext = ⟨vRead .bg s (atAddr v1), atShiftOf v1⟩ ∧
    u.bg.reloadCounter = 0 ∧
    u.ports = { s.ports with v := coarseXInc v1 }

/-! ## Sprites -/

/-- R300: from the evaluator's reset, `Done` is reached within 92 steps, whatever OAM, the line and the sprite size. -/
def Obligations.EvaluationIsDoneInTime : Prop :=
  ∀ (line : Int) (s : State),
    ((evalStep line)^[92] { s with eval := evalReset s.eval }).eval.state = .done

/-- R290, R291, R293, R296: on line −1 no sprite is in range: however many steps run after the evaluator's reset, no entry is
copied, no byte of secondary OAM is written and the overflow flag is not set; the line's cycles 1 to 256 leave secondary OAM
all `$FF` and the evaluator done. -/
def Obligations.PreRenderLineFindsNoSprite : Prop :=
  (∀ (k : Nat) (s : State),
    let u := (evalStep (-1))^[k] { s with eval := evalReset s.eval }
    u.eval.copiedCount = 0 ∧ u.sec = s.sec ∧ u.ports = s.ports) ∧
  ∀ s : State, let u := (List.range' 1 256).foldl (fun t c => spriteEvalCycle (-1) c t) s
    u = { s with eval := u.eval, sec := u.sec } ∧ u.eval.copiedCount = 0 ∧ u.eval.state = .done ∧
    ∀ k : Nat, k < 32 → readCell .sec u.sec k = 0xFF#8

/-- R290, R291, R293, R294, R295, R301: a cycle of the evaluation: the even ones of 1 to 64 clear one byte of secondary OAM to
`$FF`, 65 resets the evaluator, the even ones of 66 to 256 run one step, and no other does anything (which of two is the
spec's D12). A `CopyEntry` step on any OAM: at `m = 0` an entry in range has its Y byte and its index recorded, and one out of
range is passed over; at `m = 1` to 3 the entry's byte is copied, and the last one ends the entry and locks the evaluator at
eight (one byte a step is the spec's D11). When the first nine entries' Y ranges cover the line, 33 steps after the reset,
and so after cycle 256, eight entries are copied byte for byte (Y, tile, attribute, X) and the overflow flag is set. -/
def Obligations.NineSpritesOverflow : Prop :=
  ∀ (line : Int) (s : State),
    (∀ c : Nat,
      (2 ≤ c → c ≤ 64 → c % 2 = 0 → let u := spriteEvalCycle line c s
        u = { s with sec := u.sec } ∧ readCell .sec u.sec (c / 2 - 1) = 0xFF#8 ∧
        ∀ k, k ≠ c / 2 - 1 → readCell .sec u.sec k = readCell .sec s.sec k) ∧
      (c = 65 → spriteEvalCycle line c s = { s with
        eval := ⟨.copyEntry, 0, 0, 0, 0, false, s.eval.secIndex⟩ }) ∧
      (66 ≤ c → c ≤ 256 → c % 2 = 0 → spriteEvalCycle line c s = evalStep line s) ∧
      ((c = 0 ∨ 256 < c ∨ (c % 2 = 1 ∧ c ≠ 65)) → spriteEvalCycle line c s = s)) ∧
    (s.eval.state = .copyEntry → s.eval.copiedCount < 8 →
      let e := s.eval
      let u := evalStep line s
      let b := readCell .oam s.oam (4 * e.n.toNat + e.m.toNat)
      let covers := 0 ≤ line - b.toNat ∧ line - b.toNat < (if s.ports.ctrl.getLsbD 5 then 16 else 8)
      let next (e : Evaluator) : Evaluator :=
        if e.n = 63#6 then { e with n := 0, state := .done }
        else { e with n := e.n + 1#6, state := if e.writeLocked then .overflow else e.state }
      let stores : Prop := u = { s with eval := u.eval, sec := u.sec } ∧
        readCell .sec u.sec (4 * e.copiedCount + e.m.toNat) = b ∧
        ∀ k, k ≠ 4 * e.copiedCount + e.m.toNat → readCell .sec u.sec k = readCell .sec s.sec k
      (e.m = 0#2 → covers → stores ∧ u.eval = { e with m := 1, secIndex := u.eval.secIndex } ∧
        u.eval.secIndex[e.copiedCount]? = some e.n ∧
        ∀ j, j ≠ e.copiedCount → u.eval.secIndex[j]? = e.secIndex[j]?) ∧
      (e.m = 0#2 → ¬covers → u = { s with eval := next e }) ∧
      (e.m = 1#2 ∨ e.m = 2#2 → stores ∧ u.eval = { e with m := e.m + 1#2 }) ∧
      (e.m = 3#2 → stores ∧ u.eval = next { e with
        m := 0, copiedCount := e.copiedCount + 1
        writeLocked := if e.copiedCount + 1 = 8 then true else e.writeLocked })) ∧
    ((∀ k : Nat, k < 9 →
        inRange line (readCell .oam s.oam (4 * k)) (if s.ports.ctrl.getLsbD 5 then 16 else 8) = true) →
      let copied (u : State) : Prop :=
        u.eval.copiedCount = 8 ∧ u.ports = { s.ports with spriteOverflow := true } ∧
        (∀ k : Nat, k < 32 → readCell .sec u.sec k = readCell .oam s.oam k) ∧
        (∀ k : Nat, k < 8 → u.eval.secIndex[k]? = some (BitVec.ofNat 6 k))
      copied ((evalStep line)^[33] { s with eval := evalReset s.eval }) ∧
      copied ((List.range' 1 256).foldl (fun t c => spriteEvalCycle line c t) s))

/-- R292, R297, R298, R299: the steps in the `Overflow`, `Scan` and `Done` states. An overflow step reads byte `m` of entry `n`
as a Y coordinate: where it is out of range, `m` steps with `n` (the hardware's defect, no carry); in range it sets the
overflow flag and goes on in `Scan` at the entry's next byte. `Scan` reads three more bytes, then steps `n` alone; `n` past
63 is `Done`. Nothing outside the evaluator's own fields is written but that flag (`Scan` is the spec's D11). -/
def Obligations.OverflowStepWritesNoSprite : Prop :=
  ∀ (line : Int) (s : State), s.eval.state ≠ .copyEntry →
    let u := evalStep line s
    let e := s.eval
    let y := readCell .oam s.oam (4 * e.n.toNat + e.m.toNat)
    let hit := e.state = .overflow ∧ 0 ≤ line - y.toNat ∧ line - y.toNat < (if s.ports.ctrl.getLsbD 5 then 16 else 8)
    let next (e : Evaluator) : Evaluator :=
      if e.n = 63#6 then { e with n := 0, state := .done } else { e with n := e.n + 1#6 }
    let carried (e : Evaluator) : Evaluator := if e.m = 3#2 then next { e with m := 0 } else { e with m := e.m + 1#2 }
    u.eval.copiedCount = e.copiedCount ∧ u.eval.secIndex = e.secIndex ∧
    (hit → u = { s with ports := { s.ports with spriteOverflow := true }, eval := u.eval } ∧
      (u.eval.state = .scan ∨ u.eval.state = .done) ∧
      u.eval = carried { e with state := .scan, subState := 1 }) ∧
    (¬hit → u = { s with eval := u.eval }) ∧
    (e.state = .overflow → ¬hit → u.eval = next { e with m := e.m + 1#2 }) ∧
    (e.state = .scan → (e.subState = 1 ∨ e.subState = 2) → u.eval = carried { e with subState := e.subState + 1 }) ∧
    (e.state = .scan → e.subState = 3 → u.eval = { carried { e with subState := 0 } with m := 0 }) ∧
    (e.state = .scan → e.subState = 0 → u.eval = next e) ∧
    (e.state = .done → u = s)

/-- R330 to R334, R336: the sprite window, cycles 257 to 320. Every cycle clears `oamAddr`; the first kills all eight slots, and so
does cycle 257 of a forced blank, which keeps `oamAddr`. Of the eight cycles of slot `i` the second latches its four bytes
from secondary OAM, the sixth fetches the low and the eighth the high pattern byte through the sprite view, calling the
address hook, and the eighth fills the slot, dead when `i` is not below `copiedCount`, and on line −1 always (R336; where
`copiedCount` is left over from an earlier line this is log entry 29's, DEDUCED); no other cycle does anything. -/
def Obligations.SpriteWindowClearsTheCursorAndTheSlots : Prop :=
  ∀ (hook : Hook) (line : Int) (s : State),
    (spriteFetchCycle hook line 257 s).ports.oamAddr = 0 ∧
    (∀ slot ∈ (spriteFetchCycle hook line 257 s).slots.toList, slot.dead = true) ∧
    (∀ slot ∈ (blankCycle line 257 s).slots.toList, slot.dead = true) ∧
    blankCycle line 257 s = { s with slots := (blankCycle line 257 s).slots } ∧
    (∀ c, 257 ≤ c → c ≤ 320 → (∀ h t, (hook h t).ports.oamAddr = t.ports.oamAddr) →
      (spriteFetchCycle hook line c s).ports.oamAddr = 0) ∧
    ∀ c : Nat,
      let u := spriteFetchCycle hook line c s
      let i := (c - 257) / 8
      let o := (c - 257) % 8
      let q : State := { s with ports := { s.ports with oamAddr := 0 } }
      let sec (k : Nat) : Byte := readCell .sec s.sec (4 * i + k)
      let valid := decide (i < s.eval.copiedCount)
      ((c < 257 ∨ 320 < c) → u = s) ∧
      (c = 257 → u.slots.toList = s.slots.toList.map (fun slot => { slot with dead := true }) ∧
        u = { q with slots := u.slots }) ∧
      (257 < c → c ≤ 320 →
        (o = 1 → u = { q with fetch := ⟨sec 0, sec 1, sec 2, sec 3, s.fetch.lo⟩ }) ∧
        (o = 5 → let a := sprAddr s.ports line s.fetch valid 0#14
          let t := hook (.addr a) q
          u = { t with fetch := { t.fetch with lo := vRead .spr t a } }) ∧
        (o = 7 → let a := sprAddr s.ports line s.fetch valid 8#14
          let t := hook (.addr a) q
          u = { t with slots := u.slots } ∧
          u.slots[i]? = some
            (if 0 ≤ line ∧ i < t.eval.copiedCount then
              ⟨t.eval.secIndex[i]?.getD 0, t.fetch.lo, vRead .spr t a, t.fetch.attr, t.fetch.x, false⟩
            else ⟨0, 0, 0, 0, 0, true⟩) ∧
          ∀ j, j ≠ i → u.slots[j]? = t.slots[j]?) ∧
        (o ≠ 1 → o ≠ 5 → o ≠ 7 → u = q))

/-- R333: the sprite pattern address of a valid slot as a sum, in both sprite sizes and with the vertical flip, and of a
dummy fetch of tile `$FF`. -/
def Obligations.SpritePatternAddress : Prop :=
  ∀ (p : Ports) (line : Int) (f : SpriteFetch), let row := (line - f.y.toNat).toNat
    (p.ctrl.getLsbD 5 = false → 0 ≤ line - f.y.toNat → row < 8 →
      (sprAddr p line f true 0#14).toNat =
        (if p.ctrl.getLsbD 3 then 0x1000 else 0) + 16 * f.tile.toNat + (if f.attr.getLsbD 7 then 7 - row else row)) ∧
    (p.ctrl.getLsbD 5 = true → 0 ≤ line - f.y.toNat → row < 16 →
      let r := if f.attr.getLsbD 7 then 15 - row else row
      (sprAddr p line f true 0#14).toNat =
        0x1000 * (f.tile.toNat % 2) + 16 * (2 * (f.tile.toNat / 2) + r / 8) + r % 8) ∧
    (p.ctrl.getLsbD 5 = false →
      (sprAddr p line f false 0#14).toNat = (if p.ctrl.getLsbD 3 then 0x1000 else 0) + 0x0FF0) ∧
    (p.ctrl.getLsbD 5 = true → (sprAddr p line f false 0#14).toNat = 0x1FE0) ∧
    (∀ valid, sprAddr p line f valid 8#14 = sprAddr p line f valid 0#14 + 8#14)

/-- R337 to R343: what one column's composition does, with rendering on and sprites shown there: the slots are clocked, the
pixel of the priority multiplexer is written and no other, and sprite 0 over an opaque background sets the hit flag. -/
def Obligations.ComposedPixel : Prop :=
  ∀ (line : Int) (col : Nat) (s : State), 0 ≤ line →
    s.ports.mask.getLsbD 4 = true → (8 ≤ col ∨ s.ports.mask.getLsbD 2 = true) →
    let u := composePixel line col s
    let bg := bgLineAt s.bg col
    let grey (b : Byte) : Byte := if s.ports.mask.getLsbD 0 then b &&& 0x30#8 else b
    let at' := readCell .frame u.frame (line.toNat * 256 + col)
    u = { s with slots := u.slots, frame := u.frame, ports := { s.ports with sprite0Hit := u.ports.sprite0Hit } } ∧
    u.slots.toList = s.slots.toList.map Slot.clock ∧
    (∀ k, k ≠ line.toNat * 256 + col → readCell .frame u.frame k = readCell .frame s.frame k) ∧
    ((∀ slot ∈ s.slots.toList, slot.pixel = 0#2) →
      u.ports.sprite0Hit = s.ports.sprite0Hit ∧
      at' = grey (readCell .pal s.pal (if bg.pix = 0#2 then 0 else 4 * bg.pal.toNat + bg.pix.toNat))) ∧
    (∀ (before after : List Slot) (slot : Slot), s.slots.toList = before ++ slot :: after →
      (∀ b ∈ before, b.pixel = 0#2) → slot.pixel ≠ 0#2 →
      u.ports.sprite0Hit = (s.ports.sprite0Hit || (decide (slot.originalIndex = 0#6) && decide (bg.pix ≠ 0#2))) ∧
      ((slot.attributeLatch.getLsbD 5 = false ∨ bg.pix = 0#2) →
        at' = grey (readCell .pal s.pal
          (16 + 4 * (slot.attributeLatch.extractLsb' 0 2).toNat + slot.pixel.toNat))) ∧
      (slot.attributeLatch.getLsbD 5 = true → bg.pix ≠ 0#2 →
        at' = grey (readCell .pal s.pal (4 * bg.pal.toNat + bg.pix.toNat))))

/-- R339: where sprites are off or clipped no sprite pixel is shown and no hit happens, but with rendering on the slots are
still clocked; nothing changes but the slots and the column's entry of the frame. R331, R343: in forced blank the pixel is the
backdrop and the slots stay; a blank cycle makes the column's entry of `bgLine` transparent in cycles 1 to 256 of a visible
line, kills the slots in cycle 257, and does nothing else: no fetch, no evaluation step, no shift, `v` kept (R331; that the
slots die at 257 is the spec's D15). -/
def Obligations.SuppressedSpritesAndForcedBlank : Prop :=
  (∀ (line : Int) (col : Nat) (s : State), 0 ≤ line →
    let u := composePixel line col s
    let bg := bgLineAt s.bg col
    let grey (b : Byte) : Byte := if s.ports.mask.getLsbD 0 then b &&& 0x30#8 else b
    ((s.ports.mask.getLsbD 4 = false ∨ (col < 8 ∧ s.ports.mask.getLsbD 2 = false)) →
      u = { s with slots := u.slots, frame := u.frame } ∧
      (∀ k, k ≠ line.toNat * 256 + col → readCell .frame u.frame k = readCell .frame s.frame k) ∧
      readCell .frame u.frame (line.toNat * 256 + col) =
        grey (readCell .pal s.pal (if bg.pix = 0#2 then 0 else 4 * bg.pal.toNat + bg.pix.toNat))) ∧
    (s.ports.renderingEnabled = true → u.slots.toList = s.slots.toList.map Slot.clock) ∧
    (s.ports.renderingEnabled = false → u.slots = s.slots) ∧
    (s.ports.renderingEnabled = false → line ≤ 239 → col < 256 →
      readCell .frame (composePixel line col (blankCycle line (col + 1) s)).frame (line.toNat * 256 + col) =
        grey (readCell .pal s.pal 0))) ∧
  ∀ (line : Int) (c : Nat) (s : State), -1 ≤ line → line ≤ 239 → 1 ≤ c → c ≤ 341 →
    let u := blankCycle line c s
    (0 ≤ line → c ≤ 256 →
      u = { s with bg := { s.bg with line := u.bg.line } } ∧ bgLineAt u.bg (c - 1) = ⟨0, 0⟩ ∧
      ∀ k, k ≠ c - 1 → bgLineAt u.bg k = bgLineAt s.bg k) ∧
    (c = 257 →
      u = { s with slots := u.slots } ∧ u.slots.toList = s.slots.toList.map (fun slot => { slot with dead := true })) ∧
    ((line = -1 ∧ c ≤ 256) ∨ 258 ≤ c → u = s)

/-- R337: a slot's clock: a dead slot stays, a counting slot counts down, and a live one shifts out one pixel on the side the
flip bit says and dies once both registers are transparent. -/
def Obligations.SlotClock : Prop :=
  ∀ s : Slot,
    (s.dead = true → s.clock = s ∧ s.pixel = 0#2) ∧
    (s.dead = false → s.xCounter ≠ 0#8 →
      s.clock = { s with xCounter := s.xCounter - 1#8 } ∧ s.pixel = 0#2) ∧
    (s.dead = false → s.xCounter = 0#8 → s.attributeLatch.getLsbD 6 = false →
      s.pixel.toNat = 2 * (s.highShift.toNat / 128) + s.lowShift.toNat / 128 ∧
      s.clock.lowShift.toNat = 2 * s.lowShift.toNat % 256 ∧ s.clock.highShift.toNat = 2 * s.highShift.toNat % 256) ∧
    (s.dead = false → s.xCounter = 0#8 → s.attributeLatch.getLsbD 6 = true →
      s.pixel.toNat = 2 * (s.highShift.toNat % 2) + s.lowShift.toNat % 2 ∧
      s.clock.lowShift.toNat = s.lowShift.toNat / 2 ∧ s.clock.highShift.toNat = s.highShift.toNat / 2) ∧
    (s.dead = false → s.xCounter = 0#8 →
      s.clock = { s with
        lowShift := s.clock.lowShift, highShift := s.clock.highShift, dead := s.clock.dead } ∧
      (s.clock.dead = true ↔ s.clock.lowShift = 0#8 ∧ s.clock.highShift = 0#8))

/-! ## OAM DMA -/

/-- R362 to R365: with rendering off and a host that answers the 256 reads of a page outside the ports with `bytes` and makes
no call of its own, the transfer writes byte `k` at `OAM[(a + k) mod 256]`, attribute bytes masked; it is over after
exactly 1536 cycles, with the cursor back at `a`; one cycle earlier it is still running. -/
def Obligations.DmaCopiesThePage : Prop :=
  ∀ (ts : Nat) (bytes : List Byte) (s : State),
    bytes.length = 256 → s.hookScript = [] → s.noticeScript = [] → s.cpuScript = bytes.map (fun b => ⟨[], b⟩) → s.clock.syncDepth = 1 →
    s.ports.mask = 0#8 → ScanOk s → s.dma.timer = 3 → s.dma.phase = .read → s.dma.writeAddress = 0#9 →
    s.dma.readAddress.extractLsb' 0 8 = 0#8 → s.dma.readAddress.extractLsb' 13 3 ≠ 1#3 →
    let u := replay (hostCallbacks s) 1536 ts s
    let a := s.ports.oamAddr.toNat
    (replay (hostCallbacks s) 1535 ts s).dma.timer = 1 ∧
    u.dma.timer = 0 ∧ u.dma.writeAddress = 256#9 ∧ u.dma.readAddress = s.dma.readAddress + 256#16 ∧
    u.ports.oamAddr = s.ports.oamAddr ∧ u.cpuScript = [] ∧
    ∀ (k : Nat) (b : Byte), bytes[k]? = some b →
      readCell .oam u.oam ((a + k) % 256) = (if (a + k) % 4 = 2 then b &&& 0xE3#8 else b)

/-! ## Invariants -/

/-- Every step keeps the memories canonical: every address listed exists, and the bits that do not exist stay 0 (R56, R92,
R101, R102). -/
def Obligations.StepKeepsMemoryCanonical : Prop :=
  ∀ s u : State, MemoryOk s → step s = .next u → MemoryOk u

/-- Every step keeps the clock legal: the remainder is always in `[0, CLOCK_DIVIDER)` (R31), and no replay, re-measure request
or deferred forecast is left over between calls (R32, R33, R62). -/
def Obligations.StepKeepsTheClock : Prop :=
  ∀ s u : State, ClockOk s → step s = .next u → ClockOk u

/-- Every step keeps the scan position in range, with `cycleInLine + lineCyclesLeft = 342` (R35, R36). -/
def Obligations.StepKeepsTheScanPosition : Prop :=
  ∀ s u : State, ScanOk s → step s = .next u → ScanOk u

/-- Every step keeps the evaluator, the pipelines, the DMA and the forecast set in their ranges (R50, R52, R58, R61). That the
reload counter may reach 16, where R50 gives it three bits, is R262's saturation: the spec's D17, log entry 15 (DEDUCED). -/
def Obligations.StepKeepsTheUnitsInRange : Prop :=
  ∀ s u : State, EvaluatorOk s → PipelineOk s → ForecastOk s → step s = .next u →
    EvaluatorOk u ∧ PipelineOk u ∧ ForecastOk u

/-- The state after reset is legal. -/
def Obligations.ResetStateIsLegal : Prop :=
  MemoryOk State.reset ∧ ClockOk State.reset ∧ ScanOk State.reset ∧ EvaluatorOk State.reset ∧ PipelineOk State.reset ∧
    ForecastOk State.reset

/-- R3, R10, R64, R98: no step changes the configuration, and only `powerOn`, a remap, or a call that a host callback makes
changes the maps. -/
def Obligations.OnlyRemapsChangeTheMaps : Prop :=
  (∀ s u : State, step s = .next u → u.cfg = s.cfg) ∧
  (∀ (i : Instr) (s u : State), Unscripted s → exec i s = .next u →
    (∀ now draw nt pt, i ≠ .powerOn now draw nt pt) → (∀ map, i ≠ .remapNametables map) →
    (∀ view start size source, i ≠ .remapPatterns view start size source) → u.maps = s.maps)

/-! ## The parts of a cycle -/

/-- R164, R170: the parts of one cycle and their order: the DMA; on a rendering line the HBlank hook at cycle 257 or the
prefetch hook at 321, then the background, the evaluator and the sprite fetch, or the blank cycle, as rendering is enabled
after the hook, then in cycles 1 to 256 of a visible line the compositor; last the counters and, at the end of the line, the
transition (R174): on entering line 241 `vblank` is set and, with NMI enabled, the edge signalled unless a forecast did (R175,
R385, R405); on entering line −1 the three status flags are cleared and `oddFrame` toggles (R176, the toggle the spec's D5); then
the scanline hook of the line entered, whichever it is, and the next line's budget. -/
def Obligations.CycleRunsTheUnitsInOrder : Prop :=
  ∀ (cb : Callbacks) (ts : Nat) (s : State),
    -1 ≤ s.scan.scanline → s.scan.scanline ≤ s.cfg.lastLine → 1 ≤ s.scan.cycleInLine → s.scan.cycleInLine ≤ 341 →
    let line := s.scan.scanline
    let c := s.scan.cycleInLine
    let ticked := dmaTick cb { s with clock := { s.clock with stepEnd := ts } }
    let hooked :=
      if c = 257 then cb.hook (.hblankStart line) ticked
      else if c = 321 then cb.hook (.prefetchStart line) ticked
      else ticked
    let fetched :=
      if hooked.ports.mask.getLsbD 3 = true ∨ hooked.ports.mask.getLsbD 4 = true then
        spriteFetchCycle cb.hook line c (spriteEvalCycle line c (bgCycle cb.hook line c hooked))
      else blankCycle line c hooked
    let composed := if 0 ≤ line ∧ c ≤ 256 then composePixel line (c - 1) fetched else fetched
    let run := if line ≤ 239 then composed else ticked
    let left :=
      if line = -1 ∧ c = 340 ∧ run.scan.oddFrame = true ∧ run.ports.mask.getLsbD 3 = true then 1
      else run.scan.lineCyclesLeft
    let counted : State :=
      { run with scan := { run.scan with lineCyclesLeft := left - 1, cycleInLine := run.scan.cycleInLine + 1 } }
    let next := if run.cfg.lastLine ≤ line then -1 else line + 1
    let entered : State := { counted with scan := { counted.scan with scanline := next } }
    let flagged : State :=
      if next = 241 then
        let v : State := { entered with ports := { entered.ports with vblank := true } }
        if v.ports.ctrl.getLsbD 7 = false then v
        else if ts ∈ v.pred.nmiRegistered then
          { v with pred := { v.pred with nmiRegistered := v.pred.nmiRegistered.filter (fun t => decide (t ≠ ts)) } }
        else cb.notify (.setInterrupt .nmi ts) v
      else if next = -1 then
        { entered with
          ports := { entered.ports with vblank := false, sprite0Hit := false, spriteOverflow := false }
          scan := { entered.scan with oddFrame := !entered.scan.oddFrame } }
      else entered
    let told := cb.hook (.scanlineStart next) flagged
    (2 ≤ left → ppuCycle cb ts s = counted) ∧
    (left ≤ 1 → ppuCycle cb ts s = { told with scan := { told.scan with cycleInLine := 1, lineCyclesLeft := 341 } })
end

