-- ==== Sys2Proof/Laws/Cells.lean ====
section
/-! SUPPORT. The laws of the cell lists that hold every memory: read after write, and the canonical form, which every
write keeps. The read laws hold of any list, canonical or not. -/

namespace Sys2Proof.Machine

variable {α : Type}

theorem cellsRead_cellsErase_same (d : α) (m : List (Nat × α)) (a : Nat) : cellsRead d (cellsErase m a) a = d := by
  induction m with
  | nil => rfl
  | cons c rest ih =>
    by_cases h : c.1 = a <;> simp_all [cellsErase, cellsRead]

theorem cellsRead_cellsErase_other (d : α) (m : List (Nat × α)) (a k : Nat) (h : k ≠ a) :
    cellsRead d (cellsErase m a) k = cellsRead d m k := by
  induction m with
  | nil => rfl
  | cons c rest ih =>
    have h' : a ≠ k := fun e => h e.symm
    by_cases hc : c.1 = a <;> simp_all [cellsErase, cellsRead]

theorem cellsRead_cellsInsert_same (d : α) (m : List (Nat × α)) (a : Nat) (b : α) :
    cellsRead d (cellsInsert m a b) a = b := by
  induction m with
  | nil => simp [cellsInsert, cellsRead]
  | cons c rest ih =>
    simp only [cellsInsert]
    split
    · simp [cellsRead]
    · split
      · simp [cellsRead]
      · rename_i h
        simp [cellsRead, Ne.symm h, ih]

theorem cellsRead_cellsInsert_other (d : α) (m : List (Nat × α)) (a : Nat) (b : α) (k : Nat) (h : k ≠ a) :
    cellsRead d (cellsInsert m a b) k = cellsRead d m k := by
  induction m with
  | nil => simp [cellsInsert, cellsRead, Ne.symm h]
  | cons c rest ih =>
    simp only [cellsInsert]
    split
    · simp [cellsRead, Ne.symm h]
    · split
      · rename_i h2
        simp [cellsRead, Ne.symm h, ← h2]
      · simp [cellsRead, ih]

/-- Reading the address just written gives the value written. -/
@[simp] theorem cellsRead_cellsWrite_same [DecidableEq α] (d : α) (m : List (Nat × α)) (a : Nat) (b : α) :
    cellsRead d (cellsWrite d m a b) a = b := by
  unfold cellsWrite
  split
  · rename_i h
    rw [h, cellsRead_cellsErase_same]
  · exact cellsRead_cellsInsert_same d m a b

/-- A write leaves every other address alone. -/
theorem cellsRead_cellsWrite_other [DecidableEq α] (d : α) (m : List (Nat × α)) (a : Nat) (b : α) (k : Nat) (h : k ≠ a) :
    cellsRead d (cellsWrite d m a b) k = cellsRead d m k := by
  unfold cellsWrite
  split
  · exact cellsRead_cellsErase_other d m a k h
  · exact cellsRead_cellsInsert_other d m a b k h

@[simp] theorem readCell_writeCell_same (sp : Space) (m : List Host.Cell) (a : Nat) (b : Byte) :
    readCell sp (writeCell sp m a b) a = b := cellsRead_cellsWrite_same _ _ _ _

theorem readCell_writeCell_other (sp : Space) (m : List Host.Cell) (a : Nat) (b : Byte) (k : Nat) (h : k ≠ a) :
    readCell sp (writeCell sp m a b) k = readCell sp m k := cellsRead_cellsWrite_other _ _ _ _ _ h

theorem readCell_writeCell (sp : Space) (m : List Host.Cell) (a : Nat) (b : Byte) (k : Nat) :
    readCell sp (writeCell sp m a b) k = if k = a then b else readCell sp m k := by
  by_cases h : k = a
  · subst h; simp
  · simp [h, readCell_writeCell_other sp m a b k h]

/-! ## The canonical form -/

theorem mem_cellsInsert {m : List (Nat × α)} {a : Nat} {b : α} {c : Nat × α} (h : c ∈ cellsInsert m a b) :
    c = (a, b) ∨ c ∈ m := by
  induction m with
  | nil => simpa [cellsInsert] using h
  | cons e rest ih =>
    simp only [cellsInsert] at h
    split at h
    · simpa using h
    · split at h
      · simp only [List.mem_cons] at h ⊢
        tauto
      · simp only [List.mem_cons] at h ⊢
        rcases h with h | h
        · exact .inr (.inl h)
        · rcases ih h with h | h
          · exact .inl h
          · exact .inr (.inr h)

theorem cellsInsert_pairwise {m : List (Nat × α)} (a : Nat) (b : α) (h : m.Pairwise (fun c d => c.1 < d.1)) :
    (cellsInsert m a b).Pairwise (fun c d => c.1 < d.1) := by
  induction m with
  | nil => simp [cellsInsert]
  | cons e rest ih =>
    rw [List.pairwise_cons] at h
    simp only [cellsInsert]
    split
    · rename_i hlt
      rw [List.pairwise_cons, List.pairwise_cons]
      refine ⟨?_, h⟩
      intro c hc
      rcases List.mem_cons.1 hc with rfl | hc
      · exact hlt
      · exact lt_trans hlt (h.1 c hc)
    · split
      · rename_i heq
        rw [List.pairwise_cons]
        exact ⟨fun c hc => by have := h.1 c hc; simp_all, h.2⟩
      · rename_i hge hne
        rw [List.pairwise_cons]
        refine ⟨fun c hc => ?_, ih h.2⟩
        rcases mem_cellsInsert hc with rfl | hc
        · show e.1 < a
          omega
        · exact h.1 c hc

/-- A write keeps the canonical form. -/
theorem cellsWrite_wf [DecidableEq α] (d : α) {m : List (Nat × α)} (a : Nat) (b : α) (h : CellsWf d m) :
    CellsWf d (cellsWrite d m a b) := by
  unfold cellsWrite
  split
  · exact ⟨h.1.filter _, fun c hc => h.2 c (List.mem_filter.1 hc).1⟩
  · rename_i hb
    refine ⟨cellsInsert_pairwise a b h.1, fun c hc => ?_⟩
    rcases mem_cellsInsert hc with rfl | hc
    · exact hb
    · exact h.2 c hc

/-- What a write lists is the value written or was listed before. -/
theorem mem_cellsWrite [DecidableEq α] {d : α} {m : List (Nat × α)} {a : Nat} {b : α} {c : Nat × α}
    (h : c ∈ cellsWrite d m a b) : c = (a, b) ∨ c ∈ m := by
  unfold cellsWrite at h
  split at h
  · exact .inr (List.mem_filter.1 h).1
  · exact mem_cellsInsert h

/-- Writing a byte that exists, at an address that exists, keeps a memory canonical. -/
theorem writeCell_wf {sp : Space} {m : List Host.Cell} {a : Nat} {b : Byte} (h : Memory.wf sp m)
    (ha : sp.holds a = true) (hb : sp.stored a b = b) : Memory.wf sp (writeCell sp m a b) := by
  refine ⟨cellsWrite_wf _ a b h.1, fun c hc => ?_⟩
  rcases mem_cellsWrite hc with rfl | hc
  · exact ⟨ha, hb⟩
  · exact h.2 c hc

/-- Masking to the bits that exist is idempotent. -/
@[simp] theorem Space.stored_stored (sp : Space) (a : Nat) (b : Byte) : sp.stored a (sp.stored a b) = sp.stored a b := by
  cases sp <;> simp only [Space.stored]
  · rw [BitVec.and_assoc, BitVec.and_self]
  · split
    · rw [BitVec.and_assoc, BitVec.and_self]
    · rfl

/-- Dropping entries keeps a memory canonical. -/
theorem Memory.wf_filter {sp : Space} {m : List Host.Cell} (p : Host.Cell → Bool) (h : Memory.wf sp m) :
    Memory.wf sp (m.filter p) :=
  ⟨⟨h.1.1.filter _, fun c hc => h.1.2 c (List.mem_filter.1 hc).1⟩, fun c hc => h.2 c (List.mem_filter.1 hc).1⟩

/-- The empty memory is canonical. -/
theorem Memory.wf_nil (sp : Space) : Memory.wf sp [] := ⟨⟨List.Pairwise.nil, by simp⟩, by simp⟩

/-- Loading a draw keeps a memory canonical, whatever the draw. -/
theorem loadCells_wf {sp : Space} {base : List Host.Cell} (draw : List Host.Cell) (h : Memory.wf sp base) :
    Memory.wf sp (loadCells sp base draw) := by
  induction draw generalizing base with
  | nil => exact h
  | cons c rest ih =>
    have : loadCells sp base (c :: rest) =
        loadCells sp (if sp.holds c.1 then writeCell sp base c.1 (sp.stored c.1 c.2) else base) rest := rfl
    rw [this]
    apply ih
    split
    · rename_i hc
      exact writeCell_wf h hc (Space.stored_stored sp c.1 c.2)
    · exact h

/-- The pattern memory after power-on is canonical. -/
theorem drawnChr_wf (c : Config) {chr : List Host.Cell} (draw : List Host.Cell) (h : Memory.wf .chr chr) :
    Memory.wf .chr (drawnChr c chr draw) := loadCells_wf _ (Memory.wf_filter _ h)

/-! ## The background line -/

@[simp] theorem bgLineAt_setBgLine_same (col : Nat) (p : BgPixel) (b : Background) :
    bgLineAt (setBgLine col p b) col = p := cellsRead_cellsWrite_same _ _ _ _

theorem bgLineAt_setBgLine_other (col k : Nat) (p : BgPixel) (b : Background) (h : k ≠ col) :
    bgLineAt (setBgLine col p b) k = bgLineAt b k := cellsRead_cellsWrite_other _ _ _ _ _ h

end Sys2Proof.Machine
end

