-- ==== Sys2Proof/Laws/State.lean ====
section
/-! SUPPORT. Beside `State`: for each named update, what each field is after it, so that no proof unfolds a record
update. All are true by definition. -/

namespace Sys2Proof.Machine

variable (s : State)

@[simp] theorem diag_eq (k : DiagKind) : diag k s = emit (.diag k) s := rfl
@[simp] theorem signalNmi_eq (ts : Nat) : signalNmi ts s = emit (.setInterrupt .nmi ts) s := rfl
@[simp] theorem withdrawNmi_eq : withdrawNmi s = emit (.clearInterrupt .nmi) s := rfl
@[simp] theorem nmiEdgeNow_eq (notify : Notify) :
    nmiEdgeNow notify s = notify (.setInterrupt .nmi (cycleClock s)) s := rfl

/-! ## `emit` -/

@[simp] theorem emit_cfg (e : Event) : (emit e s).cfg = s.cfg := rfl
@[simp] theorem emit_clock (e : Event) : (emit e s).clock = s.clock := rfl
@[simp] theorem emit_scan (e : Event) : (emit e s).scan = s.scan := rfl
@[simp] theorem emit_ports (e : Event) : (emit e s).ports = s.ports := rfl
@[simp] theorem emit_bg (e : Event) : (emit e s).bg = s.bg := rfl
@[simp] theorem emit_eval (e : Event) : (emit e s).eval = s.eval := rfl
@[simp] theorem emit_slots (e : Event) : (emit e s).slots = s.slots := rfl
@[simp] theorem emit_fetch (e : Event) : (emit e s).fetch = s.fetch := rfl
@[simp] theorem emit_dma (e : Event) : (emit e s).dma = s.dma := rfl
@[simp] theorem emit_pred (e : Event) : (emit e s).pred = s.pred := rfl
@[simp] theorem emit_maps (e : Event) : (emit e s).maps = s.maps := rfl
@[simp] theorem emit_nt (e : Event) : (emit e s).nt = s.nt := rfl
@[simp] theorem emit_chr (e : Event) : (emit e s).chr = s.chr := rfl
@[simp] theorem emit_pal (e : Event) : (emit e s).pal = s.pal := rfl
@[simp] theorem emit_oam (e : Event) : (emit e s).oam = s.oam := rfl
@[simp] theorem emit_sec (e : Event) : (emit e s).sec = s.sec := rfl
@[simp] theorem emit_frame (e : Event) : (emit e s).frame = s.frame := rfl
@[simp] theorem emit_pending (e : Event) : (emit e s).pending = s.pending := rfl
@[simp] theorem emit_hookScript (e : Event) : (emit e s).hookScript = s.hookScript := rfl
@[simp] theorem emit_noticeScript (e : Event) : (emit e s).noticeScript = s.noticeScript := rfl
@[simp] theorem emit_cpuScript (e : Event) : (emit e s).cpuScript = s.cpuScript := rfl
@[simp] theorem emit_hostNows (e : Event) : (emit e s).hostNows = s.hostNows := rfl
@[simp] theorem emit_drawCount (e : Event) : (emit e s).drawCount = s.drawCount := rfl
@[simp] theorem emit_trace (e : Event) : (emit e s).trace = e :: s.trace := rfl
@[simp] theorem emit_result (e : Event) : (emit e s).result = s.result := rfl

/-! ## `noResult` -/

@[simp] theorem noResult_cfg : (noResult s).cfg = s.cfg := rfl
@[simp] theorem noResult_clock : (noResult s).clock = s.clock := rfl
@[simp] theorem noResult_scan : (noResult s).scan = s.scan := rfl
@[simp] theorem noResult_ports : (noResult s).ports = s.ports := rfl
@[simp] theorem noResult_bg : (noResult s).bg = s.bg := rfl
@[simp] theorem noResult_eval : (noResult s).eval = s.eval := rfl
@[simp] theorem noResult_slots : (noResult s).slots = s.slots := rfl
@[simp] theorem noResult_fetch : (noResult s).fetch = s.fetch := rfl
@[simp] theorem noResult_dma : (noResult s).dma = s.dma := rfl
@[simp] theorem noResult_pred : (noResult s).pred = s.pred := rfl
@[simp] theorem noResult_maps : (noResult s).maps = s.maps := rfl
@[simp] theorem noResult_nt : (noResult s).nt = s.nt := rfl
@[simp] theorem noResult_chr : (noResult s).chr = s.chr := rfl
@[simp] theorem noResult_pal : (noResult s).pal = s.pal := rfl
@[simp] theorem noResult_oam : (noResult s).oam = s.oam := rfl
@[simp] theorem noResult_sec : (noResult s).sec = s.sec := rfl
@[simp] theorem noResult_frame : (noResult s).frame = s.frame := rfl
@[simp] theorem noResult_pending : (noResult s).pending = s.pending := rfl
@[simp] theorem noResult_hookScript : (noResult s).hookScript = s.hookScript := rfl
@[simp] theorem noResult_noticeScript : (noResult s).noticeScript = s.noticeScript := rfl
@[simp] theorem noResult_cpuScript : (noResult s).cpuScript = s.cpuScript := rfl
@[simp] theorem noResult_hostNows : (noResult s).hostNows = s.hostNows := rfl
@[simp] theorem noResult_drawCount : (noResult s).drawCount = s.drawCount := rfl
@[simp] theorem noResult_trace : (noResult s).trace = s.trace := rfl
@[simp] theorem noResult_result : (noResult s).result = .none := rfl

/-! ## `returnByte` -/

@[simp] theorem returnByte_cfg (b : Byte) : (returnByte b s).cfg = s.cfg := rfl
@[simp] theorem returnByte_clock (b : Byte) : (returnByte b s).clock = s.clock := rfl
@[simp] theorem returnByte_scan (b : Byte) : (returnByte b s).scan = s.scan := rfl
@[simp] theorem returnByte_ports (b : Byte) : (returnByte b s).ports = s.ports := rfl
@[simp] theorem returnByte_bg (b : Byte) : (returnByte b s).bg = s.bg := rfl
@[simp] theorem returnByte_eval (b : Byte) : (returnByte b s).eval = s.eval := rfl
@[simp] theorem returnByte_slots (b : Byte) : (returnByte b s).slots = s.slots := rfl
@[simp] theorem returnByte_fetch (b : Byte) : (returnByte b s).fetch = s.fetch := rfl
@[simp] theorem returnByte_dma (b : Byte) : (returnByte b s).dma = s.dma := rfl
@[simp] theorem returnByte_pred (b : Byte) : (returnByte b s).pred = s.pred := rfl
@[simp] theorem returnByte_maps (b : Byte) : (returnByte b s).maps = s.maps := rfl
@[simp] theorem returnByte_nt (b : Byte) : (returnByte b s).nt = s.nt := rfl
@[simp] theorem returnByte_chr (b : Byte) : (returnByte b s).chr = s.chr := rfl
@[simp] theorem returnByte_pal (b : Byte) : (returnByte b s).pal = s.pal := rfl
@[simp] theorem returnByte_oam (b : Byte) : (returnByte b s).oam = s.oam := rfl
@[simp] theorem returnByte_sec (b : Byte) : (returnByte b s).sec = s.sec := rfl
@[simp] theorem returnByte_frame (b : Byte) : (returnByte b s).frame = s.frame := rfl
@[simp] theorem returnByte_pending (b : Byte) : (returnByte b s).pending = s.pending := rfl
@[simp] theorem returnByte_hookScript (b : Byte) : (returnByte b s).hookScript = s.hookScript := rfl
@[simp] theorem returnByte_noticeScript (b : Byte) : (returnByte b s).noticeScript = s.noticeScript := rfl
@[simp] theorem returnByte_cpuScript (b : Byte) : (returnByte b s).cpuScript = s.cpuScript := rfl
@[simp] theorem returnByte_hostNows (b : Byte) : (returnByte b s).hostNows = s.hostNows := rfl
@[simp] theorem returnByte_drawCount (b : Byte) : (returnByte b s).drawCount = s.drawCount := rfl
@[simp] theorem returnByte_trace (b : Byte) : (returnByte b s).trace = s.trace := rfl
@[simp] theorem returnByte_result (b : Byte) : (returnByte b s).result = .byte b := rfl

/-! ## `setV` -/

@[simp] theorem setV_cfg (v : Loopy) : (setV v s).cfg = s.cfg := rfl
@[simp] theorem setV_clock (v : Loopy) : (setV v s).clock = s.clock := rfl
@[simp] theorem setV_scan (v : Loopy) : (setV v s).scan = s.scan := rfl
@[simp] theorem setV_ports (v : Loopy) : (setV v s).ports = { s.ports with v := v } := rfl
@[simp] theorem setV_bg (v : Loopy) : (setV v s).bg = s.bg := rfl
@[simp] theorem setV_eval (v : Loopy) : (setV v s).eval = s.eval := rfl
@[simp] theorem setV_slots (v : Loopy) : (setV v s).slots = s.slots := rfl
@[simp] theorem setV_fetch (v : Loopy) : (setV v s).fetch = s.fetch := rfl
@[simp] theorem setV_dma (v : Loopy) : (setV v s).dma = s.dma := rfl
@[simp] theorem setV_pred (v : Loopy) : (setV v s).pred = s.pred := rfl
@[simp] theorem setV_maps (v : Loopy) : (setV v s).maps = s.maps := rfl
@[simp] theorem setV_nt (v : Loopy) : (setV v s).nt = s.nt := rfl
@[simp] theorem setV_chr (v : Loopy) : (setV v s).chr = s.chr := rfl
@[simp] theorem setV_pal (v : Loopy) : (setV v s).pal = s.pal := rfl
@[simp] theorem setV_oam (v : Loopy) : (setV v s).oam = s.oam := rfl
@[simp] theorem setV_sec (v : Loopy) : (setV v s).sec = s.sec := rfl
@[simp] theorem setV_frame (v : Loopy) : (setV v s).frame = s.frame := rfl
@[simp] theorem setV_pending (v : Loopy) : (setV v s).pending = s.pending := rfl
@[simp] theorem setV_hookScript (v : Loopy) : (setV v s).hookScript = s.hookScript := rfl
@[simp] theorem setV_noticeScript (v : Loopy) : (setV v s).noticeScript = s.noticeScript := rfl
@[simp] theorem setV_cpuScript (v : Loopy) : (setV v s).cpuScript = s.cpuScript := rfl
@[simp] theorem setV_hostNows (v : Loopy) : (setV v s).hostNows = s.hostNows := rfl
@[simp] theorem setV_drawCount (v : Loopy) : (setV v s).drawCount = s.drawCount := rfl
@[simp] theorem setV_trace (v : Loopy) : (setV v s).trace = s.trace := rfl
@[simp] theorem setV_result (v : Loopy) : (setV v s).result = s.result := rfl

/-! ## `setSec` -/

@[simp] theorem setSec_cfg (i : BitVec 5) (b : Byte) : (setSec i b s).cfg = s.cfg := rfl
@[simp] theorem setSec_clock (i : BitVec 5) (b : Byte) : (setSec i b s).clock = s.clock := rfl
@[simp] theorem setSec_scan (i : BitVec 5) (b : Byte) : (setSec i b s).scan = s.scan := rfl
@[simp] theorem setSec_ports (i : BitVec 5) (b : Byte) : (setSec i b s).ports = s.ports := rfl
@[simp] theorem setSec_bg (i : BitVec 5) (b : Byte) : (setSec i b s).bg = s.bg := rfl
@[simp] theorem setSec_eval (i : BitVec 5) (b : Byte) : (setSec i b s).eval = s.eval := rfl
@[simp] theorem setSec_slots (i : BitVec 5) (b : Byte) : (setSec i b s).slots = s.slots := rfl
@[simp] theorem setSec_fetch (i : BitVec 5) (b : Byte) : (setSec i b s).fetch = s.fetch := rfl
@[simp] theorem setSec_dma (i : BitVec 5) (b : Byte) : (setSec i b s).dma = s.dma := rfl
@[simp] theorem setSec_pred (i : BitVec 5) (b : Byte) : (setSec i b s).pred = s.pred := rfl
@[simp] theorem setSec_maps (i : BitVec 5) (b : Byte) : (setSec i b s).maps = s.maps := rfl
@[simp] theorem setSec_nt (i : BitVec 5) (b : Byte) : (setSec i b s).nt = s.nt := rfl
@[simp] theorem setSec_chr (i : BitVec 5) (b : Byte) : (setSec i b s).chr = s.chr := rfl
@[simp] theorem setSec_pal (i : BitVec 5) (b : Byte) : (setSec i b s).pal = s.pal := rfl
@[simp] theorem setSec_oam (i : BitVec 5) (b : Byte) : (setSec i b s).oam = s.oam := rfl
@[simp] theorem setSec_sec (i : BitVec 5) (b : Byte) : (setSec i b s).sec = writeCell .sec s.sec i.toNat b := rfl
@[simp] theorem setSec_frame (i : BitVec 5) (b : Byte) : (setSec i b s).frame = s.frame := rfl
@[simp] theorem setSec_pending (i : BitVec 5) (b : Byte) : (setSec i b s).pending = s.pending := rfl
@[simp] theorem setSec_hookScript (i : BitVec 5) (b : Byte) : (setSec i b s).hookScript = s.hookScript := rfl
@[simp] theorem setSec_noticeScript (i : BitVec 5) (b : Byte) : (setSec i b s).noticeScript = s.noticeScript := rfl
@[simp] theorem setSec_cpuScript (i : BitVec 5) (b : Byte) : (setSec i b s).cpuScript = s.cpuScript := rfl
@[simp] theorem setSec_hostNows (i : BitVec 5) (b : Byte) : (setSec i b s).hostNows = s.hostNows := rfl
@[simp] theorem setSec_drawCount (i : BitVec 5) (b : Byte) : (setSec i b s).drawCount = s.drawCount := rfl
@[simp] theorem setSec_trace (i : BitVec 5) (b : Byte) : (setSec i b s).trace = s.trace := rfl
@[simp] theorem setSec_result (i : BitVec 5) (b : Byte) : (setSec i b s).result = s.result := rfl

/-! ## `setLastWritten` -/

@[simp] theorem setLastWritten_cfg (d : Byte) : (setLastWritten d s).cfg = s.cfg := rfl
@[simp] theorem setLastWritten_clock (d : Byte) : (setLastWritten d s).clock = s.clock := rfl
@[simp] theorem setLastWritten_scan (d : Byte) : (setLastWritten d s).scan = s.scan := rfl
@[simp] theorem setLastWritten_ports (d : Byte) : (setLastWritten d s).ports = { s.ports with lastWritten := d } := rfl
@[simp] theorem setLastWritten_bg (d : Byte) : (setLastWritten d s).bg = s.bg := rfl
@[simp] theorem setLastWritten_eval (d : Byte) : (setLastWritten d s).eval = s.eval := rfl
@[simp] theorem setLastWritten_slots (d : Byte) : (setLastWritten d s).slots = s.slots := rfl
@[simp] theorem setLastWritten_fetch (d : Byte) : (setLastWritten d s).fetch = s.fetch := rfl
@[simp] theorem setLastWritten_dma (d : Byte) : (setLastWritten d s).dma = s.dma := rfl
@[simp] theorem setLastWritten_pred (d : Byte) : (setLastWritten d s).pred = s.pred := rfl
@[simp] theorem setLastWritten_maps (d : Byte) : (setLastWritten d s).maps = s.maps := rfl
@[simp] theorem setLastWritten_nt (d : Byte) : (setLastWritten d s).nt = s.nt := rfl
@[simp] theorem setLastWritten_chr (d : Byte) : (setLastWritten d s).chr = s.chr := rfl
@[simp] theorem setLastWritten_pal (d : Byte) : (setLastWritten d s).pal = s.pal := rfl
@[simp] theorem setLastWritten_oam (d : Byte) : (setLastWritten d s).oam = s.oam := rfl
@[simp] theorem setLastWritten_sec (d : Byte) : (setLastWritten d s).sec = s.sec := rfl
@[simp] theorem setLastWritten_frame (d : Byte) : (setLastWritten d s).frame = s.frame := rfl
@[simp] theorem setLastWritten_pending (d : Byte) : (setLastWritten d s).pending = s.pending := rfl
@[simp] theorem setLastWritten_hookScript (d : Byte) : (setLastWritten d s).hookScript = s.hookScript := rfl
@[simp] theorem setLastWritten_noticeScript (d : Byte) : (setLastWritten d s).noticeScript = s.noticeScript := rfl
@[simp] theorem setLastWritten_cpuScript (d : Byte) : (setLastWritten d s).cpuScript = s.cpuScript := rfl
@[simp] theorem setLastWritten_hostNows (d : Byte) : (setLastWritten d s).hostNows = s.hostNows := rfl
@[simp] theorem setLastWritten_drawCount (d : Byte) : (setLastWritten d s).drawCount = s.drawCount := rfl
@[simp] theorem setLastWritten_trace (d : Byte) : (setLastWritten d s).trace = s.trace := rfl
@[simp] theorem setLastWritten_result (d : Byte) : (setLastWritten d s).result = s.result := rfl

/-! ## `popPending` -/

@[simp] theorem popPending_cfg : (popPending s).cfg = s.cfg := rfl
@[simp] theorem popPending_clock : (popPending s).clock = s.clock := rfl
@[simp] theorem popPending_scan : (popPending s).scan = s.scan := rfl
@[simp] theorem popPending_ports : (popPending s).ports = s.ports := rfl
@[simp] theorem popPending_bg : (popPending s).bg = s.bg := rfl
@[simp] theorem popPending_eval : (popPending s).eval = s.eval := rfl
@[simp] theorem popPending_slots : (popPending s).slots = s.slots := rfl
@[simp] theorem popPending_fetch : (popPending s).fetch = s.fetch := rfl
@[simp] theorem popPending_dma : (popPending s).dma = s.dma := rfl
@[simp] theorem popPending_pred : (popPending s).pred = s.pred := rfl
@[simp] theorem popPending_maps : (popPending s).maps = s.maps := rfl
@[simp] theorem popPending_nt : (popPending s).nt = s.nt := rfl
@[simp] theorem popPending_chr : (popPending s).chr = s.chr := rfl
@[simp] theorem popPending_pal : (popPending s).pal = s.pal := rfl
@[simp] theorem popPending_oam : (popPending s).oam = s.oam := rfl
@[simp] theorem popPending_sec : (popPending s).sec = s.sec := rfl
@[simp] theorem popPending_frame : (popPending s).frame = s.frame := rfl
@[simp] theorem popPending_pending : (popPending s).pending = s.pending.tail := rfl
@[simp] theorem popPending_hookScript : (popPending s).hookScript = s.hookScript := rfl
@[simp] theorem popPending_noticeScript : (popPending s).noticeScript = s.noticeScript := rfl
@[simp] theorem popPending_cpuScript : (popPending s).cpuScript = s.cpuScript := rfl
@[simp] theorem popPending_hostNows : (popPending s).hostNows = s.hostNows := rfl
@[simp] theorem popPending_drawCount : (popPending s).drawCount = s.drawCount := rfl
@[simp] theorem popPending_trace : (popPending s).trace = s.trace := rfl
@[simp] theorem popPending_result : (popPending s).result = s.result := rfl

/-! ## `presentNext` -/

@[simp] theorem presentNext_cfg (r : Request) : (presentNext r s).cfg = s.cfg := rfl
@[simp] theorem presentNext_clock (r : Request) : (presentNext r s).clock = s.clock := rfl
@[simp] theorem presentNext_scan (r : Request) : (presentNext r s).scan = s.scan := rfl
@[simp] theorem presentNext_ports (r : Request) : (presentNext r s).ports = s.ports := rfl
@[simp] theorem presentNext_bg (r : Request) : (presentNext r s).bg = s.bg := rfl
@[simp] theorem presentNext_eval (r : Request) : (presentNext r s).eval = s.eval := rfl
@[simp] theorem presentNext_slots (r : Request) : (presentNext r s).slots = s.slots := rfl
@[simp] theorem presentNext_fetch (r : Request) : (presentNext r s).fetch = s.fetch := rfl
@[simp] theorem presentNext_dma (r : Request) : (presentNext r s).dma = s.dma := rfl
@[simp] theorem presentNext_pred (r : Request) : (presentNext r s).pred = s.pred := rfl
@[simp] theorem presentNext_maps (r : Request) : (presentNext r s).maps = s.maps := rfl
@[simp] theorem presentNext_nt (r : Request) : (presentNext r s).nt = s.nt := rfl
@[simp] theorem presentNext_chr (r : Request) : (presentNext r s).chr = s.chr := rfl
@[simp] theorem presentNext_pal (r : Request) : (presentNext r s).pal = s.pal := rfl
@[simp] theorem presentNext_oam (r : Request) : (presentNext r s).oam = s.oam := rfl
@[simp] theorem presentNext_sec (r : Request) : (presentNext r s).sec = s.sec := rfl
@[simp] theorem presentNext_frame (r : Request) : (presentNext r s).frame = s.frame := rfl
@[simp] theorem presentNext_pending (r : Request) : (presentNext r s).pending = r :: s.pending := rfl
@[simp] theorem presentNext_hookScript (r : Request) : (presentNext r s).hookScript = s.hookScript := rfl
@[simp] theorem presentNext_noticeScript (r : Request) : (presentNext r s).noticeScript = s.noticeScript := rfl
@[simp] theorem presentNext_cpuScript (r : Request) : (presentNext r s).cpuScript = s.cpuScript := rfl
@[simp] theorem presentNext_hostNows (r : Request) : (presentNext r s).hostNows = s.hostNows := rfl
@[simp] theorem presentNext_drawCount (r : Request) : (presentNext r s).drawCount = s.drawCount := rfl
@[simp] theorem presentNext_trace (r : Request) : (presentNext r s).trace = s.trace := rfl
@[simp] theorem presentNext_result (r : Request) : (presentNext r s).result = s.result := rfl

/-! ## `unregisterNmi` -/

@[simp] theorem unregisterNmi_cfg (ts : Nat) : (unregisterNmi ts s).cfg = s.cfg := rfl
@[simp] theorem unregisterNmi_clock (ts : Nat) : (unregisterNmi ts s).clock = s.clock := rfl
@[simp] theorem unregisterNmi_scan (ts : Nat) : (unregisterNmi ts s).scan = s.scan := rfl
@[simp] theorem unregisterNmi_ports (ts : Nat) : (unregisterNmi ts s).ports = s.ports := rfl
@[simp] theorem unregisterNmi_bg (ts : Nat) : (unregisterNmi ts s).bg = s.bg := rfl
@[simp] theorem unregisterNmi_eval (ts : Nat) : (unregisterNmi ts s).eval = s.eval := rfl
@[simp] theorem unregisterNmi_slots (ts : Nat) : (unregisterNmi ts s).slots = s.slots := rfl
@[simp] theorem unregisterNmi_fetch (ts : Nat) : (unregisterNmi ts s).fetch = s.fetch := rfl
@[simp] theorem unregisterNmi_dma (ts : Nat) : (unregisterNmi ts s).dma = s.dma := rfl
@[simp] theorem unregisterNmi_pred (ts : Nat) : (unregisterNmi ts s).pred =
    { s.pred with nmiRegistered := s.pred.nmiRegistered.filter (fun u => decide (u ≠ ts)) } := rfl
@[simp] theorem unregisterNmi_maps (ts : Nat) : (unregisterNmi ts s).maps = s.maps := rfl
@[simp] theorem unregisterNmi_nt (ts : Nat) : (unregisterNmi ts s).nt = s.nt := rfl
@[simp] theorem unregisterNmi_chr (ts : Nat) : (unregisterNmi ts s).chr = s.chr := rfl
@[simp] theorem unregisterNmi_pal (ts : Nat) : (unregisterNmi ts s).pal = s.pal := rfl
@[simp] theorem unregisterNmi_oam (ts : Nat) : (unregisterNmi ts s).oam = s.oam := rfl
@[simp] theorem unregisterNmi_sec (ts : Nat) : (unregisterNmi ts s).sec = s.sec := rfl
@[simp] theorem unregisterNmi_frame (ts : Nat) : (unregisterNmi ts s).frame = s.frame := rfl
@[simp] theorem unregisterNmi_pending (ts : Nat) : (unregisterNmi ts s).pending = s.pending := rfl
@[simp] theorem unregisterNmi_hookScript (ts : Nat) : (unregisterNmi ts s).hookScript = s.hookScript := rfl
@[simp] theorem unregisterNmi_noticeScript (ts : Nat) : (unregisterNmi ts s).noticeScript = s.noticeScript := rfl
@[simp] theorem unregisterNmi_cpuScript (ts : Nat) : (unregisterNmi ts s).cpuScript = s.cpuScript := rfl
@[simp] theorem unregisterNmi_hostNows (ts : Nat) : (unregisterNmi ts s).hostNows = s.hostNows := rfl
@[simp] theorem unregisterNmi_drawCount (ts : Nat) : (unregisterNmi ts s).drawCount = s.drawCount := rfl
@[simp] theorem unregisterNmi_trace (ts : Nat) : (unregisterNmi ts s).trace = s.trace := rfl
@[simp] theorem unregisterNmi_result (ts : Nat) : (unregisterNmi ts s).result = s.result := rfl

/-! ## `registerNmi` -/

@[simp] theorem registerNmi_cfg (ts : Nat) : (registerNmi ts s).cfg = s.cfg := rfl
@[simp] theorem registerNmi_clock (ts : Nat) : (registerNmi ts s).clock = s.clock := rfl
@[simp] theorem registerNmi_scan (ts : Nat) : (registerNmi ts s).scan = s.scan := rfl
@[simp] theorem registerNmi_ports (ts : Nat) : (registerNmi ts s).ports = s.ports := rfl
@[simp] theorem registerNmi_bg (ts : Nat) : (registerNmi ts s).bg = s.bg := rfl
@[simp] theorem registerNmi_eval (ts : Nat) : (registerNmi ts s).eval = s.eval := rfl
@[simp] theorem registerNmi_slots (ts : Nat) : (registerNmi ts s).slots = s.slots := rfl
@[simp] theorem registerNmi_fetch (ts : Nat) : (registerNmi ts s).fetch = s.fetch := rfl
@[simp] theorem registerNmi_dma (ts : Nat) : (registerNmi ts s).dma = s.dma := rfl
@[simp] theorem registerNmi_pred (ts : Nat) : (registerNmi ts s).pred =
    { s.pred with nmiRegistered := insertRising ts s.pred.nmiRegistered } := rfl
@[simp] theorem registerNmi_maps (ts : Nat) : (registerNmi ts s).maps = s.maps := rfl
@[simp] theorem registerNmi_nt (ts : Nat) : (registerNmi ts s).nt = s.nt := rfl
@[simp] theorem registerNmi_chr (ts : Nat) : (registerNmi ts s).chr = s.chr := rfl
@[simp] theorem registerNmi_pal (ts : Nat) : (registerNmi ts s).pal = s.pal := rfl
@[simp] theorem registerNmi_oam (ts : Nat) : (registerNmi ts s).oam = s.oam := rfl
@[simp] theorem registerNmi_sec (ts : Nat) : (registerNmi ts s).sec = s.sec := rfl
@[simp] theorem registerNmi_frame (ts : Nat) : (registerNmi ts s).frame = s.frame := rfl
@[simp] theorem registerNmi_pending (ts : Nat) : (registerNmi ts s).pending = s.pending := rfl
@[simp] theorem registerNmi_hookScript (ts : Nat) : (registerNmi ts s).hookScript = s.hookScript := rfl
@[simp] theorem registerNmi_noticeScript (ts : Nat) : (registerNmi ts s).noticeScript = s.noticeScript := rfl
@[simp] theorem registerNmi_cpuScript (ts : Nat) : (registerNmi ts s).cpuScript = s.cpuScript := rfl
@[simp] theorem registerNmi_hostNows (ts : Nat) : (registerNmi ts s).hostNows = s.hostNows := rfl
@[simp] theorem registerNmi_drawCount (ts : Nat) : (registerNmi ts s).drawCount = s.drawCount := rfl
@[simp] theorem registerNmi_trace (ts : Nat) : (registerNmi ts s).trace = s.trace := rfl
@[simp] theorem registerNmi_result (ts : Nat) : (registerNmi ts s).result = s.result := rfl

/-! ## `deferForecast` -/

@[simp] theorem deferForecast_cfg (h : Nat) : (deferForecast h s).cfg = s.cfg := rfl
@[simp] theorem deferForecast_clock (h : Nat) : (deferForecast h s).clock = s.clock := rfl
@[simp] theorem deferForecast_scan (h : Nat) : (deferForecast h s).scan = s.scan := rfl
@[simp] theorem deferForecast_ports (h : Nat) : (deferForecast h s).ports = s.ports := rfl
@[simp] theorem deferForecast_bg (h : Nat) : (deferForecast h s).bg = s.bg := rfl
@[simp] theorem deferForecast_eval (h : Nat) : (deferForecast h s).eval = s.eval := rfl
@[simp] theorem deferForecast_slots (h : Nat) : (deferForecast h s).slots = s.slots := rfl
@[simp] theorem deferForecast_fetch (h : Nat) : (deferForecast h s).fetch = s.fetch := rfl
@[simp] theorem deferForecast_dma (h : Nat) : (deferForecast h s).dma = s.dma := rfl
@[simp] theorem deferForecast_pred (h : Nat) : (deferForecast h s).pred =
    { s.pred with pendingHorizon := max s.pred.pendingHorizon h } := rfl
@[simp] theorem deferForecast_maps (h : Nat) : (deferForecast h s).maps = s.maps := rfl
@[simp] theorem deferForecast_nt (h : Nat) : (deferForecast h s).nt = s.nt := rfl
@[simp] theorem deferForecast_chr (h : Nat) : (deferForecast h s).chr = s.chr := rfl
@[simp] theorem deferForecast_pal (h : Nat) : (deferForecast h s).pal = s.pal := rfl
@[simp] theorem deferForecast_oam (h : Nat) : (deferForecast h s).oam = s.oam := rfl
@[simp] theorem deferForecast_sec (h : Nat) : (deferForecast h s).sec = s.sec := rfl
@[simp] theorem deferForecast_frame (h : Nat) : (deferForecast h s).frame = s.frame := rfl
@[simp] theorem deferForecast_pending (h : Nat) : (deferForecast h s).pending = s.pending := rfl
@[simp] theorem deferForecast_hookScript (h : Nat) : (deferForecast h s).hookScript = s.hookScript := rfl
@[simp] theorem deferForecast_noticeScript (h : Nat) : (deferForecast h s).noticeScript = s.noticeScript := rfl
@[simp] theorem deferForecast_cpuScript (h : Nat) : (deferForecast h s).cpuScript = s.cpuScript := rfl
@[simp] theorem deferForecast_hostNows (h : Nat) : (deferForecast h s).hostNows = s.hostNows := rfl
@[simp] theorem deferForecast_drawCount (h : Nat) : (deferForecast h s).drawCount = s.drawCount := rfl
@[simp] theorem deferForecast_trace (h : Nat) : (deferForecast h s).trace = s.trace := rfl
@[simp] theorem deferForecast_result (h : Nat) : (deferForecast h s).result = s.result := rfl

/-! ## `forgetForecast` -/

@[simp] theorem forgetForecast_cfg : (forgetForecast s).cfg = s.cfg := rfl
@[simp] theorem forgetForecast_clock : (forgetForecast s).clock = s.clock := rfl
@[simp] theorem forgetForecast_scan : (forgetForecast s).scan = s.scan := rfl
@[simp] theorem forgetForecast_ports : (forgetForecast s).ports = s.ports := rfl
@[simp] theorem forgetForecast_bg : (forgetForecast s).bg = s.bg := rfl
@[simp] theorem forgetForecast_eval : (forgetForecast s).eval = s.eval := rfl
@[simp] theorem forgetForecast_slots : (forgetForecast s).slots = s.slots := rfl
@[simp] theorem forgetForecast_fetch : (forgetForecast s).fetch = s.fetch := rfl
@[simp] theorem forgetForecast_dma : (forgetForecast s).dma = s.dma := rfl
@[simp] theorem forgetForecast_pred : (forgetForecast s).pred =
    { s.pred with nmiRegistered := [], predictedThrough := s.clock.lastSyncTimestamp } := rfl
@[simp] theorem forgetForecast_maps : (forgetForecast s).maps = s.maps := rfl
@[simp] theorem forgetForecast_nt : (forgetForecast s).nt = s.nt := rfl
@[simp] theorem forgetForecast_chr : (forgetForecast s).chr = s.chr := rfl
@[simp] theorem forgetForecast_pal : (forgetForecast s).pal = s.pal := rfl
@[simp] theorem forgetForecast_oam : (forgetForecast s).oam = s.oam := rfl
@[simp] theorem forgetForecast_sec : (forgetForecast s).sec = s.sec := rfl
@[simp] theorem forgetForecast_frame : (forgetForecast s).frame = s.frame := rfl
@[simp] theorem forgetForecast_pending : (forgetForecast s).pending = s.pending := rfl
@[simp] theorem forgetForecast_hookScript : (forgetForecast s).hookScript = s.hookScript := rfl
@[simp] theorem forgetForecast_noticeScript : (forgetForecast s).noticeScript = s.noticeScript := rfl
@[simp] theorem forgetForecast_cpuScript : (forgetForecast s).cpuScript = s.cpuScript := rfl
@[simp] theorem forgetForecast_hostNows : (forgetForecast s).hostNows = s.hostNows := rfl
@[simp] theorem forgetForecast_drawCount : (forgetForecast s).drawCount = s.drawCount := rfl
@[simp] theorem forgetForecast_trace : (forgetForecast s).trace = s.trace := rfl
@[simp] theorem forgetForecast_result : (forgetForecast s).result = s.result := rfl

/-! ## `bgPixel` -/

@[simp] theorem bgPixel_cfg (col : Nat) : (bgPixel col s).cfg = s.cfg := rfl
@[simp] theorem bgPixel_clock (col : Nat) : (bgPixel col s).clock = s.clock := rfl
@[simp] theorem bgPixel_scan (col : Nat) : (bgPixel col s).scan = s.scan := rfl
@[simp] theorem bgPixel_ports (col : Nat) : (bgPixel col s).ports = s.ports := rfl
@[simp] theorem bgPixel_bg (col : Nat) : (bgPixel col s).bg = setBgLine col (bgPixelAt s.ports s.bg col) s.bg := rfl
@[simp] theorem bgPixel_eval (col : Nat) : (bgPixel col s).eval = s.eval := rfl
@[simp] theorem bgPixel_slots (col : Nat) : (bgPixel col s).slots = s.slots := rfl
@[simp] theorem bgPixel_fetch (col : Nat) : (bgPixel col s).fetch = s.fetch := rfl
@[simp] theorem bgPixel_dma (col : Nat) : (bgPixel col s).dma = s.dma := rfl
@[simp] theorem bgPixel_pred (col : Nat) : (bgPixel col s).pred = s.pred := rfl
@[simp] theorem bgPixel_maps (col : Nat) : (bgPixel col s).maps = s.maps := rfl
@[simp] theorem bgPixel_nt (col : Nat) : (bgPixel col s).nt = s.nt := rfl
@[simp] theorem bgPixel_chr (col : Nat) : (bgPixel col s).chr = s.chr := rfl
@[simp] theorem bgPixel_pal (col : Nat) : (bgPixel col s).pal = s.pal := rfl
@[simp] theorem bgPixel_oam (col : Nat) : (bgPixel col s).oam = s.oam := rfl
@[simp] theorem bgPixel_sec (col : Nat) : (bgPixel col s).sec = s.sec := rfl
@[simp] theorem bgPixel_frame (col : Nat) : (bgPixel col s).frame = s.frame := rfl
@[simp] theorem bgPixel_pending (col : Nat) : (bgPixel col s).pending = s.pending := rfl
@[simp] theorem bgPixel_hookScript (col : Nat) : (bgPixel col s).hookScript = s.hookScript := rfl
@[simp] theorem bgPixel_noticeScript (col : Nat) : (bgPixel col s).noticeScript = s.noticeScript := rfl
@[simp] theorem bgPixel_cpuScript (col : Nat) : (bgPixel col s).cpuScript = s.cpuScript := rfl
@[simp] theorem bgPixel_hostNows (col : Nat) : (bgPixel col s).hostNows = s.hostNows := rfl
@[simp] theorem bgPixel_drawCount (col : Nat) : (bgPixel col s).drawCount = s.drawCount := rfl
@[simp] theorem bgPixel_trace (col : Nat) : (bgPixel col s).trace = s.trace := rfl
@[simp] theorem bgPixel_result (col : Nat) : (bgPixel col s).result = s.result := rfl

end Sys2Proof.Machine
end

