-- ==== Sys2Proof/Laws/Ops.lean ====
section
/-! SUPPORT. One lemma per shared operation that says once what it can do: the frames of the predictor and of the video
memory operations, the fields of an assembled loopy register, the slots after a map, and that the operations keep the
memories canonical and the forecast set rising. -/

namespace Sys2Proof.Machine

/-! ## The loopy registers -/

@[simp] theorem fineY_loopy (a : BitVec 3) (b : BitVec 2) (c d : BitVec 5) : fineY (loopy a b c d) = a := by
  apply BitVec.eq_of_getLsbD_eq
  intro i hi
  simp only [fineY, loopy, BitVec.getLsbD_extractLsb', BitVec.getLsbD_append]
  rw [if_neg (by omega), if_neg (by omega), if_neg (by omega), show 12 + i - 5 - 5 - 2 = i by omega]
  simp [hi]

@[simp] theorem ntSel_loopy (a : BitVec 3) (b : BitVec 2) (c d : BitVec 5) : ntSel (loopy a b c d) = b := by
  apply BitVec.eq_of_getLsbD_eq
  intro i hi
  simp only [ntSel, loopy, BitVec.getLsbD_extractLsb', BitVec.getLsbD_append]
  rw [if_neg (by omega), if_neg (by omega), if_pos (by omega), show 10 + i - 5 - 5 = i by omega]
  simp [hi]

@[simp] theorem coarseY_loopy (a : BitVec 3) (b : BitVec 2) (c d : BitVec 5) : coarseY (loopy a b c d) = c := by
  apply BitVec.eq_of_getLsbD_eq
  intro i hi
  simp only [coarseY, loopy, BitVec.getLsbD_extractLsb', BitVec.getLsbD_append]
  rw [if_neg (by omega), if_pos (by omega), show 5 + i - 5 = i by omega]
  simp [hi]

@[simp] theorem coarseX_loopy (a : BitVec 3) (b : BitVec 2) (c d : BitVec 5) : coarseX (loopy a b c d) = d := by
  apply BitVec.eq_of_getLsbD_eq
  intro i hi
  simp only [coarseX, loopy, BitVec.getLsbD_extractLsb', BitVec.getLsbD_append]
  rw [if_pos (by omega), Nat.zero_add]
  simp [hi]

/-- A loopy register is made of its four fields. -/
theorem loopy_fields (v : Loopy) : loopy (fineY v) (ntSel v) (coarseY v) (coarseX v) = v := by
  apply BitVec.eq_of_getLsbD_eq
  intro i hi
  simp only [loopy, fineY, ntSel, coarseY, coarseX, BitVec.getLsbD_append, BitVec.getLsbD_extractLsb']
  by_cases h1 : i < 5
  · simp [h1]
  · by_cases h2 : i - 5 < 5
    · simp [h1, h2, show 5 + (i - 5) = i by omega]
    · by_cases h3 : i - 5 - 5 < 2
      · simp [h1, h2, h3, show 10 + (i - 5 - 5) = i by omega]
      · simp [h1, h2, h3, show 12 + (i - 5 - 5 - 2) = i by omega, show i - 5 - 5 - 2 < 3 by omega]

/-! ## The slots -/

@[simp] theorem mapSlots_toList (f : Slot → Slot) (v : Vector Slot 8) : (mapSlots f v).toList = v.toList.map f := by
  simp [mapSlots, Vector.toList]

/-- Every killed slot is dead. -/
theorem killSlots_dead (v : Vector Slot 8) : ∀ s ∈ (killSlots v).toList, s.dead = true := by
  simp [killSlots]

/-! ## The predictor -/

/-- Registering an edge changes the forecast set and the trace only. -/
theorem forecastNmi_frame (s : State) (ts : Nat) :
    forecastNmi s ts = { s with
      pred := { s.pred with nmiRegistered := (forecastNmi s ts).pred.nmiRegistered }
      trace := (forecastNmi s ts).trace } := by
  unfold forecastNmi
  split <;> rfl

theorem forecastNmi_foldl_frame (l : List Nat) (s : State) :
    l.foldl forecastNmi s = { s with
      pred := { s.pred with nmiRegistered := (l.foldl forecastNmi s).pred.nmiRegistered }
      trace := (l.foldl forecastNmi s).trace } := by
  induction l generalizing s with
  | nil => rfl
  | cons t rest ih =>
    rw [List.foldl_cons, ih]
    generalize rest.foldl forecastNmi (forecastNmi s t) = u
    rw [forecastNmi_frame s t]

/-- A forecast changes the bookkeeping and the trace only (R380). -/
theorem predict_frame (h : Nat) (s : State) :
    predict h s = { s with pred := (predict h s).pred, trace := (predict h s).trace } := by
  unfold predict
  split
  · rfl
  · split
    · rfl
    · simp only [runForecast]
      generalize forecastEdges _ _ _ _ = l
      rw [forecastNmi_foldl_frame]

/-- Invalidating changes, beside what the withdrawal's callback does, the bookkeeping and the trace only (R386). -/
theorem invalidateNmi_frame (notify : Notify) (s : State) :
    invalidateNmi notify s = { notify (.clearInterrupt .nmi) s with
      pred := (invalidateNmi notify s).pred
      trace := (invalidateNmi notify s).trace } := by
  unfold invalidateNmi
  rw [predict_frame]
  rfl

/-- A real edge is taken out of the forecast set or told to the host (R385). -/
theorem realNmiEdge_cases (notify : Notify) (ts : Nat) (s : State) :
    (ts ∈ s.pred.nmiRegistered ∧ realNmiEdge notify ts s = unregisterNmi ts s) ∨
    (ts ∉ s.pred.nmiRegistered ∧ realNmiEdge notify ts s = notify (.setInterrupt .nmi ts) s) := by
  by_cases h : ts ∈ s.pred.nmiRegistered
  · exact .inl ⟨h, by simp [realNmiEdge, nmiIsRegistered, h]⟩
  · exact .inr ⟨h, by simp [realNmiEdge, nmiIsRegistered, h]⟩

theorem mem_insertRising {t u : Nat} {l : List Nat} : u ∈ insertRising t l ↔ u = t ∨ u ∈ l := by
  induction l with
  | nil => simp [insertRising]
  | cons x rest ih =>
    simp only [insertRising]
    split
    · simp
    · split
      · rename_i h; simp [h]
      · simp only [List.mem_cons, ih]
        tauto

theorem insertRising_pairwise {l : List Nat} (t : Nat) (h : l.Pairwise (· < ·)) :
    (insertRising t l).Pairwise (· < ·) := by
  induction l with
  | nil => simp [insertRising]
  | cons x rest ih =>
    have h' := List.pairwise_cons.1 h
    simp only [insertRising]
    split
    · rename_i hlt
      refine List.pairwise_cons.2 ⟨fun y hy => ?_, h⟩
      rcases List.mem_cons.1 hy with rfl | hy
      · exact hlt
      · exact lt_trans hlt (h'.1 y hy)
    · split
      · exact h
      · refine List.pairwise_cons.2 ⟨fun y hy => ?_, ih h'.2⟩
        rcases mem_insertRising.1 hy with rfl | hy
        · omega
        · exact h'.1 y hy

/-- `forecastNmi(ts)` (R380): an edge already registered changes nothing; a new one joins the set and makes one call. -/
theorem forecastNmi_spec (s : State) (ts : Nat) :
    (ts ∈ s.pred.nmiRegistered → forecastNmi s ts = s) ∧
    (ts ∉ s.pred.nmiRegistered →
      (forecastNmi s ts).pred.nmiRegistered = insertRising ts s.pred.nmiRegistered ∧
      (forecastNmi s ts).trace = .setInterrupt .nmi ts :: s.trace) := by
  constructor <;> intro h <;> simp [forecastNmi, nmiIsRegistered, signalNmi, registerNmi, emit, h]

/-- Registering a list of distinct edges: the set becomes the union, and each edge that was not yet registered makes one
call, in order. -/
theorem forecastNmi_foldl_spec {l : List Nat} (hl : l.Nodup) (s : State) :
    (∀ t, t ∈ (l.foldl forecastNmi s).pred.nmiRegistered ↔ t ∈ s.pred.nmiRegistered ∨ t ∈ l) ∧
    (l.foldl forecastNmi s).trace =
      ((l.filter fun t => decide (t ∉ s.pred.nmiRegistered)).map (Event.setInterrupt .nmi)).reverse ++ s.trace := by
  induction l generalizing s with
  | nil => simp
  | cons a rest ih =>
    obtain ⟨ha, hrest⟩ := List.nodup_cons.1 hl
    obtain ⟨hmem, htrace⟩ := ih hrest (forecastNmi s a)
    rw [List.foldl_cons]
    by_cases h : a ∈ s.pred.nmiRegistered
    · rw [(forecastNmi_spec s a).1 h] at hmem htrace ⊢
      refine ⟨fun t => ?_, by rw [htrace]; simp [h]⟩
      rw [hmem, List.mem_cons]
      exact ⟨fun q => q.imp_right .inr, fun q => q.elim .inl fun r => r.elim (fun e => .inl (e ▸ h)) .inr⟩
    · obtain ⟨hset, hcall⟩ := (forecastNmi_spec s a).2 h
      refine ⟨fun t => by rw [hmem, hset, mem_insertRising, List.mem_cons]; tauto, ?_⟩
      have hfilter : rest.filter (fun t => decide (t ∉ insertRising a s.pred.nmiRegistered)) =
          rest.filter (fun t => decide (t ∉ s.pred.nmiRegistered)) := by
        refine List.filter_congr fun x hx => ?_
        have : x ≠ a := fun e => ha (e ▸ hx)
        simp [mem_insertRising, this]
      rw [htrace, hset, hcall, hfilter]
      simp [h]

/-- The edges of a forecast of `n` cycles lie at the cycles' own timestamps, none after the last. -/
theorem forecastEdges_range {cfg : Config} {n first t : Nat} {r : Replica} (h : t ∈ forecastEdges cfg n first r) :
    first ≤ t ∧ t + cfg.clockDivider ≤ first + n * cfg.clockDivider := by
  induction n generalizing first r with
  | zero => simp [forecastEdges] at h
  | succ n ih =>
    have hcase : t = first ∨ t ∈ forecastEdges cfg n (first + cfg.clockDivider) (r.cycle cfg) := by
      simp only [forecastEdges] at h
      split at h
      · exact List.mem_cons.1 h
      · exact .inr h
    rw [Nat.add_mul]
    rcases hcase with rfl | h
    · have := Nat.zero_le (n * cfg.clockDivider)
      omega
    · have := ih h
      omega

/-- No forecast names an edge twice. -/
theorem forecastEdges_nodup {cfg : Config} (h : 0 < cfg.clockDivider) (n first : Nat) (r : Replica) :
    (forecastEdges cfg n first r).Nodup := by
  induction n generalizing first r with
  | zero => simp [forecastEdges]
  | succ n ih =>
    simp only [forecastEdges]
    split
    · refine List.nodup_cons.2 ⟨fun hm => ?_, ih _ _⟩
      have := (forecastEdges_range hm).1
      omega
    · exact ih _ _

theorem forecastNmi_rising {s : State} (ts : Nat) (h : ForecastOk s) : ForecastOk (forecastNmi s ts) := by
  unfold forecastNmi
  split
  · exact h
  · exact insertRising_pairwise ts h

theorem forecastNmi_foldl_rising (l : List Nat) {s : State} (h : ForecastOk s) : ForecastOk (l.foldl forecastNmi s) := by
  induction l generalizing s with
  | nil => exact h
  | cons t rest ih => exact ih (forecastNmi_rising t h)

theorem predict_rising (h : Nat) {s : State} (hs : ForecastOk s) : ForecastOk (predict h s) := by
  unfold predict
  split
  · exact hs
  · split
    · exact hs
    · exact forecastNmi_foldl_rising (s := s) _ hs

/-- Invalidating leaves a rising set, whatever stood before. -/
theorem invalidateNmi_rising (notify : Notify) (s : State) : ForecastOk (invalidateNmi notify s) :=
  predict_rising _ (List.Pairwise.nil : ([] : List Nat).Pairwise (· < ·))

theorem unregisterNmi_rising (ts : Nat) {s : State} (h : ForecastOk s) : ForecastOk (unregisterNmi ts s) :=
  List.Pairwise.filter _ h

/-! ## Video memory and OAM -/

/-- A video write changes one of the three video memories only (R95). -/
theorem vWrite_frame (a : PpuAddr) (d : Byte) (s : State) :
    vWrite a d s = { s with chr := (vWrite a d s).chr, nt := (vWrite a d s).nt, pal := (vWrite a d s).pal } := by
  unfold vWrite
  split
  · dsimp only
    split <;> rfl
  · split
    · split <;> rfl
    · rfl

/-- The three video memories stay canonical under a video write. -/
theorem vWrite_wf (a : PpuAddr) (d : Byte) {s : State} (hc : Memory.wf .chr s.chr) (hn : Memory.wf .nt s.nt)
    (hp : Memory.wf .pal s.pal) :
    Memory.wf .chr (vWrite a d s).chr ∧ Memory.wf .nt (vWrite a d s).nt ∧ Memory.wf .pal (vWrite a d s).pal := by
  unfold vWrite
  split
  · dsimp only
    split
    · exact ⟨writeCell_wf hc rfl rfl, hn, hp⟩
    · exact ⟨hc, hn, hp⟩
  · split
    · split
      · exact ⟨hc, writeCell_wf hn rfl rfl, hp⟩
      · exact ⟨hc, hn, hp⟩
    · refine ⟨hc, hn, writeCell_wf hp ?_ ?_⟩
      · simpa [Space.holds] using (palIndex a).isLt
      · exact Space.stored_stored .pal (palIndex a).toNat d

/-- The bits an OAM write stores are the bits that exist at its address (R102). -/
theorem oamStored_eq (i d : Byte) : oamStored i d = Space.stored .oam i.toNat d := by
  have h : (i &&& 3#8 = 2#8) ↔ i.toNat % 4 = 2 := by
    rw [← BitVec.toNat_inj, BitVec.toNat_and]
    show i.toNat &&& 3 = 2 ↔ _
    rw [show (3 : Nat) = 2 ^ 2 - 1 from rfl, Nat.and_two_pow_sub_one_eq_mod]
  simp only [oamStored, Space.stored, h]

/-- OAM stays canonical under an OAM write. -/
theorem oamWrite_wf (d : Byte) {s : State} (h : Memory.wf .oam s.oam) : Memory.wf .oam (oamWrite d s).oam := by
  refine writeCell_wf h ?_ ?_
  · simpa [Space.holds] using s.ports.oamAddr.isLt
  · rw [oamStored_eq, Space.stored_stored]

/-- The address step of a PPUDATA access changes `v` only (R218). -/
theorem incrementV_frame (s : State) : incrementV s = setV (incrementV s).ports.v s := by
  unfold incrementV
  split <;> rfl

end Sys2Proof.Machine
end

