-- ==== Sys2Proof/Laws/Callbacks.lean ====
section
/-! SUPPORT. What a callback of the host can do while a replay runs, whatever its script says (R167): one relation, shown
once by induction over the nesting, so that no later proof opens a callback. -/

namespace Sys2Proof.Machine

/-- What is left alone between `s` and `t`, when `t` comes from `s` by nested calls during a replay. -/
structure Nested (s t : State) : Prop where
  cfg     : t.cfg = s.cfg
  clock   : t.clock = { s.clock with remeasure := t.clock.remeasure }
  scan    : t.scan = s.scan
  bg      : t.bg = s.bg
  eval    : t.eval = s.eval
  slots   : t.slots = s.slots
  fetch   : t.fetch = s.fetch
  sec     : t.sec = s.sec
  frame   : t.frame = s.frame
  pending : t.pending = s.pending
  script  : scriptLength t ≤ scriptLength s
  dma     : t.dma = s.dma ∨ (t.dma.timer = 3 ∧ t.dma.writeAddress = 0 ∧ t.dma.phase = .read)
  nt      : Memory.wf .nt s.nt → Memory.wf .nt t.nt
  chr     : Memory.wf .chr s.chr → Memory.wf .chr t.chr
  pal     : Memory.wf .pal s.pal → Memory.wf .pal t.pal
  oam     : Memory.wf .oam s.oam → Memory.wf .oam t.oam
  rising  : ForecastOk s → ForecastOk t

namespace Nested

theorem refl (s : State) : Nested s s :=
  ⟨rfl, rfl, rfl, rfl, rfl, rfl, rfl, rfl, rfl, rfl, le_rfl, .inl rfl, id, id, id, id, id⟩

theorem trans {s t u : State} (h : Nested s t) (k : Nested t u) : Nested s u where
  cfg := k.cfg.trans h.cfg
  clock := by rw [k.clock, h.clock]
  scan := k.scan.trans h.scan
  bg := k.bg.trans h.bg
  eval := k.eval.trans h.eval
  slots := k.slots.trans h.slots
  fetch := k.fetch.trans h.fetch
  sec := k.sec.trans h.sec
  frame := k.frame.trans h.frame
  pending := k.pending.trans h.pending
  script := k.script.trans h.script
  dma := by
    rcases k.dma with hk | hk
    · rcases h.dma with hh | hh
      · exact .inl (hk.trans hh)
      · exact .inr (hk ▸ hh)
    · exact .inr hk
  nt := k.nt ∘ h.nt
  chr := k.chr ∘ h.chr
  pal := k.pal ∘ h.pal
  oam := k.oam ∘ h.oam
  rising := k.rising ∘ h.rising

/-- The guard of a nested call is kept. -/
theorem syncDepth {s t : State} (h : Nested s t) : t.clock.syncDepth = s.clock.syncDepth := by rw [h.clock]

/-- A change of the ports, the maps, the trace, the answers and the result only. -/
theorem light (s : State) (ports : Ports) (maps : Maps) (draw : Nat) (trace : List Event) (result : Result) :
    Nested s { s with ports := ports, maps := maps, drawCount := draw, trace := trace, result := result } :=
  ⟨rfl, rfl, rfl, rfl, rfl, rfl, rfl, rfl, rfl, rfl, le_rfl, .inl rfl, id, id, id, id, id⟩

/-- A change of the forecast bookkeeping and the trace only. -/
theorem predicted (s : State) (pred : Prediction) (trace : List Event)
    (h : ForecastOk s → pred.nmiRegistered.Pairwise (· < ·)) : Nested s { s with pred := pred, trace := trace } :=
  ⟨rfl, rfl, rfl, rfl, rfl, rfl, rfl, rfl, rfl, rfl, le_rfl, .inl rfl, id, id, id, id, h⟩

theorem emit (e : Event) (s : State) : Nested s (Machine.emit e s) := light s s.ports s.maps s.drawCount _ s.result

theorem noResult (s : State) : Nested s (Machine.noResult s) := light s s.ports s.maps s.drawCount s.trace _

theorem returnByte (b : Byte) (s : State) : Nested s (Machine.returnByte b s) :=
  light s s.ports s.maps s.drawCount s.trace _

theorem withPorts (s : State) (p : Ports) : Nested s { s with ports := p } :=
  light s p s.maps s.drawCount s.trace s.result

theorem withMaps (s : State) (m : Maps) : Nested s { s with maps := m } :=
  light s s.ports m s.drawCount s.trace s.result

theorem withDraw (s : State) (n : Nat) : Nested s { s with drawCount := n } :=
  light s s.ports s.maps n s.trace s.result

theorem predict (h : Nat) (s : State) : Nested s (Machine.predict h s) := by
  rw [predict_frame]
  exact predicted s _ _ (predict_rising h)

theorem unregisterNmi (ts : Nat) (s : State) : Nested s (Machine.unregisterNmi ts s) :=
  predicted s _ s.trace (unregisterNmi_rising ts)

theorem vWrite (a : PpuAddr) (d : Byte) (s : State) : Nested s (Machine.vWrite a d s) := by
  rw [vWrite_frame]
  refine ⟨rfl, rfl, rfl, rfl, rfl, rfl, rfl, rfl, rfl, rfl, le_rfl, .inl rfl, ?_, ?_, ?_, id, id⟩
  · intro h
    show Memory.wf .nt (Machine.vWrite a d s).nt
    unfold Machine.vWrite
    split
    · dsimp only; split <;> exact h
    · split
      · split
        · exact writeCell_wf h rfl rfl
        · exact h
      · exact h
  · intro h
    show Memory.wf .chr (Machine.vWrite a d s).chr
    unfold Machine.vWrite
    split
    · dsimp only
      split
      · exact writeCell_wf h rfl rfl
      · exact h
    · split
      · split <;> exact h
      · exact h
  · intro h
    show Memory.wf .pal (Machine.vWrite a d s).pal
    unfold Machine.vWrite
    split
    · dsimp only; split <;> exact h
    · split
      · split <;> exact h
      · refine writeCell_wf h ?_ (Space.stored_stored .pal _ _)
        simpa [Space.holds] using (palIndex a).isLt

theorem oamWrite (d : Byte) (s : State) : Nested s (Machine.oamWrite d s) :=
  ⟨rfl, rfl, rfl, rfl, rfl, rfl, rfl, rfl, rfl, rfl, le_rfl, .inl rfl, id, id, id, oamWrite_wf d, id⟩

theorem incrementV (s : State) : Nested s (Machine.incrementV s) := by
  rw [incrementV_frame]
  exact withPorts s _

theorem setLastWritten (d : Byte) (s : State) : Nested s (Machine.setLastWritten d s) := withPorts s _

theorem wrScroll (d : Byte) (s : State) : Nested s (Machine.wrScroll d s) := by
  unfold Machine.wrScroll
  refine Nested.trans ?_ (noResult _)
  split <;> exact withPorts s _

theorem wrAddr (d : Byte) (s : State) : Nested s (Machine.wrAddr d s) := by
  unfold Machine.wrAddr
  refine Nested.trans ?_ (noResult _)
  split <;> exact withPorts s _

section notify

variable {notify : Notify} (hn : ∀ e s, 0 < s.clock.syncDepth → Nested s (notify e s))
include hn

theorem invalidateNmi {s : State} (hs : 0 < s.clock.syncDepth) : Nested s (Machine.invalidateNmi notify s) := by
  rw [invalidateNmi_frame]
  exact (hn _ s hs).trans (predicted _ _ _ fun _ => invalidateNmi_rising notify s)

theorem realNmiEdge (ts : Nat) {s : State} (hs : 0 < s.clock.syncDepth) :
    Nested s (Machine.realNmiEdge notify ts s) := by
  rcases realNmiEdge_cases notify ts s with ⟨-, h⟩ | ⟨-, h⟩ <;> rw [h]
  · exact unregisterNmi ts s
  · exact hn _ s hs

theorem rdStatus {s : State} (hs : 0 < s.clock.syncDepth) : Nested s (Machine.rdStatus notify s) := by
  have h : Nested s (if atRace s then raceRead notify s else s) := by
    split
    · unfold raceRead
      split
      · have h1 := (hn (.clearInterrupt .nmi) s hs).trans (unregisterNmi (cycleClock s) _)
        exact h1.trans (invalidateNmi hn (by rw [h1.syncDepth]; exact hs))
      · exact refl s
    · exact refl s
  exact (h.trans (withPorts _ _)).trans (returnByte _ _)

theorem wrCtrl (d : Byte) {s : State} (hs : 0 < s.clock.syncDepth) : Nested s (Machine.wrCtrl notify d s) := by
  unfold Machine.wrCtrl
  extract_lets s1 oldE p s2 s3 s4
  have k2 : Nested s s2 := withPorts s _
  have k3 : Nested s2 s3 := by
    change Nested s2 (if oldE ≠ d.getLsbD 7 then Machine.invalidateNmi notify s2 else s2)
    split
    · exact invalidateNmi hn hs
    · exact refl s2
  have k4 : Nested s3 s4 := by
    change Nested s3 (if oldE = false ∧ d.getLsbD 7 = true ∧ s3.ports.vblank = true then nmiEdgeNow notify s3 else s3)
    split
    · exact hn _ s3 (by rw [k3.syncDepth]; exact hs)
    · exact refl s3
  exact ((k2.trans k3).trans k4).trans (noResult _)

theorem wrMask (d : Byte) {s : State} (hs : 0 < s.clock.syncDepth) : Nested s (Machine.wrMask notify d s) := by
  unfold Machine.wrMask
  refine Nested.trans ?_ (noResult _)
  split
  · exact (withPorts s _).trans (invalidateNmi hn hs)
  · exact withPorts s _

theorem dmaTrigger (d : Byte) {s : State} (hs : 0 < s.clock.syncDepth) : Nested s (Machine.dmaTrigger notify d s) := by
  unfold Machine.dmaTrigger
  extract_lets dm s1 s2
  have k1 : Nested s s1 :=
    ⟨rfl, rfl, rfl, rfl, rfl, rfl, rfl, rfl, rfl, rfl, le_rfl, .inr ⟨rfl, rfl, rfl⟩, id, id, id, id, id⟩
  have k2 : Nested s1 s2 := hn _ s1 hs
  refine (k1.trans k2).trans (Nested.trans ?_ (noResult _))
  split
  · exact ⟨rfl, rfl, rfl, rfl, rfl, rfl, rfl, rfl, rfl, rfl, le_rfl, .inl rfl, id, id, id, id, id⟩
  · exact refl s2

/-- A register effect during a replay, given that the callbacks keep the relation while the replay runs. -/
theorem busEffect {hook : Hook} (hh : ∀ e s, 0 < s.clock.syncDepth → Nested s (hook e s)) (op : BusOp) (d : Byte)
    {s : State} (hs : 0 < s.clock.syncDepth) : Nested s (Machine.busEffect hook notify op d s) := by
  cases op <;> simp only [Machine.busEffect]
  case rdCtrl => exact returnByte _ _
  case rdMask => exact returnByte _ _
  case rdStatus => exact rdStatus hn hs
  case rdOamAddr => exact returnByte _ _
  case rdOamData => exact returnByte _ _
  case rdScroll => exact returnByte _ _
  case rdAddr => exact returnByte _ _
  case rdData =>
    unfold rdData
    exact (((hh _ s hs).trans (withPorts _ _)).trans (incrementV _)).trans (returnByte _ _)
  case wrCtrl => exact wrCtrl hn d hs
  case wrMask => exact wrMask hn d hs
  case wrStatus => exact (setLastWritten d s).trans (noResult _)
  case wrOamAddr => exact ((setLastWritten d s).trans (withPorts _ _)).trans (noResult _)
  case wrOamData => exact ((setLastWritten d s).trans (oamWrite d _)).trans (noResult _)
  case wrScroll => exact wrScroll d s
  case wrAddr => exact wrAddr d s
  case wrData =>
    unfold wrData
    exact ((((setLastWritten d s).trans (hh _ _ hs)).trans (vWrite _ _ _)).trans (incrementV _)).trans (noResult _)
  case dmaTrigger => exact dmaTrigger hn d hs

end notify

/-- A nested synchronization is a diagnosed no-op (R168). -/
theorem sync (cb : Callbacks) (now : Nat) {s : State} (hs : 0 < s.clock.syncDepth) :
    Machine.sync cb now s = diag .reentrantSync s := by
  simp [Machine.sync, hs]

end Nested

/-- Callbacks that keep the relation whenever a replay runs. -/
structure Callbacks.Keeps (cb : Callbacks) : Prop where
  hook    : ∀ e s, 0 < s.clock.syncDepth → Nested s (cb.hook e s)
  cpuRead : ∀ a s, 0 < s.clock.syncDepth → Nested s (cb.cpuRead a s).1
  notify  : ∀ e s, 0 < s.clock.syncDepth → Nested s (cb.notify e s)

theorem hookCall_nested {cb : Callbacks} (hcb : cb.Keeps) (call : HookCall) {s : State} (hs : 0 < s.clock.syncDepth) :
    Nested s (hookCall cb call s) := by
  cases call with
  | bus acc d now =>
    simp only [hookCall, busAccess]
    split
    · rw [Nested.sync cb now hs]
      exact (Nested.emit _ s).trans (Nested.busEffect hcb.notify hcb.hook _ d hs)
    · exact Nested.refl s
  | sync now =>
    simp only [hookCall]
    rw [Nested.sync cb now hs]
    exact Nested.emit _ s
  | predict horizon => exact Nested.predict horizon s
  | reset now =>
    simp only [hookCall, resetCore, hs, if_true]
    exact Nested.emit _ s
  | remapNametables map =>
    simp only [hookCall, remapNametables]
    split
    · exact Nested.withMaps s _
    · exact Nested.emit _ s
  | remapPatterns view start pageSize source =>
    simp only [hookCall, remapPatterns]
    split
    · exact Nested.withMaps s _
    · exact Nested.emit _ s

/-- The calls a callback answer makes during a replay. -/
theorem runCalls_nested {run : HookCall → State → State} (hr : ∀ c s, 0 < s.clock.syncDepth → Nested s (run c s))
    (calls : List HookCall) {s : State} (hs : 0 < s.clock.syncDepth) : Nested s (runCalls run calls s) := by
  induction calls generalizing s with
  | nil => exact Nested.refl s
  | cons c rest ih =>
    have h := hr c s hs
    exact h.trans (ih (by rw [h.syncDepth]; exact hs))

theorem hookWith_nested {run : HookCall → State → State} (hr : ∀ c s, 0 < s.clock.syncDepth → Nested s (run c s))
    (e : HookEvent) {s : State} (hs : 0 < s.clock.syncDepth) : Nested s (hookWith run e s) := by
  refine (Nested.emit (.hook e) s).trans ?_
  simp only [hookWith]
  split
  · exact Nested.refl _
  · rename_i calls rest hscript
    refine Nested.trans (t := { emit (.hook e) s with hookScript := rest }) ?_ (runCalls_nested hr calls hs)
    have hscript : s.hookScript = calls :: rest := hscript
    refine ⟨rfl, rfl, rfl, rfl, rfl, rfl, rfl, rfl, rfl, rfl, ?_, .inl rfl, id, id, id, id, id⟩
    simp [scriptLength, hscript]

theorem notifyWith_nested {run : HookCall → State → State} (hr : ∀ c s, 0 < s.clock.syncDepth → Nested s (run c s))
    (e : Event) {s : State} (hs : 0 < s.clock.syncDepth) : Nested s (notifyWith run e s) := by
  refine (Nested.emit e s).trans ?_
  simp only [notifyWith]
  split
  · split
    · exact Nested.refl _
    · rename_i calls rest hscript
      refine Nested.trans (t := { emit e s with noticeScript := rest }) ?_ (runCalls_nested hr calls hs)
      have hscript : s.noticeScript = calls :: rest := hscript
      refine ⟨rfl, rfl, rfl, rfl, rfl, rfl, rfl, rfl, rfl, rfl, ?_, .inl rfl, id, id, id, id, id⟩
      simp only [scriptLength, emit_hookScript, emit_noticeScript, emit_cpuScript, hscript, List.length_cons]
      omega
  · exact Nested.refl _

theorem callbacksWith_keeps {run : HookCall → State → State}
    (hr : ∀ c s, 0 < s.clock.syncDepth → Nested s (run c s)) : (callbacksWith run).Keeps where
  hook e s hs := hookWith_nested hr e hs
  notify e s hs := notifyWith_nested hr e hs
  cpuRead a s hs := by
    simp only [callbacksWith, cpuReadWith]
    have h1 : Nested s (nestedPortRead (hookWith run) (notifyWith run) a (emit (.cpuRead a) s)) := by
      refine (Nested.emit (.cpuRead a) s).trans ?_
      simp only [nestedPortRead]
      split
      · split
        · exact (Nested.emit _ _).trans (Nested.busEffect (fun e t ht => notifyWith_nested hr e ht)
            (fun e t ht => hookWith_nested hr e ht) _ 0 hs)
        · exact Nested.refl _
      · exact Nested.refl _
    have hd := h1.syncDepth
    generalize nestedPortRead (hookWith run) (notifyWith run) a (emit (.cpuRead a) s) = t at h1 hd
    refine h1.trans ?_
    split
    · exact Nested.withDraw t _
    · rename_i answer rest hscript
      refine Nested.trans (t := { t with cpuScript := rest }) ?_ (runCalls_nested hr answer.calls (by
        show 0 < t.clock.syncDepth
        rw [hd]; exact hs))
      refine ⟨rfl, rfl, rfl, rfl, rfl, rfl, rfl, rfl, rfl, rfl, ?_, .inl rfl, id, id, id, id, id⟩
      simp [scriptLength, hscript]

/-- Whatever the host's answers do during a replay, it is in the relation. -/
theorem callbacks_keeps (n : Nat) : (callbacks n).Keeps := by
  induction n with
  | zero => exact callbacksWith_keeps fun _ s _ => Nested.refl s
  | succ n ih => exact callbacksWith_keeps fun c _ hs => hookCall_nested ih c hs

/-- A hook with no answer left records its event and does nothing else (R170). -/
theorem callbacks_hook_unscripted (n : Nat) (e : HookEvent) {s : State} (h : s.hookScript = []) :
    (callbacks n).hook e s = emit (.hook e) s := by
  cases n <;> simp [callbacks, callbacksWith, hookWith, h]

/-- Between replays a callback that returns nothing only records its event. -/
theorem callbacks_notify_between (n : Nat) (e : Event) {s : State} (h : s.clock.syncDepth = 0) :
    (callbacks n).notify e s = emit e s := by
  cases n <;> simp [callbacks, callbacksWith, notifyWith, h]

/-- With no answer left a callback that returns nothing only records its event. -/
theorem callbacks_notify_unscripted (n : Nat) (e : Event) {s : State} (h : s.noticeScript = []) :
    (callbacks n).notify e s = emit e s := by
  cases n <;> simp [callbacks, callbacksWith, notifyWith, h]

/-- In an access the CPU makes between replays, such a callback only records its event. -/
theorem callNotify_between (e : Event) {s : State} (h : s.clock.syncDepth = 0) : callNotify e s = emit e s :=
  callbacks_notify_between _ e h

end Sys2Proof.Machine
end

