-- ==== Sys2Proof/Laws/Cycle.lean ====
section
/-! SUPPORT. What the units of one cycle can do, said once: whatever the host's callbacks answer, no unit moves the scan
position or the clock, and each keeps the memories canonical and its own fields in their ranges. -/

namespace Sys2Proof.Machine

/-- What is kept between `s` and `t`, when `t` comes from `s` by the units of a cycle. -/
structure InCycle (s t : State) : Prop where
  cfg     : t.cfg = s.cfg
  clock   : t.clock = { s.clock with remeasure := t.clock.remeasure }
  scan    : t.scan = s.scan
  pending : t.pending = s.pending
  script  : scriptLength t ≤ scriptLength s
  memory  : MemoryOk s → MemoryOk t
  eval    : EvaluatorOk s → EvaluatorOk t
  pipes   : PipelineOk s → PipelineOk t
  rising  : ForecastOk s → ForecastOk t

namespace InCycle

theorem refl (s : State) : InCycle s s := ⟨rfl, rfl, rfl, rfl, le_rfl, id, id, id, id⟩

theorem trans {s t u : State} (h : InCycle s t) (k : InCycle t u) : InCycle s u where
  cfg := k.cfg.trans h.cfg
  clock := by rw [k.clock, h.clock]
  scan := k.scan.trans h.scan
  pending := k.pending.trans h.pending
  script := k.script.trans h.script
  memory := k.memory ∘ h.memory
  eval := k.eval ∘ h.eval
  pipes := k.pipes ∘ h.pipes
  rising := k.rising ∘ h.rising

/-- The guard of nested calls is kept. -/
theorem syncDepth {s t : State} (h : InCycle s t) : t.clock.syncDepth = s.clock.syncDepth := by rw [h.clock]

/-- A callback during a replay. -/
theorem of_nested {s t : State} (h : Nested s t) : InCycle s t where
  cfg := h.cfg
  clock := h.clock
  scan := h.scan
  pending := h.pending
  script := h.script
  memory m := ⟨h.nt m.nt, h.chr m.chr, h.pal m.pal, h.oam m.oam, h.sec ▸ m.sec, h.frame ▸ m.frame, h.bg ▸ m.line⟩
  eval m := by
    obtain ⟨m1, m2, m3, m4⟩ := m
    constructor <;> rw [h.eval] <;> assumption
  pipes m := by
    obtain ⟨m1, m2, m3, m4, m5, m6, m7⟩ := m
    rcases h.dma with hd | ⟨h1, h2, -⟩
    · constructor <;> first | rw [h.bg] | rw [hd]
      all_goals assumption
    · constructor
      · rw [h.bg]; exact m1
      · rw [h.bg]; exact m2
      · rw [h.bg]; exact m3
      · rw [h.bg]; exact m4
      · rw [h1]
      · rw [h2]; decide
      · rw [h2]; intro _; decide
  rising := h.rising

/-- A change of the ports and the slots only. -/
theorem light (s : State) (ports : Ports) (slots : Vector Slot 8) (fetch : SpriteFetch) :
    InCycle s { s with ports := ports, slots := slots, fetch := fetch } :=
  ⟨rfl, rfl, rfl, rfl, le_rfl, fun m => ⟨m.nt, m.chr, m.pal, m.oam, m.sec, m.frame, m.line⟩,
    fun m => ⟨m.copied, m.copying, m.overflow, m.subState⟩,
    fun m => ⟨m.attrCur, m.attrNext, m.atShift, m.reload, m.timer, m.bytes, m.running⟩, id⟩

theorem withPorts (s : State) (p : Ports) : InCycle s { s with ports := p } := light s p s.slots s.fetch

theorem withSlots (s : State) (v : Vector Slot 8) : InCycle s { s with slots := v } := light s s.ports v s.fetch

theorem withFetch (s : State) (f : SpriteFetch) : InCycle s { s with fetch := f } := light s s.ports s.slots f

/-- A change of the background registers that keeps their ranges. -/
theorem withBg (s : State) (b : Background)
    (hl : (CellsWf BgPixel.transparent s.bg.line ∧ ∀ c ∈ s.bg.line, c.1 < 256) →
      CellsWf BgPixel.transparent b.line ∧ ∀ c ∈ b.line, c.1 < 256)
    (hp : PipelineOk s → b.attrCur.shift.getLsbD 0 = false ∧ b.attrNext.shift.getLsbD 0 = false ∧
      b.atShift.getLsbD 0 = false ∧ b.reloadCounter ≤ 16) : InCycle s { s with bg := b } :=
  ⟨rfl, rfl, rfl, rfl, le_rfl, fun m => ⟨m.nt, m.chr, m.pal, m.oam, m.sec, m.frame, hl m.line⟩,
    fun m => ⟨m.copied, m.copying, m.overflow, m.subState⟩,
    fun m => ⟨(hp m).1, (hp m).2.1, (hp m).2.2.1, (hp m).2.2.2, m.timer, m.bytes, m.running⟩, id⟩

/-- A change of the background bytes, which have no range. -/
theorem withBytes (s : State) (nt at' : Byte) (lo hi : Byte) (x : BitVec 3) (pLo pHi : BitVec 16) :
    InCycle s { s with bg := { s.bg with
      ntByte := nt, atByte := at', ptLo := lo, ptHi := hi, fineXLine := x, patLo := pLo, patHi := pHi } } :=
  withBg s _ id fun m => ⟨m.attrCur, m.attrNext, m.atShift, m.reload⟩

/-- A change of one column of the background line. -/
theorem setLine (s : State) (col : Nat) (p : BgPixel) (hc : col < 256) :
    InCycle s { s with bg := setBgLine col p s.bg } := by
  refine withBg s _ (fun h => ⟨cellsWrite_wf _ _ _ h.1, fun c hm => ?_⟩) fun m => ⟨m.attrCur, m.attrNext, m.atShift, m.reload⟩
  rcases mem_cellsWrite hm with rfl | hm
  · exact hc
  · exact h.2 c hm

theorem setSec (i : BitVec 5) (b : Byte) (s : State) : InCycle s (Machine.setSec i b s) :=
  ⟨rfl, rfl, rfl, rfl, le_rfl,
    fun m => ⟨m.nt, m.chr, m.pal, m.oam, writeCell_wf m.sec (by simpa [Space.holds] using i.isLt) rfl, m.frame, m.line⟩,
    fun m => ⟨m.copied, m.copying, m.overflow, m.subState⟩,
    fun m => ⟨m.attrCur, m.attrNext, m.atShift, m.reload, m.timer, m.bytes, m.running⟩, id⟩

/-- A change of the evaluator that keeps its ranges. -/
theorem withEval (s : State) (e : Evaluator) (h : EvaluatorOk s → EvaluatorOk { s with eval := e }) :
    InCycle s { s with eval := e } :=
  ⟨rfl, rfl, rfl, rfl, le_rfl, fun m => ⟨m.nt, m.chr, m.pal, m.oam, m.sec, m.frame, m.line⟩, h,
    fun m => ⟨m.attrCur, m.attrNext, m.atShift, m.reload, m.timer, m.bytes, m.running⟩, id⟩

end InCycle

/-! ## The background -/

/-- The attribute shift amounts are even (R255). -/
theorem atShiftOf_even (v : Loopy) : (atShiftOf v).getLsbD 0 = false := by
  simp [atShiftOf]

section hooks

variable {hook : Hook} (hh : ∀ e s, 0 < s.clock.syncDepth → Nested s (hook e s))
include hh

theorem fetchNt_inCycle {s : State} (hs : 0 < s.clock.syncDepth) : InCycle s (fetchNt hook s) :=
  (InCycle.of_nested (hh _ s hs)).trans (InCycle.withBg _ _ id fun m => ⟨m.attrCur, m.attrNext, m.atShift, m.reload⟩)

theorem fetchAt_inCycle {s : State} (hs : 0 < s.clock.syncDepth) : InCycle s (fetchAt hook s) :=
  (InCycle.of_nested (hh _ s hs)).trans
    (InCycle.withBg _ _ id fun m => ⟨m.attrCur, m.attrNext, atShiftOf_even _, m.reload⟩)

theorem fetchPtLo_inCycle {s : State} (hs : 0 < s.clock.syncDepth) : InCycle s (fetchPtLo hook s) :=
  (InCycle.of_nested (hh _ s hs)).trans (InCycle.withBg _ _ id fun m => ⟨m.attrCur, m.attrNext, m.atShift, m.reload⟩)

theorem fetchPtHi_inCycle {s : State} (hs : 0 < s.clock.syncDepth) : InCycle s (fetchPtHi hook s) := by
  refine (InCycle.of_nested (hh (.addr (ptAddr s.ports s.bg.ntByte 8#14)) s hs)).trans ?_
  exact (InCycle.withBg _ { (afterFetch hook (ptAddr s.ports s.bg.ntByte 8#14) s).bg with
    ptHi := vRead .bg (afterFetch hook (ptAddr s.ports s.bg.ntByte 8#14) s) (ptAddr s.ports s.bg.ntByte 8#14) } id
    fun m => ⟨m.attrCur, m.attrNext, m.atShift, m.reload⟩).trans (InCycle.withPorts _ _)

theorem fetchSlot_inCycle (c : Nat) {s : State} (hs : 0 < s.clock.syncDepth) : InCycle s (fetchSlot hook c s) := by
  unfold fetchSlot
  split
  · exact fetchNt_inCycle hh hs
  · split
    · exact fetchNt_inCycle hh hs
    · exact fetchAt_inCycle hh hs
  · exact fetchPtLo_inCycle hh hs
  · exact fetchPtHi_inCycle hh hs
  · exact InCycle.refl s

omit hh in
/-- Conditional parts of a cycle: a part that is not run keeps everything. -/
theorem InCycle.ite {s : State} {p : Prop} [Decidable p] {t : State} (h : p → InCycle s t) :
    InCycle s (if p then t else s) := by
  split
  · exact h ‹_›
  · exact InCycle.refl s

theorem bgCycle_inCycle (line : Int) (c : Nat) {s : State} (hs : 0 < s.clock.syncDepth) :
    InCycle s (bgCycle hook line c s) := by
  unfold bgCycle
  extract_lets vis b s1 s2 s3 s4 s5 s6 s7
  have h1 : InCycle s s1 :=
    InCycle.ite fun _ => InCycle.withBg _ _ id fun m => ⟨m.attrCur, m.attrNext, m.atShift, m.reload⟩
  have h2 : InCycle s1 s2 :=
    InCycle.ite fun _ => InCycle.withBg _ _ id fun m => ⟨m.attrCur, m.attrNext, m.atShift, by simp [shiftBg]⟩
  have h3 : InCycle s2 s3 :=
    InCycle.ite fun _ => InCycle.withBg _ _ id fun m => ⟨m.attrNext, m.atShift, m.atShift, by simp [reloadBg]⟩
  have hd : 0 < s3.clock.syncDepth := by rw [((h1.trans h2).trans h3).syncDepth]; exact hs
  have h4 : InCycle s3 s4 := InCycle.ite fun _ => fetchSlot_inCycle hh c hd
  have h5 : InCycle s4 s5 := InCycle.ite fun _ => InCycle.withPorts _ _
  have h6 : InCycle s5 s6 := InCycle.ite fun _ => InCycle.withPorts _ _
  have h7 : InCycle s6 s7 := InCycle.ite fun _ => InCycle.withPorts _ _
  refine ((((((h1.trans h2).trans h3).trans h4).trans h5).trans h6).trans h7).trans
    (InCycle.ite fun h => InCycle.setLine s7 _ _ ?_)
  simp only [Bool.and_eq_true, decide_eq_true_eq] at h
  omega

end hooks

/-! ## The sprites -/

/-- The evaluator's ranges after `nextN`, from an entry being copied. -/
theorem nextN_ok (s : State) (e : Evaluator) (h8 : e.copiedCount ≤ 8)
    (hc : e.state = .copyEntry)
    (hl : (e.copiedCount < 8 ∧ e.writeLocked = false) ∨ (e.copiedCount = 8 ∧ e.writeLocked = true))
    (hs : e.subState ≤ 3) : EvaluatorOk { s with eval := nextN e } := by
  unfold nextN
  split
  · exact ⟨h8, by simp, by simp, hs⟩
  · rcases hl with ⟨h1, h2⟩ | ⟨h1, h2⟩
    · exact ⟨h8, fun _ => ⟨h1, h2⟩, by simp [hc, h2], hs⟩
    · exact ⟨h8, by simp [h2], fun _ => ⟨h1, h2⟩, hs⟩

/-- The evaluator's ranges after an entry number is stepped in the overflow or the scan mode. -/
theorem advanceNorDone_ok (s : State) (e : Evaluator) (h : EvaluatorOk { s with eval := e }) :
    EvaluatorOk { s with eval := advanceNorDone e } := by
  unfold advanceNorDone
  split
  · exact ⟨h.copied, by simp, by simp, h.subState⟩
  · exact ⟨h.copied, h.copying, h.overflow, h.subState⟩

theorem stepByte_ok (s : State) (e : Evaluator) (h : EvaluatorOk { s with eval := e }) :
    EvaluatorOk { s with eval := stepByte e } := by
  unfold stepByte
  dsimp only
  split
  · exact advanceNorDone_ok s _ ⟨h.copied, h.copying, h.overflow, h.subState⟩
  · exact ⟨h.copied, h.copying, h.overflow, h.subState⟩

theorem stepByte_subState (e : Evaluator) : (stepByte e).subState = e.subState := by
  unfold stepByte advanceNorDone
  dsimp only
  split
  · split <;> rfl
  · rfl

theorem scanStep_ok (s : State) (e : Evaluator) (h : EvaluatorOk { s with eval := e }) (hst : e.state = .scan) :
    EvaluatorOk { s with eval := scanStep e } := by
  have hstep : ∀ e' : Evaluator, e'.state = .scan → (stepByte e').state = .scan ∨ (stepByte e').state = .done := by
    intro e' he
    unfold stepByte advanceNorDone
    dsimp only
    split
    · split
      · exact .inr rfl
      · exact .inl he
    · exact .inl he
  have hcount : ∀ e' : Evaluator, (stepByte e').copiedCount = e'.copiedCount := by
    intro e'
    unfold stepByte advanceNorDone
    dsimp only
    split
    · split <;> rfl
    · rfl
  unfold scanStep
  split
  · rename_i hsub
    have hs := stepByte_subState { e with subState := e.subState + 1 }
    have h8 : (stepByte { e with subState := e.subState + 1 }).copiedCount ≤ 8 := by rw [hcount]; exact h.copied
    have hst' := hstep { e with subState := e.subState + 1 } hst
    generalize stepByte { e with subState := e.subState + 1 } = e1 at *
    dsimp only at hs ⊢
    split
    · refine ⟨h8, ?_, ?_, Nat.zero_le 3⟩
      · intro hx; rcases hst' with h' | h' <;> simp [h'] at hx
      · intro hx; rcases hst' with h' | h' <;> simp [h'] at hx
    · refine ⟨h8, ?_, ?_, ?_⟩
      · intro hx; rcases hst' with h' | h' <;> simp [h'] at hx
      · intro hx; rcases hst' with h' | h' <;> simp [h'] at hx
      · show e1.subState ≤ 3
        omega
  · exact advanceNorDone_ok s e h

theorem evalStep_inCycle (line : Int) (s : State) : InCycle s (evalStep line s) := by
  unfold evalStep
  split
  · rename_i hst
    unfold copyEntryStep
    split
    · dsimp only
      split
      · refine (InCycle.withEval s (matchEntry s.eval) fun m => ?_).trans (InCycle.setSec _ _ _)
        exact ⟨m.copied, m.copying, m.overflow, m.subState⟩
      · refine InCycle.withEval s _ fun m => ?_
        exact nextN_ok s _ m.copied hst (.inl (m.copying hst)) m.subState
    · refine (InCycle.withEval s (copyByte s.eval) fun m => ?_).trans (InCycle.setSec _ _ _)
      unfold copyByte
      split
      · exact ⟨m.copied, m.copying, m.overflow, m.subState⟩
      · have hc := m.copying hst
        unfold finishEntry
        refine nextN_ok s _ (show s.eval.copiedCount + 1 ≤ 8 by omega) hst ?_ m.subState
        by_cases h8 : s.eval.copiedCount + 1 = 8
        · exact .inr ⟨h8, by simp [h8]⟩
        · refine .inl ⟨show s.eval.copiedCount + 1 < 8 by omega, ?_⟩
          simp [h8, hc.2]
  · rename_i hst
    unfold overflowStep
    split
    · refine (InCycle.withEval s (stepByte { s.eval with state := .scan, subState := 1 }) fun m => ?_).trans
        (InCycle.withPorts _ _)
      exact stepByte_ok s _ ⟨m.copied, by simp, by simp, show 1 ≤ 3 by omega⟩
    · refine InCycle.withEval s _ fun m => ?_
      exact advanceNorDone_ok s _ ⟨m.copied, m.copying, m.overflow, m.subState⟩
  · rename_i hst
    exact InCycle.withEval s _ fun m => scanStep_ok s _ m hst
  · exact InCycle.refl s

theorem spriteEvalCycle_inCycle (line : Int) (c : Nat) (s : State) : InCycle s (spriteEvalCycle line c s) := by
  unfold spriteEvalCycle
  split
  · exact InCycle.setSec _ _ _
  · split
    · exact InCycle.withEval s _ fun m => ⟨Nat.zero_le 8, fun _ => ⟨show 0 < 8 by omega, rfl⟩, by simp [evalReset],
        Nat.zero_le 3⟩
    · split
      · exact evalStep_inCycle line s
      · exact InCycle.refl s

theorem blankCycle_inCycle (line : Int) (c : Nat) (s : State) : InCycle s (blankCycle line c s) := by
  unfold blankCycle
  have h : InCycle s (if (visibleLine line && decide (1 ≤ c ∧ c ≤ 256)) = true then
      { s with bg := setBgLine (c - 1) BgPixel.transparent s.bg } else s) := by
    refine InCycle.ite fun h => InCycle.setLine s _ _ ?_
    simp only [Bool.and_eq_true, decide_eq_true_eq] at h
    omega
  refine h.trans ?_
  dsimp only
  exact InCycle.ite fun _ => InCycle.withSlots _ _

theorem composePixel_inCycle {line : Int} {col : Nat} (hl : line ≤ 239) (hc : col < 256) (s : State) :
    InCycle s (composePixel line col s) := by
  refine ⟨rfl, rfl, rfl, rfl, le_rfl, fun m => ⟨m.nt, m.chr, m.pal, m.oam, m.sec, writeCell_wf m.frame ?_ rfl, m.line⟩,
    fun m => ⟨m.copied, m.copying, m.overflow, m.subState⟩,
    fun m => ⟨m.attrCur, m.attrNext, m.atShift, m.reload, m.timer, m.bytes, m.running⟩, id⟩
  show decide (line.toNat * 256 + col < 240 * 256) = true
  rw [decide_eq_true_eq]
  omega

section hooks

variable {hook : Hook} (hh : ∀ e s, 0 < s.clock.syncDepth → Nested s (hook e s))
include hh

theorem spriteFetchCycle_inCycle (line : Int) (c : Nat) {s : State} (hs : 0 < s.clock.syncDepth) :
    InCycle s (spriteFetchCycle hook line c s) := by
  unfold spriteFetchCycle
  split
  · extract_lets p s1 i s2
    have h1 : InCycle s s1 := InCycle.withPorts _ _
    have h2 : InCycle s1 s2 := InCycle.ite fun _ => InCycle.withSlots _ _
    have hd : 0 < s2.clock.syncDepth := by rw [h2.syncDepth, h1.syncDepth]; exact hs
    clear_value s2
    refine (h1.trans h2).trans ?_
    split
    · exact InCycle.withFetch _ _
    · exact (InCycle.of_nested (hh _ s2 hd)).trans (InCycle.withFetch _ _)
    · exact (InCycle.of_nested (hh _ s2 hd)).trans (InCycle.withSlots _ _)
    · exact InCycle.refl _
  · exact InCycle.refl s

theorem renderCycle_inCycle {line : Int} (hl : line ≤ 239) (c : Nat) {s : State} (hs : 0 < s.clock.syncDepth) :
    InCycle s (renderCycle hook line c s) := by
  unfold renderCycle
  extract_lets s1 s2 s3
  have h1 : InCycle s s1 := InCycle.ite fun _ => InCycle.of_nested (hh _ s hs)
  have hs1 : 0 < s1.clock.syncDepth := by rw [h1.syncDepth]; exact hs
  have h2 : InCycle s1 s2 := InCycle.ite fun _ => InCycle.of_nested (hh _ s1 hs1)
  have hs2 : 0 < s2.clock.syncDepth := by rw [h2.syncDepth]; exact hs1
  have h3 : InCycle s2 s3 := by
    change InCycle s2 (if s2.ports.renderingEnabled = true then
      spriteFetchCycle hook line c (spriteEvalCycle line c (bgCycle hook line c s2)) else blankCycle line c s2)
    split
    · have hb := bgCycle_inCycle hh line c hs2
      have he := spriteEvalCycle_inCycle line c (bgCycle hook line c s2)
      refine (hb.trans he).trans (spriteFetchCycle_inCycle hh line c ?_)
      rw [he.syncDepth, hb.syncDepth]; exact hs2
    · exact blankCycle_inCycle line c s2
  refine ((h1.trans h2).trans h3).trans (InCycle.ite fun h => composePixel_inCycle hl ?_ s3)
  simp only [Bool.and_eq_true, decide_eq_true_eq] at h
  omega

end hooks

/-! ## The DMA -/

/-- A tick of the DMA (R362), whatever the host's `cpuRead` does. -/
theorem dmaTick_inCycle {cb : Callbacks} (hcb : cb.Keeps) {s : State} (hs : 0 < s.clock.syncDepth) :
    InCycle s (dmaTick cb s) := by
  unfold dmaTick
  split
  · exact InCycle.refl s
  · rename_i htimer
    dsimp only
    split
    · rename_i hleft
      refine ⟨rfl, rfl, rfl, rfl, le_rfl, fun m => ⟨m.nt, m.chr, m.pal, m.oam, m.sec, m.frame, m.line⟩,
        fun m => ⟨m.copied, m.copying, m.overflow, m.subState⟩,
        fun m => ⟨m.attrCur, m.attrNext, m.atShift, m.reload, ?_, m.bytes, fun _ => m.running htimer⟩, id⟩
      have := m.timer
      show s.dma.timer - 1 ≤ 3
      omega
    · rename_i hleft
      have hn := hcb.cpuRead s.dma.readAddress { s with dma := { s.dma with timer := s.dma.timer - 1 } } hs
      split
      · unfold dmaReadPhase
        dsimp only
        generalize cb.cpuRead s.dma.readAddress { s with dma := { s.dma with timer := s.dma.timer - 1 } } = r at hn
        refine ⟨hn.cfg, hn.clock, hn.scan, hn.pending, hn.script, fun m => ?_, fun m => ?_, fun m => ?_, fun m => ?_⟩
        · exact ⟨hn.nt m.nt, hn.chr m.chr, hn.pal m.pal, hn.oam m.oam, hn.sec ▸ m.sec, hn.frame ▸ m.frame, hn.bg ▸ m.line⟩
        · obtain ⟨m1, m2, m3, m4⟩ := m
          have he : r.1.eval = s.eval := hn.eval
          constructor <;> simp only [he] <;> assumption
        · have hb : r.1.bg = s.bg := hn.bg
          have hw : r.1.dma.writeAddress.toNat < 256 := by
            rcases hn.dma with hd | hd
            · rw [hd]; exact m.running htimer
            · rw [hd.2.1]; decide
          refine ⟨?_, ?_, ?_, ?_, le_rfl, le_of_lt hw, fun _ => hw⟩ <;> simp only [hb]
          · exact m.attrCur
          · exact m.attrNext
          · exact m.atShift
          · exact m.reload
        · exact hn.rising m
      · unfold dmaWritePhase
        dsimp only
        have hcount : PipelineOk s → (s.dma.writeAddress + 1#9).toNat ≤ 256 := by
          intro m
          have := m.running htimer
          rw [BitVec.toNat_add]
          have h1 : (1#9).toNat = 1 := rfl
          omega
        split
        · rename_i hlt
          refine ⟨rfl, rfl, rfl, rfl, le_rfl,
            fun m => ⟨m.nt, m.chr, m.pal, oamWrite_wf s.dma.buffer (s := s) m.oam, m.sec, m.frame, m.line⟩,
            fun m => ⟨m.copied, m.copying, m.overflow, m.subState⟩,
            fun m => ⟨m.attrCur, m.attrNext, m.atShift, m.reload, le_rfl, hcount m, fun _ => hlt⟩, id⟩
        · refine ⟨rfl, rfl, rfl, rfl, le_rfl,
            fun m => ⟨m.nt, m.chr, m.pal, oamWrite_wf s.dma.buffer (s := s) m.oam, m.sec, m.frame, m.line⟩,
            fun m => ⟨m.copied, m.copying, m.overflow, m.subState⟩,
            fun m => ⟨m.attrCur, m.attrNext, m.atShift, m.reload, ?_, hcount m, fun h => ?_⟩, id⟩
          · show s.dma.timer - 1 ≤ 3
            have := m.timer
            omega
          · exfalso
            have h' : s.dma.timer - 1 ≠ 0 := h
            have hleft' : ¬ 0 < s.dma.timer - 1 := hleft
            omega

/-! ## What a blank cycle does (R331) -/

/-- In cycles 1 to 256 of a visible line: the column's entry of `bgLine` only. -/
theorem blankCycle_visible {line : Int} {c : Nat} (s : State) (h0 : 0 ≤ line) (h : line ≤ 239) (h1 : 1 ≤ c) (h2 : c ≤ 256) :
    blankCycle line c s = { s with bg := setBgLine (c - 1) BgPixel.transparent s.bg } := by
  have hv : (visibleLine line && decide (1 ≤ c ∧ c ≤ 256)) = true := by simp [visibleLine, h0, h, h1, h2]
  have hc : ¬c = 257 := by omega
  simp only [blankCycle, if_pos hv, if_neg hc]

/-- In cycle 257: the slots only. -/
theorem blankCycle_257 (line : Int) (s : State) : blankCycle line 257 s = { s with slots := killSlots s.slots } := by
  simp [blankCycle]

/-- In every other cycle of a rendering line: nothing. -/
theorem blankCycle_other {line : Int} {c : Nat} (s : State) (h : line < 0 ∧ c ≤ 256 ∨ 258 ≤ c) : blankCycle line c s = s := by
  have hv : ¬(visibleLine line && decide (1 ≤ c ∧ c ≤ 256)) = true := by simp [visibleLine]; omega
  have hc : ¬c = 257 := by omega
  simp only [blankCycle, if_neg hv, if_neg hc]

end Sys2Proof.Machine
end

