-- ==== Sys2Proof/Laws/Driver.lean ====
section
/-! SUPPORT. What cycles, replays, synchronizations and the callbacks between calls can do, said once: the configuration
and the queue of transactions are left alone, and every legal part of the state stays legal. -/

namespace Sys2Proof.Machine

/-- What is kept between `s` and `t`, when `t` comes from `s` by any operation but a power-on. -/
structure Kept (s t : State) : Prop where
  cfg     : t.cfg = s.cfg
  pending : t.pending = s.pending
  script  : scriptLength t ≤ scriptLength s
  memory  : MemoryOk s → MemoryOk t
  scanOk  : ScanOk s → ScanOk t
  eval    : EvaluatorOk s → EvaluatorOk t
  pipes   : PipelineOk s → PipelineOk t
  rising  : ForecastOk s → ForecastOk t

namespace Kept

theorem refl (s : State) : Kept s s := ⟨rfl, rfl, le_rfl, id, id, id, id, id⟩

theorem trans {s t u : State} (h : Kept s t) (k : Kept t u) : Kept s u where
  cfg := k.cfg.trans h.cfg
  pending := k.pending.trans h.pending
  script := k.script.trans h.script
  memory := k.memory ∘ h.memory
  scanOk := k.scanOk ∘ h.scanOk
  eval := k.eval ∘ h.eval
  pipes := k.pipes ∘ h.pipes
  rising := k.rising ∘ h.rising

theorem of_inCycle {s t : State} (h : InCycle s t) : Kept s t :=
  ⟨h.cfg, h.pending, h.script, h.memory,
    fun m => ⟨by rw [h.scan]; exact m.lineLow, by rw [h.scan, h.cfg]; exact m.lineHigh, by rw [h.scan]; exact m.cycleLow,
      by rw [h.scan]; exact m.cycleHigh, by rw [h.scan]; exact m.budget⟩,
    h.eval, h.pipes, h.rising⟩

theorem of_nested {s t : State} (h : Nested s t) : Kept s t := of_inCycle (InCycle.of_nested h)

/-- A change of the clock, the answers to `hostNow`, the deferred horizon and the draws only. -/
theorem clock (s : State) (c : Clock) (nows : List Nat) (draws horizon : Nat) :
    Kept s { s with
      clock := c, hostNows := nows, drawCount := draws, pred := { s.pred with pendingHorizon := horizon } } :=
  ⟨rfl, rfl, le_rfl, fun m => ⟨m.nt, m.chr, m.pal, m.oam, m.sec, m.frame, m.line⟩,
    fun m => ⟨m.lineLow, m.lineHigh, m.cycleLow, m.cycleHigh, m.budget⟩,
    fun m => ⟨m.copied, m.copying, m.overflow, m.subState⟩,
    fun m => ⟨m.attrCur, m.attrNext, m.atShift, m.reload, m.timer, m.bytes, m.running⟩, id⟩

theorem withClock (s : State) (c : Clock) : Kept s { s with clock := c } :=
  clock s c s.hostNows s.drawCount s.pred.pendingHorizon

end Kept

/-! ## One cycle -/

/-- The line after a line of the machine is a line of the machine (R177). -/
theorem nextLine_range (c : Config) (line : Int) : -1 ≤ nextLine c line ∧ nextLine c line ≤ c.lastLine := by
  have hl : c.lastLine = 260 ∨ c.lastLine = 310 := by
    unfold Config.lastLine
    split <;> simp
  unfold nextLine
  split
  · omega
  · omega

/-- What is kept between `s` and `t` within one step, which may move the scan position. -/
structure InStep (s t : State) : Prop where
  cfg     : t.cfg = s.cfg
  clock   : t.clock = { s.clock with remeasure := t.clock.remeasure }
  pending : t.pending = s.pending
  script  : scriptLength t ≤ scriptLength s
  memory  : MemoryOk s → MemoryOk t
  eval    : EvaluatorOk s → EvaluatorOk t
  pipes   : PipelineOk s → PipelineOk t
  rising  : ForecastOk s → ForecastOk t

namespace InStep

theorem refl (s : State) : InStep s s := ⟨rfl, rfl, rfl, le_rfl, id, id, id, id⟩

theorem trans {s t u : State} (h : InStep s t) (k : InStep t u) : InStep s u where
  cfg := k.cfg.trans h.cfg
  clock := by rw [k.clock, h.clock]
  pending := k.pending.trans h.pending
  script := k.script.trans h.script
  memory := k.memory ∘ h.memory
  eval := k.eval ∘ h.eval
  pipes := k.pipes ∘ h.pipes
  rising := k.rising ∘ h.rising

theorem syncDepth {s t : State} (h : InStep s t) : t.clock.syncDepth = s.clock.syncDepth := by rw [h.clock]

theorem of_inCycle {s t : State} (h : InCycle s t) : InStep s t :=
  ⟨h.cfg, h.clock, h.pending, h.script, h.memory, h.eval, h.pipes, h.rising⟩

theorem of_nested {s t : State} (h : Nested s t) : InStep s t := of_inCycle (InCycle.of_nested h)

theorem withScan (s : State) (p : Ports) (c : Scan) : InStep s { s with ports := p, scan := c } :=
  ⟨rfl, rfl, rfl, le_rfl, fun m => ⟨m.nt, m.chr, m.pal, m.oam, m.sec, m.frame, m.line⟩,
    fun m => ⟨m.copied, m.copying, m.overflow, m.subState⟩,
    fun m => ⟨m.attrCur, m.attrNext, m.atShift, m.reload, m.timer, m.bytes, m.running⟩, id⟩

end InStep

/-- The transition into line 241 (R175). -/
theorem enterVBlank_nested {notify : Notify} (hn : ∀ e s, 0 < s.clock.syncDepth → Nested s (notify e s)) (ts : Nat)
    {s : State} (hs : 0 < s.clock.syncDepth) : Nested s (enterVBlank notify ts s) := by
  unfold enterVBlank
  dsimp only
  split
  · exact (Nested.withPorts s _).trans (Nested.realNmiEdge hn _ hs)
  · exact Nested.withPorts s _

section hooks

variable {cb : Callbacks} (hcb : cb.Keeps)
include hcb

/-- The end of a line (R174): where the position goes, and what else it can do. -/
theorem endOfScanline_step (line : Int) (ts : Nat) {s : State} (hs : 0 < s.clock.syncDepth) :
    (endOfScanline cb line ts s).scan =
      ⟨nextLine s.cfg line, 1, 341, if nextLine s.cfg line = -1 then !s.scan.oddFrame else s.scan.oddFrame⟩ ∧
    InStep s (endOfScanline cb line ts s) := by
  unfold endOfScanline
  extract_lets next sc s1 s2 s3 s4
  have k1 : InStep s s1 := InStep.withScan s s.ports _
  have k2 : Nested s1 s2 := by
    change Nested s1 (if next = 241 then enterVBlank cb.notify ts s1 else s1)
    split
    · exact enterVBlank_nested hcb.notify ts hs
    · exact Nested.refl _
  have k3 : InStep s2 s3 := by
    change InStep s2 (if next = -1 then startFrame s2 else s2)
    split
    · exact InStep.withScan s2 _ _
    · exact InStep.refl _
  have e3 : s3.scan = ⟨next, s.scan.cycleInLine, s.scan.lineCyclesLeft,
      if next = -1 then !s.scan.oddFrame else s.scan.oddFrame⟩ := by
    have h2 : s2.scan = { s.scan with scanline := next } := k2.scan
    change (if next = -1 then startFrame s2 else s2 : State).scan = _
    split
    · simp [startFrame, h2]
    · rw [h2]
  have hd : 0 < s3.clock.syncDepth := by
    rw [((k1.trans (InStep.of_nested k2)).trans k3).syncDepth]; exact hs
  have k4 : Nested s3 s4 := hcb.hook _ _ hd
  refine ⟨?_, ((((k1.trans (InStep.of_nested k2)).trans k3).trans (InStep.of_nested k4)).trans
    (InStep.withScan s4 s4.ports _))⟩
  show ({ s4.scan with cycleInLine := 1, lineCyclesLeft := Config.cyclesPerLine } : Scan) = _
  rw [k4.scan, e3]
  rfl

/-- The counter updates of a cycle (R164): where the position goes, and what else they can do. -/
theorem countCycle_step (line : Int) (ts : Nat) {s : State} (hs : 0 < s.clock.syncDepth) :
    ((countCycle cb line ts s).scan =
      if s.scan.lineCyclesLeft - 1 = 0 then
        ⟨nextLine s.cfg line, 1, 341, if nextLine s.cfg line = -1 then !s.scan.oddFrame else s.scan.oddFrame⟩
      else ⟨s.scan.scanline, s.scan.cycleInLine + 1, s.scan.lineCyclesLeft - 1, s.scan.oddFrame⟩) ∧
    InStep s (countCycle cb line ts s) := by
  have k1 : InStep s (countDown s) := InStep.withScan s s.ports _
  have e := endOfScanline_step hcb line ts (s := countDown s) hs
  unfold countCycle
  by_cases h : s.scan.lineCyclesLeft - 1 = 0
  · rw [if_pos (show (countDown s).scan.lineCyclesLeft = 0 from h), if_pos h]
    exact ⟨e.1, k1.trans e.2⟩
  · rw [if_neg (show ¬(countDown s).scan.lineCyclesLeft = 0 from h), if_neg h]
    exact ⟨rfl, k1⟩

end hooks

/-- The counter updates at an unexpected position move the scan position and nothing else (R179). -/
theorem countOnly_eq (line : Int) (s : State) :
    countOnly line s = { s with
      scan :=
        if s.scan.lineCyclesLeft - 1 = 0 then ⟨nextLine s.cfg line, 1, 341, s.scan.oddFrame⟩
        else ⟨s.scan.scanline, s.scan.cycleInLine + 1, s.scan.lineCyclesLeft - 1, s.scan.oddFrame⟩ } := by
  unfold countOnly
  by_cases h : s.scan.lineCyclesLeft - 1 = 0
  · rw [if_pos h, if_pos (show (countDown s).scan.lineCyclesLeft = 0 from h)]
    rfl
  · rw [if_neg h, if_neg (show ¬(countDown s).scan.lineCyclesLeft = 0 from h)]
    rfl

/-- The line budget after the odd-frame skip's test (R172). -/
theorem oddFrameSkip_scan (line : Int) (c : Nat) (s : State) :
    (oddFrameSkip line c s).scan = { s.scan with
      lineCyclesLeft := if line = -1 ∧ c = 340 ∧ s.scan.oddFrame = true ∧ s.ports.showBg = true then 1
        else s.scan.lineCyclesLeft } := by
  unfold oddFrameSkip
  split
  · rfl
  · rfl

theorem oddFrameSkip_step (line : Int) (c : Nat) (s : State) : InStep s (oddFrameSkip line c s) := by
  unfold oddFrameSkip
  split
  · exact InStep.withScan s s.ports _
  · exact InStep.refl s

/-- What the units of a cycle can do (R164), before the counters move. -/
theorem cycleUnits_inCycle {cb : Callbacks} (hcb : cb.Keeps) {s : State} (hs : 0 < s.clock.syncDepth) (c : Nat)
    (line : Int) :
    InCycle s (if renderingLine line = true then renderCycle cb.hook line c (dmaTick cb s) else dmaTick cb s) := by
  have hd := dmaTick_inCycle hcb hs
  split
  · rename_i h
    refine hd.trans (renderCycle_inCycle hcb.hook ?_ c ?_)
    · simp only [renderingLine, Bool.and_eq_true, decide_eq_true_eq] at h
      exact h.2
    · rw [hd.syncDepth]; exact hs
  · exact hd

/-- What a cycle can do, whatever the host's callbacks answer. -/
structure Cycled (s t : State) : Prop where
  kept  : Kept s t
  clock : t.clock = { s.clock with remeasure := t.clock.remeasure, stepEnd := t.clock.stepEnd }

theorem Cycled.refl (s : State) : Cycled s s := ⟨Kept.refl s, rfl⟩

theorem Cycled.trans {s t u : State} (h : Cycled s t) (k : Cycled t u) : Cycled s u :=
  ⟨h.kept.trans k.kept, by rw [k.clock, h.clock]⟩

/-- The state a cycle's units start from: the end time of the step is known (R161). -/
theorem InStep.kept {s t : State} (h : InStep s t) (hscan : ScanOk s → ScanOk t) : Kept s t :=
  ⟨h.cfg, h.pending, h.script, h.memory, hscan, h.eval, h.pipes, h.rising⟩

theorem ppuCycle_cycled {cb : Callbacks} (hcb : cb.Keeps) (ts : Nat) {s : State} (hs : 0 < s.clock.syncDepth) :
    Cycled s (ppuCycle cb ts s) := by
  unfold ppuCycle
  extract_lets cl s0 line c s1 s2
  have k0 : Kept s s0 := Kept.withClock s _
  have hs0 : 0 < s0.clock.syncDepth := hs
  split
  · rename_i hpos
    have k2 : InCycle s0 s2 := cycleUnits_inCycle hcb hs0 c line
    have hs2 : 0 < s2.clock.syncDepth := by rw [k2.syncDepth]; exact hs0
    clear_value s2
    have k3 := oddFrameSkip_step line c s2
    have e3 := oddFrameSkip_scan line c s2
    have hs3 : 0 < (oddFrameSkip line c s2).clock.syncDepth := by rw [k3.syncDepth]; exact hs2
    generalize oddFrameSkip line c s2 = s3 at k3 e3 hs3
    obtain ⟨e4, k4⟩ := countCycle_step hcb line ts hs3
    have hcfg : (countCycle cb line ts s3).cfg = s0.cfg := by rw [k4.cfg, k3.cfg, k2.cfg]
    have kk := ((InStep.of_inCycle k2).trans k3).trans k4
    generalize countCycle cb line ts s3 = u at e4 k4 hcfg kk
    refine ⟨k0.trans (kk.kept fun m => ?_), by rw [kk.clock]⟩
    have hp : s2.scan = s0.scan := k2.scan
    have hcfg3 : s3.cfg = s0.cfg := by rw [k3.cfg, k2.cfg]
    have hl : line = s0.scan.scanline := rfl
    have hc : c = s0.scan.cycleInLine := rfl
    rw [hp] at e3
    have hleft : s3.scan.lineCyclesLeft = 1 ∨ s3.scan.lineCyclesLeft = s0.scan.lineCyclesLeft := by
      rw [e3]
      dsimp only
      split
      · exact .inl rfl
      · exact .inr rfl
    have hline : s3.scan.scanline = s0.scan.scanline := by rw [e3]
    have hcyc : s3.scan.cycleInLine = s0.scan.cycleInLine := by rw [e3]
    obtain ⟨m1, m2, m3, m4, m5⟩ := m
    have hr := nextLine_range s0.cfg line
    rw [hcfg3] at e4
    by_cases hz : s3.scan.lineCyclesLeft - 1 = 0
    · rw [if_pos hz] at e4
      constructor <;> rw [e4]
      · exact hr.1
      · rw [hcfg]; exact hr.2
      · show (1 : Nat) ≤ 341
        omega
      · show 1 + 341 = 342
        rfl
    · rw [if_neg hz] at e4
      constructor <;> rw [e4]
      · show -1 ≤ s3.scan.scanline
        omega
      · show s3.scan.scanline ≤ u.cfg.lastLine
        rw [hcfg]; omega
      · show 1 ≤ s3.scan.cycleInLine + 1
        omega
      · show s3.scan.cycleInLine + 1 ≤ 341
        omega
      · show s3.scan.cycleInLine + 1 + (s3.scan.lineCyclesLeft - 1) = 342
        omega
  · rename_i hpos
    have k2 : Nested s0 (diag .invariantViolation s0) := Nested.emit _ _
    have k4 : InStep (diag .invariantViolation s0) (countOnly line (diag .invariantViolation s0)) := by
      rw [countOnly_eq]; exact InStep.withScan _ _ _
    have kk := (InStep.of_nested k2).trans k4
    refine ⟨k0.trans (kk.kept fun m => ?_), by rw [kk.clock]⟩
    exfalso
    apply hpos
    obtain ⟨m1, m2, m3, m4, m5⟩ := m
    simp only [positionExpected, decide_eq_true_eq]
    exact ⟨m1, m2, m3, m4⟩

theorem replay_cycled {cb : Callbacks} (hcb : cb.Keeps) (n ts : Nat) {s : State} (hs : 0 < s.clock.syncDepth) :
    Cycled s (replay cb n ts s) := by
  induction n generalizing ts s with
  | zero => exact Cycled.refl s
  | succ n ih =>
    have h := ppuCycle_cycled hcb ts hs
    refine h.trans (ih _ ?_)
    rw [h.clock]; exact hs

/-! ## Synchronization -/

/-- Elapsed time makes whole cycles, and what is left of it is below the divider (R31). -/
theorem syncPass_clock {cb : Callbacks} (hcb : cb.Keeps) (now : Nat) {s : State} (hs : 0 < s.clock.syncDepth) :
    Kept s (syncPass cb now s) ∧ (syncPass cb now s).clock.syncDepth = s.clock.syncDepth ∧
    (syncPass cb now s).clock.lastSyncTimestamp = now ∧
    (syncPass cb now s).clock.remainder = ((now - s.clock.lastSyncTimestamp) + s.clock.remainder) % s.cfg.clockDivider := by
  have h := replay_cycled hcb (((now - s.clock.lastSyncTimestamp) + s.clock.remainder) / s.cfg.clockDivider)
    (s.clock.lastSyncTimestamp + s.cfg.clockDivider - s.clock.remainder)
    (s := { s with clock := { s.clock with
      remainder := ((now - s.clock.lastSyncTimestamp) + s.clock.remainder) % s.cfg.clockDivider
      lastSyncTimestamp := now } }) hs
  have e : syncPass cb now s = replay cb (((now - s.clock.lastSyncTimestamp) + s.clock.remainder) / s.cfg.clockDivider)
    (s.clock.lastSyncTimestamp + s.cfg.clockDivider - s.clock.remainder)
    { s with clock := { s.clock with
      remainder := ((now - s.clock.lastSyncTimestamp) + s.clock.remainder) % s.cfg.clockDivider
      lastSyncTimestamp := now } } := rfl
  rw [e]
  refine ⟨(Kept.withClock s _).trans h.kept, ?_, ?_, ?_⟩ <;> rw [h.clock]

theorem hostNow_kept (s : State) : Kept s (hostNow s).1 := by
  unfold hostNow
  split
  · exact Kept.clock s s.clock s.hostNows _ s.pred.pendingHorizon
  · exact Kept.clock s s.clock _ s.drawCount s.pred.pendingHorizon

theorem hostNow_clock (s : State) : (hostNow s).1.clock = s.clock := by
  unfold hostNow
  split <;> rfl

/-- The passes of a `sync`: no re-measure request is left, and the remainder stays in its range when it starts there. -/
theorem syncPasses_clock {cb : Callbacks} (hcb : cb.Keeps) (extra now : Nat) {s : State} (hs : 0 < s.clock.syncDepth) :
    Kept s (syncPasses cb extra now s) ∧ (syncPasses cb extra now s).clock.remeasure = false ∧
    (1 ≤ s.cfg.clockDivider → (syncPasses cb extra now s).clock.remainder < s.cfg.clockDivider) ∧
    (s.clock.remainder ≤ s.clock.lastSyncTimestamp → s.clock.lastSyncTimestamp ≤ now →
      (syncPasses cb extra now s).clock.remainder ≤ (syncPasses cb extra now s).clock.lastSyncTimestamp) := by
  induction extra generalizing now s with
  | zero =>
    obtain ⟨k, -, hl, hr⟩ := syncPass_clock hcb now hs
    unfold syncPasses
    extract_lets s1
    change Kept s s1 at k
    change s1.clock.lastSyncTimestamp = now at hl
    change s1.clock.remainder = _ at hr
    clear_value s1
    split
    · have hc := hostNow_clock { s1 with clock := { s1.clock with remeasure := false } }
      refine ⟨(k.trans (Kept.withClock s1 _)).trans (hostNow_kept _), ?_, ?_, ?_⟩ <;> dsimp only <;> rw [hc]
      · intro hd
        show s1.clock.remainder < _
        rw [hr]; exact Nat.mod_lt _ (by omega)
      · intro h1 h2
        show s1.clock.remainder ≤ s1.clock.lastSyncTimestamp
        rw [hr, hl]
        exact (Nat.mod_le _ _).trans (by omega)
    · rename_i hrem
      refine ⟨k, by simpa using hrem, ?_, ?_⟩
      · intro hd
        rw [hr]; exact Nat.mod_lt _ (by omega)
      · intro h1 h2
        rw [hr, hl]
        exact (Nat.mod_le _ _).trans (by omega)
  | succ extra ih =>
    obtain ⟨k, hsd, hl, hr⟩ := syncPass_clock hcb now hs
    unfold syncPasses
    extract_lets s1 src r
    change Kept s s1 at k
    change s1.clock.syncDepth = _ at hsd
    change s1.clock.lastSyncTimestamp = now at hl
    change s1.clock.remainder = _ at hr
    split
    · have hc := hostNow_clock { s1 with clock := { s1.clock with remeasure := false } }
      have hk := hostNow_kept { s1 with clock := { s1.clock with remeasure := false } }
      change r.1.clock = _ at hc
      change Kept _ r.1 at hk
      have hr1 : 0 < r.1.clock.syncDepth := by
        rw [hc]; show 0 < s1.clock.syncDepth
        rw [hsd]; exact hs
      obtain ⟨i1, i2, i3, i4⟩ := ih (max now r.2) hr1
      refine ⟨((k.trans (Kept.withClock s1 _)).trans hk).trans i1, i2, ?_, ?_⟩
      · have hcfg : r.1.cfg = s.cfg := by rw [hk.cfg]; exact k.cfg
        rw [hcfg] at i3
        exact i3
      · intro h1 h2
        apply i4
        · rw [hc]
          show s1.clock.remainder ≤ s1.clock.lastSyncTimestamp
          rw [hr, hl]
          exact (Nat.mod_le _ _).trans (by omega)
        · rw [hc]
          show s1.clock.lastSyncTimestamp ≤ _
          rw [hl]; exact le_max_left _ _
    · rename_i hrem
      refine ⟨k, by simpa using hrem, ?_, ?_⟩
      · intro hd
        rw [hr]; exact Nat.mod_lt _ (by omega)
      · intro h1 h2
        rw [hr, hl]
        exact (Nat.mod_le _ _).trans (by omega)

/-- A forecast between calls leaves nothing deferred that was not before. -/
theorem predict_pendingHorizon (h : Nat) {s : State} (hs : s.clock.syncDepth = 0) :
    (predict h s).pred.pendingHorizon = s.pred.pendingHorizon := by
  unfold predict
  split
  · rfl
  · rw [if_neg (by omega)]
    simp only [runForecast]
    rw [forecastNmi_foldl_frame]

theorem predict_clock (h : Nat) (s : State) : (predict h s).clock = s.clock := by rw [predict_frame]

theorem runDeferred_kept (s : State) : Kept s (runDeferred s) := by
  unfold runDeferred
  split
  · exact (Kept.clock s s.clock s.hostNows s.drawCount 0).trans (Kept.of_nested (Nested.predict _ _))
  · exact Kept.refl s

/-- A synchronization, whatever the callbacks answer during the replay. -/
theorem sync_kept {cb : Callbacks} (hcb : cb.Keeps) (now : Nat) (s : State) :
    Kept s (sync cb now s) ∧ (ClockOk s → ClockOk (sync cb now s)) := by
  unfold sync
  split
  · rename_i hd
    exact ⟨Kept.of_nested (Nested.emit _ _), fun m => by have := m.syncDepth; omega⟩
  · rename_i hd
    split
    · exact ⟨Kept.of_nested (Nested.emit _ _), fun m => ⟨m.config, m.remainder, m.elapsed, m.syncDepth, m.remeasure, m.noDeferred⟩⟩
    · rename_i hnow
      extract_lets cl s1 cl1
      obtain ⟨k, hrm, h1, h2⟩ := syncPasses_clock hcb (scriptLength s + 1) now
        (s := { s with clock := { s.clock with syncDepth := 1 } }) Nat.one_pos
      change Kept _ s1 at k
      change s1.clock.remeasure = false at hrm
      have hk : Kept s { s1 with clock := { s1.clock with syncDepth := 0 } } :=
        ((Kept.withClock s _).trans k).trans (Kept.withClock s1 _)
      refine ⟨hk.trans (runDeferred_kept _), fun m => ?_⟩
      have hdiv : 1 ≤ s.cfg.clockDivider := by
        have := m.config
        simp only [Config.wf, Bool.and_eq_true, decide_eq_true_eq] at this
        exact this.1
      have hrem : s1.clock.remainder < s.cfg.clockDivider := h1 hdiv
      have hel : s1.clock.remainder ≤ s1.clock.lastSyncTimestamp := h2 m.elapsed (Nat.le_of_not_lt hnow)
      have hcfg : (runDeferred { s1 with clock := { s1.clock with syncDepth := 0 } }).cfg = s.cfg :=
        (hk.trans (runDeferred_kept _)).cfg
      have hcl : (runDeferred { s1 with clock := { s1.clock with syncDepth := 0 } }).clock =
          { s1.clock with syncDepth := 0 } := by
        unfold runDeferred
        split
        · rw [predict_clock]
        · rfl
      refine ⟨by rw [hcfg]; exact m.config, by rw [hcfg, hcl]; exact hrem, by rw [hcl]; exact hel, by rw [hcl],
        by rw [hcl]; exact hrm, ?_⟩
      unfold runDeferred
      split
      · rw [predict_pendingHorizon _ rfl]
      · rename_i hp
        exact Nat.eq_zero_of_not_pos hp

end Sys2Proof.Machine
end

