-- ==== Sys2Proof/Laws/PerInstr.lean ====
section
/-! SUPPORT. Statements made of every instruction, one lemma per constructor. `RoundTrip`: decoding the request that
presents a well-formed operation gives the operation back. -/

namespace Sys2Proof.Laws.RoundTrip

/-- Decoding the encoding of a well-formed operation gives it back. -/
def Statement (i : Instr) : Prop := i.wf = true → decode (encode i) = .ok i

theorem rdCtrl (now : Nat) : Statement (.rdCtrl now) := fun _ => rfl

theorem rdMask (now : Nat) : Statement (.rdMask now) := fun _ => rfl

theorem rdStatus (now : Nat) : Statement (.rdStatus now) := fun _ => rfl

theorem rdOamAddr (now : Nat) : Statement (.rdOamAddr now) := fun _ => rfl

theorem rdOamData (now : Nat) : Statement (.rdOamData now) := fun _ => rfl

theorem rdScroll (now : Nat) : Statement (.rdScroll now) := fun _ => rfl

theorem rdAddr (now : Nat) : Statement (.rdAddr now) := fun _ => rfl

theorem rdData (now : Nat) : Statement (.rdData now) := fun _ => rfl

theorem wrCtrl (d : Byte) (now : Nat) : Statement (.wrCtrl d now) := fun _ => rfl

theorem wrMask (d : Byte) (now : Nat) : Statement (.wrMask d now) := fun _ => rfl

theorem wrStatus (d : Byte) (now : Nat) : Statement (.wrStatus d now) := fun _ => rfl

theorem wrOamAddr (d : Byte) (now : Nat) : Statement (.wrOamAddr d now) := fun _ => rfl

theorem wrOamData (d : Byte) (now : Nat) : Statement (.wrOamData d now) := fun _ => rfl

theorem wrScroll (d : Byte) (now : Nat) : Statement (.wrScroll d now) := fun _ => rfl

theorem wrAddr (d : Byte) (now : Nat) : Statement (.wrAddr d now) := fun _ => rfl

theorem wrData (d : Byte) (now : Nat) : Statement (.wrData d now) := fun _ => rfl

theorem dmaTrigger (d : Byte) (now : Nat) : Statement (.dmaTrigger d now) := fun _ => rfl

theorem sync (now : Nat) : Statement (.sync now) := fun _ => rfl

theorem predict (horizon : Nat) : Statement (.predict horizon) := fun _ => rfl

theorem reset (now : Nat) : Statement (.reset now) := fun _ => rfl

theorem powerOn (now : Nat) (draw : PowerOnMemory) (ntMap : NtMap) (ptMap : PtMap) : Statement (.powerOn now draw ntMap ptMap) := fun _ => rfl

theorem remapNametables (map : NtMap) : Statement (.remapNametables map) := fun _ => rfl

theorem remapPatterns (view : RemapView) (start : Nat) (pageSize : Nat) (source : Nat) : Statement (.remapPatterns view start pageSize source) := fun _ => rfl

theorem statusQuery : Statement .statusQuery := fun _ => rfl

theorem frameBuffer : Statement .frameBuffer := fun _ => rfl

end Sys2Proof.Laws.RoundTrip
end

