-- ==== Sys2Proof/Laws/Remeasure.lean ====
section
/-! SUPPORT. Why the loop of `sync` ends (R160, R185, log entry 9): a re-measure request raised in a replay has used up one
of the host's answers, so the passes that raise one are no more than the answers the script holds. -/

namespace Sys2Proof.Machine

/-- The answers left, and one more while a re-measure request stands. -/
def owed (s : State) : Nat := scriptLength s + if s.clock.remeasure then 1 else 0

/-- What a part of a replay does to the answers left and the request: a request is paid for by an answer. -/
structure Pays (s t : State) : Prop where
  owed      : owed t ≤ owed s
  syncDepth : t.clock.syncDepth = s.clock.syncDepth

namespace Pays

theorem refl (s : State) : Pays s s := ⟨le_rfl, rfl⟩

theorem trans {s t u : State} (h : Pays s t) (k : Pays t u) : Pays s u :=
  ⟨k.owed.trans h.owed, k.syncDepth.trans h.syncDepth⟩

/-- A part that is not run. -/
theorem ite {s : State} {p : Prop} [Decidable p] {t : State} (h : p → Pays s t) : Pays s (if p then t else s) := by
  split
  · exact h ‹_›
  · exact refl s

/-- The calls of an answer, once the answer is taken off the script. -/
theorem of_answer {s t u : State} (h : Nested t u) (hd : t.clock.syncDepth = s.clock.syncDepth)
    (hl : scriptLength t < scriptLength s) : Pays s u := by
  refine ⟨?_, h.syncDepth.trans hd⟩
  have := h.script
  unfold Machine.owed
  split <;> split <;> omega

end Pays

section calls

variable {run : HookCall → State → State} (hr : ∀ c s, 0 < s.clock.syncDepth → Nested s (run c s))
include hr

theorem hookWith_pays (e : HookEvent) {s : State} (hs : 0 < s.clock.syncDepth) : Pays s (hookWith run e s) := by
  simp only [hookWith]
  split
  · exact ⟨le_rfl, rfl⟩
  · rename_i calls rest hscript
    have hscript : s.hookScript = calls :: rest := hscript
    refine Pays.of_answer (runCalls_nested hr calls (s := { emit (.hook e) s with hookScript := rest }) hs) rfl ?_
    simp only [scriptLength, emit_noticeScript, emit_cpuScript, hscript, List.length_cons]
    omega

theorem notifyWith_pays (e : Event) {s : State} (hs : 0 < s.clock.syncDepth) : Pays s (notifyWith run e s) := by
  simp only [notifyWith]
  split
  · split
    · exact ⟨le_rfl, rfl⟩
    · rename_i calls rest hscript
      have hscript : s.noticeScript = calls :: rest := hscript
      refine Pays.of_answer (runCalls_nested hr calls (s := { emit e s with noticeScript := rest }) hs) rfl ?_
      simp only [scriptLength, emit_hookScript, emit_cpuScript, hscript, List.length_cons]
      omega
  · exact ⟨le_rfl, rfl⟩

end calls

/-- A read access decodes to a read (R131, R135). -/
theorem decodeBus_read {a : CpuAddr} {op : BusOp} (h : decodeBus (0#1 ++ a) = some op) : ∃ r, op = busReadOp r := by
  have hw : (0#1 ++ a).getLsbD 16 = false := by rw [BitVec.getLsbD_append]; simp
  unfold decodeBus at h
  simp only [hw] at h
  split at h
  · simp at h
  · split at h
    · exact ⟨_, (Option.some.inj h).symm⟩
    · exact absurd h (by simp)

section notify

variable {notify : Notify} (hn : ∀ e s, 0 < s.clock.syncDepth → Pays s (notify e s))
include hn

theorem invalidateNmi_pays {s : State} (hs : 0 < s.clock.syncDepth) : Pays s (invalidateNmi notify s) := by
  rw [invalidateNmi_frame]
  exact (hn _ s hs).trans ⟨le_rfl, rfl⟩

theorem rdStatus_pays {s : State} (hs : 0 < s.clock.syncDepth) : Pays s (rdStatus notify s) := by
  have h : Pays s (if atRace s then raceRead notify s else s) := by
    refine Pays.ite fun _ => Pays.ite fun _ => ?_
    have h1 : Pays s (unregisterNmi (cycleClock s) (notify (.clearInterrupt .nmi) s)) :=
      (hn _ s hs).trans ⟨le_rfl, rfl⟩
    exact h1.trans (invalidateNmi_pays hn (by rw [h1.syncDepth]; exact hs))
  exact h.trans ⟨le_rfl, rfl⟩

theorem enterVBlank_pays (ts : Nat) {s : State} (hs : 0 < s.clock.syncDepth) : Pays s (enterVBlank notify ts s) := by
  unfold enterVBlank
  dsimp only
  have k : Pays s { s with ports := s.ports.enterVBlank } := ⟨le_rfl, rfl⟩
  refine k.trans (Pays.ite fun _ => ?_)
  rcases realNmiEdge_cases notify ts { s with ports := s.ports.enterVBlank } with ⟨-, h⟩ | ⟨-, h⟩ <;> rw [h]
  · exact ⟨le_rfl, rfl⟩
  · exact hn _ _ hs

/-- A read by `cpuRead` is no trigger (R366, R131). -/
theorem nestedPortRead_pays {hook : Hook} (hh : ∀ e s, 0 < s.clock.syncDepth → Pays s (hook e s)) (a : CpuAddr)
    {s : State} (hs : 0 < s.clock.syncDepth) : Pays s (nestedPortRead hook notify a s) := by
  unfold nestedPortRead
  split
  · split
    · rename_i op hop
      have k : Pays s (diag .reentrantSync s) := ⟨le_rfl, rfl⟩
      refine k.trans ?_
      have hd : 0 < (diag .reentrantSync s).clock.syncDepth := hs
      generalize diag .reentrantSync s = t at hd
      obtain ⟨r, rfl⟩ := decodeBus_read hop
      unfold busReadOp
      split
      case h_3 => exact rdStatus_pays hn hd
      case h_8 =>
        show Pays t (rdData hook t)
        unfold rdData
        refine (hh (.addr (ppuAddr t.ports.v)) t hd).trans ?_
        dsimp only
        rw [incrementV_frame]
        exact ⟨le_rfl, rfl⟩
      all_goals exact ⟨le_rfl, rfl⟩
    · exact Pays.refl s
  · exact Pays.refl s

end notify

/-- Callbacks that pay for every request they raise. -/
structure Callbacks.Pay (cb : Callbacks) : Prop where
  hook    : ∀ e s, 0 < s.clock.syncDepth → Pays s (cb.hook e s)
  cpuRead : ∀ a s, 0 < s.clock.syncDepth → Pays s (cb.cpuRead a s).1
  notify  : ∀ e s, 0 < s.clock.syncDepth → Pays s (cb.notify e s)

theorem callbacksWith_pay {run : HookCall → State → State} (hr : ∀ c s, 0 < s.clock.syncDepth → Nested s (run c s)) :
    (callbacksWith run).Pay where
  hook e s hs := hookWith_pays hr e hs
  notify e s hs := notifyWith_pays hr e hs
  cpuRead a s hs := by
    simp only [callbacksWith, cpuReadWith]
    have h1 : Pays s (nestedPortRead (hookWith run) (notifyWith run) a (emit (.cpuRead a) s)) := by
      have k : Pays s (emit (.cpuRead a) s) := ⟨le_rfl, rfl⟩
      exact k.trans (nestedPortRead_pays (fun e t ht => notifyWith_pays hr e ht) (fun e t ht => hookWith_pays hr e ht) a hs)
    refine h1.trans ?_
    have hd : 0 < (nestedPortRead (hookWith run) (notifyWith run) a (emit (.cpuRead a) s)).clock.syncDepth := by
      rw [h1.syncDepth]; exact hs
    generalize nestedPortRead (hookWith run) (notifyWith run) a (emit (.cpuRead a) s) = t at hd
    split
    · exact ⟨le_rfl, rfl⟩
    · rename_i answer rest hscript
      refine Pays.of_answer (runCalls_nested hr answer.calls (s := { t with cpuScript := rest }) hd) rfl ?_
      simp only [scriptLength, hscript, List.length_cons]
      omega

theorem callbacks_pay (n : Nat) : (callbacks n).Pay := by
  cases n with
  | zero => exact callbacksWith_pay fun _ s _ => Nested.refl s
  | succ n => exact callbacksWith_pay fun c _ hs => hookCall_nested (callbacks_keeps n) c hs

/-! ## One cycle -/

section hooks

variable {hook : Hook} (hh : ∀ e s, 0 < s.clock.syncDepth → Pays s (hook e s))
include hh

theorem fetchSlot_pays (c : Nat) {s : State} (hs : 0 < s.clock.syncDepth) : Pays s (fetchSlot hook c s) := by
  have h : ∀ a, Pays s (afterFetch hook a s) := fun a => hh _ s hs
  unfold fetchSlot
  split
  · exact (h _).trans ⟨le_rfl, rfl⟩
  · split
    · exact (h _).trans ⟨le_rfl, rfl⟩
    · exact (h _).trans ⟨le_rfl, rfl⟩
  · exact (h _).trans ⟨le_rfl, rfl⟩
  · exact (h _).trans ⟨le_rfl, rfl⟩
  · exact Pays.refl s

theorem bgCycle_pays (line : Int) (c : Nat) {s : State} (hs : 0 < s.clock.syncDepth) : Pays s (bgCycle hook line c s) := by
  unfold bgCycle
  extract_lets vis b s1 s2 s3 s4 s5 s6 s7
  have h1 : Pays s s1 := Pays.ite fun _ => ⟨le_rfl, rfl⟩
  have h2 : Pays s1 s2 := Pays.ite fun _ => ⟨le_rfl, rfl⟩
  have h3 : Pays s2 s3 := Pays.ite fun _ => ⟨le_rfl, rfl⟩
  have hd : 0 < s3.clock.syncDepth := by rw [((h1.trans h2).trans h3).syncDepth]; exact hs
  have h4 : Pays s3 s4 := Pays.ite fun _ => fetchSlot_pays hh c hd
  have h5 : Pays s4 s5 := Pays.ite fun _ => ⟨le_rfl, rfl⟩
  have h6 : Pays s5 s6 := Pays.ite fun _ => ⟨le_rfl, rfl⟩
  have h7 : Pays s6 s7 := Pays.ite fun _ => ⟨le_rfl, rfl⟩
  exact ((((((h1.trans h2).trans h3).trans h4).trans h5).trans h6).trans h7).trans (Pays.ite fun _ => ⟨le_rfl, rfl⟩)

omit hh in
theorem evalStep_pays (line : Int) (s : State) : Pays s (evalStep line s) := by
  unfold evalStep
  split
  · unfold copyEntryStep
    split
    · dsimp only
      split <;> exact ⟨le_rfl, rfl⟩
    · exact ⟨le_rfl, rfl⟩
  · unfold overflowStep
    split <;> exact ⟨le_rfl, rfl⟩
  · exact ⟨le_rfl, rfl⟩
  · exact Pays.refl s

omit hh in
theorem spriteEvalCycle_pays (line : Int) (c : Nat) (s : State) : Pays s (spriteEvalCycle line c s) := by
  unfold spriteEvalCycle
  split
  · exact ⟨le_rfl, rfl⟩
  · split
    · exact ⟨le_rfl, rfl⟩
    · exact Pays.ite fun _ => evalStep_pays line s

theorem spriteFetchCycle_pays (line : Int) (c : Nat) {s : State} (hs : 0 < s.clock.syncDepth) :
    Pays s (spriteFetchCycle hook line c s) := by
  unfold spriteFetchCycle
  refine Pays.ite fun _ => ?_
  extract_lets p s1 i s2
  have h2 : Pays s s2 := Pays.trans (t := s1) ⟨le_rfl, rfl⟩ (Pays.ite fun _ => ⟨le_rfl, rfl⟩)
  have hd : 0 < s2.clock.syncDepth := by rw [h2.syncDepth]; exact hs
  clear_value s2
  refine h2.trans ?_
  split
  · exact ⟨le_rfl, rfl⟩
  · exact (hh _ s2 hd).trans ⟨le_rfl, rfl⟩
  · exact (hh _ s2 hd).trans ⟨le_rfl, rfl⟩
  · exact Pays.refl _

theorem renderCycle_pays (line : Int) (c : Nat) {s : State} (hs : 0 < s.clock.syncDepth) :
    Pays s (renderCycle hook line c s) := by
  unfold renderCycle
  extract_lets s1 s2 s3
  have h1 : Pays s s1 := Pays.ite fun _ => hh _ s hs
  have hs1 : 0 < s1.clock.syncDepth := by rw [h1.syncDepth]; exact hs
  have h2 : Pays s1 s2 := Pays.ite fun _ => hh _ s1 hs1
  have hs2 : 0 < s2.clock.syncDepth := by rw [h2.syncDepth]; exact hs1
  have h3 : Pays s2 s3 := by
    change Pays s2 (if s2.ports.renderingEnabled = true then
      spriteFetchCycle hook line c (spriteEvalCycle line c (bgCycle hook line c s2)) else blankCycle line c s2)
    split
    · have hb := bgCycle_pays hh line c hs2
      have he := hb.trans (spriteEvalCycle_pays line c (bgCycle hook line c s2))
      exact he.trans (spriteFetchCycle_pays hh line c (by rw [he.syncDepth]; exact hs2))
    · unfold blankCycle
      dsimp only
      refine Pays.trans ?_ (Pays.ite fun _ => ⟨le_rfl, rfl⟩)
      exact Pays.ite fun _ => ⟨le_rfl, rfl⟩
  exact ((h1.trans h2).trans h3).trans (Pays.ite fun _ => ⟨le_rfl, rfl⟩)

end hooks

/-- Clearing the request and asking the host for the time (R160). -/
theorem owed_resumed {s : State} (h : s.clock.remeasure = true) :
    owed (hostNow { s with clock := { s.clock with remeasure := false } }).1 + 1 = owed s := by
  unfold hostNow
  split <;> simp [owed, scriptLength, h]

section callbacks

variable {cb : Callbacks} (hcb : cb.Pay)
include hcb

theorem dmaTick_pays {s : State} (hs : 0 < s.clock.syncDepth) : Pays s (dmaTick cb s) := by
  unfold dmaTick
  split
  · exact Pays.refl s
  · dsimp only
    split
    · exact ⟨le_rfl, rfl⟩
    · have hr := hcb.cpuRead s.dma.readAddress { s with dma := { s.dma with timer := s.dma.timer - 1 } } hs
      split
      · exact ⟨hr.owed, hr.syncDepth⟩
      · unfold dmaWritePhase
        dsimp only
        split <;> exact ⟨le_rfl, rfl⟩

theorem endOfScanline_pays (line : Int) (ts : Nat) {s : State} (hs : 0 < s.clock.syncDepth) :
    Pays s (endOfScanline cb line ts s) := by
  unfold endOfScanline
  extract_lets next sc s1 s2 s3 s4
  have k1 : Pays s s1 := ⟨le_rfl, rfl⟩
  have k2 : Pays s1 s2 := Pays.ite fun _ => enterVBlank_pays hcb.notify ts hs
  have k3 : Pays s2 s3 := Pays.ite fun _ => ⟨le_rfl, rfl⟩
  have k := (k1.trans k2).trans k3
  have k4 : Pays s3 s4 := hcb.hook _ _ (by rw [k.syncDepth]; exact hs)
  exact (k.trans k4).trans ⟨le_rfl, rfl⟩

theorem countCycle_pays (line : Int) (ts : Nat) {s : State} (hs : 0 < s.clock.syncDepth) :
    Pays s (countCycle cb line ts s) := by
  have k1 : Pays s (countDown s) := ⟨le_rfl, rfl⟩
  exact k1.trans (Pays.ite fun _ => endOfScanline_pays hcb line ts hs)

theorem ppuCycle_pays (ts : Nat) {s : State} (hs : 0 < s.clock.syncDepth) : Pays s (ppuCycle cb ts s) := by
  unfold ppuCycle
  extract_lets cl s0 line c s1 s2
  have k0 : Pays s s0 := ⟨le_rfl, rfl⟩
  split
  · have k1 : Pays s s1 := k0.trans (dmaTick_pays hcb hs)
    have k2 : Pays s1 s2 := Pays.ite fun _ => renderCycle_pays hcb.hook line c (by rw [k1.syncDepth]; exact hs)
    have k3 : Pays s (oddFrameSkip line c s2) := (k1.trans k2).trans (Pays.ite fun _ => ⟨le_rfl, rfl⟩)
    exact k3.trans (countCycle_pays hcb line ts (by rw [k3.syncDepth]; exact hs))
  · have k1 : Pays s (diag .invariantViolation s0) := ⟨le_rfl, rfl⟩
    exact k1.trans (by rw [countOnly_eq]; exact ⟨le_rfl, rfl⟩)

theorem replay_pays (n ts : Nat) {s : State} (hs : 0 < s.clock.syncDepth) : Pays s (replay cb n ts s) := by
  induction n generalizing ts s with
  | zero => exact Pays.refl s
  | succ n ih =>
    have h := ppuCycle_pays hcb ts hs
    exact h.trans (ih _ (by rw [h.syncDepth]; exact hs))

theorem syncPass_pays (now : Nat) {s : State} (hs : 0 < s.clock.syncDepth) : Pays s (syncPass cb now s) :=
  let h := replay_pays hcb (((now - s.clock.lastSyncTimestamp) + s.clock.remainder) / s.cfg.clockDivider)
    (s.clock.lastSyncTimestamp + s.cfg.clockDivider - s.clock.remainder)
    (s := { s with clock := { s.clock with
      remainder := ((now - s.clock.lastSyncTimestamp) + s.clock.remainder) % s.cfg.clockDivider
      lastSyncTimestamp := now } }) hs
  ⟨h.owed, h.syncDepth⟩

/-- With one pass more than the answers owed, the loop of `sync` ends with a pass that raised no request. -/
theorem syncPasses_loop (extra now : Nat) {s : State} (hs : 0 < s.clock.syncDepth) (h : owed s ≤ extra) :
    SyncLoop cb now s (syncPasses cb extra now s) := by
  induction extra generalizing now s with
  | zero =>
    have k := (syncPass_pays hcb now hs).owed
    have hm : (syncPass cb now s).clock.remeasure = false := by
      unfold owed at k h
      by_contra hc
      simp only [Bool.not_eq_false] at hc
      rw [hc] at k
      simp only [if_true] at k
      omega
    unfold syncPasses
    simp only [hm]
    exact .last now s _ rfl hm
  | succ extra ih =>
    have k := syncPass_pays hcb now hs
    unfold syncPasses
    by_cases hm : (syncPass cb now s).clock.remeasure = true
    · simp only [hm, if_true]
      have hc := hostNow_clock { syncPass cb now s with
        clock := { (syncPass cb now s).clock with remeasure := false } }
      refine .again now _ s (syncPass cb now s) _ _ rfl hm rfl (ih _ ?_ ?_)
      · show 0 < (hostNow { syncPass cb now s with
          clock := { (syncPass cb now s).clock with remeasure := false } }).1.clock.syncDepth
        rw [hc]
        show 0 < (syncPass cb now s).clock.syncDepth
        rw [k.syncDepth]; exact hs
      · exact Nat.le_of_succ_le_succ ((owed_resumed hm).le.trans (k.owed.trans h))
    · simp only [Bool.not_eq_true] at hm
      simp only [hm]
      exact .last now s _ rfl hm

end callbacks

end Sys2Proof.Machine
end

