-- ==== Sys2Proof/Laws/Rest.lean ====
section
/-! SUPPORT. What an operation between calls can do, the calls its hooks make included: the same relation as within a
cycle, and a legal clock stays legal. -/

namespace Sys2Proof.Machine

/-- What any operation but a power-on keeps, between calls. -/
structure Rest (s t : State) : Prop where
  kept  : Kept s t
  clock : ClockOk s → ClockOk t

namespace Rest

theorem refl (s : State) : Rest s s := ⟨Kept.refl s, id⟩

theorem trans {s t u : State} (h : Rest s t) (k : Rest t u) : Rest s u :=
  ⟨h.kept.trans k.kept, k.clock ∘ h.clock⟩

/-- An operation that leaves the clock and the deferred horizon alone. -/
theorem of_nested {s t : State} (h : Nested s t) (hc : ClockOk s → t.clock.remeasure = false)
    (hp : ClockOk s → t.pred.pendingHorizon = 0) : Rest s t := by
  refine ⟨Kept.of_nested h, fun m => ?_⟩
  have e := h.clock
  refine ⟨by rw [h.cfg]; exact m.config, by rw [h.cfg, e]; exact m.remainder, by rw [e]; exact m.elapsed,
    by rw [e]; exact m.syncDepth, hc m, hp m⟩

theorem emit (e : Event) (s : State) : Rest s (Machine.emit e s) :=
  of_nested (Nested.emit e s) (fun m => m.remeasure) fun m => m.noDeferred

theorem noResult (s : State) : Rest s (Machine.noResult s) :=
  of_nested (Nested.noResult s) (fun m => m.remeasure) fun m => m.noDeferred

theorem returnByte (b : Byte) (s : State) : Rest s (Machine.returnByte b s) :=
  of_nested (Nested.returnByte b s) (fun m => m.remeasure) fun m => m.noDeferred

theorem withPorts (s : State) (p : Ports) : Rest s { s with ports := p } :=
  of_nested (Nested.withPorts s p) (fun m => m.remeasure) fun m => m.noDeferred

theorem withMaps (s : State) (p : Maps) : Rest s { s with maps := p } :=
  of_nested (Nested.withMaps s p) (fun m => m.remeasure) fun m => m.noDeferred

theorem withResult (s : State) (r : Result) : Rest s { s with result := r } :=
  of_nested (Nested.light s s.ports s.maps s.drawCount s.trace r) (fun m => m.remeasure) fun m => m.noDeferred

theorem predict (h : Nat) (s : State) : Rest s (Machine.predict h s) :=
  of_nested (Nested.predict h s) (fun m => by rw [predict_clock]; exact m.remeasure)
    fun m => by rw [predict_pendingHorizon h m.syncDepth]; exact m.noDeferred

theorem unregisterNmi (ts : Nat) (s : State) : Rest s (Machine.unregisterNmi ts s) :=
  of_nested (Nested.unregisterNmi ts s) (fun m => m.remeasure) fun m => m.noDeferred

theorem forgetForecast (s : State) : Rest s (Machine.forgetForecast s) :=
  of_nested (Nested.predicted s _ s.trace fun _ => List.Pairwise.nil) (fun m => m.remeasure) fun m => m.noDeferred

theorem setLastWritten (d : Byte) (s : State) : Rest s (Machine.setLastWritten d s) := withPorts s _

theorem oamWrite (d : Byte) (s : State) : Rest s (Machine.oamWrite d s) :=
  of_nested (Nested.oamWrite d s) (fun m => m.remeasure) fun m => m.noDeferred

theorem vWrite (a : PpuAddr) (d : Byte) (s : State) : Rest s (Machine.vWrite a d s) :=
  of_nested (Nested.vWrite a d s) (fun m => by rw [vWrite_frame]; exact m.remeasure)
    fun m => by rw [vWrite_frame]; exact m.noDeferred

theorem incrementV (s : State) : Rest s (Machine.incrementV s) := by
  rw [incrementV_frame]
  exact withPorts s _

theorem wrScroll (d : Byte) (s : State) : Rest s (Machine.wrScroll d s) := by
  unfold Machine.wrScroll
  refine Rest.trans ?_ (noResult _)
  split <;> exact withPorts s _

theorem wrAddr (d : Byte) (s : State) : Rest s (Machine.wrAddr d s) := by
  unfold Machine.wrAddr
  refine Rest.trans ?_ (noResult _)
  split <;> exact withPorts s _

section notify

variable {notify : Notify} (hn : ∀ e s, Rest s (notify e s))
include hn

theorem invalidateNmi (s : State) : Rest s (Machine.invalidateNmi notify s) :=
  ((hn _ s).trans (forgetForecast _)).trans (predict _ _)

theorem rdStatus (s : State) : Rest s (Machine.rdStatus notify s) := by
  have h : Rest s (if atRace s then raceRead notify s else s) := by
    split
    · unfold raceRead
      split
      · exact ((hn _ _).trans (unregisterNmi _ _)).trans (invalidateNmi hn _)
      · exact refl s
    · exact refl s
  exact (h.trans (withPorts _ _)).trans (returnByte _ _)

theorem wrCtrl (d : Byte) (s : State) : Rest s (Machine.wrCtrl notify d s) := by
  have h : ∀ t : State, Rest t (if s.ports.nmie ≠ d.getLsbD 7 then Machine.invalidateNmi notify t else t) := by
    intro t
    split
    · exact invalidateNmi hn t
    · exact refl t
  have k : ∀ (p : Prop) [Decidable p] (t : State), Rest t (if p then Machine.nmiEdgeNow notify t else t) := by
    intro p _ t
    split
    · exact hn _ t
    · exact refl t
  exact (((withPorts s _).trans (h _)).trans (k _ _)).trans (noResult _)

theorem wrMask (d : Byte) (s : State) : Rest s (Machine.wrMask notify d s) := by
  unfold Machine.wrMask
  refine Rest.trans ?_ (noResult _)
  split
  · exact (withPorts s _).trans (invalidateNmi hn _)
  · exact withPorts s _

/-- A trigger sets the re-measure request inside a replay only (R361). -/
theorem dmaTrigger (d : Byte) (s : State) : Rest s (Machine.dmaTrigger notify d s) := by
  unfold Machine.dmaTrigger
  extract_lets dm s1 s2
  have k1 : Rest s s1 := of_nested
    ⟨rfl, rfl, rfl, rfl, rfl, rfl, rfl, rfl, rfl, rfl, le_rfl, .inr ⟨rfl, rfl, rfl⟩, id, id, id, id, id⟩
    (fun m => m.remeasure) fun m => m.noDeferred
  have k2 : Rest s1 s2 := hn _ s1
  refine (k1.trans k2).trans (Rest.trans ?_ (noResult _))
  split
  · rename_i h
    refine of_nested (s := s2)
      ⟨rfl, rfl, rfl, rfl, rfl, rfl, rfl, rfl, rfl, rfl, le_rfl, .inl rfl, id, id, id, id, id⟩ (fun m => ?_) fun m => m.noDeferred
    have := m.syncDepth
    omega
  · exact refl s2

/-- A register effect between calls, given what the callbacks can do. -/
theorem busEffect {hook : Hook} (hh : ∀ e s, Rest s (hook e s)) (op : BusOp) (d : Byte) (s : State) :
    Rest s (Machine.busEffect hook notify op d s) := by
  cases op <;> simp only [Machine.busEffect]
  case rdCtrl => exact returnByte _ _
  case rdMask => exact returnByte _ _
  case rdStatus => exact rdStatus hn s
  case rdOamAddr => exact returnByte _ _
  case rdOamData => exact returnByte _ _
  case rdScroll => exact returnByte _ _
  case rdAddr => exact returnByte _ _
  case rdData =>
    unfold rdData
    exact (((hh _ s).trans (withPorts _ _)).trans (incrementV _)).trans (returnByte _ _)
  case wrCtrl => exact wrCtrl hn d s
  case wrMask => exact wrMask hn d s
  case wrStatus => exact (setLastWritten d s).trans (noResult _)
  case wrOamAddr => exact ((setLastWritten d s).trans (withPorts _ _)).trans (noResult _)
  case wrOamData => exact ((setLastWritten d s).trans (oamWrite d _)).trans (noResult _)
  case wrScroll => exact wrScroll d s
  case wrAddr => exact wrAddr d s
  case wrData =>
    unfold wrData
    exact ((((setLastWritten d s).trans (hh _ _)).trans (vWrite _ _ _)).trans (incrementV _)).trans (noResult _)
  case dmaTrigger => exact dmaTrigger hn d s

end notify

/-- A callback that returns nothing: an event between replays, a nested call in one. -/
theorem notify (n : Nat) (e : Event) (s : State) : Rest s ((callbacks n).notify e s) := by
  by_cases h : s.clock.syncDepth = 0
  · rw [callbacks_notify_between n e h]
    exact emit e s
  · exact of_nested ((callbacks_keeps n).notify e s (Nat.pos_of_ne_zero h)) (fun m => absurd m.syncDepth h)
      fun m => absurd m.syncDepth h

theorem sync (n now : Nat) (s : State) : Rest s (Machine.sync (callbacks n) now s) :=
  let h := sync_kept (callbacks_keeps n) now s
  ⟨h.1, h.2⟩

/-- A reset (R441). -/
theorem resetCore (now : Nat) (s : State) : Rest s (Machine.resetCore now s) := by
  unfold Machine.resetCore
  split
  · exact emit _ s
  · split
    · exact emit _ s
    · rename_i hd _
      refine ⟨⟨rfl, rfl, le_rfl, fun m => ?_, fun m => ?_, fun _ => ?_, fun _ => ?_, fun _ => List.Pairwise.nil⟩,
        fun m => ?_⟩
      · exact ⟨m.nt, m.chr, m.pal, m.oam, Memory.wf_nil _, m.frame,
          ⟨⟨List.Pairwise.nil, by simp [resetRegisters, Background.reset]⟩, by simp [resetRegisters, Background.reset]⟩⟩
      · have hl := nextLine_range s.cfg 0
        refine ⟨le_rfl, hl.1.trans hl.2, ?_, ?_, rfl⟩
        · show (1 : Nat) ≤ 1
          omega
        · show (1 : Nat) ≤ 341
          omega
      · exact ⟨Nat.zero_le 8, by simp [resetRegisters, Evaluator.reset], by simp [resetRegisters, Evaluator.reset],
          Nat.zero_le 3⟩
      · have he : (0#3).getLsbD 0 = false := by decide
        exact ⟨he, he, he, Nat.zero_le 16, Nat.zero_le 3, Nat.zero_le 256, fun h => absurd rfl h⟩
      · have hdiv : 1 ≤ s.cfg.clockDivider := by
          have := m.config
          simp only [Config.wf, Bool.and_eq_true, decide_eq_true_eq] at this
          exact this.1
        exact ⟨m.config, hdiv, Nat.zero_le now, m.syncDepth, rfl, rfl⟩

theorem hookCall (n : Nat) (hh : ∀ e s, Rest s ((callbacks n).hook e s)) (call : HookCall) (s : State) :
    Rest s (Machine.hookCall (callbacks n) call s) := by
  cases call with
  | bus acc d now =>
    simp only [Machine.hookCall, busAccess]
    split
    · exact (sync n now s).trans (busEffect (notify n) hh _ d _)
    · exact refl s
  | sync now => exact sync n now s
  | predict horizon => exact predict horizon s
  | reset now => exact resetCore now s
  | remapNametables map =>
    simp only [Machine.hookCall, remapNametables]
    split
    · exact withMaps s _
    · exact emit _ s
  | remapPatterns view start pageSize source =>
    simp only [Machine.hookCall, remapPatterns]
    split
    · exact withMaps s _
    · exact emit _ s

theorem runCalls {run : HookCall → State → State} (hr : ∀ c s, Rest s (run c s)) (calls : List HookCall) (s : State) :
    Rest s (Machine.runCalls run calls s) := by
  induction calls generalizing s with
  | nil => exact refl s
  | cons c rest ih => exact (hr c s).trans (ih _)

theorem hookWith {run : HookCall → State → State} (hr : ∀ c s, Rest s (run c s)) (e : HookEvent) (s : State) :
    Rest s (Machine.hookWith run e s) := by
  refine (emit (.hook e) s).trans ?_
  simp only [Machine.hookWith]
  split
  · exact refl _
  · rename_i calls rest hscript
    refine Rest.trans (t := { Machine.emit (.hook e) s with hookScript := rest }) ?_ (runCalls hr calls _)
    have hscript : s.hookScript = calls :: rest := hscript
    refine of_nested ⟨rfl, rfl, rfl, rfl, rfl, rfl, rfl, rfl, rfl, rfl, ?_, .inl rfl, id, id, id, id, id⟩
      (fun m => m.remeasure) fun m => m.noDeferred
    simp [scriptLength, hscript]

/-- A mapper hook between calls, whatever the host answers. -/
theorem hook (n : Nat) (e : HookEvent) (s : State) : Rest s ((callbacks n).hook e s) := by
  induction n generalizing e s with
  | zero => exact hookWith (fun _ s => refl s) e s
  | succ n ih => exact hookWith (fun c t => hookCall n ih c t) e s

/-- The catch-up before an access (R166). -/
theorem catchUp (now : Nat) (s : State) : Rest s (Machine.catchUp now s) := sync _ now s

/-- The address hook of a PPUDATA access. -/
theorem callHook (e : HookEvent) (s : State) : Rest s (Machine.callHook e s) := hook _ e s

/-- The other callbacks of an access the CPU makes. -/
theorem callNotify (e : Event) (s : State) : Rest s (Machine.callNotify e s) := notify _ e s

end Rest

end Sys2Proof.Machine
end

