-- ==== Sys2Proof/Tests/Slice0.lean ====
section
/-! SUPPORT. Tests: the well-formedness checks, the decoding of words written out from spec/30_encoding.md, vectors of
spec/95_test_vectors.md run one operation or one cycle at a time, and a witness for the hypotheses of each obligation. -/

namespace Sys2Proof.Tests

open Sys2Proof.Machine

/-! ## Helpers -/

/-- The state an operation leaves. -/
def after (i : Instr) (s : State) : State :=
  match exec i s with
  | .next t => t
  | .fault _ => s
  | .refused _ => s

/-- The state a step leaves. -/
def stepped (s : State) : State :=
  match step s with
  | .next t => t
  | .fault _ => s
  | .refused _ => s

/-- The reset state with other port registers. -/
def withPorts (f : Ports → Ports) : State := { State.reset with ports := f State.reset.ports }

/-- The reset state at a position, with a short re-prediction horizon so that an invalidation is a short computation. -/
def at' (line : Int) (c : Nat) (f : Ports → Ports) : State :=
  { withPorts f with
    scan := ⟨line, c, 342 - c, false⟩
    cfg := { Config.common with repredictHorizon := 4 } }

/-! ## Well-formedness -/

theorem test_wf_draw : (Instr.powerOn 0 ⟨[(5000, 1)], [(9000, 1)], [(31, 1)], [(255, 1)], [(61439, 1)]⟩
    Maps.reset.ntMap Maps.reset.ptMap).wf = true := by decide
theorem test_ill_formed_palette : (Instr.powerOn 0 ⟨[], [], [(32, 1)], [], []⟩
    Maps.reset.ntMap Maps.reset.ptMap).wf = false := by decide
theorem test_ill_formed_oam : (Instr.powerOn 0 ⟨[], [], [], [(256, 1)], []⟩
    Maps.reset.ntMap Maps.reset.ptMap).wf = false := by decide
theorem test_ill_formed_frame : (Instr.powerOn 0 ⟨[], [], [], [], [(61440, 1)]⟩
    Maps.reset.ntMap Maps.reset.ptMap).wf = false := by decide

/-! ## Decoding: words written out from R130 to R132 and R135 -/

theorem test_decode_reads :
    decodeBus 0b0_0010000000000000#17 = some .rdCtrl ∧ decodeBus 0b0_0010000000000001#17 = some .rdMask ∧
    decodeBus 0b0_0010000000000010#17 = some .rdStatus ∧ decodeBus 0b0_0010000000000011#17 = some .rdOamAddr ∧
    decodeBus 0b0_0010000000000100#17 = some .rdOamData ∧ decodeBus 0b0_0010000000000101#17 = some .rdScroll ∧
    decodeBus 0b0_0010000000000110#17 = some .rdAddr ∧ decodeBus 0b0_0010000000000111#17 = some .rdData := by decide
theorem test_decode_writes :
    decodeBus 0b1_0010000000000000#17 = some .wrCtrl ∧ decodeBus 0b1_0010000000000001#17 = some .wrMask ∧
    decodeBus 0b1_0010000000000010#17 = some .wrStatus ∧ decodeBus 0b1_0010000000000011#17 = some .wrOamAddr ∧
    decodeBus 0b1_0010000000000100#17 = some .wrOamData ∧ decodeBus 0b1_0010000000000101#17 = some .wrScroll ∧
    decodeBus 0b1_0010000000000110#17 = some .wrAddr ∧ decodeBus 0b1_0010000000000111#17 = some .wrData ∧
    decodeBus 0b1_0100000000010100#17 = some .dmaTrigger := by decide
/-- R131, R135: a read of `$4014`, its neighbours and the addresses around the window are not decoded. -/
theorem test_not_decoded :
    decodeBus 0b0_0100000000010100#17 = none ∧ decodeBus 0b1_0100000000010101#17 = none ∧
    decodeBus 0b1_0001111111111111#17 = none ∧ decodeBus 0b1_0100000000000000#17 = none := by decide
theorem test_decode_host (a : HostArgs) :
    decode (.host 0b00000001#8 a) = .ok (.sync a.now) ∧ decode (.host 0b00000010#8 a) = .ok (.predict a.horizon) ∧
    decode (.host 0b00000011#8 a) = .ok (.reset a.now) ∧
    decode (.host 0b00000100#8 a) = .ok (.powerOn a.now a.draw a.ntMap a.ptMap) ∧
    decode (.host 0b00000101#8 a) = .ok (.remapNametables a.ntMap) ∧
    decode (.host 0b00000110#8 a) = .ok (.remapPatterns a.view a.start a.pageSize a.source) ∧
    decode (.host 0b00000111#8 a) = .ok .statusQuery ∧ decode (.host 0b00001000#8 a) = .ok .frameBuffer ∧
    decode (.host 0b00000000#8 a) = .error .reservedSelector ∧
    decode (.host 0b00001001#8 a) = .error .reservedSelector :=
  ⟨rfl, rfl, rfl, rfl, rfl, rfl, rfl, rfl, rfl, rfl⟩
theorem test_table_words :
    decodeTableWord 24 0x12005 = some (.wrScroll 0 0) ∧ decodeTableWord 24 0x02002 = some (.rdStatus 0) ∧
    decodeTableWord 8 0x07 = some .statusQuery ∧ decodeTableWord 8 0x09 = none ∧ decodeTableWord 24 0x20000 = none := by
  decide
/-- The very next step after `withFetchWord` runs the operation of the word. -/
theorem test_withFetchWord :
    (stepped (State.reset.withFetchWord 24 0x12005)).ports.w = true ∧
    (stepped (State.reset.withFetchWord 8 0x07)).result = .phase .forcedBlank := by decide

/-! ## Register reads (spec/95_test_vectors.md, register ports) -/

/-- V-PT-7, V-PT-8. -/
theorem test_rdStatus :
    let s := at' 250 10 fun p => { p with vblank := true, sprite0Hit := true, lastWritten := 0x1F, w := true }
    (after (.rdStatus 0) s).result = .byte 0xDF ∧ (after (.rdStatus 0) s).ports.vblank = false ∧
    (after (.rdStatus 0) s).ports.w = false ∧ (after (.rdStatus 0) (after (.rdStatus 0) s)).result = .byte 0x5F := by decide
/-- V-PT-9 (the race) and V-PT-10. -/
theorem test_rdStatus_race :
    let s := at' 241 1 fun p => { p with vblank := true, ctrl := 0x80 }
    let s' := at' 241 2 fun p => { p with vblank := true, ctrl := 0x80 }
    (after (.rdStatus 0) s).result = .byte 0x00 ∧ (after (.rdStatus 0) s).ports.vblank = false ∧
    (after (.rdStatus 0) s).trace = [.clearInterrupt .nmi, .clearInterrupt .nmi] ∧
    (after (.rdStatus 0) s').result = .byte 0x80 ∧ (after (.rdStatus 0) s').trace = [] := by decide
/-- V-PT-15, V-PT-16: the shadow, by the register read and by a mirror. -/
theorem test_write_only_reads :
    let s := withPorts fun p => { p with lastWritten := 0x47, w := true }
    (after (.rdCtrl 0) (after (.wrScroll 0x12 0) s)).result = .byte 0x12 ∧ (after (.rdMask 0) s).result = .byte 0x47 ∧
    (after (.rdOamAddr 0) s).result = .byte 0x47 ∧ (after (.rdScroll 0) s).result = .byte 0x47 ∧
    (stepped (presentNext (.bus 0x03FFE#17 0 0) s)).result = .byte 0x47 ∧ (after (.rdAddr 0) s).ports.w = true := by decide
/-- V-PT-19. -/
theorem test_rdOamData :
    let s := { withPorts fun p => { p with oamAddr := 6 } with oam := [(6, 0xA3)] }
    (after (.rdOamData 0) s).result = .byte 0xA3 ∧ (after (.rdOamData 0) s).ports.oamAddr = 6 := by decide
/-- V-PT-24, V-PT-25. -/
theorem test_rdData :
    let s := { withPorts fun p => { p with v := 0x2000, readBuffer := 0x11 } with nt := [(0, 0x22)] }
    let s' := { withPorts fun p => { p with v := 0x3F01, lastWritten := 0xC5 } with pal := [(1, 0x30)], nt := [(1793, 0x77)] }
    (after (.rdData 0) s).result = .byte 0x11 ∧ (after (.rdData 0) s).ports.readBuffer = 0x22 ∧
    (after (.rdData 0) s).ports.v = 0x2001 ∧ (after (.rdData 0) s').result = .byte 0xF0 ∧
    (after (.rdData 0) s').ports.readBuffer = 0x77 ∧ (after (.rdData 0) s').ports.v = 0x3F02 ∧
    (after (.rdData 0) s').trace = [.hook (.addr 0x3F01)] := by decide
/-- V-PT-26, V-PT-27. -/
theorem test_rdData_rendering :
    (after (.rdData 0) (at' 100 50 fun p => { p with mask := 0x08, v := 0x001F })).ports.v = 0x1400 ∧
    (after (.rdData 0) (at' 250 50 fun p => { p with mask := 0x08, v := 0x001F })).ports.v = 0x0020 := by decide

/-! ## Register writes -/

/-- V-PT-1: with `NMIE` 0 to 1 the forecast is invalidated. -/
theorem test_wrCtrl :
    let t := after (.wrCtrl 0x83 0) (at' 10 1 id)
    t.ports.ctrl = 0x83 ∧ t.ports.t = 0x0C00 ∧ t.ports.lastWritten = 0x83 ∧ t.trace = [.clearInterrupt .nmi] := by decide
/-- V-PT-2, V-PT-3: the edge on enabling in vertical blank comes after the withdrawal. -/
theorem test_wrCtrl_edge :
    let s := { at' 245 1 fun p => { p with ctrl := 0x80, vblank := true } with clock := ⟨50, 2, 0, false, 0⟩ }
    let t := after (.wrCtrl 0x80 50) (after (.wrCtrl 0x00 50) s)
    t.trace = [.setInterrupt .nmi 48, .clearInterrupt .nmi, .clearInterrupt .nmi] ∧
    (after (.wrCtrl 0x84 50) s).trace = [] := by decide
/-- V-PT-4, V-PT-5. -/
theorem test_wrMask :
    (after (.wrMask 0x1E 0) (at' 10 1 id)).trace = [.clearInterrupt .nmi] ∧
    (after (.wrMask 0x08 0) (at' 10 1 fun p => { p with mask := 0x18 })).trace = [] ∧
    (after (.wrMask 0x08 0) (at' 10 1 fun p => { p with mask := 0x18 })).ports.mask = 0x08 := by decide
/-- V-PT-6. -/
theorem test_wrStatus :
    let t := after (.wrStatus 0xFF 0) (withPorts fun p => { p with vblank := true })
    t.ports.vblank = true ∧ t.ports.sprite0Hit = false ∧ t.ports.lastWritten = 0xFF := by decide
/-- V-PT-17. -/
theorem test_wrOamAddr :
    let t := after (.wrOamData 0xFF 0) (after (.wrOamAddr 0x02 0) State.reset)
    t.oam = [(2, 0xE3)] ∧ t.ports.oamAddr = 3 := by decide
/-- V-PT-18. -/
theorem test_wrOamData_wraps :
    let t := after (.wrOamData 0x40 0) (withPorts fun p => { p with oamAddr := 0xFF })
    t.oam = [(255, 0x40)] ∧ t.ports.oamAddr = 0 := by decide
/-- V-PT-11, V-PT-12. -/
theorem test_wrScroll :
    let t := after (.wrScroll 0x7D 0) State.reset
    let u := after (.wrScroll 0x5E 0) t
    coarseX t.ports.t = 15 ∧ t.ports.x = 5 ∧ t.ports.w = true ∧ coarseY u.ports.t = 11 ∧ fineY u.ports.t = 6 ∧
    u.ports.w = false := by decide
/-- V-PT-13. -/
theorem test_wrAddr :
    let t := after (.wrAddr 0xE1 0) State.reset
    let u := after (.wrAddr 0x08 0) t
    t.ports.t = 0x2100 ∧ t.ports.w = true ∧ u.ports.t = 0x2108 ∧ u.ports.v = 0x2108 ∧ u.ports.w = false := by decide
/-- V-PT-14: the toggle is shared by the two ports. -/
theorem test_shared_toggle :
    let t := after (.wrAddr 0x08 0) (after (.wrScroll 0x00 0) (after (.wrAddr 0x21 0) State.reset))
    t.ports.t.extractLsb' 8 6 = 0x08 ∧ t.ports.w = true ∧ t.ports.v = 0 := by decide
/-- V-PT-20, V-PT-21: the palette mirror and its six bits. -/
theorem test_wrData_palette :
    (after (.wrData 0x2A 0) (withPorts fun p => { p with v := 0x3F10 })).pal = [(0, 0x2A)] ∧
    (after (.wrData 0xFF 0) (withPorts fun p => { p with v := 0x3F05 })).pal = [(5, 0x3F)] := by decide
/-- V-PT-22, V-PT-23: the steps of `v`, and its wrap at the top. -/
theorem test_wrData_steps :
    (after (.wrData 0x01 0) (withPorts fun p => { p with v := 0x2000, ctrl := 0x04 })).ports.v = 0x2020 ∧
    (after (.wrData 0x01 0) (withPorts fun p => { p with v := 0x7FFF })).ports.v = 0x0000 ∧
    (after (.wrData 0x01 0) (withPorts fun p => { p with v := 0x7FFF })).pal = [(31, 0x01)] := by decide
/-- V-DM-1. -/
theorem test_dmaTrigger :
    let t := after (.dmaTrigger 0x02 0) State.reset
    t.dma = ⟨3, 0x0200, 0, 0, .read⟩ ∧ t.trace = [.cpuBurn 514] ∧ t.ports.lastWritten = 0 ∧
    t.clock.remeasure = false := by decide
/-- V-DM-2: the first byte is read at the third tick and written at the sixth. -/
theorem test_dmaTick :
    let cb := callbacks 1
    let s := { after (.dmaTrigger 0x02 0) State.reset with cpuScript := [⟨[], 0x5A⟩] }
    let t := dmaTick cb (dmaTick cb (dmaTick cb s))
    let u := dmaTick cb (dmaTick cb (dmaTick cb t))
    t.dma = ⟨3, 0x0201, 0, 0x5A, .write⟩ ∧ t.trace = [.cpuRead 0x0200, .cpuBurn 514] ∧
    u.dma = ⟨3, 0x0201, 1, 0x5A, .read⟩ ∧ u.oam = [(0, 0x5A)] ∧ u.ports.oamAddr = 1 := by decide

/-! ## Host calls -/

/-- V-CK-1. -/
theorem test_sync :
    let t := after (.sync 106) { State.reset with clock := ⟨100, 3, 0, false, 0⟩ }
    t.clock = ⟨106, 1, 0, false, 105⟩ ∧ t.scan = ⟨-1, 3, 339, false⟩ := by decide
/-- V-CK-2, V-CK-4. -/
theorem test_sync_edges :
    let s := { State.reset with clock := ⟨100, 0, 0, false, 0⟩ }
    (after (.sync 103) s).clock = ⟨103, 3, 0, false, 0⟩ ∧ (after (.sync 103) s).scan = s.scan ∧
    (after (.sync 50) s).trace = [.diag .invariantViolation] ∧ (after (.sync 50) s).clock = s.clock := by decide
/-- V-PR-1 scaled to the last cycle of line 240: the edge is one cycle away, and a second forecast registers nothing. -/
theorem test_predict :
    let s := { at' 240 341 fun p => { p with ctrl := 0x80 } with clock := ⟨1000, 0, 0, false, 0⟩ }
    let t := after (.predict 4) s
    t.trace = [.setInterrupt .nmi 1004] ∧ t.pred = ⟨[1004], 1004, 0⟩ ∧ (after (.predict 4) t).trace = t.trace ∧
    (after (.predict 3) s).trace = [] := by decide
/-- V-PR-6. -/
theorem test_predict_zero :
    (after (.predict 0) State.reset).trace = [.diag .invariantViolation] ∧ (after (.predict 0) State.reset).pred = ⟨[], 0, 0⟩ := by
  decide
/-- V-EX-5, V-EX-6. -/
theorem test_reset :
    let t := after (.wrAddr 0x3F 0) (after (.reset 0) (after (.wrAddr 0x21 0) State.reset))
    t.ports.t.extractLsb' 8 6 = 0x3F ∧ t.ports.w = true ∧
    (after (.reset 400) { State.reset with clock := ⟨500, 0, 0, false, 0⟩ }).trace = [.diag .invariantViolation] := by decide
/-- V-EX-4: the draw is taken, and secondary OAM reads `$FF`. -/
theorem test_powerOn :
    let t := after (.powerOn 7 ⟨[], [], [(1, 0x16)], [(4, 0x09), (6, 0xFF)], []⟩ #v[0, 1, 0, 1] Maps.reset.ptMap)
      { State.reset with pal := [(2, 0x01)], clock := ⟨500, 0, 0, false, 0⟩ }
    t.pal = [(1, 0x16)] ∧ t.oam = [(4, 0x09), (6, 0xE3)] ∧ t.maps.ntMap.toList = [0, 1, 0, 1] ∧
    t.clock.lastSyncTimestamp = 7 ∧ secByte t 31 = 0xFF ∧ t.trace = [] := by decide
/-- V-EX-1. -/
theorem test_remapNametables :
    (after (.remapNametables #v[0, 1, 2, 3]) State.reset).trace = [.diag .configError] ∧
    (after (.remapNametables #v[0, 1, 2, 3]) State.reset).maps.ntMap.toList = [0, 0, 1, 1] ∧
    (after (.remapNametables #v[0, 1, 0, 1]) State.reset).maps.ntMap.toList = [0, 1, 0, 1] := by decide
/-- V-EX-2, and a 4 KiB page of one view. -/
theorem test_remapPatterns :
    (after (.remapPatterns .both 0x400 3072 0) State.reset).trace = [.diag .configError] ∧
    (after (.remapPatterns .spr 0x1000 4096 0x9000) State.reset).maps.ptMap.spr.toList =
      [0, 1024, 2048, 3072, 0x9000, 0x9400, 0x9800, 0x9C00] ∧
    (after (.remapPatterns .spr 0x1000 4096 0x9000) State.reset).maps.ptMap.bg.toList =
      [0, 1024, 2048, 3072, 4096, 5120, 6144, 7168] := by decide
/-- V-CK-12 to V-CK-17. -/
theorem test_statusQuery :
    (after .statusQuery State.reset).result = .phase .forcedBlank ∧
    (after .statusQuery (at' (-1) 5 fun p => { p with mask := 0x08 })).result = .phase .evaluating ∧
    (after .statusQuery (at' 50 10 fun p => { p with mask := 0x10 })).result = .phase .rasterizing ∧
    (after .statusQuery (at' 100 300 fun p => { p with mask := 0x18 })).result = .phase .horizontalBlank ∧
    (after .statusQuery (at' 240 1 id)).result = .phase .idling ∧
    (after .statusQuery (at' 241 1 id)).result = .phase .verticalBlank := by decide
theorem test_frameBuffer :
    (after .frameBuffer { State.reset with frame := [(2580, 0x2A)] }).result = .frame [(2580, 0x2A)] := by decide
/-- V-EX-3, V-EX-8. -/
theorem test_rejected :
    (stepped (presentNext (.host 0x09 HostArgs.zero) State.reset)).trace = [.diag .invariantViolation] ∧
    (stepped (presentNext (.bus 0x04014 0 9) State.reset)).trace = [] := by decide

/-! ## Single cycles -/

/-- V-CK-6, V-CK-7: entering vertical blank, not forecast and forecast. -/
theorem test_enter_vblank :
    let s := { at' 240 341 fun p => { p with ctrl := 0x80 } with clock := ⟨0, 0, 1, false, 0⟩ }
    let t := ppuCycle (callbacks 0) 77 s
    let u := ppuCycle (callbacks 0) 77 { s with pred := ⟨[77], 0, 0⟩ }
    t.ports.vblank = true ∧ t.trace = [.hook (.scanlineStart 241), .setInterrupt .nmi 77] ∧
    t.scan = ⟨241, 1, 341, false⟩ ∧ u.trace = [.hook (.scanlineStart 241)] ∧ u.pred.nmiRegistered = [] := by decide
/-- V-CK-8, V-CK-11: the frame start, under both standards. -/
theorem test_frame_start :
    let s := at' 260 341 fun p => { p with vblank := true, sprite0Hit := true, spriteOverflow := true }
    let t := ppuCycle (callbacks 0) 77 s
    t.scan = ⟨-1, 1, 341, true⟩ ∧ t.ports.vblank = false ∧ t.ports.sprite0Hit = false ∧ t.ports.spriteOverflow = false ∧
    (ppuCycle (callbacks 0) 77 { at' 310 341 id with cfg := { Config.common with standard := .std310 } }).scan =
      ⟨-1, 1, 341, true⟩ := by decide
/-- V-CK-9, V-CK-10: the odd-frame skip needs the background, not the sprites. -/
theorem test_odd_frame_skip :
    let s (m : Byte) : State := { at' (-1) 340 fun p => { p with mask := m } with scan := ⟨-1, 340, 2, true⟩ }
    (ppuCycle (callbacks 0) 77 (s 0x08)).scan = ⟨0, 1, 341, true⟩ ∧
    (ppuCycle (callbacks 0) 77 (s 0x10)).scan = ⟨-1, 341, 1, true⟩ := by decide
/-- V-CK-18. -/
theorem test_unexpected_position :
    let t := ppuCycle (callbacks 0) 77 (at' 300 5 id)
    t.scan = ⟨300, 6, 336, false⟩ ∧ t.trace = [.diag .invariantViolation] := by decide
/-- R179, R402, D53: the end of a line at an unexpected position: line −1 after a line out of range, line 241 after 240, with no
vertical blank, no frame start and no hook. -/
theorem test_unexpected_line_end :
    let s (line : Int) (c : Nat) : State := { at' line c fun p => { p with ctrl := 0x80, sprite0Hit := true } with
      scan := ⟨line, c, 1, false⟩ }
    let t (line : Int) (c : Nat) : State := ppuCycle (callbacks 0) 77 (s line c)
    (t 300 341).scan = ⟨-1, 1, 341, false⟩ ∧ (t 300 341).ports = (s 300 341).ports ∧
    (t 240 400).scan = ⟨241, 1, 341, false⟩ ∧ (t 240 400).ports.vblank = false ∧
    (t 240 400).trace = [.diag .invariantViolation] := by decide
/-- V-CK-5, V-DM-6: a hook's nested `sync` is a diagnosed no-op, its `$4014` write asks for a re-measure. -/
theorem test_nested_calls :
    let s := { State.reset with clock := ⟨0, 0, 1, false, 0⟩ }
    (callHook (.hblankStart 3) { s with hookScript := [[.sync 9]] }).trace = [.diag .reentrantSync, .hook (.hblankStart 3)] ∧
    (callHook (.hblankStart 3) { s with hookScript := [[.bus 0x14014 2 9]] }).clock.remeasure = true ∧
    (callHook (.hblankStart 3) { s with hookScript := [[.predict 9]] }).pred.pendingHorizon = 9 := by decide
/-- R160, R185: the trigger of a hook in the last cycle makes the sync go on to the host's time. -/
theorem test_remeasure :
    let s := { at' 239 341 id with
      clock := ⟨100, 0, 0, false, 0⟩, hookScript := [[.bus 0x14014 0x02 104]], hostNows := [108] }
    let t := after (.sync 104) s
    t.clock = ⟨108, 0, 0, false, 108⟩ ∧ t.scan = ⟨240, 2, 340, false⟩ ∧ t.dma.timer = 2 ∧ t.hostNows = [] := by decide
/-- R167: the host reads `$2002` while it is told of the NMI, at the point of the step where the edge happens. -/
theorem test_nested_call_of_a_callback :
    let s := { at' 240 341 fun p => { p with ctrl := 0x80 } with
      clock := ⟨0, 0, 1, false, 0⟩, noticeScript := [[.bus 0x02002 0 0]] }
    let t := ppuCycle (callbacks 1) 77 s
    t.ports.vblank = false ∧ t.result = .byte 0x80 ∧ t.noticeScript = [] ∧
    t.trace = [.hook (.scanlineStart 241), .diag .reentrantSync, .setInterrupt .nmi 77] := by decide

/-! ## The background (V-BG) -/

/-- V-BG-1 to V-BG-5. -/
theorem test_background_addresses :
    ntAddr 0x2108#15 = 0x2108 ∧ atAddr 0x2108#15 = 0x23D2 ∧ atShiftOf 0x2108#15 = 0 ∧ atAddr 0x0C63#15 = 0x2FC0 ∧
    atShiftOf 0x0C63#15 = 6 ∧ [0, 2, 4, 6].map (fun k => paletteOf ⟨0xE4, k⟩) = [0, 1, 2, 3] ∧
    ptAddr { Ports.reset with ctrl := 0x10, v := 0x2000 } 0x41 0 = 0x1412 ∧
    ptAddr { Ports.reset with ctrl := 0x10, v := 0x2000 } 0x41 8 = 0x141A := by decide
/-- V-BG-6 to V-BG-12. -/
theorem test_scroll_updates :
    coarseXInc 0x001F = 0x0400 ∧ coarseXInc 0x041F = 0x0000 ∧ yInc 0x1000 = 0x2000 ∧ yInc 0x73A0 = 0x0800 ∧
    yInc 0x73E0 = 0x0000 ∧ copyHori 0x0000 0x7FFF = 0x7BE0 ∧ copyVert 0x7BE0 0x0000 = 0x7BE0 := by decide
/-- V-BG-13 to V-BG-19. -/
theorem test_background_pixels :
    let b := { Background.reset with patLo := 0x8000, patHi := 0x8000 }
    let p (m : Byte) : Ports := { Ports.reset with mask := m }
    (bgPixelAt (p 0x0A) b 10).pix = 3 ∧ (bgPixelAt (p 0x0A) { b with fineXLine := 1 } 10).pix = 0 ∧
    tapAttr { b with fineXLine := 3, reloadCounter := 4, attrCur := ⟨1, 0⟩ } = ⟨1, 0⟩ ∧
    tapAttr { b with fineXLine := 3, reloadCounter := 5, attrNext := ⟨2, 0⟩ } = ⟨2, 0⟩ ∧
    (bgPixelAt (p 0x08) b 5).pix = 0 ∧ (bgPixelAt (p 0x08) b 8).pix = 3 ∧ (bgPixelAt (p 0x10) b 10).pix = 0 := by decide

/-! ## The sprites (V-EV, V-RN) -/

/-- V-EV-3 and V-EV-6: the half-open range, for both sprite heights. -/
theorem test_in_range :
    inRange 100 93 8 = true ∧ inRange 100 92 8 = false ∧ inRange 100 100 8 = true ∧ inRange 100 101 8 = false ∧
    inRange 100 85 16 = true ∧ inRange 100 84 16 = false := by decide
/-- V-EV-3, steps 5 and 6: the entry out of range is passed over, and the next one in range goes to the next place. -/
theorem test_copy_entry :
    let s : State := { State.reset with
      eval := ⟨.copyEntry, 0, 1, 0, 1, false, Vector.replicate 8 0⟩, oam := [(4, 92), (8, 100)], sec := [(0, 93)] }
    let u := evalStep 100 (evalStep 100 s)
    u.eval.n = 2 ∧ u.eval.m = 1 ∧ u.eval.copiedCount = 1 ∧ u.eval.secIndex.toList.take 2 = [0, 2] ∧
    u.sec = [(0, 93), (4, 100)] := by decide
/-- R336 (log entry 29): an entry left over from an earlier line fills a dead slot on line −1 and a live one on line 0. -/
theorem test_stale_entry :
    let s : State := { State.reset with
      eval := { Evaluator.reset with copiedCount := 1, secIndex := Vector.replicate 8 5 }
      fetch := ⟨239, 0, 0, 7, 0x80⟩ }
    (spriteFetchCycle (callbacks 0).hook (-1) 264 s).slots[0] = Slot.reset ∧
    (spriteFetchCycle (callbacks 0).hook 0 264 s).slots[0] = ⟨5, 0x80, 0, 0, 7, false⟩ := by decide
/-- V-EV-4, V-EV-5, steps 33 and 34: the wrong byte is read, and can set the flag. -/
theorem test_overflow_defect :
    let e : Evaluator := { Evaluator.reset with state := .overflow, n := 8, copiedCount := 8, writeLocked := true }
    let s (y t : Byte) : State := { State.reset with eval := e, oam := [(32, 0xF0), (36, y), (37, t)] }
    let u := evalStep 100 (evalStep 100 (s 100 0xF0))
    u.ports.spriteOverflow = false ∧ u.eval.n = 10 ∧ u.eval.m = 2 ∧
    (evalStep 100 (evalStep 100 (s 0xF0 100))).ports.spriteOverflow = true := by decide
/-- V-RN-10 to V-RN-15. -/
theorem test_sprite_addresses :
    let p (c : Byte) : Ports := { Ports.reset with ctrl := c }
    let f (tile attr : Byte) : SpriteFetch := ⟨100, tile, attr, 0, 0⟩
    sprAddr (p 0x08) 103 (f 0x41 0) true 0 = 0x1413 ∧ sprAddr (p 0x08) 103 (f 0x41 0) true 8 = 0x141B ∧
    sprAddr (p 0x08) 103 (f 0x41 0x80) true 0 = 0x1414 ∧ sprAddr (p 0x20) 109 (f 0x03 0) true 0 = 0x1031 ∧
    sprAddr (p 0x20) 109 (f 0x03 0x80) true 0 = 0x1026 ∧ sprAddr (p 0x08) 103 (f 0x41 0) false 0 = 0x1FF0 ∧
    sprAddr (p 0x20) 103 (f 0x41 0) false 8 = 0x1FE8 := by decide
/-- V-RN-1 (its last column), V-RN-6: the hit, the pixel shown and the slot's death. -/
theorem test_sprite0_hit :
    let slot : Slot := ⟨0, 0x80, 0, 0, 0, false⟩
    let s : State := { withPorts fun p => { p with mask := 0x1E } with
      slots := (Vector.replicate 8 Slot.reset).set 0 slot, pal := [(0x11, 0x2A)]
      bg := { Background.reset with line := [(5, ⟨1, 0⟩)] } }
    let u := composePixel 10 5 s
    u.ports.sprite0Hit = true ∧ u.frame = [(2565, 0x2A)] ∧ (u.slots.toList.map Slot.dead).all id = true ∧
    Slot.pixel ⟨3, 1, 0, 0x40, 0, false⟩ = 1 ∧ (Slot.clock ⟨3, 1, 0, 0x40, 0, false⟩).dead = true := by decide
/-- V-RN-3, V-RN-4, V-RN-8: clipping, the lock of a sprite behind the background, and greyscale. -/
theorem test_priority :
    let p (m : Byte) : Ports := { Ports.reset with mask := m }
    let v : Vector Slot 8 := ((Vector.replicate 8 Slot.reset).set 0 ⟨0, 0x80, 0, 0x20, 0, false⟩).set 1 ⟨1, 0x80, 0, 0, 0, false⟩
    columnWinner (p 0x1A) v 3 = none ∧ (columnWinner (p 0x1E) v 9).map (·.index) = some 0 ∧
    resolveIndex (columnWinner (p 0x1E) v 9) ⟨2, 1⟩ = 0x06 ∧ resolveIndex (columnWinner (p 0x1E) v 9) ⟨0, 1⟩ = 0x11 ∧
    colour { withPorts fun q => { q with mask := 0x1F } with pal := [(1, 0x16)] } 1 = 0x10 := by decide
/-- V-RN-9, V-RN-16, V-RN-17: forced blank shows the backdrop and keeps the cursor; the sprite window clears it. -/
theorem test_sprite_window :
    let s := withPorts fun p => { p with oamAddr := 0x40 }
    (composePixel 50 9 (blankCycle 50 10 { s with pal := [(0, 0x0F)] })).frame = [(12809, 0x0F)] ∧
    (blankCycle 50 257 s).ports.oamAddr = 0x40 ∧
    (spriteFetchCycle (callbacks 0).hook 50 257 s).ports.oamAddr = 0 := by decide

/-! ## Witnesses: states and operands that meet the hypotheses of the obligations, each clause at a boundary -/

/-- A legal state in the middle of line 10. -/
def resting : State := at' 10 5 id

/-- The same during a replay. -/
def replaying (line : Int) (c : Nat) (f : Ports → Ports) : State :=
  { at' line c f with clock := ⟨100, 0, 1, false, 90⟩ }

theorem resting_clockOk : ClockOk resting := by constructor <;> decide
theorem resting_scanOk : ScanOk resting := by constructor <;> decide
theorem resting_memoryOk : MemoryOk resting := by
  constructor <;> first | exact Memory.wf_nil _ | exact ⟨⟨List.Pairwise.nil, by decide⟩, by decide⟩
theorem resting_evaluatorOk : EvaluatorOk resting := by constructor <;> decide
theorem resting_pipelineOk : PipelineOk resting := by constructor <;> decide
theorem resting_forecastOk : ForecastOk resting := List.Pairwise.nil
theorem resting_unscripted : Unscripted resting := ⟨rfl, rfl, rfl⟩

theorem witness_DecodeAndEncodeAgree :
    (Instr.powerOn 0 ⟨[], [], [(31, 1)], [(255, 1)], [(61439, 1)]⟩ Maps.reset.ntMap Maps.reset.ptMap).wf = true ∧
    decode (.bus 0x13FFE 0x21 7) = .ok (.wrAddr 0x21 7) ∧ decode (.bus 0x14014 0x21 7) = .ok (.dmaTrigger 0x21 7) ∧
    decode (.host 0x02 HostArgs.zero) = .ok (.predict 0) := by decide
theorem witness_MirroredAddressesActAlike :
    (0x02002#17).extractLsb' 13 3 = 1#3 ∧ 0x02002#17 &&& 0x1E007#17 = 0x03FFA#17 &&& 0x1E007#17 := by decide
theorem witness_StepRunsThePresentedOperation :
    (presentNext (.bus 0x02002 0 7) resting).pending = .bus 0x02002 0 7 :: [] ∧
    decode (.bus 0x02002 0 7) = .ok (.rdStatus 7) ∧ (Instr.rdStatus 7).wf = true ∧ resting.pending = [] := by decide
theorem witness_RejectedRequestsDoNothing :
    (presentNext (.host 0x09 HostArgs.zero) resting).pending = .host 0x09 HostArgs.zero :: [] ∧ 0x09#8 ≤ 0x09#8 ∧
    0x09#8 ≤ 0xFF#8 ∧ (presentNext (.bus 0x04014 0 7) resting).pending = .bus 0x04014 0 7 :: [] ∧
    (0x04014#17).extractLsb' 13 3 ≠ 1#3 ∧ 0x04014#17 ≠ 0x14014#17 := by decide
theorem witness_StatusReadReturnsAndClears :
    let c := catchUp 0 (at' 241 2 fun p => { p with vblank := true })
    ¬(c.scan.scanline = 241 ∧ c.scan.cycleInLine = 1 ∧ c.ports.vblank = true) := by decide
theorem witness_StatusReadRace :
    let c := catchUp 0 (at' 241 1 fun p => { p with vblank := true, ctrl := 0x80 })
    let c' := catchUp 0 (at' 241 1 fun p => { p with vblank := true })
    (c.scan.scanline = 241 ∧ c.scan.cycleInLine = 1 ∧ c.ports.vblank = true ∧ c.ports.ctrl.getLsbD 7 = true ∧
      c.clock.syncDepth = 0) ∧
    (c'.scan.scanline = 241 ∧ c'.scan.cycleInLine = 1 ∧ c'.ports.vblank = true ∧ c'.ports.ctrl.getLsbD 7 = false) := by decide
/-- Every clause of the two PPUDATA statements: addresses on both sides of the palette's and the name tables' ends, lines
−1, 239 and 240, both settings of the increment. -/
theorem witness_PpuData :
    (0x3EFF#14 < 0x3F00#14 ∧ 0x3F00#14 ≤ 0x3F00#14 ∧ 0x1FFF#14 < 0x2000#14 ∧ 0x2000#14 ≤ 0x2000#14) ∧
    (∀ line ∈ [(-1 : Int), 239],
      let h := callHook (.addr 0x3EFF) (catchUp 0 (at' line 5 fun p => { p with v := 0x3EFF, mask := 8 }))
      h.ports.renderingEnabled = true ∧ -1 ≤ h.scan.scanline ∧ h.scan.scanline ≤ 239 ∧ h.cfg.render2007 = .glitch) ∧
    239 < (callHook (.addr 0x3F00) (catchUp 0 (at' 240 5 fun p => { p with v := 0x3F00, mask := 8 }))).scan.scanline ∧
    resting.ports.renderingEnabled = false ∧ resting.cfg.chrByteWritable 8191 = true ∧ resting.cfg.ntBankWritable 1 = true := by
  decide
theorem witness_ScrollWrites_AddrWrites :
    (catchUp 0 resting).ports.w = false ∧ (catchUp 0 (at' 10 5 fun p => { p with w := true })).ports.w = true := by decide
theorem witness_CtrlWrite :
    let c := catchUp 0 (at' 245 5 fun p => { p with vblank := true })
    let c' := catchUp 0 (at' 245 5 fun p => { p with ctrl := 0x80 })
    (c.ports.ctrl.getLsbD 7 = (0x7F#8).getLsbD 7) ∧
    (c.ports.ctrl.getLsbD 7 = false ∧ (0x80#8).getLsbD 7 = true ∧ c.ports.vblank = true) ∧
    (c'.ports.ctrl.getLsbD 7 ≠ (0x00#8).getLsbD 7 ∧ (0x00#8).getLsbD 7 = false) ∧ c.clock.syncDepth = 0 ∧
    (invalidateNmi callNotify { c with ports := { c.ports with ctrl := 0x80 } }).ports.vblank = true ∧
    (invalidateNmi callNotify { c' with ports := { c'.ports with ctrl := 0x80 } }).ports.vblank = false := by decide
theorem witness_DmaTriggerStartsTheTransfer :
    (catchUp 0 resting).clock.syncDepth = 0 ∧ (catchUp 0 (replaying 10 5 id)).clock.syncDepth > 0 ∧
    (catchUp 0 (replaying 10 5 id)).noticeScript = [] := by decide
theorem witness_MaskWrite :
    let c := catchUp 0 resting
    c.ports.mask.getLsbD 3 = (0xF7#8).getLsbD 3 ∧ c.ports.mask.getLsbD 3 ≠ (0x08#8).getLsbD 3 := by decide
theorem witness_ImproperSyncsAreDiagnosedNoOps :
    (replaying 10 5 id).clock.syncDepth > 0 ∧
    ({ resting with clock := ⟨100, 0, 0, false, 0⟩ } : State).clock.syncDepth = 0 ∧
    99 < ({ resting with clock := ⟨100, 0, 0, false, 0⟩ } : State).clock.lastSyncTimestamp := by decide
/-- One cycle, with nothing deferred, with a forecast a hook defers, and with a trigger that makes a second pass. -/
theorem witness_SyncReplaysTheElapsedCycles :
    let s : State := { at' 239 341 id with clock := ⟨100, 0, 0, false, 0⟩ }
    let ended (s : State) := replay (hostCallbacks s) 1 104 { s with clock := ⟨104, 0, 1, false, 0⟩ }
    s.clock.syncDepth = 0 ∧ s.clock.lastSyncTimestamp ≤ 104 ∧ (ended s).clock.remeasure = false ∧
    (ended s).pred.pendingHorizon = 0 ∧
    (ended { s with hookScript := [[.predict 9]] }).clock.remeasure = false ∧
    0 < (ended { s with hookScript := [[.predict 9]] }).pred.pendingHorizon ∧
    (ended { s with hookScript := [[.bus 0x14014 2 104]] }).clock.remeasure = true := by decide
theorem witness_CycleConservation :
    ClockOk resting ∧ Unscripted resting ∧ resting.dma.timer = 0 ∧ resting.clock.lastSyncTimestamp ≤ 6 ∧ 6 ≤ 10 :=
  ⟨resting_clockOk, resting_unscripted, by decide, by decide, by decide⟩
/-- A transfer from page `$1F`, whose last byte is the one below the ports, reads no port. -/
theorem witness_ReadsNoPort : ReadsNoPort { resting with dma := ⟨3, 0x1F00, 0, 0, .read⟩ } := by
  refine .inr fun k hk h => ?_
  have h1 := congrArg BitVec.toNat h
  change (BitVec.extractLsb' 13 3 (BitVec.ofNat 16 0x1F00 + BitVec.ofNat 16 k)).toNat = 1 at h1
  rw [BitVec.extractLsb'_toNat, Nat.shiftRight_eq_div_pow, BitVec.toNat_add, BitVec.toNat_ofNat, BitVec.toNat_ofNat] at h1
  omega
/-- An answer to a hook and to another callback, none left, a port read and another by `cpuRead`, and in a replay an access
that decodes, one that does not, and the two written out. -/
theorem witness_HookCallsApplyAtOnce :
    let s : State := { replaying 10 5 id with
      hookScript := [[.bus 0x02002 0 7]], noticeScript := [[.sync 7]], cpuScript := [⟨[.predict 9], 0x5A⟩] }
    resting.hookScript = [] ∧ s.hookScript = [.bus 0x02002 0 7] :: [] ∧ resting.clock.syncDepth = 0 ∧
    resting.noticeScript = [] ∧ s.clock.syncDepth > 0 ∧ s.noticeScript = [.sync 7] :: [] ∧
    decodeBus (0#1 ++ 0x0200#16) = none ∧ decodeBus (0#1 ++ 0x2002#16) = some .rdStatus ∧
    ((hostCallbacks s).cpuRead 0x0200 s).2 = 0x5A ∧ resting.cpuScript = [] ∧ decodeBus 0x04014 = none ∧
    decodeBus 0x02002 = some .rdStatus ∧ ¬(s.scan.scanline = 241 ∧ s.scan.cycleInLine = 1) ∧
    decodeBus 0x12003 = some .wrOamAddr := by decide
/-- Cycles at both ends of a visible line, of the pre-render line and of the frame; the end of a line, with the skip and
without. -/
theorem witness_CycleRunsTheUnitsInOrder :
    (∀ p ∈ [((-1 : Int), 1), (0, 257), (239, 321), (260, 341)], let s := replaying p.1 p.2 id;
      -1 ≤ s.scan.scanline ∧ s.scan.scanline ≤ s.cfg.lastLine ∧ 1 ≤ s.scan.cycleInLine ∧ s.scan.cycleInLine ≤ 341) ∧
    2 ≤ (dmaTick (callbacks 0) (replaying 250 340 id)).scan.lineCyclesLeft ∧
    (dmaTick (callbacks 0) (replaying 250 341 id)).scan.lineCyclesLeft ≤ 1 ∧
    (∀ p ∈ [((240 : Int), (241 : Int)), (241, 242), (260, -1), (-1, 0)],
      (ppuCycle (callbacks 0) 77 (replaying p.1 341 id)).scan = ⟨p.2, 1, 341, decide (p.2 = -1)⟩ ∧
      (ppuCycle (callbacks 0) 77 (replaying p.1 341 id)).trace = [.hook (.scanlineStart p.2)]) := by decide
theorem witness_OneCycleMovesTheScanPosition :
    let s (line : Int) (c : Nat) : State := { replaying line c fun p => { p with mask := 8 } with
      scan := ⟨line, c, 342 - c, true⟩ }
    (∀ c ∈ [(10, 340), (10, 341), (-1, 340), (-1, 341), (260, 341)], ScanOk (s c.1 c.2)) ∧ Unscripted (s 10 341) ∧
    (s 10 341).clock.syncDepth = 1 ∧ (s (-1) 340).scan.oddFrame = true ∧
    (s (-1) 340).ports.mask.getLsbD 3 = true ∧ (s 260 341).scan.scanline = (s 260 341).cfg.lastLine := by
  refine ⟨?_, ⟨rfl, rfl, rfl⟩, by decide, by decide, by decide, by decide⟩
  intro c hc
  simp only [List.mem_cons, List.not_mem_nil, or_false] at hc
  rcases hc with rfl | rfl | rfl | rfl | rfl <;> constructor <;> decide
theorem witness_UnexpectedPositionOnlyCounts :
    let s (line : Int) (c : Nat) : State := { resting with scan := ⟨line, c, 2, false⟩ }
    (s (-2) 5).scan.scanline < -1 ∧ (s 261 5).cfg.lastLine < (s 261 5).scan.scanline ∧ (s 10 0).scan.cycleInLine < 1 ∧
    341 < (s 10 342).scan.cycleInLine ∧ 2 ≤ (s 10 342).scan.lineCyclesLeft ∧
    ¬2 ≤ ({ s 10 342 with scan := ⟨10, 342, 1, false⟩ } : State).scan.lineCyclesLeft := by decide
theorem witness_FrameLength_FirstVBlankAfterReset :
    let s := replaying (-1) 1 id
    Unscripted s ∧ s.clock.syncDepth = 1 ∧ s.scan = ⟨-1, 1, 341, false⟩ ∧ s.ports.vblank = false ∧
    0 < (s.cfg.lastLine + 2).toNat * 341 := ⟨⟨rfl, rfl, rfl⟩, by decide, by decide, by decide, by decide⟩
theorem witness_EnteringVBlankSignalsTheNmi :
    let s := replaying 240 341 fun p => { p with ctrl := 0x80 }
    Unscripted s ∧ s.clock.syncDepth = 1 ∧ s.dma.timer = 0 ∧ s.scan = ⟨240, 341, 1, false⟩ ∧
    s.ports.ctrl.getLsbD 7 = true ∧ 77 ∉ s.pred.nmiRegistered ∧
    77 ∈ ({ s with pred := ⟨[77], 0, 0⟩ } : State).pred.nmiRegistered ∧
    (replaying 240 341 id).ports.ctrl.getLsbD 7 = false :=
  ⟨⟨rfl, rfl, rfl⟩, by decide, by decide, by decide, by decide, by decide, by decide, by decide⟩
theorem witness_PredictKeepsTheRealState :
    resting.clock.syncDepth = 0 ∧ (replaying 10 5 id).clock.syncDepth > 0 ∧ resting.ports.ctrl.getLsbD 7 = false ∧
    resting.clock.remainder ≤ resting.clock.lastSyncTimestamp ∧
    (let s := at' 240 341 fun p => { p with ctrl := 0x80 }
     forecastEdges s.cfg ((s.clock.remainder + 4) / s.cfg.clockDivider) 4 (replicaOf s) = [4]) := by decide
theorem witness_ForecastTwiceRegistersOnce :
    let s := at' 240 341 fun p => { p with ctrl := 0x80 }
    exec (.predict 4) s = .next (after (.predict 4) s) ∧ (after (.predict 4) s).pred.nmiRegistered = [4] :=
  ⟨rfl, by decide⟩
theorem witness_InvalidationReplacesTheForecast :
    let s : State := { at' 240 341 fun p => { p with ctrl := 0x80 } with pred := ⟨[9999], 0, 0⟩ }
    s.cfg.wf = true ∧ s.clock.syncDepth = 0 ∧ (invalidateNmi callNotify s).pred.nmiRegistered = [4] := by decide
theorem witness_ForecastMatchesTheRealCycles :
    let s := replaying 240 341 fun p => { p with ctrl := 0x80 }
    ScanOk s ∧ Unscripted s ∧ s.clock.syncDepth = 1 ∧ s.dma.timer = 0 ∧ s.pred.nmiRegistered = [] ∧
    forecastEdges s.cfg 1 104 (replicaOf s) = [104] :=
  ⟨by constructor <;> decide, ⟨rfl, rfl, rfl⟩, by decide, by decide, by decide, by decide⟩
theorem witness_ResetSetsTheResetValues : resting.clock.syncDepth = 0 ∧ resting.clock.lastSyncTimestamp ≤ 0 := by decide
theorem witness_PowerOnTakesTheDraw :
    Memory.wf .nt [(1023, 1)] ∧ Memory.wf .pal [(1, 0x3F)] ∧ Memory.wf .oam [(2, 0xE3), (255, 1)] ∧
    Memory.wf .frame [(61439, 1)] ∧ Memory.wf .chr [(8191, 1)] ∧ resting.cfg.chrByteWritable 8191 = true ∧
    resting.cfg.chrByteWritable 8192 = false := by decide
theorem witness_NametableRemap :
    (∀ b ∈ (#v[1, 0, 1, 0] : NtMap).toList, b < resting.cfg.ntWritable.length) ∧
    (∃ b ∈ (#v[0, 1, 0, 2] : NtMap).toList, resting.cfg.ntWritable.length ≤ b) := by decide
theorem witness_PatternRemap :
    (8192 ∈ [1024, 2048, 4096, 8192] ∧ 0 % 8192 = 0 ∧ 0 + 8192 ≤ 0x2000) ∧
    (1024 ∈ [1024, 2048, 4096, 8192] ∧ 0x1C00 % 1024 = 0 ∧ 0x1C00 + 1024 ≤ 0x2000) ∧
    ¬(2048 ∈ [1024, 2048, 4096, 8192] ∧ 0x2000 % 2048 = 0 ∧ 0x2000 + 2048 ≤ 0x2000) := by decide
theorem witness_QueriesAnswerWithoutSyncing :
    let s (line : Int) (c : Nat) := at' line c fun p => { p with mask := 0x10 }
    241 ≤ (s 241 1).scan.scanline ∧ (s 240 1).scan.scanline = 240 ∧ (s (-1) 1).scan.scanline = -1 ∧
    (0 ≤ (s 0 1).scan.scanline ∧ 1 ≤ (s 0 1).scan.cycleInLine ∧ (s 239 256).scan.scanline ≤ 239 ∧
      (s 239 256).scan.cycleInLine ≤ 256 ∧ 257 ≤ (s 239 257).scan.cycleInLine) ∧
    (s 0 1).ports.mask.getLsbD 4 = true ∧ resting.ports.mask.getLsbD 3 = false ∧ resting.ports.mask.getLsbD 4 = false := by
  decide
theorem witness_VideoAddressMirrors :
    0x1FFF#14 < 0x2000#14 ∧ 0x2000#14 ≤ 0x2000#14 ∧ 0x3000#14 ≤ 0x3000#14 ∧ 0x3EFF#14 < 0x3F00#14 ∧ 0x3F00#14 ≤ 0x3F00#14 ∧ 0x3FDF#14 < 0x3FE0#14 := by decide
theorem witness_BackgroundCycles :
    (∀ c ∈ [1, 256, 257, 321, 341], 1 ≤ c ∧ c ≤ 341) ∧ (∀ line ∈ [(-1 : Int), 0, 239], -1 ≤ line ∧ line ≤ 239) ∧
    (0 ≤ (0 : Int) ∧ 2 ≤ 257 ∧ 9 ≤ 257 ∧ 257 % 8 = 1) ∧ ¬(8 % 8 = 1) ∧ 337 % 8 = 1 := by decide
theorem witness_ScrollRegisterUpdates :
    coarseX 0x001E ≠ 31#5 ∧ coarseX 0x001F = 31#5 ∧ fineY 0x6FFF ≠ 7#3 ∧
    (fineY 0x73C0 = 7#3 ∧ coarseY 0x73C0 ≠ 29#5 ∧ coarseY 0x73C0 ≠ 31#5) ∧ coarseY 0x73A0 = 29#5 ∧
    coarseY 0x73E0 = 31#5 := by decide
/-- The leftmost column shown, a clipped one, and one of colour 0. -/
theorem witness_BackgroundPixelOfAColumn :
    let s := withPorts fun p => { p with mask := 0x08 }
    let b := { Background.reset with patHi := 0x8000 }
    b.patHi.getLsbD (15 - b.fineXLine.toNat) = true ∧ s.ports.mask.getLsbD 3 = true ∧ s.ports.mask.getLsbD 1 = false ∧
    s.bg.patHi.getLsbD 15 = false ∧ s.bg.patLo.getLsbD 15 = false := by decide
theorem witness_FetchSlotsLatchTheirBytes :
    [1, 2, 4, 6, 8, 336, 340, 341].map (fun c => (c - 1) % 8) = [0, 1, 3, 5, 7, 7, 3, 4] := by decide
theorem witness_NineSpritesOverflow :
    let s : State := { State.reset with oam := (List.range 9).map fun k => (4 * k, 100) }
    ∀ k : Nat, k < 9 →
      inRange 107 (readCell .oam s.oam (4 * k)) (if s.ports.ctrl.getLsbD 5 then 16 else 8) = true := by decide
/-- A step of `CopyEntry` at each byte of the last entry that fits, at a Y byte in range and one out of it. -/
theorem witness_CopyEntryStep :
    let s (m : BitVec 2) (y : Byte) : State := { State.reset with
      eval := ⟨.copyEntry, 0, 63, m, 7, false, Vector.replicate 8 0⟩, oam := [(252, y)] }
    (∀ m ∈ [0#2, 1#2, 2#2, 3#2], (s m 93).eval.state = .copyEntry ∧ (s m 93).eval.copiedCount < 8) ∧
    (0 ≤ (100 : Int) - (readCell .oam (s 0 93).oam 252).toNat ∧ (100 : Int) - (readCell .oam (s 0 93).oam 252).toNat < 8) ∧
    ¬ (100 : Int) - (readCell .oam (s 0 92).oam 252).toNat < 8 := by decide
theorem witness_OverflowStepWritesNoSprite :
    let s (y : Byte) : State := { State.reset with
      eval := { Evaluator.reset with state := .overflow, n := 8 }, oam := [(32, y)] }
    (s 93).eval.state ≠ .copyEntry ∧ 0 ≤ (100 : Int) - (readCell .oam (s 93).oam 32).toNat ∧
    (100 : Int) - (readCell .oam (s 93).oam 32).toNat < 8 ∧ ¬ (100 : Int) - (readCell .oam (s 92).oam 32).toNat < 8 := by decide
/-- The cycles of each clause of the evaluation, and of each of a sprite's eight cycles at both ends of the window. -/
theorem witness_SpriteCycles :
    (∀ c ∈ [2, 64], 2 ≤ c ∧ c ≤ 64 ∧ c % 2 = 0) ∧ (∀ c ∈ [66, 256], 66 ≤ c ∧ c ≤ 256 ∧ c % 2 = 0) ∧
    [258, 262, 264, 314, 318, 320, 319].map (fun c => ((c - 257) / 8, (c - 257) % 8)) =
      [(0, 1), (0, 5), (0, 7), (7, 1), (7, 5), (7, 7), (7, 6)] := by decide
theorem witness_ScanStates :
    let s (state : EvalState) (sub : Nat) : State := { State.reset with eval := { Evaluator.reset with state, subState := sub } }
    (∀ k ∈ [0, 1, 2, 3], (s .scan k).eval.state = .scan ∧ (s .scan k).eval.subState = k) ∧
    (s .done 0).eval.state ≠ .copyEntry := by decide
theorem witness_SpriteWindow : ∀ (h : HookEvent) (t : State), (emit (.hook h) t).ports.oamAddr = t.ports.oamAddr :=
  fun _ _ => rfl
theorem witness_SpritePatternAddress :
    let f : SpriteFetch := ⟨100, 0x41, 0x80, 0, 0⟩
    (0 ≤ (107 : Int) - f.y.toNat ∧ ((107 : Int) - f.y.toNat).toNat < 8) ∧
    (0 ≤ (115 : Int) - f.y.toNat ∧ ((115 : Int) - f.y.toNat).toNat < 16) ∧ Ports.reset.ctrl.getLsbD 5 = false ∧
    ({ Ports.reset with ctrl := 0x20 } : Ports).ctrl.getLsbD 5 = true := by decide
/-- Sprites shown in column 8 and, unclipped, in column 0; no winner, and a winner behind the background in slot 1. -/
theorem witness_ComposedPixel :
    let m (b : Byte) : State := withPorts fun p => { p with mask := b }
    let slot : Slot := ⟨1, 0x80, 0, 0x20, 0, false⟩
    (m 0x18).ports.mask.getLsbD 4 = true ∧ (m 0x1C).ports.mask.getLsbD 2 = true ∧
    (∀ s ∈ (m 0x18).slots.toList, s.pixel = 0#2) ∧
    (((Vector.replicate 8 Slot.reset).set 1 slot).toList = [Slot.reset] ++ slot :: List.replicate 6 Slot.reset ∧
      (∀ b ∈ [Slot.reset], b.pixel = 0#2) ∧ slot.pixel ≠ 0#2 ∧ slot.attributeLatch.getLsbD 5 = true) := by decide
theorem witness_SuppressedSpritesAndForcedBlank :
    let m (b : Byte) : State := withPorts fun p => { p with mask := b }
    (m 0x08).ports.mask.getLsbD 4 = false ∧ (m 0x18).ports.mask.getLsbD 2 = false ∧
    (m 0x08).ports.renderingEnabled = true ∧ (m 0x00).ports.renderingEnabled = false := by decide
/-- R331: a blank cycle of a visible line, of line −1, cycle 257 and a later one. -/
theorem test_blank_cycle :
    let s : State := { State.reset with
      bg := { Background.reset with line := [(255, ⟨1, 2⟩)] }, slots := Vector.replicate 8 { Slot.reset with dead := false } }
    blankCycle 239 256 s = { s with bg := Background.reset } ∧ blankCycle (-1) 256 s = s ∧
    blankCycle (-1) 257 s = { s with slots := Vector.replicate 8 Slot.reset } ∧ blankCycle 0 258 s = s := by decide
theorem witness_SlotClock :
    Slot.reset.dead = true ∧ (⟨0, 1, 0, 0, 1, false⟩ : Slot).xCounter ≠ 0#8 ∧
    (⟨0, 1, 0, 0x40, 0, false⟩ : Slot).attributeLatch.getLsbD 6 = true ∧
    (⟨0, 1, 0, 0xBF, 0, false⟩ : Slot).attributeLatch.getLsbD 6 = false := by decide
theorem witness_DmaCopiesThePage :
    let bytes : List Byte := List.replicate 256 0xFF
    let s : State := { replaying 10 5 id with
      cpuScript := bytes.map (fun b => ⟨[], b⟩), dma := ⟨3, 0x4000, 0, 0, .read⟩ }
    bytes.length = 256 ∧ s.hookScript = [] ∧ s.noticeScript = [] ∧ s.cpuScript = bytes.map (fun b => ⟨[], b⟩) ∧
    s.clock.syncDepth = 1 ∧ s.ports.mask = 0#8 ∧ ScanOk s ∧ s.dma.timer = 3 ∧ s.dma.phase = .read ∧ s.dma.writeAddress = 0#9 ∧
    s.dma.readAddress.extractLsb' 0 8 = 0#8 ∧ s.dma.readAddress.extractLsb' 13 3 ≠ 1#3 ∧ bytes[255]? = some 0xFF#8 :=
  ⟨List.length_replicate, rfl, rfl, rfl, by decide, by decide, by constructor <;> decide, by decide, by decide, by decide,
    by decide, by decide, List.getElem?_replicate_of_lt (by decide)⟩
/-- The invariants hold of a state a step can be taken from. -/
theorem witness_StepKeeps :
    MemoryOk resting ∧ ClockOk resting ∧ ScanOk resting ∧ EvaluatorOk resting ∧ PipelineOk resting ∧ ForecastOk resting ∧
    step resting = .next resting ∧ Unscripted resting ∧ exec (.sync 0) resting = .next (after (.sync 0) resting) :=
  ⟨resting_memoryOk, resting_clockOk, resting_scanOk, resting_evaluatorOk, resting_pipelineOk, resting_forecastOk, rfl,
    resting_unscripted, rfl⟩

end Sys2Proof.Tests
end

section
/-! PROOF. No step changes the configuration, and without scripted callbacks only a power-on and the two remaps change the
maps (O59). The configuration is a field of `Rest`. For the maps, `KeepsMaps` is shown of every operation from the callbacks
up to `sync`: with no answer left in the script, no callback calls back into the core (R167), so no remap can be made. -/

namespace Sys2Proof.Machine

/-! ## What an operation and a step can do -/

/-- The state an operation leaves, case by case: the seventeen bus operations are one case, `busEffect` after the access's
catch-up (R166). -/
inductive Executes : Instr → State → State → Prop
  | bus (op : BusOp) (d : Byte) (now : Nat) (s : State) :
    Executes (op.instr d now) s (busEffect callHook callNotify op d (catchUp now s))
  | sync (now : Nat) (s : State) : Executes (.sync now) s (noResult (catchUp now s))
  | predict (horizon : Nat) (s : State) : Executes (.predict horizon) s (noResult (predict horizon s))
  | reset (now : Nat) (s : State) : Executes (.reset now) s (noResult (resetCore now s))
  | powerOn (now : Nat) (draw : PowerOnMemory) (ntMap : NtMap) (ptMap : PtMap) (s : State) :
    Executes (.powerOn now draw ntMap ptMap) s (noResult (powerOnCore now draw ntMap ptMap s))
  | remapNametables (map : NtMap) (s : State) : Executes (.remapNametables map) s (noResult (remapNametables map s))
  | remapPatterns (view : RemapView) (start pageSize source : Nat) (s : State) :
    Executes (.remapPatterns view start pageSize source) s (noResult (remapPatterns view start pageSize source s))
  | statusQuery (s : State) : Executes .statusQuery s { s with result := .phase (phaseOf s) }
  | frameBuffer (s : State) : Executes .frameBuffer s { s with result := .frame s.frame }

/-- The dispatch, inverted: the only place where `exec` is opened. -/
theorem executes_of_exec {i : Instr} {s u : State} (h : exec i s = .next u) : Executes i s u := by
  cases i <;> obtain rfl := Host.Outcome.next.inj h
  case rdCtrl now => exact .bus .rdCtrl 0 now s
  case rdMask now => exact .bus .rdMask 0 now s
  case rdStatus now => exact .bus .rdStatus 0 now s
  case rdOamAddr now => exact .bus .rdOamAddr 0 now s
  case rdOamData now => exact .bus .rdOamData 0 now s
  case rdScroll now => exact .bus .rdScroll 0 now s
  case rdAddr now => exact .bus .rdAddr 0 now s
  case rdData now => exact .bus .rdData 0 now s
  case wrCtrl d now => exact .bus .wrCtrl d now s
  case wrMask d now => exact .bus .wrMask d now s
  case wrStatus d now => exact .bus .wrStatus d now s
  case wrOamAddr d now => exact .bus .wrOamAddr d now s
  case wrOamData d now => exact .bus .wrOamData d now s
  case wrScroll d now => exact .bus .wrScroll d now s
  case wrAddr d now => exact .bus .wrAddr d now s
  case wrData d now => exact .bus .wrData d now s
  case dmaTrigger d now => exact .bus .dmaTrigger d now s
  case sync now => exact .sync now s
  case predict horizon => exact .predict horizon s
  case reset now => exact .reset now s
  case powerOn now draw ntMap ptMap => exact .powerOn now draw ntMap ptMap s
  case remapNametables map => exact .remapNametables map s
  case remapPatterns view start pageSize source => exact .remapPatterns view start pageSize source s
  case statusQuery => exact .statusQuery s
  case frameBuffer => exact .frameBuffer s

/-- A step does nothing, runs the oldest transaction, or rejects it. -/
theorem step_cases {s u : State} (h : step s = .next u) :
    u = s ∨ (∃ i, exec i (popPending s) = .next u) ∨ ∃ e, u = rejectRequest e (popPending s) := by
  unfold step at h
  split at h
  · exact .inl (Host.Outcome.next.inj h).symm
  · split at h
    · exact .inr (.inl ⟨_, h⟩)
    · exact .inr (.inr ⟨_, (Host.Outcome.next.inj h).symm⟩)

/-! ## The configuration -/

theorem Rest.remapNametables (map : NtMap) (s : State) : Rest s (Machine.remapNametables map s) :=
  Rest.hookCall 0 (Rest.hook 0) (.remapNametables map) s

theorem Rest.remapPatterns (view : RemapView) (start pageSize source : Nat) (s : State) :
    Rest s (Machine.remapPatterns view start pageSize source s) :=
  Rest.hookCall 0 (Rest.hook 0) (.remapPatterns view start pageSize source) s

/-- Every operation but a power-on is one that `Rest` describes. -/
theorem rest_of_exec {i : Instr} {s u : State} (h : exec i s = .next u)
    (hp : ∀ now draw nt pt, i ≠ .powerOn now draw nt pt) : Rest s u := by
  cases executes_of_exec h with
  | bus op d now => exact (Rest.catchUp now s).trans (Rest.busEffect Rest.callNotify Rest.callHook op d _)
  | sync now => exact (Rest.catchUp now s).trans (Rest.noResult _)
  | predict horizon => exact (Rest.predict horizon s).trans (Rest.noResult _)
  | reset now => exact (Rest.resetCore now s).trans (Rest.noResult _)
  | powerOn now draw nt pt => exact absurd rfl (hp now draw nt pt)
  | remapNametables map => exact (Rest.remapNametables map s).trans (Rest.noResult _)
  | remapPatterns view start pageSize source =>
    exact (Rest.remapPatterns view start pageSize source s).trans (Rest.noResult _)
  | statusQuery => exact Rest.withResult s _
  | frameBuffer => exact Rest.withResult s _

theorem exec_cfg {i : Instr} {s u : State} (h : exec i s = .next u) : u.cfg = s.cfg := by
  by_cases hp : ∃ now draw nt pt, i = .powerOn now draw nt pt
  · obtain ⟨now, draw, nt, pt, rfl⟩ := hp
    obtain rfl := Host.Outcome.next.inj h
    rfl
  · exact (rest_of_exec h fun now draw nt pt hi => hp ⟨now, draw, nt, pt, hi⟩).kept.cfg

theorem rejectRequest_cfg (e : DecodeError) (s : State) : (rejectRequest e s).cfg = s.cfg := by
  cases e <;> rfl

theorem step_cfg {s u : State} (h : step s = .next u) : u.cfg = s.cfg := by
  obtain rfl | ⟨i, hi⟩ | ⟨e, rfl⟩ := step_cases h
  · rfl
  · exact exec_cfg (s := popPending s) hi
  · exact rejectRequest_cfg e (popPending s)

/-! ## The maps -/

/-- With no answer of the host left at `s`, none appears and the maps stand. -/
def KeepsMaps (s t : State) : Prop := Unscripted s → Unscripted t ∧ t.maps = s.maps

namespace KeepsMaps

theorem refl (s : State) : KeepsMaps s s := fun h => ⟨h, rfl⟩

theorem trans {s t u : State} (h : KeepsMaps s t) (k : KeepsMaps t u) : KeepsMaps s u := fun hs =>
  have ⟨ht, hmaps⟩ := h hs
  have ⟨hu, kmaps⟩ := k ht
  ⟨hu, kmaps.trans hmaps⟩

/-- A change that leaves the script and the maps alone. -/
theorem of_frame {s t : State} (hooks : t.hookScript = s.hookScript) (notices : t.noticeScript = s.noticeScript)
    (reads : t.cpuScript = s.cpuScript) (maps : t.maps = s.maps) : KeepsMaps s t := fun h => by
  unfold Unscripted
  rw [hooks, notices, reads]
  exact ⟨h, maps⟩

theorem withPorts (s : State) (p : Ports) : KeepsMaps s { s with ports := p } := of_frame rfl rfl rfl rfl

theorem withClock (s : State) (c : Clock) : KeepsMaps s { s with clock := c } := of_frame rfl rfl rfl rfl

/-- A part that is not run. -/
theorem ite {s t : State} {p : Prop} [Decidable p] (h : KeepsMaps s t) : KeepsMaps s (if p then t else s) := by
  split
  · exact h
  · exact refl s

theorem predict (h : Nat) (s : State) : KeepsMaps s (Machine.predict h s) := by
  rw [predict_frame]
  exact of_frame rfl rfl rfl rfl

theorem vWrite (a : PpuAddr) (d : Byte) (s : State) : KeepsMaps s (Machine.vWrite a d s) := by
  rw [vWrite_frame]
  exact of_frame rfl rfl rfl rfl

theorem incrementV (s : State) : KeepsMaps s (Machine.incrementV s) := by
  rw [incrementV_frame]
  exact of_frame rfl rfl rfl rfl

theorem wrScroll (d : Byte) (s : State) : KeepsMaps s (Machine.wrScroll d s) := by
  unfold Machine.wrScroll
  dsimp only
  split <;> exact of_frame rfl rfl rfl rfl

theorem wrAddr (d : Byte) (s : State) : KeepsMaps s (Machine.wrAddr d s) := by
  unfold Machine.wrAddr
  dsimp only
  split <;> exact of_frame rfl rfl rfl rfl

theorem resetCore (now : Nat) (s : State) : KeepsMaps s (Machine.resetCore now s) := by
  unfold Machine.resetCore
  split
  · exact of_frame rfl rfl rfl rfl
  · split <;> exact of_frame rfl rfl rfl rfl

/-! ### The register effects -/

section notify

variable {notify : Notify} (hn : ∀ e s, KeepsMaps s (notify e s))
include hn

theorem invalidateNmi (s : State) : KeepsMaps s (Machine.invalidateNmi notify s) := by
  rw [invalidateNmi_frame]
  exact (hn _ s).trans (of_frame rfl rfl rfl rfl)

theorem raceRead (s : State) : KeepsMaps s (Machine.raceRead notify s) := by
  have h : KeepsMaps s (unregisterNmi (cycleClock s) (notify (.clearInterrupt .nmi) s)) :=
    (hn _ s).trans (of_frame rfl rfl rfl rfl)
  exact ite (h.trans (invalidateNmi hn _))

theorem rdStatus (s : State) : KeepsMaps s (Machine.rdStatus notify s) := by
  have h : KeepsMaps s (if atRace s then Machine.raceRead notify s else s) := ite (raceRead hn s)
  exact h.trans (of_frame rfl rfl rfl rfl)

theorem wrCtrl (d : Byte) (s : State) : KeepsMaps s (Machine.wrCtrl notify d s) := by
  unfold Machine.wrCtrl
  extract_lets s1 oldE p s2 s3 s4
  have h2 : KeepsMaps s s2 := of_frame rfl rfl rfl rfl
  have h3 : KeepsMaps s2 s3 := ite (invalidateNmi hn s2)
  have h4 : KeepsMaps s3 s4 := ite (hn _ s3)
  exact ((h2.trans h3).trans h4).trans (of_frame rfl rfl rfl rfl)

theorem wrMask (d : Byte) (s : State) : KeepsMaps s (Machine.wrMask notify d s) := by
  unfold Machine.wrMask
  extract_lets s1 oldBg p s2
  have h2 : KeepsMaps s s2 := of_frame rfl rfl rfl rfl
  exact (h2.trans (ite (invalidateNmi hn s2))).trans (of_frame rfl rfl rfl rfl)

theorem dmaTrigger (d : Byte) (s : State) : KeepsMaps s (Machine.dmaTrigger notify d s) := by
  unfold Machine.dmaTrigger
  extract_lets dm s1 s2
  have h1 : KeepsMaps s s1 := of_frame rfl rfl rfl rfl
  have h2 : KeepsMaps s1 s2 := hn _ s1
  refine (h1.trans h2).trans ?_
  split <;> exact of_frame rfl rfl rfl rfl

variable {hook : Hook} (hh : ∀ e s, KeepsMaps s (hook e s))
include hh

theorem busEffect (op : BusOp) (d : Byte) (s : State) : KeepsMaps s (Machine.busEffect hook notify op d s) := by
  cases op <;> simp only [Machine.busEffect]
  case rdStatus => exact rdStatus hn s
  case rdData =>
    unfold rdData
    exact (((hh _ s).trans (withPorts _ _)).trans (incrementV _)).trans (of_frame rfl rfl rfl rfl)
  case wrCtrl => exact wrCtrl hn d s
  case wrMask => exact wrMask hn d s
  case wrScroll => exact wrScroll d s
  case wrAddr => exact wrAddr d s
  case wrData =>
    have h1 : KeepsMaps s (setLastWritten d s) := of_frame rfl rfl rfl rfl
    unfold wrData
    exact (((h1.trans (hh _ _)).trans (vWrite _ _ _)).trans (incrementV _)).trans (of_frame rfl rfl rfl rfl)
  case dmaTrigger => exact dmaTrigger hn d s
  all_goals exact of_frame rfl rfl rfl rfl

theorem nestedPortRead (a : CpuAddr) (s : State) : KeepsMaps s (Machine.nestedPortRead hook notify a s) := by
  have h1 : KeepsMaps s (diag .reentrantSync s) := of_frame rfl rfl rfl rfl
  unfold Machine.nestedPortRead
  refine ite ?_
  split
  · exact h1.trans (busEffect hn hh _ 0 _)
  · exact refl s

end notify

end KeepsMaps

/-! ### The callbacks -/

/-- Callbacks that keep the maps while the host has no answer left. -/
structure Callbacks.KeepMaps (cb : Callbacks) : Prop where
  hook    : ∀ e s, KeepsMaps s (cb.hook e s)
  cpuRead : ∀ a s, KeepsMaps s (cb.cpuRead a s).1
  notify  : ∀ e s, KeepsMaps s (cb.notify e s)

theorem callbacks_hook_keepsMaps (n : Nat) (e : HookEvent) (s : State) : KeepsMaps s ((callbacks n).hook e s) :=
  fun hs => by
    rw [callbacks_hook_unscripted n e hs.1]
    exact ⟨hs, rfl⟩

theorem callbacks_notify_keepsMaps (n : Nat) (e : Event) (s : State) : KeepsMaps s ((callbacks n).notify e s) :=
  fun hs => by
    rw [callbacks_notify_unscripted n e hs.2.1]
    exact ⟨hs, rfl⟩

/-- With no answer left after the nested port read `t`, `cpuRead` draws a free byte and does nothing else (R366). -/
theorem callbacks_cpuRead_unscripted (n : Nat) (a : CpuAddr) {s t : State}
    (ht : nestedPortRead (callbacks n).hook (callbacks n).notify a (emit (.cpuRead a) s) = t) (h : t.cpuScript = []) :
    ((callbacks n).cpuRead a s).1 = { t with drawCount := t.drawCount + 1 } := by
  cases n <;> simp only [callbacks, callbacksWith, cpuReadWith] at ht ⊢ <;> simp only [ht, h]

theorem callbacks_cpuRead_keepsMaps (n : Nat) (a : CpuAddr) (s : State) :
    KeepsMaps s ((callbacks n).cpuRead a s).1 := by
  have h1 : KeepsMaps s (emit (.cpuRead a) s) := .of_frame rfl rfl rfl rfl
  have h2 := h1.trans
    (KeepsMaps.nestedPortRead (callbacks_notify_keepsMaps n) (callbacks_hook_keepsMaps n) a _)
  refine h2.trans fun ht => ?_
  rw [callbacks_cpuRead_unscripted n a rfl ht.2.2]
  exact ⟨ht, rfl⟩

theorem callbacks_keepMaps (n : Nat) : (callbacks n).KeepMaps :=
  ⟨callbacks_hook_keepsMaps n, callbacks_cpuRead_keepsMaps n, callbacks_notify_keepsMaps n⟩

/-! ### One cycle -/

namespace KeepsMaps

section hooks

variable {hook : Hook} (hh : ∀ e s, KeepsMaps s (hook e s))
include hh

theorem fetchSlot (c : Nat) (s : State) : KeepsMaps s (Machine.fetchSlot hook c s) := by
  have h (a : PpuAddr) : KeepsMaps s (afterFetch hook a s) := hh _ s
  unfold Machine.fetchSlot
  split
  · exact (h _).trans (of_frame rfl rfl rfl rfl)
  · split <;> exact (h _).trans (of_frame rfl rfl rfl rfl)
  · exact (h _).trans (of_frame rfl rfl rfl rfl)
  · exact (h _).trans (of_frame rfl rfl rfl rfl)
  · exact refl s

theorem bgCycle (line : Int) (c : Nat) (s : State) : KeepsMaps s (Machine.bgCycle hook line c s) := by
  unfold Machine.bgCycle
  extract_lets vis b s1 s2 s3 s4 s5 s6 s7
  have h1 : KeepsMaps s s1 := ite (of_frame rfl rfl rfl rfl)
  have h2 : KeepsMaps s1 s2 := ite (of_frame rfl rfl rfl rfl)
  have h3 : KeepsMaps s2 s3 := ite (of_frame rfl rfl rfl rfl)
  have h4 : KeepsMaps s3 s4 := ite (fetchSlot hh c s3)
  have h5 : KeepsMaps s4 s5 := ite (of_frame rfl rfl rfl rfl)
  have h6 : KeepsMaps s5 s6 := ite (of_frame rfl rfl rfl rfl)
  have h7 : KeepsMaps s6 s7 := ite (of_frame rfl rfl rfl rfl)
  exact ((((((h1.trans h2).trans h3).trans h4).trans h5).trans h6).trans h7).trans (ite (of_frame rfl rfl rfl rfl))

omit hh in
theorem evalStep (line : Int) (s : State) : KeepsMaps s (Machine.evalStep line s) := by
  unfold Machine.evalStep
  split
  · unfold copyEntryStep
    split
    · dsimp only
      split <;> exact of_frame rfl rfl rfl rfl
    · exact of_frame rfl rfl rfl rfl
  · unfold overflowStep
    split <;> exact of_frame rfl rfl rfl rfl
  · exact of_frame rfl rfl rfl rfl
  · exact refl s

omit hh in
theorem spriteEvalCycle (line : Int) (c : Nat) (s : State) : KeepsMaps s (Machine.spriteEvalCycle line c s) := by
  unfold Machine.spriteEvalCycle
  split
  · exact of_frame rfl rfl rfl rfl
  · split
    · exact of_frame rfl rfl rfl rfl
    · exact ite (evalStep line s)

theorem spriteFetchCycle (line : Int) (c : Nat) (s : State) :
    KeepsMaps s (Machine.spriteFetchCycle hook line c s) := by
  unfold Machine.spriteFetchCycle
  refine ite ?_
  extract_lets p s1 i s2
  have h1 : KeepsMaps s s1 := of_frame rfl rfl rfl rfl
  have h2 : KeepsMaps s s2 := h1.trans (ite (of_frame rfl rfl rfl rfl))
  refine h2.trans ?_
  split
  · exact of_frame rfl rfl rfl rfl
  · exact (hh _ s2).trans (of_frame rfl rfl rfl rfl)
  · exact (hh _ s2).trans (of_frame rfl rfl rfl rfl)
  · exact refl s2

omit hh in
theorem blankCycle (line : Int) (c : Nat) (s : State) : KeepsMaps s (Machine.blankCycle line c s) := by
  unfold Machine.blankCycle
  extract_lets s1
  have h1 : KeepsMaps s s1 := ite (of_frame rfl rfl rfl rfl)
  exact h1.trans (ite (of_frame rfl rfl rfl rfl))

theorem renderCycle (line : Int) (c : Nat) (s : State) : KeepsMaps s (Machine.renderCycle hook line c s) := by
  unfold Machine.renderCycle
  extract_lets s1 s2 s3
  have h1 : KeepsMaps s s1 := ite (hh _ s)
  have h2 : KeepsMaps s1 s2 := ite (hh _ s1)
  have h3 : KeepsMaps s2 s3 := by
    unfold s3
    split
    · exact ((bgCycle hh line c s2).trans (spriteEvalCycle line c _)).trans (spriteFetchCycle hh line c _)
    · exact blankCycle line c s2
  exact ((h1.trans h2).trans h3).trans (ite (of_frame rfl rfl rfl rfl))

end hooks

section callbacks

variable {cb : Callbacks} (hcb : cb.KeepMaps)
include hcb

theorem dmaTick (s : State) : KeepsMaps s (Machine.dmaTick cb s) := by
  unfold Machine.dmaTick
  split
  · exact refl s
  · extract_lets dma s1
    have h1 : KeepsMaps s s1 := of_frame rfl rfl rfl rfl
    refine h1.trans ?_
    split
    · exact refl s1
    · split
      · exact (hcb.cpuRead _ s1).trans (of_frame rfl rfl rfl rfl)
      · unfold dmaWritePhase
        dsimp only
        split <;> exact of_frame rfl rfl rfl rfl

omit hcb in
theorem enterVBlank {notify : Notify} (hn : ∀ e s, KeepsMaps s (notify e s)) (ts : Nat) (s : State) :
    KeepsMaps s (Machine.enterVBlank notify ts s) := by
  unfold Machine.enterVBlank
  extract_lets s1
  have h1 : KeepsMaps s s1 := of_frame rfl rfl rfl rfl
  refine h1.trans (ite ?_)
  obtain ⟨-, h⟩ | ⟨-, h⟩ := realNmiEdge_cases notify ts s1 <;> rw [h]
  · exact of_frame rfl rfl rfl rfl
  · exact hn _ s1

theorem endOfScanline (line : Int) (ts : Nat) (s : State) : KeepsMaps s (Machine.endOfScanline cb line ts s) := by
  unfold Machine.endOfScanline
  extract_lets next sc s1 s2 s3 s4
  have h1 : KeepsMaps s s1 := of_frame rfl rfl rfl rfl
  have h2 : KeepsMaps s1 s2 := ite (enterVBlank hcb.notify ts s1)
  have h3 : KeepsMaps s2 s3 := ite (of_frame rfl rfl rfl rfl)
  have h4 : KeepsMaps s3 s4 := hcb.hook _ s3
  exact (((h1.trans h2).trans h3).trans h4).trans (of_frame rfl rfl rfl rfl)

theorem countCycle (line : Int) (ts : Nat) (s : State) : KeepsMaps s (Machine.countCycle cb line ts s) := by
  have h1 : KeepsMaps s (countDown s) := of_frame rfl rfl rfl rfl
  exact h1.trans (ite (endOfScanline hcb line ts _))

theorem ppuCycle (ts : Nat) (s : State) : KeepsMaps s (Machine.ppuCycle cb ts s) := by
  unfold Machine.ppuCycle
  extract_lets cl s0 line c s1 s2
  have h0 : KeepsMaps s s0 := of_frame rfl rfl rfl rfl
  refine h0.trans ?_
  split
  · have h1 : KeepsMaps s0 s1 := dmaTick hcb s0
    have h2 : KeepsMaps s1 s2 := ite (renderCycle hcb.hook line c s1)
    have h3 : KeepsMaps s2 (oddFrameSkip line c s2) := ite (of_frame rfl rfl rfl rfl)
    exact ((h1.trans h2).trans h3).trans (countCycle hcb line ts _)
  · rw [countOnly_eq]
    exact of_frame rfl rfl rfl rfl

theorem replay (n ts : Nat) (s : State) : KeepsMaps s (Machine.replay cb n ts s) := by
  induction n generalizing ts s with
  | zero => exact refl s
  | succ n ih => exact (ppuCycle hcb ts s).trans (ih _ _)

/-! ### Synchronization -/

theorem syncPass (now : Nat) (s : State) : KeepsMaps s (Machine.syncPass cb now s) := by
  exact (withClock s _).trans (replay hcb _ _ _)

omit hcb in
theorem hostNow (s : State) : KeepsMaps s (Machine.hostNow s).1 := by
  unfold Machine.hostNow
  split <;> exact of_frame rfl rfl rfl rfl

theorem syncPasses (extra now : Nat) (s : State) : KeepsMaps s (Machine.syncPasses cb extra now s) := by
  have hresume (t : State) : KeepsMaps t (Machine.hostNow { t with clock := { t.clock with remeasure := false } }).1 :=
    (withClock t _).trans (hostNow _)
  induction extra generalizing now s with
  | zero =>
    unfold Machine.syncPasses
    exact (syncPass hcb now s).trans (ite (hresume _))
  | succ extra ih =>
    unfold Machine.syncPasses
    exact (syncPass hcb now s).trans (ite ((hresume _).trans (ih _ _)))

omit hcb in
theorem runDeferred (s : State) : KeepsMaps s (Machine.runDeferred s) := by
  have h (horizon : Nat) (pred : Prediction) : KeepsMaps s (Machine.predict horizon { s with pred := pred }) :=
    trans (t := { s with pred := pred }) (of_frame rfl rfl rfl rfl) (predict _ _)
  exact ite (h _ _)

theorem sync (now : Nat) (s : State) : KeepsMaps s (Machine.sync cb now s) := by
  unfold Machine.sync
  split
  · exact of_frame rfl rfl rfl rfl
  · split
    · exact of_frame rfl rfl rfl rfl
    · extract_lets cl0 s1 cl1
      have h1 : KeepsMaps s s1 := (withClock s _).trans (syncPasses hcb _ now _)
      exact (h1.trans (withClock s1 _)).trans (runDeferred _)

end callbacks

/-! ### The operations -/

theorem catchUp (now : Nat) (s : State) : KeepsMaps s (Machine.catchUp now s) := sync (callbacks_keepMaps _) now s

theorem callHook (e : HookEvent) (s : State) : KeepsMaps s (Machine.callHook e s) := (callbacks_keepMaps _).hook e s

theorem callNotify (e : Event) (s : State) : KeepsMaps s (Machine.callNotify e s) := (callbacks_keepMaps _).notify e s

end KeepsMaps

/-- Every operation but a power-on and the remaps is one that `KeepsMaps` describes. -/
theorem keepsMaps_of_exec {i : Instr} {s u : State} (h : exec i s = .next u)
    (hp : ∀ now draw nt pt, i ≠ .powerOn now draw nt pt) (hnt : ∀ map, i ≠ .remapNametables map)
    (hpt : ∀ view start size source, i ≠ .remapPatterns view start size source) : KeepsMaps s u := by
  cases executes_of_exec h with
  | bus op d now =>
    exact (KeepsMaps.catchUp now s).trans (KeepsMaps.busEffect KeepsMaps.callNotify KeepsMaps.callHook op d _)
  | sync now => exact (KeepsMaps.catchUp now s).trans (.of_frame rfl rfl rfl rfl)
  | predict horizon => exact (KeepsMaps.predict horizon s).trans (.of_frame rfl rfl rfl rfl)
  | reset now => exact (KeepsMaps.resetCore now s).trans (.of_frame rfl rfl rfl rfl)
  | powerOn now draw nt pt => exact absurd rfl (hp now draw nt pt)
  | remapNametables map => exact absurd rfl (hnt map)
  | remapPatterns view start size source => exact absurd rfl (hpt view start size source)
  | statusQuery => exact .of_frame rfl rfl rfl rfl
  | frameBuffer => exact .of_frame rfl rfl rfl rfl

/-- Settles O59: the configuration by `Rest`, the maps by `KeepsMaps`, both read off the cases of `Executes`. -/
theorem onlyRemapsChangeTheMaps : Obligations.OnlyRemapsChangeTheMaps :=
  ⟨fun _ _ h => step_cfg h, fun _ _ _ hs h hp hnt hpt => (keepsMaps_of_exec h hp hnt hpt hs).2⟩

end Sys2Proof.Machine
end

section
/-! PROOF. Every step keeps the clock, the scan position and the units in their ranges (O55 to O57), and the state after reset
is legal (O58). All operations but a power-on are `Rest`'s, so `step_keeps` leaves two goals for an invariant: that `Rest`
carries it, and that it holds after a power-on, where the registers have the reset values of R442, as in `State.reset`. -/

namespace Sys2Proof.Machine

/-! ## The reset values are in their ranges -/

section resetValues

variable {t : State}

/-- The clock of R441: it counts from the reset, with nothing elapsed and nothing left over. -/
theorem clockOk_of_restarted (hcfg : t.cfg.wf = true) (hrem : t.clock.remainder = 0) (hdepth : t.clock.syncDepth = 0)
    (hmeas : t.clock.remeasure = false) (hpend : t.pred.pendingHorizon = 0) : ClockOk t where
  config := hcfg
  remainder := by
    simp only [Config.wf, Bool.and_eq_true, decide_eq_true_eq] at hcfg
    omega
  elapsed := by omega
  syncDepth := hdepth
  remeasure := hmeas
  noDeferred := hpend

/-- The first cycle of line −1 is a position of either standard (R38). -/
theorem scanOk_of_reset (h : t.scan = Scan.reset) : ScanOk t := by
  obtain ⟨hlow, hhigh⟩ := nextLine_range t.cfg 0
  constructor <;> rw [h]
  case lineLow => exact le_rfl
  case lineHigh => exact hlow.trans hhigh
  all_goals decide

theorem evaluatorOk_of_reset (h : t.eval = Evaluator.reset) : EvaluatorOk t := by
  constructor <;> rw [h] <;> decide

theorem pipelineOk_of_reset (hbg : t.bg = Background.reset) (hdma : t.dma = Dma.reset) : PipelineOk t := by
  constructor <;> simp [hbg, hdma, Background.reset, Dma.reset]

theorem forecastOk_of_empty (h : t.pred.nmiRegistered = []) : ForecastOk t := by
  unfold ForecastOk
  rw [h]
  exact List.Pairwise.nil

end resetValues

/-! ## A step -/

theorem Rest.rejectRequest (e : DecodeError) (s : State) : Rest s (Machine.rejectRequest e s) := by
  cases e with
  | notDecoded => exact Rest.noResult s
  | reservedSelector => exact (Rest.emit _ s).trans (Rest.noResult _)

/-- An invariant that `Rest` carries, that does not see the queue and that a power-on keeps is kept by every step. -/
theorem step_keeps {P : State → Prop} (rest : ∀ {s t : State}, Rest s t → P s → P t)
    (pop : ∀ {s : State}, P s → P (popPending s))
    (powerOn : ∀ {now draw ntMap ptMap} {s : State}, P s → P (powerOnCore now draw ntMap ptMap s))
    {s u : State} (hs : P s) (h : step s = .next u) : P u := by
  obtain rfl | ⟨i, hi⟩ | ⟨e, rfl⟩ := step_cases h
  · exact hs
  · by_cases hp : ∃ now draw ntMap ptMap, i = .powerOn now draw ntMap ptMap
    · obtain ⟨now, draw, ntMap, ptMap, rfl⟩ := hp
      obtain rfl := Host.Outcome.next.inj hi
      exact rest (Rest.noResult _) (powerOn (pop hs))
    · exact rest (rest_of_exec hi fun now draw ntMap ptMap e => hp ⟨now, draw, ntMap, ptMap, e⟩) (pop hs)
  · exact rest (Rest.rejectRequest e _) (pop hs)

/-- Settles O55: the clock is a field of `Rest`; a power-on restarts it and ends any replay. -/
theorem stepKeepsTheClock : Obligations.StepKeepsTheClock := fun _ _ =>
  step_keeps Rest.clock
    (fun m => ⟨m.config, m.remainder, m.elapsed, m.syncDepth, m.remeasure, m.noDeferred⟩)
    fun m => clockOk_of_restarted m.config rfl rfl rfl rfl

/-- Settles O56: a cycle moves the position within its range or to the start of the next line, and a power-on resets it. -/
theorem stepKeepsTheScanPosition : Obligations.StepKeepsTheScanPosition := fun _ _ =>
  step_keeps (fun h => h.kept.scanOk)
    (fun m => ⟨m.lineLow, m.lineHigh, m.cycleLow, m.cycleHigh, m.budget⟩)
    fun _ => scanOk_of_reset rfl

theorem step_keeps_evaluatorOk {s u : State} : EvaluatorOk s → step s = .next u → EvaluatorOk u :=
  step_keeps (fun h => h.kept.eval)
    (fun m => ⟨m.copied, m.copying, m.overflow, m.subState⟩)
    fun _ => evaluatorOk_of_reset rfl

theorem step_keeps_pipelineOk {s u : State} : PipelineOk s → step s = .next u → PipelineOk u :=
  step_keeps (fun h => h.kept.pipes)
    (fun m => ⟨m.attrCur, m.attrNext, m.atShift, m.reload, m.timer, m.bytes, m.running⟩)
    fun _ => pipelineOk_of_reset rfl rfl

theorem step_keeps_forecastOk {s u : State} : ForecastOk s → step s = .next u → ForecastOk u :=
  step_keeps (fun h => h.kept.rising) id fun _ => forecastOk_of_empty rfl

/-- Settles O57: each of the three invariants is kept on its own. -/
theorem stepKeepsTheUnitsInRange : Obligations.StepKeepsTheUnitsInRange := fun _ _ he hp hf h =>
  ⟨step_keeps_evaluatorOk he h, step_keeps_pipelineOk hp h, step_keeps_forecastOk hf h⟩

/-! ## The state after reset -/

theorem memoryOk_reset : MemoryOk State.reset where
  nt := Memory.wf_nil _
  chr := Memory.wf_nil _
  pal := Memory.wf_nil _
  oam := Memory.wf_nil _
  sec := Memory.wf_nil _
  frame := Memory.wf_nil _
  line := by decide

/-- Settles O58: no memory byte is listed, and the registers have the reset values. -/
theorem resetStateIsLegal : Obligations.ResetStateIsLegal :=
  ⟨memoryOk_reset, clockOk_of_restarted rfl rfl rfl rfl rfl, scanOk_of_reset rfl, evaluatorOk_of_reset rfl,
    pipelineOk_of_reset rfl rfl, forecastOk_of_empty rfl⟩

end Sys2Proof.Machine
end

section
/-! PROOF. Every step keeps the memories canonical (O54); which transaction a step runs, and what the register reads, the
OAMDATA write and the two queries do (O5, O7, O12, O36). -/

namespace Sys2Proof.Machine

/-! ## The canonical form of the memories -/

/-- A power-on draws every memory anew, except that the pattern memory keeps its ROM bytes and secondary OAM and `bgLine` are
emptied (R440, R442). -/
theorem powerOnCore_memoryOk (now : Nat) (draw : PowerOnMemory) (ntMap : NtMap) (ptMap : PtMap) {s : State}
    (h : MemoryOk s) : MemoryOk (powerOnCore now draw ntMap ptMap s) where
  nt := loadCells_wf draw.nt (Memory.wf_nil .nt)
  chr := drawnChr_wf s.cfg draw.chr h.chr
  pal := loadCells_wf draw.pal (Memory.wf_nil .pal)
  oam := loadCells_wf draw.oam (Memory.wf_nil .oam)
  sec := Memory.wf_nil .sec
  frame := loadCells_wf draw.frame (Memory.wf_nil .frame)
  line := memoryOk_reset.line

/-- Settles O54: every memory write of an operation is a canonical one, as `Rest` says, and a power-on loads canonical ones. -/
theorem stepKeepsMemoryCanonical : Obligations.StepKeepsMemoryCanonical := fun _ _ =>
  step_keeps (fun h => h.kept.memory)
    (fun m => ⟨m.nt, m.chr, m.pal, m.oam, m.sec, m.frame, m.line⟩)
    (powerOnCore_memoryOk _ _ _ _)

/-! ## The transaction a step runs -/

theorem step_of_decodes {s : State} {r : Request} {i : Instr} (hr : nextRequest s = some r) (hi : decode r = .ok i) :
    step s = exec i (popPending s) := by
  unfold step
  simp only [hr, hi]

theorem step_of_idle {s : State} (h : nextRequest s = none) : step s = .next s := by
  unfold step
  simp only [h]

/-- Settles O5: both cases of the step's dispatch, with the queue written out. -/
theorem stepRunsThePresentedOperation : Obligations.StepRunsThePresentedOperation := by
  refine ⟨fun s r rest i hs hi _ => ?_, fun s hs => ?_⟩
  · have hr : nextRequest s = some r := by rw [nextRequest, hs, List.head?_cons]
    have hpop : popPending s = { s with pending := rest } := by rw [popPending, hs, List.tail_cons]
    rw [step_of_decodes hr hi, hpop]
  · exact step_of_idle (by rw [nextRequest, hs, List.head?_nil])

/-! ## Register reads and the OAMDATA write -/

/-- Settles O7: after the catch-up each of the six reads is a `returnByte`, which sets the result only. -/
theorem readsWithoutSideEffects : Obligations.ReadsWithoutSideEffects := by
  refine fun now s => ⟨fun i hi => ?_, ?_⟩
  · have hread : exec i s = .next (readShadow (catchUp now s)) := by
      obtain rfl | rfl | rfl | rfl | rfl := hi <;> rfl
    rw [hread, readShadow, returnByte]
  · rfl

/-- Settles O12: the law of a cell read after a cell write, at the cursor and at any other address. -/
theorem oamDataWriteStoresOneByte : Obligations.OamDataWriteStoresOneByte := by
  intro d now s c
  let i := c.ports.oamAddr
  refine ⟨writeCell .oam c.oam i.toNat (oamStored i d), rfl, ?_, fun k hk => ?_⟩
  · rw [readCell_writeCell_same, oamStored_eq, Space.stored]
  · exact readCell_writeCell_other .oam c.oam i.toNat (oamStored i d) k hk

/-! ## The queries -/

section phase

variable {s : State}

theorem renderingEnabled_eq_false (p : Ports) :
    p.renderingEnabled = false ↔ p.mask.getLsbD 3 = false ∧ p.mask.getLsbD 4 = false := Bool.or_eq_false_iff

theorem phaseOf_verticalBlank (h : 241 ≤ s.scan.scanline) : phaseOf s = .verticalBlank := if_pos h

theorem phaseOf_idling (h : s.scan.scanline = 240) : phaseOf s = .idling := by
  rw [phaseOf, if_neg (by omega), if_pos h]

theorem phaseOf_forcedBlank (h : s.scan.scanline ≤ 239) (off : s.ports.renderingEnabled = false) :
    phaseOf s = .forcedBlank := by
  rw [phaseOf, if_neg (by omega), if_neg (by omega), if_pos off]

theorem phaseOf_evaluating (h : s.scan.scanline = -1) (on : ¬s.ports.renderingEnabled = false) :
    phaseOf s = .evaluating := by
  rw [phaseOf, if_neg (by omega), if_neg (by omega), if_neg on, if_pos h]

/-- On a visible line with rendering on, the cycle alone decides. -/
theorem phaseOf_visible (h0 : 0 ≤ s.scan.scanline) (h : s.scan.scanline ≤ 239) (on : ¬s.ports.renderingEnabled = false) :
    phaseOf s = if 1 ≤ s.scan.cycleInLine ∧ s.scan.cycleInLine ≤ 256 then .rasterizing else .horizontalBlank := by
  rw [phaseOf, if_neg (by omega), if_neg (by omega), if_neg on, if_neg (by omega)]

end phase

/-- Settles O36: the phase is `phaseOf`'s, one case of the position after the other. -/
theorem queriesAnswerWithoutSyncing : Obligations.QueriesAnswerWithoutSyncing := by
  intro s
  refine ⟨rfl, phaseOf s, rfl, fun h => ?_, fun h => ?_, fun h bg spr => ?_, fun shown => ?_⟩
  · rw [phaseOf_verticalBlank h, Phase.code]
  · rw [phaseOf_idling h, Phase.code]
  · rw [phaseOf_forcedBlank h ((renderingEnabled_eq_false _).2 ⟨bg, spr⟩), Phase.code]
  · have on : ¬s.ports.renderingEnabled = false := by
      rw [renderingEnabled_eq_false]
      rintro ⟨bg, spr⟩
      rw [bg, spr] at shown
      exact absurd shown (by decide)
    refine ⟨fun h => ?_, fun h0 h c1 c256 => ?_, fun h0 h c257 => ?_⟩
    · rw [phaseOf_evaluating h on, Phase.code]
    · rw [phaseOf_visible h0 h on, if_pos ⟨c1, c256⟩, Phase.code]
    · rw [phaseOf_visible h0 h on, if_neg (by omega), Phase.code]

end Sys2Proof.Machine
end

section
/-! PROOF. The address map of the video memory and its remaps (O34, O35, O37). `chrIndex`, `ntIndex` and `palIndex` are stated
once as arithmetic on the address; the mirrors and the effect of a remap follow from that. -/

namespace Sys2Proof.Machine

/-! ## The address forms as arithmetic -/

/-- The low ten bits are the offset in a page or bank (R95, R97). -/
theorem extractLsb'_offset (a : PpuAddr) : (a.extractLsb' 0 10).toNat = a.toNat % 1024 := by
  simp [BitVec.extractLsb'_toNat]

theorem chrIndex_eq (pages : PtPages) (a : PpuAddr) :
    chrIndex pages a = pages[a.toNat / 1024 % 8] + a.toNat % 1024 := by
  have hpage : (a.extractLsb' 10 3).toNat = a.toNat / 1024 % 8 := by
    simp [BitVec.extractLsb'_toNat, Nat.shiftRight_eq_div_pow]
  rw [chrIndex, hpage, extractLsb'_offset, Vector.getElem?_eq_getElem (by omega), Option.getD_some]

theorem ntIndex_eq (map : NtMap) (a : PpuAddr) :
    ntIndex map a = 1024 * map[a.toNat / 1024 % 4] + a.toNat % 1024 := by
  have hslot : (a.extractLsb' 10 2).toNat = a.toNat / 1024 % 4 := by
    simp [BitVec.extractLsb'_toNat, Nat.shiftRight_eq_div_pow]
  rw [ntIndex, ntBank, hslot, extractLsb'_offset, Vector.getElem?_eq_getElem (by omega), Option.getD_some, Nat.mul_comm]

/-- The palette repeats every 32 bytes, and its entries `$10`, `$14`, `$18`, `$1C` are those of `$00`, `$04`, `$08`, `$0C`
(R100). -/
theorem palIndex_toNat (a : PpuAddr) : (palIndex a).toNat = if a.toNat % 4 = 0 then a.toNat % 16 else a.toNat % 32 := by
  have hindex : ∀ i : BitVec 5, (if i &&& 0x13#5 = 0x10#5 then i &&& 0x0F#5 else i).toNat =
      if i.toNat % 4 = 0 then i.toNat % 16 else i.toNat := by decide
  have hlow : (a.extractLsb' 0 5).toNat = a.toNat % 32 := by simp [BitVec.extractLsb'_toNat]
  rw [palIndex, hindex, hlow, Nat.mod_mod_of_dvd _ (by decide), Nat.mod_mod_of_dvd _ (by decide)]

theorem palIndex_eq_iff (a b : PpuAddr) : palIndex a = palIndex b ↔
    a.toNat % 32 = b.toNat % 32 ∨ (a.toNat % 4 = 0 ∧ a.toNat % 16 = b.toNat % 16) := by
  rw [← BitVec.toNat_inj, palIndex_toNat, palIndex_toNat]
  split <;> split <;> omega

/-! ## What an address reads -/

section reads

variable (view : PatternView) (s : State) {a : PpuAddr}

theorem vRead_chr (h : a < 0x2000#14) :
    vRead view s a = readCell .chr s.chr (chrIndex (viewPages s.maps.ptMap view) a) := if_pos h

theorem vRead_nt (h0 : 0x2000#14 ≤ a) (h : a < 0x3F00#14) :
    vRead view s a = readCell .nt s.nt (ntIndex s.maps.ntMap a) := by
  rw [vRead, if_neg (BitVec.not_lt.2 h0), if_pos h]

theorem vRead_pal (h : 0x3F00#14 ≤ a) : vRead view s a = palByte s a := by
  rw [vRead, if_neg (by bv_omega), if_neg (BitVec.not_lt.2 h)]

/-- `$3000–$3EFF` reads the name tables of `$2000–$2EFF` (R95). -/
theorem vRead_nt_mirror (h0 : 0x3000#14 ≤ a) (h : a < 0x3F00#14) : vRead view s a = vRead view s (a - 0x1000#14) := by
  have hsub : (a - 0x1000#14).toNat + 4096 = a.toNat := by bv_omega
  have hslot : (a - 0x1000#14).toNat / 1024 % 4 = a.toNat / 1024 % 4 := by omega
  have hoffset : (a - 0x1000#14).toNat % 1024 = a.toNat % 1024 := by omega
  rw [vRead_nt view s (by bv_omega) h, vRead_nt view s (by bv_omega) (by bv_omega), ntIndex_eq, ntIndex_eq, hoffset]
  simp only [hslot]

/-- The palette addresses repeat every 32 bytes (R100). -/
theorem vRead_pal_mirror (h0 : 0x3F00#14 ≤ a) (h : a < 0x3FE0#14) : vRead view s a = vRead view s (a + 32#14) := by
  have hadd : (a + 32#14).toNat = a.toNat + 32 := by bv_omega
  have hindex : palIndex a = palIndex (a + 32#14) := (palIndex_eq_iff _ _).2 (.inl (by omega))
  rw [vRead_pal view s h0, vRead_pal view s (by bv_omega), palByte, palByte, hindex]

end reads

/-- Settles O37: the three regions of `vRead`, their mirrors, and the palette index as a remainder. -/
theorem videoAddressMirrors : Obligations.VideoAddressMirrors := by
  refine ⟨fun view s a => ⟨fun h => ?_, fun h0 h => ?_, vRead_pal view s⟩, vRead_nt_mirror, vRead_pal_mirror,
    palIndex_toNat, palIndex_eq_iff⟩
  · rw [vRead_chr view s h, chrIndex_eq]
    cases view <;> rfl
  · rw [vRead_nt view s h0 h, ntIndex_eq]

/-! ## Remaps -/

theorem ntMapValid_iff (c : Config) (map : NtMap) :
    ntMapValid c map = true ↔ ∀ b ∈ map.toList, b < c.ntWritable.length := by
  simp only [ntMapValid, List.all_eq_true, Config.hasBank, decide_eq_true_eq]

theorem exec_remapNametables (map : NtMap) (s : State) :
    exec (.remapNametables map) s = .next (noResult (remapNametables map s)) := rfl

/-- Settles O34: the two branches of the remap, as every bank of the map exists or not. -/
theorem nametableRemap : Obligations.NametableRemap := by
  refine fun map s => ⟨fun h => ?_, fun ⟨b, hb, hlack⟩ => ?_⟩
  · rw [exec_remapNametables, remapNametables, if_pos ((ntMapValid_iff _ _).2 h), noResult]
  · have hinvalid : ¬ntMapValid s.cfg map = true := fun hv =>
      absurd ((ntMapValid_iff _ _).1 hv b hb) (Nat.not_lt.2 hlack)
    rw [exec_remapNametables, remapNametables, if_neg hinvalid, noResult, diag_eq, emit]

theorem remapValid_iff (start pageSize : Nat) : remapValid start pageSize = true ↔
    pageSize ∈ [1024, 2048, 4096, 8192] ∧ start % pageSize = 0 ∧ start + pageSize ≤ 0x2000 := by
  simp [remapValid, and_assoc, or_assoc]

/-- A valid remap moves whole 1 KiB pages. -/
theorem remapValid_aligned {start pageSize : Nat} (h : remapValid start pageSize = true) :
    1024 ∣ start ∧ 1024 ∣ pageSize := by
  obtain ⟨hsize, hstart, -⟩ := (remapValid_iff start pageSize).1 h
  have hpage : 1024 ∣ pageSize := by
    simp only [List.mem_cons, List.not_mem_nil, or_false] at hsize
    omega
  exact ⟨hpage.trans (Nat.dvd_of_mod_eq_zero hstart), hpage⟩

/-- Since the range is made of whole pages, an address is in it exactly when its page is. -/
theorem chrIndex_remapPages {start pageSize : Nat} (h : remapValid start pageSize = true) (source : Nat) (pages : PtPages)
    {a : PpuAddr} (ha : a < 0x2000#14) :
    chrIndex (remapPages start pageSize source pages) a =
      if start ≤ a.toNat ∧ a.toNat < start + pageSize then source + (a.toNat - start) else chrIndex pages a := by
  obtain ⟨⟨first, rfl⟩, ⟨count, rfl⟩⟩ := remapValid_aligned h
  have hbelow : a.toNat < 8192 := ha
  have hpage : a.toNat / 1024 % 8 = a.toNat / 1024 := by omega
  rw [chrIndex_eq, chrIndex_eq]
  simp only [hpage, remapPages, Vector.getElem_ofFn, Fin.getElem_fin]
  split <;> split <;> omega

theorem remapViews_bg (view : RemapView) (start pageSize source : Nat) (m : PtMap) :
    (remapViews view start pageSize source m).bg =
      if view ≠ .spr then remapPages start pageSize source m.bg else m.bg := by
  cases view <;> rfl

theorem remapViews_spr (view : RemapView) (start pageSize source : Nat) (m : PtMap) :
    (remapViews view start pageSize source m).spr =
      if view ≠ .bg then remapPages start pageSize source m.spr else m.spr := by
  cases view <;> rfl

/-- A view that a remap names or does not name. -/
theorem chrIndex_remapIf {start pageSize : Nat} (h : remapValid start pageSize = true) (source : Nat) (pages : PtPages)
    {a : PpuAddr} (ha : a < 0x2000#14) (named : Prop) [Decidable named] :
    chrIndex (if named then remapPages start pageSize source pages else pages) a =
      if (start ≤ a.toNat ∧ a.toNat < start + pageSize) ∧ named then source + (a.toNat - start)
      else chrIndex pages a := by
  by_cases hn : named
  · simp only [hn, if_true, and_true, chrIndex_remapPages h source pages ha]
  · simp only [hn, if_false, and_false]

theorem exec_remapPatterns (view : RemapView) (start pageSize source : Nat) (s : State) :
    exec (.remapPatterns view start pageSize source) s = .next (noResult (remapPatterns view start pageSize source s)) := rfl

/-- Settles O35: the range as whole pages in the views named; otherwise the diagnostic. -/
theorem patternRemap : Obligations.PatternRemap := by
  intro view start pageSize source s valid
  refine ⟨fun h => ?_, fun h => ?_⟩
  · have hvalid := (remapValid_iff start pageSize).2 h
    refine ⟨remapViews view start pageSize source s.maps.ptMap, ?_, fun a ha => ?_⟩
    · rw [exec_remapPatterns, remapPatterns, if_pos hvalid, noResult]
    · rw [remapViews_bg, remapViews_spr]
      exact ⟨chrIndex_remapIf hvalid source _ ha _, chrIndex_remapIf hvalid source _ ha _⟩
  · rw [exec_remapPatterns, remapPatterns, if_neg (mt (remapValid_iff start pageSize).1 h), noResult, diag_eq, emit]

end Sys2Proof.Machine
end

section
/-! PROOF. The encoding (O1, O2, O3) and the requests that are no operation (O6). `decodeBus` is stated once by its three
cases; that a word of the register window decodes to the operation whose table word its masked bits are then gives the rows
of the table, and with them which words encode one operation. -/

namespace Sys2Proof

/-! ## The fields of an access word -/

theorem extractLsb'_direction (acc : BitVec 17) : acc.extractLsb' 16 1 = BitVec.ofBool (acc.getLsbD 16) := by
  ext i hi
  obtain rfl : i = 0 := by omega
  simp

/-- A word is its direction, `A[15:13]`, the mirror bits `A[12:3]` and the register index (R130). -/
theorem append_accessFields (acc : BitVec 17) :
    BitVec.ofBool (acc.getLsbD 16) ++ acc.extractLsb' 13 3 ++ acc.extractLsb' 3 10 ++ acc.extractLsb' 0 3 = acc := by
  have hpage : acc.extractLsb' 16 1 ++ acc.extractLsb' 13 3 = acc.extractLsb' 13 4 :=
    BitVec.extractLsb'_append_extractLsb'_eq_extractLsb' rfl
  have hmirror : acc.extractLsb' 13 4 ++ acc.extractLsb' 3 10 = acc.extractLsb' 3 14 :=
    BitVec.extractLsb'_append_extractLsb'_eq_extractLsb' rfl
  have hreg : acc.extractLsb' 3 14 ++ acc.extractLsb' 0 3 = acc := BitVec.extractLsb'_append_extractLsb' (w := 14) (len := 3)
  rw [← extractLsb'_direction, hpage, hmirror, hreg]

/-- The register rows' mask clears the mirror bits and nothing else (R133). -/
theorem append_and_registerMask (direction : BitVec 1) (page : BitVec 3) (mirror : BitVec 10) (reg : BitVec 3) :
    (direction ++ page ++ mirror ++ reg) &&& 0x1E007#17 = direction ++ page ++ 0#10 ++ reg := by
  calc (direction ++ page ++ mirror ++ reg) &&& 0x1E007#17
    _ = (direction ++ page ++ mirror ++ reg) &&& (BitVec.allOnes 1 ++ BitVec.allOnes 3 ++ 0#10 ++ BitVec.allOnes 3) := rfl
    _ = direction ++ page ++ 0#10 ++ reg := by simp only [BitVec.and_append, BitVec.and_allOnes, BitVec.and_zero]

theorem and_registerMask (acc : BitVec 17) :
    acc &&& 0x1E007#17 = BitVec.ofBool (acc.getLsbD 16) ++ acc.extractLsb' 13 3 ++ 0#10 ++ acc.extractLsb' 0 3 := by
  rw [← append_and_registerMask _ _ (acc.extractLsb' 3 10), append_accessFields]

theorem extractLsb'_addr_window (acc : BitVec 17) :
    (acc.extractLsb' 0 16).extractLsb' 13 3 = acc.extractLsb' 13 3 := by
  ext i hi
  simp

theorem eq_of_write_addr {acc : BitVec 17} (hw : acc.getLsbD 16 = true) (ha : acc.extractLsb' 0 16 = 0x4014#16) :
    acc = 0x14014#17 := by
  calc acc
    _ = acc.extractLsb' 16 1 ++ acc.extractLsb' 0 16 := (BitVec.extractLsb'_append_extractLsb' (w := 1) (len := 16)).symm
    _ = BitVec.ofBool true ++ 0x4014#16 := by rw [extractLsb'_direction, hw, ha]

/-! ## The cases of the bus decode -/

/-- The access of register `r` in the window (R135). -/
def registerOp (write : Bool) (r : BitVec 3) : BusOp := if write then busWriteOp r else busReadOp r

theorem registerOp_tableMask : ∀ write r, (registerOp write r).tableMask = 0x1E007#17 := by decide

theorem registerOp_word : ∀ write r, (registerOp write r).word = BitVec.ofBool write ++ 1#3 ++ 0#10 ++ r := by decide

theorem decodeBus_of_window {acc : BitVec 17} (h : acc.extractLsb' 13 3 = 1#3) :
    decodeBus acc = some (registerOp (acc.getLsbD 16) (acc.extractLsb' 0 3)) := by
  have hwindow := (extractLsb'_addr_window acc).trans h
  have haddr : acc.extractLsb' 0 16 ≠ 0x4014#16 := fun ha => absurd (ha ▸ hwindow) (by decide)
  have hreg : (acc.extractLsb' 0 16).extractLsb' 0 3 = acc.extractLsb' 0 3 := by
    ext i hi
    simp
  simp only [decodeBus, if_neg haddr, if_pos hwindow, hreg, registerOp]

theorem decodeBus_of_outside {acc : BitVec 17} (h : acc.extractLsb' 13 3 ≠ 1#3) (hdma : acc ≠ 0x14014#17) :
    decodeBus acc = none := by
  have hwindow : (acc.extractLsb' 0 16).extractLsb' 13 3 ≠ 1#3 := by rwa [extractLsb'_addr_window]
  by_cases haddr : acc.extractLsb' 0 16 = 0x4014#16
  · have hread : ¬acc.getLsbD 16 = true := fun hw => hdma (eq_of_write_addr hw haddr)
    simp only [decodeBus, if_pos haddr, if_neg hread]
  · simp only [decodeBus, if_neg haddr, if_neg hwindow]

theorem decodeBus_word (op : BusOp) : decodeBus op.word = some op := by cases op <;> decide

theorem BusOp.word_injective : Function.Injective BusOp.word := fun op op' h =>
  Option.some.inj (by rw [← decodeBus_word op, h, decodeBus_word])

/-- The two shapes of a table row: the DMA page write is matched whole, every other row by direction and register. -/
theorem BusOp.tableMask_cases (op : BusOp) :
    op = .dmaTrigger ∨ (op.tableMask = 0x1E007#17 ∧ op.word.extractLsb' 13 3 = 1#3) := by
  cases op <;> decide

/-! ## The rows of the table -/

theorem registerOp_word_eq_masked {acc : BitVec 17} (h : acc.extractLsb' 13 3 = 1#3) :
    (registerOp (acc.getLsbD 16) (acc.extractLsb' 0 3)).word = acc &&& 0x1E007#17 := by
  rw [registerOp_word, and_registerMask, h]

theorem window_of_masked {acc word : BitVec 17} (h : acc &&& 0x1E007#17 = word) (hword : word.extractLsb' 13 3 = 1#3) :
    acc.extractLsb' 13 3 = 1#3 := by
  have hfield : (acc &&& 0x1E007#17).extractLsb' 13 3 = acc.extractLsb' 13 3 := by
    rw [BitVec.extractLsb'_and]
    exact BitVec.and_allOnes
  rw [← hfield, h, hword]

theorem matches_of_decodeBus {acc : BitVec 17} {op : BusOp} (h : decodeBus acc = some op) :
    acc &&& op.tableMask = op.word := by
  by_cases hwindow : acc.extractLsb' 13 3 = 1#3
  · obtain rfl := Option.some.inj ((decodeBus_of_window hwindow).symm.trans h)
    rw [registerOp_tableMask, registerOp_word_eq_masked hwindow]
  · by_cases hdma : acc = 0x14014#17
    · subst hdma
      obtain rfl := Option.some.inj ((decodeBus_word .dmaTrigger).symm.trans h)
      decide
    · exact absurd h (by simp [decodeBus_of_outside hwindow hdma])

theorem decodeBus_of_matches {acc : BitVec 17} {op : BusOp} (h : acc &&& op.tableMask = op.word) :
    decodeBus acc = some op := by
  obtain rfl | ⟨hmask, hword⟩ := BusOp.tableMask_cases op
  · have hacc : acc = BusOp.dmaTrigger.word := BitVec.and_allOnes.symm.trans h
    rw [hacc, decodeBus_word]
  · rw [hmask] at h
    have hwindow := window_of_masked h hword
    rw [decodeBus_of_window hwindow, BusOp.word_injective ((registerOp_word_eq_masked hwindow).trans h)]

theorem decodeBus_eq_none_iff (acc : BitVec 17) :
    decodeBus acc = none ↔ acc.extractLsb' 13 3 ≠ 1#3 ∧ acc ≠ 0x14014#17 := by
  refine ⟨fun h => ⟨fun hwindow => ?_, fun hdma => ?_⟩, fun ⟨hwindow, hdma⟩ => decodeBus_of_outside hwindow hdma⟩
  · exact Option.some_ne_none _ ((decodeBus_of_window hwindow).symm.trans h)
  · subst hdma
    exact Option.some_ne_none _ ((decodeBus_word .dmaTrigger).symm.trans h)

/-- Settles O2: the two directions of the match, and the three cases of the decode. -/
theorem busWordsDecodeByTheTable : Obligations.BusWordsDecodeByTheTable := fun acc =>
  ⟨fun _ => ⟨matches_of_decodeBus, decodeBus_of_matches⟩, decodeBus_eq_none_iff acc⟩

/-! ## Decoding and encoding -/

/-- `Laws.RoundTrip.Statement` without its premise: the decoder checks no operand. -/
theorem decode_encode (i : Instr) : decode (encode i) = .ok i := by cases i <;> rfl

theorem encode_instr (op : BusOp) (d : Byte) (now : Nat) :
    encode (op.instr d now) = .bus op.word (if op.word.getLsbD 16 then d else 0) now := by cases op <;> rfl

theorem decode_bus_eq_ok {acc : BitVec 17} {d : Byte} {now : Nat} {i : Instr} (h : decode (.bus acc d now) = .ok i) :
    ∃ op, decodeBus acc = some op ∧ i = op.instr d now := by
  cases hop : decodeBus acc with
  | none => simp [decode, hop] at h
  | some op => exact ⟨op, rfl, by simpa [decode, hop] using h.symm⟩

theorem decode_host_eq_ok {sel : Byte} {args : HostArgs} {i : Instr} (h : decode (.host sel args) = .ok i) :
    decodeHost sel args = some i := by
  cases hi : decodeHost sel args with
  | none => simp [decode, hi] at h
  | some j => simpa [decode, hi] using h

/-- Every row's mask holds the direction bit. -/
theorem write_eq_of_matches {acc : BitVec 17} {op : BusOp} (h : acc &&& op.tableMask = op.word) :
    op.word.getLsbD 16 = acc.getLsbD 16 := by
  have hmask : op.tableMask.getLsbD 16 = true := by cases op <;> rfl
  rw [← h, BitVec.getLsbD_and, hmask, Bool.and_true]

theorem encode_of_decodeHost {sel : Byte} {args : HostArgs} {i : Instr} (h : decodeHost sel args = some i) :
    ∃ args', encode i = .host sel args' := by
  unfold decodeHost at h
  split at h
  case h_9 => cases h
  all_goals
    rename_i hsel
    obtain rfl := Option.some.inj h
    exact ⟨_, congrArg (Request.host · _) (BitVec.eq_of_toNat_eq hsel.symm)⟩

/-- Settles O1: the row that a bus word matches is its operation's encoding up to the row's mask, and a selector is the one of
its operation's encoding. -/
theorem decodeAndEncodeAgree : Obligations.DecodeAndEncodeAgree := by
  refine ⟨fun i _ => decode_encode i, fun acc d now i h => ?_, fun sel args i h => ?_⟩
  · obtain ⟨op, hop, rfl⟩ := decode_bus_eq_ok h
    have hmatch := matches_of_decodeBus hop
    refine ⟨op.word, by rw [encode_instr, write_eq_of_matches hmatch], ?_⟩
    obtain rfl | ⟨hmask, hword⟩ := BusOp.tableMask_cases op
    · exact .inl (BitVec.and_allOnes.symm.trans hmatch)
    · exact .inr ⟨hmask ▸ hmatch, hword⟩
  · obtain ⟨args', henc⟩ := encode_of_decodeHost (decode_host_eq_ok h)
    exact ⟨args', henc, henc ▸ decode_encode i⟩

/-! ## Words written out, and reserved selectors -/

/-- Settles O3: each word is a closed term that the decoder evaluates. -/
theorem writtenOutWordsDecode : Obligations.WrittenOutWordsDecode := by
  unfold Obligations.WrittenOutWordsDecode
  decide

/-- The selectors that name no host call (R138). -/
theorem decodeHost_reserved {sel : Byte} (args : HostArgs) (h : sel = 0x00#8 ∨ 0x09#8 ≤ sel) :
    decodeHost sel args = none := by
  have hsel : sel.toNat = 0 ∨ 9 ≤ sel.toNat := h.imp (congrArg BitVec.toNat) BitVec.le_def.1
  unfold decodeHost
  split
  case h_9 => rfl
  all_goals omega

end Sys2Proof

namespace Sys2Proof.Machine

/-! ## Rejected requests -/

theorem step_of_rejects {s : State} {r : Request} {rest : List Request} {e : DecodeError}
    (hs : s.pending = r :: rest) (he : decode r = .error e) :
    step s = .next (rejectRequest e { s with pending := rest }) := by
  have hr : nextRequest s = some r := by rw [nextRequest, hs, List.head?_cons]
  have hpop : popPending s = { s with pending := rest } := by rw [popPending, hs, List.tail_cons]
  unfold step
  simp only [hr, he, hpop]

/-- Settles O6: neither kind of request decodes, and a rejected one is dropped with the diagnostic its error has. -/
theorem rejectedRequestsDoNothing : Obligations.RejectedRequestsDoNothing := by
  refine ⟨fun s rest sel args hs hsel => ?_, fun s rest acc d now hs hwindow hdma => ?_⟩
  · have he : decode (.host sel args) = .error .reservedSelector := by simp only [decode, decodeHost_reserved args hsel]
    rw [step_of_rejects hs he, rejectRequest, diag_eq, noResult, emit]
  · have he : decode (.bus acc d now) = .error .notDecoded := by simp only [decode, decodeBus_of_outside hwindow hdma]
    rw [step_of_rejects hs he, rejectRequest, noResult]

end Sys2Proof.Machine
end

section
/-! PROOF. What a synchronization does with its time (O19, O20) and what a hook or a callback runs (O22). -/

namespace Sys2Proof.Machine

/-! ## Synchronizations that are refused -/

section refused

variable {now : Nat} {s : State}

theorem sync_backwards (cb : Callbacks) (hd : s.clock.syncDepth = 0) (hnow : now < s.clock.lastSyncTimestamp) :
    sync cb now s = diag .invariantViolation s := by
  rw [sync, if_neg (by omega), if_pos hnow]

theorem resetCore_nested (hs : 0 < s.clock.syncDepth) : resetCore now s = diag .reentrantSync s := if_pos hs

theorem resetCore_backwards (hd : s.clock.syncDepth = 0) (hnow : now < s.clock.lastSyncTimestamp) :
    resetCore now s = diag .invariantViolation s := by
  rw [resetCore, if_neg (by omega), if_pos hnow]

end refused

theorem exec_sync (now : Nat) (s : State) : exec (.sync now) s = .next (noResult (catchUp now s)) := rfl

theorem exec_reset (now : Nat) (s : State) : exec (.reset now) s = .next (noResult (resetCore now s)) := rfl

/-- Settles O19: the two guards at the entry of `sync` and of `reset`. -/
theorem improperSyncsAreDiagnosedNoOps : Obligations.ImproperSyncsAreDiagnosedNoOps := by
  refine fun now s => ⟨fun hs => ?_, fun hd hnow => ?_⟩
  · have hsync : catchUp now s = diag .reentrantSync s := Nested.sync _ now hs
    rw [exec_sync, exec_reset, hsync, resetCore_nested hs]
    exact ⟨rfl, rfl, rfl⟩
  · have hsync : catchUp now s = diag .invariantViolation s := sync_backwards _ hd hnow
    rw [exec_sync, exec_reset, hsync, resetCore_backwards hd hnow]
    exact ⟨rfl, rfl, rfl⟩

/-! ## A synchronization that runs -/

theorem runDeferred_of_none {s : State} (h : s.pred.pendingHorizon = 0) : runDeferred s = s := if_neg (by omega)

theorem runDeferred_of_some {s : State} (h : 0 < s.pred.pendingHorizon) :
    runDeferred s = predict s.pred.pendingHorizon { s with pred := { s.pred with pendingHorizon := 0 } } := if_pos h

/-- The state in which the passes of a synchronization end (R160). -/
def passesEnded (now : Nat) (s : State) : State :=
  syncPasses (hostCallbacks s) (scriptLength s + 1) now { s with clock := { s.clock with syncDepth := 1 } }

/-- The guard is released after the last pass (R160). -/
def endReplay (s : State) : State := { s with clock := { s.clock with syncDepth := 0 } }

theorem catchUp_proper {now : Nat} {s : State} (hd : s.clock.syncDepth = 0) (hnow : s.clock.lastSyncTimestamp ≤ now) :
    catchUp now s = runDeferred (endReplay (passesEnded now s)) := by
  rw [catchUp, sync, if_neg (by omega), if_neg (by omega)]
  rfl

theorem passesEnded_remeasure (now : Nat) (s : State) : (passesEnded now s).clock.remeasure = false :=
  (syncPasses_clock (callbacks_keeps _) _ _ Nat.one_pos).2.1

/-- The passes are those of R160's loop: each pass that another follows is paid for by an answer of the script (log entry 9). -/
theorem passesEnded_loop (now : Nat) (s : State) :
    SyncLoop (hostCallbacks s) now { s with clock := { s.clock with syncDepth := 1 } } (passesEnded now s) := by
  refine syncPasses_loop (callbacks_pay _) _ now Nat.one_pos ?_
  unfold owed
  split <;> simp [scriptLength]

/-- A pass that raised no request is the last. -/
theorem syncPasses_of_onePass {cb : Callbacks} {now : Nat} {s : State} (extra : Nat)
    (h : (replayUpTo cb now s).clock.remeasure = false) : syncPasses cb extra now s = replayUpTo cb now s := by
  have hpass : (syncPass cb now s).clock.remeasure = false := h
  unfold syncPasses
  simp only [hpass, Bool.false_eq_true, if_false]
  rfl

theorem passesEnded_of_onePass {now : Nat} {s : State}
    (h : (replayUpTo (hostCallbacks s) now { s with clock := { s.clock with syncDepth := 1 } }).clock.remeasure = false) :
    passesEnded now s = replayUpTo (hostCallbacks s) now { s with clock := { s.clock with syncDepth := 1 } } :=
  syncPasses_of_onePass _ h

/-- Settles O20: the loop of the passes, then the deferred forecast; the first pass written out is `replayUpTo`. -/
theorem syncReplaysTheElapsedCycles : Obligations.SyncReplaysTheElapsedCycles := by
  intro now s hd hnow finishes total start once
  have hends : finishes (passesEnded now s) := by
    refine ⟨passesEnded_remeasure now s, fun h => ?_, fun h => ?_⟩
    · rw [exec_sync, catchUp_proper hd hnow, runDeferred_of_none (s := endReplay _) h]
      rfl
    · rw [exec_sync, catchUp_proper hd hnow, runDeferred_of_some (s := endReplay _) h]
      rfl
  refine ⟨fun hm => ?_, passesEnded now s, passesEnded_loop now s, hends⟩
  have honce : passesEnded now s = once := passesEnded_of_onePass hm
  rwa [honce] at hends

/-! ## What a hook and a callback run -/

/-- A script with an answer left allows a further depth of nesting (log entry 8). -/
theorem hostCallbacks_of_answer {s : State} (h : 0 < scriptLength s) :
    hostCallbacks s = callbacksWith (hookCall (callbacks (scriptLength s - 1))) := by
  obtain ⟨n, hn⟩ := Nat.exists_eq_succ_of_ne_zero h.ne'
  rw [hostCallbacks, hn]
  rfl

theorem callHook_of_answer {s : State} (e : HookEvent) {calls rest} (h : s.hookScript = calls :: rest) :
    callHook e s = runCalls (hookCall (callbacks (scriptLength s - 1))) calls
      { emit (.hook e) s with hookScript := rest } := by
  have hlen : 0 < scriptLength s := by simp [scriptLength, h]
  rw [callHook, hostCallbacks_of_answer hlen]
  simp only [callbacksWith, hookWith, emit_hookScript, h]

theorem callNotify_of_answer {s : State} (e : Event) (hd : 0 < s.clock.syncDepth) {calls rest}
    (h : s.noticeScript = calls :: rest) :
    callNotify e s = runCalls (hookCall (callbacks (scriptLength s - 1))) calls
      { emit e s with noticeScript := rest } := by
  have hlen : 0 < scriptLength s := by simp [scriptLength, h]
  rw [callNotify, hostCallbacks_of_answer hlen]
  simp only [callbacksWith, notifyWith, emit_clock, emit_noticeScript, hd, if_true, h]

/-- The state in which the host answers a `cpuRead`: after the nested port read, if there is one (R366). -/
def cpuReadAsked (a : CpuAddr) (s : State) : State :=
  nestedPortRead (hostCallbacks s).hook (hostCallbacks s).notify a (emit (.cpuRead a) s)

/-- The port read itself takes no answer where there is none. -/
theorem cpuReadAsked_unscripted {a : CpuAddr} {s : State} (h : Unscripted s) : Unscripted (cpuReadAsked a s) :=
  have hport := KeepsMaps.nestedPortRead (callbacks_notify_keepsMaps (scriptLength s))
    (callbacks_hook_keepsMaps (scriptLength s)) a (emit (.cpuRead a) s)
  (hport h).1

theorem unscripted_of_scriptLength {s : State} (h : scriptLength s = 0) : Unscripted s := by
  simp only [scriptLength, Nat.add_eq_zero_iff, List.length_eq_zero_iff] at h
  exact ⟨h.1.1, h.1.2, h.2⟩

theorem cpuRead_of_answer {a : CpuAddr} {s : State} {answer rest} (h : (cpuReadAsked a s).cpuScript = answer :: rest) :
    (hostCallbacks s).cpuRead a s = (runCalls (hookCall (callbacks (scriptLength s - 1))) answer.calls
      { cpuReadAsked a s with cpuScript := rest }, answer.byte) := by
  have hlen : 0 < scriptLength s := Nat.pos_of_ne_zero fun h0 => by
    have := (cpuReadAsked_unscripted (a := a) (unscripted_of_scriptLength h0)).2.2
    simp [h] at this
  unfold cpuReadAsked at h ⊢
  rw [hostCallbacks_of_answer hlen] at h ⊢
  simp only [callbacksWith, cpuReadWith] at h ⊢
  simp only [h]

/-- An address is in the register window exactly when its read access decodes: no read of `$4014` does (R135). -/
theorem inRegisterWindow_iff (a : CpuAddr) : inRegisterWindow a = true ↔ decodeBus (0#1 ++ a) ≠ none := by
  have hfield : (0#1 ++ a).extractLsb' 13 3 = a.extractLsb' 13 3 := by
    ext i hi
    rw [BitVec.getElem_extractLsb', BitVec.getElem_extractLsb', BitVec.getLsbD_append, if_pos (by omega)]
  have hdma : 0#1 ++ a ≠ 0x14014#17 := fun h => by
    have hbit : (0#1 ++ a).getLsbD 16 = false := by rw [BitVec.getLsbD_append]; simp
    rw [h] at hbit
    exact absurd hbit (by decide)
  rw [inRegisterWindow, decide_eq_true_eq, Ne, decodeBus_eq_none_iff, hfield]
  tauto

/-- The nested read of a `cpuRead`, as the address decodes (R366). -/
theorem nestedPortRead_of_decodes (hook : Hook) (notify : Notify) {a : CpuAddr} (s : State) {op : BusOp}
    (h : decodeBus (0#1 ++ a) = some op) :
    nestedPortRead hook notify a s = busEffect hook notify op 0 (diag .reentrantSync s) := by
  have hwindow : inRegisterWindow a = true := (inRegisterWindow_iff a).2 (by simp [h])
  simp only [nestedPortRead, hwindow, if_true, h]

theorem nestedPortRead_of_not_decodes (hook : Hook) (notify : Notify) {a : CpuAddr} (s : State)
    (h : decodeBus (0#1 ++ a) = none) : nestedPortRead hook notify a s = s := by
  have hwindow : ¬inRegisterWindow a = true := fun hw => (inRegisterWindow_iff a).1 hw h
  rw [nestedPortRead, if_neg hwindow]

/-- In a replay a bus access of the host is its effect, after the diagnostic of its skipped catch-up (R167, R168). -/
theorem hookCall_bus_nested (cb : Callbacks) {acc : BitVec 17} (d : Byte) (now : Nat) {s : State} {op : BusOp}
    (hs : 0 < s.clock.syncDepth) (h : decodeBus acc = some op) :
    hookCall cb (.bus acc d now) s = busEffect cb.hook cb.notify op d (diag .reentrantSync s) := by
  simp only [hookCall, busAccess, h, Nested.sync cb now hs]

theorem hookCall_bus_undecoded (cb : Callbacks) {acc : BitVec 17} (d : Byte) (now : Nat) (s : State)
    (h : decodeBus acc = none) : hookCall cb (.bus acc d now) s = s := by
  simp only [hookCall, busAccess, h]

theorem statusByte_bit7 (p : Ports) (b : Bool) : (statusByte p b).getLsbD 7 = b := by
  rw [statusByte, BitVec.getLsbD_append, BitVec.getLsbD_append, BitVec.getLsbD_append]
  simp

/-- A status read away from the race (R210). -/
theorem rdStatus_of_noRace (notify : Notify) {s : State} (h : ¬(s.scan.scanline = 241 ∧ s.scan.cycleInLine = 1)) :
    rdStatus notify s = returnByte (statusByte s.ports s.ports.vblank) { s with ports := s.ports.statusRead } := by
  have hrace : atRace s = false := by
    simp only [atRace, Bool.and_eq_false_imp, Bool.and_eq_true, decide_eq_true_eq]
    exact fun hpos => absurd hpos h
  simp only [rdStatus, hrace, Bool.false_eq_true, if_false, Bool.not_false, Bool.and_true]

/-- Settles O22: the answers of the three scripts, and the calls among them that find a replay running. -/
theorem hookCallsApplyAtOnce : Obligations.HookCallsApplyAtOnce := by
  intro s inner answered
  refine ⟨fun h => ⟨callbacks_hook_unscripted _ h, fun calls rest => callHook_of_answer h⟩,
    fun e => ⟨fun hnone => ?_, fun calls rest hd => callNotify_of_answer e hd⟩,
    fun a => ⟨cpuReadAsked a s, nestedPortRead_of_not_decodes _ _ _,
      fun op => nestedPortRead_of_decodes _ _ _, callbacks_cpuRead_unscripted _ a rfl,
      fun answer rest => cpuRead_of_answer⟩,
    fun cb acc d now hs => ?_⟩
  · exact hnone.elim (callbacks_notify_between _ e) (callbacks_notify_unscripted _ e)
  · refine ⟨Nested.sync cb now hs, fun op => hookCall_bus_nested cb d now hs, hookCall_bus_undecoded cb d now s,
      fun hop hpos => ⟨statusByte s.ports s.ports.vblank, ?_, statusByte_bit7 _ _⟩, fun hop => ?_⟩
    · rw [hookCall_bus_nested cb d now hs hop]
      exact rdStatus_of_noRace cb.notify hpos
    · rw [hookCall_bus_nested cb d now hs hop]
      rfl

end Sys2Proof.Machine
end

section
/-! PROOF. One cycle in the order the spec writes it (O24, O27, O60): an equation for each part, none of which supposes
anything of the host's callbacks. -/

namespace Sys2Proof.Machine

/-! ## The parts of a cycle -/

/-- The state a cycle's units start from: the end time of the step is known (R161). -/
def stamped (ts : Nat) (s : State) : State := { s with clock := { s.clock with stepEnd := ts } }

/-- The units of a cycle between the DMA's tick and the counters. -/
def cycleUnits (hook : Hook) (line : Int) (c : Nat) (s : State) : State :=
  if renderingLine line then renderCycle hook line c s else s

theorem positionExpected_iff (s : State) : positionExpected s = true ↔
    -1 ≤ s.scan.scanline ∧ s.scan.scanline ≤ s.cfg.lastLine ∧ 1 ≤ s.scan.cycleInLine ∧ s.scan.cycleInLine ≤ 341 := by
  rw [positionExpected, decide_eq_true_eq]

theorem ppuCycle_expected (cb : Callbacks) (ts : Nat) {s : State} (h : positionExpected s = true) :
    ppuCycle cb ts s = countCycle cb s.scan.scanline ts (oddFrameSkip s.scan.scanline s.scan.cycleInLine
      (cycleUnits cb.hook s.scan.scanline s.scan.cycleInLine (dmaTick cb (stamped ts s)))) := if_pos h

theorem ppuCycle_unexpected (cb : Callbacks) (ts : Nat) {s : State} (h : ¬positionExpected s = true) :
    ppuCycle cb ts s = countOnly s.scan.scanline (diag .invariantViolation (stamped ts s)) := if_neg h

theorem lastLine_cases (cfg : Config) : cfg.lastLine = 260 ∨ cfg.lastLine = 310 := by
  unfold Config.lastLine
  split
  · exact .inl rfl
  · exact .inr rfl

/-- The line after `line` is the next one only inside the frame (R174, R179). -/
theorem nextLine_eq (cfg : Config) (line : Int) :
    nextLine cfg line = if -1 ≤ line ∧ line < cfg.lastLine then line + 1 else -1 := by
  unfold nextLine
  split <;> split <;> omega

/-- Settles O24: at an unexpected position a cycle is `countOnly` after the diagnostic. -/
theorem unexpectedPositionOnlyCounts : Obligations.UnexpectedPositionOnlyCounts := by
  intro cb ts s hpos next
  have hunexpected : ¬positionExpected s = true := by rw [positionExpected_iff]; omega
  have hscan :
      (if s.scan.lineCyclesLeft - 1 = 0 then (⟨nextLine s.cfg s.scan.scanline, 1, 341, s.scan.oddFrame⟩ : Scan)
        else ⟨s.scan.scanline, s.scan.cycleInLine + 1, s.scan.lineCyclesLeft - 1, s.scan.oddFrame⟩) =
      if 2 ≤ s.scan.lineCyclesLeft then
        ⟨s.scan.scanline, s.scan.cycleInLine + 1, s.scan.lineCyclesLeft - 1, s.scan.oddFrame⟩
      else ⟨next, 1, 341, s.scan.oddFrame⟩ := by
    rw [nextLine_eq]
    by_cases h : 2 ≤ s.scan.lineCyclesLeft
    · rw [if_pos h, if_neg (by omega)]
    · rw [if_neg h, if_pos (by omega)]
  rw [ppuCycle_unexpected cb ts hunexpected, countOnly_eq]
  exact congrArg (fun scan => { diag .invariantViolation (stamped ts s) with scan := scan }) hscan

/-! ## The units of a rendering line -/

/-- The hook of a rendering line, at cycle 257 or 321 (R164, R170). -/
def lineHook (hook : Hook) (line : Int) (c : Nat) (s : State) : State :=
  if c = 257 then hook (.hblankStart line) s
  else if c = 321 then hook (.prefetchStart line) s
  else s

/-- The fetching units, or the blank cycle, as rendering is enabled. -/
def fetchUnits (hook : Hook) (line : Int) (c : Nat) (s : State) : State :=
  if s.ports.renderingEnabled then spriteFetchCycle hook line c (spriteEvalCycle line c (bgCycle hook line c s))
  else blankCycle line c s

/-- The compositor, in cycles 1 to 256 of a visible line. -/
def composeUnit (line : Int) (c : Nat) (s : State) : State :=
  if visibleLine line && decide (1 ≤ c ∧ c ≤ 256) then composePixel line (c - 1) s else s

theorem renderCycle_eq (hook : Hook) (line : Int) (c : Nat) (s : State) :
    renderCycle hook line c s = composeUnit line c (fetchUnits hook line c (lineHook hook line c s)) := by
  by_cases h : c = 257
  · subst h; rfl
  · simp only [renderCycle, composeUnit, fetchUnits, lineHook, if_neg h]

theorem composeUnit_eq {line : Int} {c : Nat} (h : line ≤ 239) (hc : 1 ≤ c) (s : State) :
    composeUnit line c s = if 0 ≤ line ∧ c ≤ 256 then composePixel line (c - 1) s else s := by
  have hcond : (visibleLine line && decide (1 ≤ c ∧ c ≤ 256)) = true ↔ 0 ≤ line ∧ c ≤ 256 := by
    simp [visibleLine, h, hc]
  simp only [composeUnit, hcond]

theorem renderingEnabled_iff (p : Ports) :
    p.renderingEnabled = true ↔ p.mask.getLsbD 3 = true ∨ p.mask.getLsbD 4 = true := Bool.or_eq_true_iff

theorem cycleUnits_eq (hook : Hook) {line : Int} {c : Nat} (hlow : -1 ≤ line) (s : State) :
    cycleUnits hook line c s =
      if line ≤ 239 then composeUnit line c (fetchUnits hook line c (lineHook hook line c s)) else s := by
  have hcond : renderingLine line = true ↔ line ≤ 239 := by simp [renderingLine, hlow]
  simp only [cycleUnits, hcond, renderCycle_eq]

/-! ## The counters and the end of a line -/

theorem oddFrameSkip_eq (line : Int) (c : Nat) (s : State) :
    oddFrameSkip line c s = { s with scan := { s.scan with
      lineCyclesLeft := if line = -1 ∧ c = 340 ∧ s.scan.oddFrame = true ∧ s.ports.showBg = true then 1
        else s.scan.lineCyclesLeft } } := by
  unfold oddFrameSkip
  split <;> rfl

/-- Entering a line (R174): the flags and the NMI edge of line 241, the frame start of line −1. -/
def enterLine (notify : Notify) (next : Int) (ts : Nat) (s : State) : State :=
  if next = 241 then enterVBlank notify ts { s with scan := { s.scan with scanline := next } }
  else if next = -1 then startFrame { s with scan := { s.scan with scanline := next } }
  else { s with scan := { s.scan with scanline := next } }

/-- Starting a line: its hook, then its budget. -/
def startLine (hook : Hook) (next : Int) (s : State) : State :=
  let s := hook (.scanlineStart next) s
  { s with scan := { s.scan with cycleInLine := 1, lineCyclesLeft := Config.cyclesPerLine } }

theorem endOfScanline_eq (cb : Callbacks) (line : Int) (ts : Nat) (s : State) :
    endOfScanline cb line ts s =
      startLine cb.hook (nextLine s.cfg line) (enterLine cb.notify (nextLine s.cfg line) ts s) := by
  unfold endOfScanline enterLine
  by_cases h : nextLine s.cfg line = 241
  · simp only [h, if_true]
    rfl
  · simp only [h, if_false]
    rfl

theorem countCycle_within {cb : Callbacks} {line : Int} {ts : Nat} {s : State} (h : 2 ≤ s.scan.lineCyclesLeft) :
    countCycle cb line ts s = countDown s := if_neg (show ¬s.scan.lineCyclesLeft - 1 = 0 by omega)

theorem countCycle_end {cb : Callbacks} {line : Int} {ts : Nat} {s : State} (h : s.scan.lineCyclesLeft ≤ 1) :
    countCycle cb line ts s =
      startLine cb.hook (nextLine s.cfg line) (enterLine cb.notify (nextLine s.cfg line) ts (countDown s)) :=
  (if_pos (show s.scan.lineCyclesLeft - 1 = 0 by omega)).trans (endOfScanline_eq cb line ts (countDown s))

section enterVBlank

variable (notify : Notify) (ts : Nat) {s : State}

theorem enterVBlank_disabled (h : s.ports.ctrl.getLsbD 7 = false) :
    enterVBlank notify ts s = { s with ports := { s.ports with vblank := true } } :=
  if_neg (by simpa [Ports.nmie, Ports.enterVBlank] using h)

theorem enterVBlank_forecast (hon : s.ports.ctrl.getLsbD 7 = true) (hmem : ts ∈ s.pred.nmiRegistered) :
    enterVBlank notify ts s = unregisterNmi ts { s with ports := { s.ports with vblank := true } } :=
  (if_pos hon).trans (if_pos (decide_eq_true hmem))

theorem enterVBlank_edge (hon : s.ports.ctrl.getLsbD 7 = true) (hnew : ts ∉ s.pred.nmiRegistered) :
    enterVBlank notify ts s = notify (.setInterrupt .nmi ts) { s with ports := { s.ports with vblank := true } } :=
  (if_pos hon).trans (if_neg (Bool.not_eq_true _ ▸ decide_eq_false hnew))

end enterVBlank

/-- Settles O60: the equations of the parts, one after the other. -/
theorem cycleRunsTheUnitsInOrder : Obligations.CycleRunsTheUnitsInOrder := by
  intro cb ts s hlow hhigh hc hc' line c ticked hooked fetched composed run left counted next entered flagged told
  have hrun : cycleUnits cb.hook line c ticked = run := by
    rw [cycleUnits_eq cb.hook hlow]
    unfold run composed fetched
    split
    · rw [composeUnit_eq ‹_› hc, fetchUnits]
      simp only [renderingEnabled_iff]
      rfl
    · rfl
  have hskip : oddFrameSkip line c run = { run with scan := { run.scan with lineCyclesLeft := left } } :=
    oddFrameSkip_eq line c run
  have hcycle : ppuCycle cb ts s =
      countCycle cb line ts { run with scan := { run.scan with lineCyclesLeft := left } } := by
    rw [← hskip, ← hrun]
    exact ppuCycle_expected cb ts ((positionExpected_iff s).2 ⟨hlow, hhigh, hc, hc'⟩)
  have hnext : nextLine run.cfg line = next := by
    rw [nextLine_eq]
    unfold next
    split <;> split <;> omega
  have hflags : enterLine cb.notify next ts counted = flagged := by
    unfold enterLine flagged
    split
    · extract_lets v
      split
      · rename_i hoff
        exact enterVBlank_disabled _ _ hoff
      · rename_i hon
        split
        · exact enterVBlank_forecast _ _ (Bool.eq_true_of_not_eq_false hon) ‹_›
        · exact enterVBlank_edge _ _ (Bool.eq_true_of_not_eq_false hon) ‹_›
    · rfl
  rw [hcycle]
  refine ⟨fun h => countCycle_within h, fun h => (countCycle_end h).trans ?_⟩
  change startLine cb.hook (nextLine run.cfg line) (enterLine cb.notify (nextLine run.cfg line) ts counted) = _
  rw [hnext, hflags]
  rfl

/-! ## Entering vertical blank -/

theorem dmaTick_idle (cb : Callbacks) {s : State} (h : s.dma.timer = 0) : dmaTick cb s = s := if_pos h

/-- After line 240 comes line 241, under either standard (R174). -/
theorem nextLine_240 (cfg : Config) : nextLine cfg 240 = 241 := by
  have := lastLine_cases cfg
  rw [nextLine_eq, if_pos (by omega)]
  rfl

/-- The last cycle of line 240, with no DMA: no unit runs, and line 241 is entered (R174, R175). -/
theorem ppuCycle_entersVBlank (cb : Callbacks) (ts : Nat) {s : State} (hdma : s.dma.timer = 0)
    (hline : s.scan.scanline = 240) (hc : s.scan.cycleInLine = 341) (hleft : s.scan.lineCyclesLeft = 1) :
    ppuCycle cb ts s = startLine cb.hook 241
      (enterVBlank cb.notify ts { stamped ts s with scan := ⟨241, 342, 0, s.scan.oddFrame⟩ }) := by
  have hrange := lastLine_cases s.cfg
  have hpos : positionExpected s = true := (positionExpected_iff s).2 (by omega)
  have hskip : oddFrameSkip 240 341 (stamped ts s) = stamped ts s := if_neg fun h => absurd h.1 (by decide)
  have hcount : countDown (stamped ts s) = { stamped ts s with scan := ⟨240, 342, 0, s.scan.oddFrame⟩ } := by
    rw [countDown]
    simp only [stamped, hline, hc, hleft]
  have htick : dmaTick cb (stamped ts s) = stamped ts s := dmaTick_idle cb hdma
  have hend : (stamped ts s).scan.lineCyclesLeft ≤ 1 := hleft.le
  rw [ppuCycle_expected cb ts hpos, htick, cycleUnits_eq cb.hook (by omega), if_neg (by omega), hline, hc, hskip,
    countCycle_end hend, nextLine_240, hcount]
  rfl

theorem startLine_unscripted (n : Nat) (next : Int) {s : State} (h : s.hookScript = []) :
    startLine (callbacks n).hook next s = { emit (.hook (.scanlineStart next)) s with
      scan := { s.scan with cycleInLine := 1, lineCyclesLeft := 341 } } := by
  rw [startLine, callbacks_hook_unscripted n _ h]
  rfl

section enteringVBlank

variable (n ts : Nat) {s : State}

/-- Line 241 entered by callbacks that only record their events, with the NMI disabled (R175). -/
theorem startVBlank_disabled (hhooks : s.hookScript = []) (hoff : s.ports.ctrl.getLsbD 7 = false) :
    startLine (callbacks n).hook 241 (enterVBlank (callbacks n).notify ts s) =
      { s with
        ports := { s.ports with vblank := true }
        scan := { s.scan with cycleInLine := 1, lineCyclesLeft := 341 }
        trace := .hook (.scanlineStart 241) :: s.trace } := by
  rw [enterVBlank_disabled _ _ hoff]
  exact startLine_unscripted n 241 hhooks

/-- With the edge a forecast registered (R385). -/
theorem startVBlank_forecast (hhooks : s.hookScript = []) (hon : s.ports.ctrl.getLsbD 7 = true)
    (hmem : ts ∈ s.pred.nmiRegistered) :
    startLine (callbacks n).hook 241 (enterVBlank (callbacks n).notify ts s) =
      { s with
        ports := { s.ports with vblank := true }
        scan := { s.scan with cycleInLine := 1, lineCyclesLeft := 341 }
        pred := (unregisterNmi ts s).pred
        trace := .hook (.scanlineStart 241) :: s.trace } := by
  rw [enterVBlank_forecast _ _ hon hmem]
  exact startLine_unscripted n 241 hhooks

/-- With an edge that is signalled now (R405). -/
theorem startVBlank_edge (hhooks : s.hookScript = []) (hnotices : s.noticeScript = [])
    (hon : s.ports.ctrl.getLsbD 7 = true) (hnew : ts ∉ s.pred.nmiRegistered) :
    startLine (callbacks n).hook 241 (enterVBlank (callbacks n).notify ts s) =
      { s with
        ports := { s.ports with vblank := true }
        scan := { s.scan with cycleInLine := 1, lineCyclesLeft := 341 }
        trace := .hook (.scanlineStart 241) :: .setInterrupt .nmi ts :: s.trace } := by
  rw [enterVBlank_edge _ _ hon hnew, callbacks_notify_unscripted n _ (s := { s with ports := { s.ports with vblank := true } })
    hnotices]
  exact startLine_unscripted n 241 hhooks

end enteringVBlank

/-- Settles O27: the three ways of entering line 241. -/
theorem enteringVBlankSignalsTheNmi : Obligations.EnteringVBlankSignalsTheNmi := by
  intro ts s ⟨hhooks, hnotices, _⟩ _ hdma hline hc hleft u
  have hu : u = startLine (hostCallbacks s).hook 241 (enterVBlank (hostCallbacks s).notify ts
      { stamped ts s with scan := ⟨241, 342, 0, s.scan.oddFrame⟩ }) :=
    ppuCycle_entersVBlank _ ts hdma hline hc hleft
  by_cases hon : s.ports.ctrl.getLsbD 7 = true
  · have hoff : ¬s.ports.ctrl.getLsbD 7 = false := ne_false_of_eq_true hon
    by_cases hmem : ts ∈ s.pred.nmiRegistered
    · rw [hu.trans (startVBlank_forecast _ ts hhooks hon hmem)]
      refine ⟨rfl, fun _ hnew => absurd hmem hnew, fun _ _ => ⟨rfl, ?_, fun t ht => ?_⟩, fun h => absurd h hoff⟩
      · simp
      · simp [ht, stamped]
    · rw [hu.trans (startVBlank_edge _ ts hhooks hnotices hon hmem)]
      exact ⟨rfl, fun _ _ => ⟨rfl, rfl⟩, fun _ h => absurd h hmem, fun h => absurd h hoff⟩
  · rw [hu.trans (startVBlank_disabled _ ts hhooks (Bool.eq_false_of_not_eq_true hon))]
    exact ⟨rfl, fun h => absurd h hon, fun h => absurd h hon, fun _ => ⟨rfl, rfl⟩⟩

end Sys2Proof.Machine
end

section
/-! PROOF. What the units of a cycle neither read nor change when the host makes no calls: the base of the statements about
runs of cycles (O21, O23, O25). -/

namespace Sys2Proof.Machine

/-- The state with another time of the last sync, another remainder and another last result. -/
def retimed (last rem : Nat) (r : Result) (s : State) : State :=
  { s with clock := { s.clock with lastSyncTimestamp := last, remainder := rem }, result := r }

/-- The control and the mask register. -/
def setup (s : State) : Byte × Byte := (s.ports.ctrl, s.ports.mask)

/-- What a replay reads of the host's earlier accesses: the setup, the DMA and the deferred horizon. -/
def settings (s : State) : (Byte × Byte) × Dma × Nat := (setup s, s.dma, s.pred.pendingHorizon)

/-- A part of a cycle that reads neither the time nor the result, and keeps the settings. -/
structure Steady (g : State → State) : Prop where
  time : ∀ last rem r s, g (retimed last rem r s) = retimed last rem r (g s)
  kept : ∀ s, settings (g s) = settings s

theorem Steady.setup {g : State → State} (h : Steady g) (s : State) : setup (g s) = setup s := congrArg Prod.fst (h.kept s)

theorem Steady.dma {g : State → State} (h : Steady g) (s : State) : (g s).dma = s.dma :=
  congrArg (·.2.1) (h.kept s)

theorem Steady.pendingHorizon {g : State → State} (h : Steady g) (s : State) :
    (g s).pred.pendingHorizon = s.pred.pendingHorizon := congrArg (·.2.2) (h.kept s)

namespace Steady

variable {g h : State → State}

theorem refl : Steady fun s => s := ⟨fun _ _ _ _ => rfl, fun _ => rfl⟩

theorem comp (hg : Steady g) (hh : Steady h) : Steady fun s => h (g s) :=
  ⟨fun last rem r s => by rw [hg.time, hh.time], fun s => (hh.kept _).trans (hg.kept s)⟩

/-- A part whose operand, or whose choice, is read off the state. -/
theorem bind {α : Type} (p : State → α) (hp : ∀ last rem r s, p (retimed last rem r s) = p s) (k : α → State → State)
    (hk : ∀ a, Steady (k a)) : Steady fun s => k (p s) s :=
  ⟨fun last rem r s => by rw [hp, (hk _).time], fun s => (hk _).kept s⟩

theorem ite {p : Prop} [Decidable p] (hg : Steady g) (hh : Steady h) : Steady fun s => if p then g s else h s := by
  split
  · exact hg
  · exact hh

/-- A part that is not run. -/
theorem iteSelf {p : Prop} [Decidable p] (hg : Steady g) : Steady fun s => if p then g s else s := ite hg refl

/-- A change of the background registers. -/
theorem setBg (f : State → Background) (hf : ∀ last rem r s, f (retimed last rem r s) = f s) :
    Steady fun s => { s with bg := f s } := ⟨fun last rem r s => by rw [hf]; rfl, fun _ => rfl⟩

/-- An update of `v`. -/
theorem setV (f : State → Loopy) (hf : ∀ last rem r s, f (retimed last rem r s) = f s) :
    Steady fun s => Machine.setV (f s) s := ⟨fun last rem r s => by rw [hf]; rfl, fun _ => rfl⟩

/-- A part whose choice is read off the state. -/
theorem cond (p : State → Prop) [DecidablePred p] (hp : ∀ last rem r s, p (retimed last rem r s) ↔ p s) (hg : Steady g)
    (hh : Steady h) : Steady fun s => if p s then g s else h s := by
  refine ⟨fun last rem r s => ?_, fun s => ?_⟩
  · simp only [hp, hg.time, hh.time]
    split <;> rfl
  · split
    · exact hg.kept s
    · exact hh.kept s

section hooks

variable {hook : Hook} (hh : ∀ e, Steady (hook e))
include hh

/-- A fetch: its address is read off the state before the hook (R257). -/
theorem fetch (a : State → PpuAddr) (ha : ∀ last rem r s, a (retimed last rem r s) = a s) (k : PpuAddr → State → State)
    (hk : ∀ a, Steady (k a)) : Steady fun s => k (a s) (hook (.addr (a s)) s) :=
  bind a ha (fun a s => k a (hook (.addr a) s)) fun a => (hh (.addr a)).comp (hk a)

theorem fetchNt : Steady (Machine.fetchNt hook) :=
  fetch hh (fun s => ntAddr s.ports.v) (fun _ _ _ _ => rfl)
    (fun a s => { s with bg := { s.bg with ntByte := vRead .bg s a } }) fun _ => ⟨fun _ _ _ _ => rfl, fun _ => rfl⟩

theorem fetchAt : Steady (Machine.fetchAt hook) :=
  fetch hh (fun s => atAddr s.ports.v) (fun _ _ _ _ => rfl)
    (fun a s => { s with bg := { s.bg with atByte := vRead .bg s a, atShift := atShiftOf s.ports.v } })
    fun _ => ⟨fun _ _ _ _ => rfl, fun _ => rfl⟩

theorem fetchPtLo : Steady (Machine.fetchPtLo hook) :=
  fetch hh (fun s => ptAddr s.ports s.bg.ntByte 0#14) (fun _ _ _ _ => rfl)
    (fun a s => { s with bg := { s.bg with ptLo := vRead .bg s a } }) fun _ => ⟨fun _ _ _ _ => rfl, fun _ => rfl⟩

theorem fetchPtHi : Steady (Machine.fetchPtHi hook) :=
  fetch hh (fun s => ptAddr s.ports s.bg.ntByte 8#14) (fun _ _ _ _ => rfl)
    (fun a s => { s with
      bg := { s.bg with ptHi := vRead .bg s a }
      ports := { s.ports with v := coarseXInc s.ports.v } }) fun _ => ⟨fun _ _ _ _ => rfl, fun _ => rfl⟩

theorem fetchSlot (c : Nat) : Steady (Machine.fetchSlot hook c) := by
  unfold Machine.fetchSlot
  split
  · exact fetchNt hh
  · exact ite (fetchNt hh) (fetchAt hh)
  · exact fetchPtLo hh
  · exact fetchPtHi hh
  · exact refl

theorem bgCycle (line : Int) (c : Nat) : Steady (Machine.bgCycle hook line c) :=
  ((((((((iteSelf (setBg (fun s => { s.bg with fineXLine := s.ports.x }) fun _ _ _ _ => rfl)).comp
    (iteSelf (setBg (fun s => shiftBg s.bg) fun _ _ _ _ => rfl))).comp
    (iteSelf (setBg (fun s => reloadBg s.bg) fun _ _ _ _ => rfl))).comp
    (iteSelf (fetchSlot hh c))).comp
    (iteSelf (setV (fun s => yInc s.ports.v) fun _ _ _ _ => rfl))).comp
    (iteSelf (setV (fun s => copyHori s.ports.t s.ports.v) fun _ _ _ _ => rfl))).comp
    (iteSelf (setV (fun s => copyVert s.ports.t s.ports.v) fun _ _ _ _ => rfl))).comp
    (iteSelf (g := bgPixel (c - 1)) ⟨fun _ _ _ _ => rfl, fun _ => rfl⟩))

omit hh in
theorem copyEntryStep (line : Int) : Steady (Machine.copyEntryStep line) :=
  cond (fun s => s.eval.m = 0#2) (fun _ _ _ _ => Iff.rfl)
    (cond (fun s => inRange line (evalByte s 0#2) (spriteHeight s.ports) = true) (fun _ _ _ _ => Iff.rfl)
      ⟨fun _ _ _ _ => rfl, fun _ => rfl⟩ ⟨fun _ _ _ _ => rfl, fun _ => rfl⟩)
    ⟨fun _ _ _ _ => rfl, fun _ => rfl⟩

omit hh in
theorem overflowStep (line : Int) : Steady (Machine.overflowStep line) :=
  cond (fun s => inRange line (evalByte s s.eval.m) (spriteHeight s.ports) = true) (fun _ _ _ _ => Iff.rfl)
    ⟨fun _ _ _ _ => rfl, fun _ => rfl⟩ ⟨fun _ _ _ _ => rfl, fun _ => rfl⟩

omit hh in
theorem evalStep (line : Int) : Steady (Machine.evalStep line) := by
  have hstate (e : EvalState) : Steady fun s =>
      match e with
      | .copyEntry => Machine.copyEntryStep line s
      | .overflow => Machine.overflowStep line s
      | .scan => { s with eval := scanStep s.eval }
      | .done => s := by
    cases e with
    | copyEntry => exact copyEntryStep line
    | overflow => exact overflowStep line
    | scan => exact ⟨fun _ _ _ _ => rfl, fun _ => rfl⟩
    | done => exact refl
  exact bind (fun s => s.eval.state) (fun _ _ _ _ => rfl) _ hstate

omit hh in
theorem spriteEvalCycle (line : Int) (c : Nat) : Steady (Machine.spriteEvalCycle line c) :=
  ite ⟨fun _ _ _ _ => rfl, fun _ => rfl⟩
    (ite ⟨fun _ _ _ _ => rfl, fun _ => rfl⟩ (iteSelf (evalStep line)))

theorem fetchSprLo (line : Int) (i : Nat) : Steady (Machine.fetchSprLo hook line i) :=
  fetch hh (fun s => sprAddr s.ports line s.fetch (decide (i < s.eval.copiedCount)) 0#14) (fun _ _ _ _ => rfl)
    (fun a s => { s with fetch := { s.fetch with lo := vRead .spr s a } }) fun _ => ⟨fun _ _ _ _ => rfl, fun _ => rfl⟩

theorem fetchSprHi (line : Int) (i : Nat) : Steady (Machine.fetchSprHi hook line i) :=
  fetch hh (fun s => sprAddr s.ports line s.fetch (decide (i < s.eval.copiedCount)) 8#14) (fun _ _ _ _ => rfl)
    (fun a s => { s with slots := s.slots.setIfInBounds i (filledSlot line s.eval s.fetch i (vRead .spr s a)) })
    fun _ => ⟨fun _ _ _ _ => rfl, fun _ => rfl⟩

theorem spriteFetchCycle (line : Int) (c : Nat) : Steady (Machine.spriteFetchCycle hook line c) := by
  have hstart : Steady fun s =>
      let s := { s with ports := { s.ports with oamAddr := 0 } }
      if c = 257 then { s with slots := killSlots s.slots } else s :=
    comp (g := fun s => { s with ports := { s.ports with oamAddr := 0 } }) ⟨fun _ _ _ _ => rfl, fun _ => rfl⟩
      (iteSelf (g := fun s => { s with slots := killSlots s.slots }) ⟨fun _ _ _ _ => rfl, fun _ => rfl⟩)
  have hslot (i k : Nat) : Steady fun s =>
      match k with
      | 1 => { s with fetch := latchSprite s i }
      | 5 => Machine.fetchSprLo hook line i s
      | 7 => Machine.fetchSprHi hook line i s
      | _ => s := by
    split
    · exact ⟨fun _ _ _ _ => rfl, fun _ => rfl⟩
    · exact fetchSprLo hh line i
    · exact fetchSprHi hh line i
    · exact refl
  unfold Machine.spriteFetchCycle
  generalize (c - 257) / 8 = i
  generalize (c - 257) % 8 = k
  exact iteSelf (hstart.comp (hslot i k))

omit hh in
theorem blankCycle (line : Int) (c : Nat) : Steady (Machine.blankCycle line c) :=
  (iteSelf (setBg (fun s => setBgLine (c - 1) BgPixel.transparent s.bg) fun _ _ _ _ => rfl)).comp
    (iteSelf (g := fun s => { s with slots := killSlots s.slots }) ⟨fun _ _ _ _ => rfl, fun _ => rfl⟩)

omit hh in
theorem composePixel (line : Int) (col : Nat) : Steady (Machine.composePixel line col) :=
  ⟨fun _ _ _ _ => rfl, fun _ => rfl⟩

theorem cycleUnits (line : Int) (c : Nat) : Steady (Machine.cycleUnits hook line c) := by
  have hrender : Steady (renderCycle hook line c) := by
    rw [funext (renderCycle_eq hook line c)]
    refine Steady.comp (Steady.comp (g := lineHook hook line c) (h := fetchUnits hook line c) ?_ ?_) ?_
    · exact ite (hh _) (iteSelf (hh _))
    · exact cond (fun s => s.ports.renderingEnabled = true) (fun _ _ _ _ => Iff.rfl)
        (((bgCycle hh line c).comp (spriteEvalCycle line c)).comp (spriteFetchCycle hh line c)) (blankCycle line c)
    · exact iteSelf (composePixel line (c - 1))
  exact iteSelf hrender

/-! ### The counters and the end of a line -/

omit hh in
theorem oddFrameSkip (line : Int) (c : Nat) : Steady (Machine.oddFrameSkip line c) :=
  cond (fun s => line = -1 ∧ c = 340 ∧ s.scan.oddFrame = true ∧ s.ports.showBg = true) (fun _ _ _ _ => Iff.rfl)
    ⟨fun _ _ _ _ => rfl, fun _ => rfl⟩ refl

omit hh in
theorem countOnly (line : Int) : Steady (Machine.countOnly line) := by
  rw [funext (countOnly_eq line)]
  exact ⟨fun _ _ _ _ => rfl, fun _ => rfl⟩

theorem startLine (next : Int) : Steady (Machine.startLine hook next) :=
  (hh _).comp (h := fun s => { s with scan := { s.scan with cycleInLine := 1, lineCyclesLeft := Config.cyclesPerLine } })
    ⟨fun _ _ _ _ => rfl, fun _ => rfl⟩

variable {notify : Notify} (hn : ∀ e, Steady (notify e))
include hn

omit hh in
theorem enterVBlank (ts : Nat) : Steady (Machine.enterVBlank notify ts) := by
  have hedge : Steady (realNmiEdge notify ts) :=
    cond (fun s => nmiIsRegistered s ts = true) (fun _ _ _ _ => Iff.rfl) ⟨fun _ _ _ _ => rfl, fun _ => rfl⟩ (hn _)
  exact comp (g := fun s => { s with ports := s.ports.enterVBlank }) ⟨fun _ _ _ _ => rfl, fun _ => rfl⟩
    (cond (fun s => s.ports.nmie = true) (fun _ _ _ _ => Iff.rfl) hedge refl)

omit hh in
theorem enterLine (next : Int) (ts : Nat) : Steady (Machine.enterLine notify next ts) := by
  have hmove : Steady fun s => { s with scan := { s.scan with scanline := next } } :=
    ⟨fun _ _ _ _ => rfl, fun _ => rfl⟩
  exact ite (hmove.comp (enterVBlank hn ts)) (ite (hmove.comp (h := startFrame) ⟨fun _ _ _ _ => rfl, fun _ => rfl⟩) hmove)

end hooks

theorem countCycle {cb : Callbacks} (hh : ∀ e, Steady (cb.hook e)) (hn : ∀ e, Steady (cb.notify e)) (line : Int)
    (ts : Nat) : Steady (Machine.countCycle cb line ts) := by
  have hend : Steady (endOfScanline cb line ts) := by
    rw [funext (endOfScanline_eq cb line ts)]
    exact bind (fun s => nextLine s.cfg line) (fun _ _ _ _ => rfl)
      (fun next s => Machine.startLine cb.hook next (Machine.enterLine cb.notify next ts s))
      fun next => (enterLine hn next ts).comp (startLine hh next)
  exact comp (g := countDown) ⟨fun _ _ _ _ => rfl, fun _ => rfl⟩
    (cond (fun s => s.scan.lineCyclesLeft = 0) (fun _ _ _ _ => Iff.rfl) hend refl)

end Steady

/-! ## Callbacks whose answers make no calls -/

theorem runCalls_of_dropped (calls : List HookCall) (s : State) : runCalls (fun _ s => s) calls s = s :=
  List.foldl_fixed calls

/-- At the innermost depth of nesting a hook takes its answer off the script and makes no call. -/
theorem callbacks_zero_hook (e : HookEvent) (s : State) :
    (callbacks 0).hook e s = { emit (.hook e) s with hookScript := s.hookScript.tail } := by
  cases h : s.hookScript with
  | nil => rw [callbacks_hook_unscripted 0 e h, List.tail_nil, ← h]; rfl
  | cons calls rest => simp only [callbacks, callbacksWith, hookWith, emit_hookScript, h, runCalls_of_dropped, List.tail_cons]

theorem callbacks_zero_notify (e : Event) (s : State) :
    (callbacks 0).notify e s =
      if 0 < s.clock.syncDepth then { emit e s with noticeScript := s.noticeScript.tail } else emit e s := by
  split
  · rename_i hs
    cases h : s.noticeScript with
    | nil => rw [callbacks_notify_unscripted 0 e h, List.tail_nil, ← h]; rfl
    | cons calls rest =>
      simp only [callbacks, callbacksWith, notifyWith, emit_clock, hs, if_true, emit_noticeScript, h,
        runCalls_of_dropped, List.tail_cons]
  · exact callbacks_notify_between 0 e (by omega)

theorem callbacks_zero_hook_steady (e : HookEvent) : Steady ((callbacks 0).hook e) := by
  rw [funext (callbacks_zero_hook e)]
  exact ⟨fun _ _ _ _ => rfl, fun _ => rfl⟩

theorem callbacks_zero_notify_steady (e : Event) : Steady ((callbacks 0).notify e) := by
  rw [funext (callbacks_zero_notify e)]
  exact Steady.cond (fun s => 0 < s.clock.syncDepth) (fun _ _ _ _ => Iff.rfl) ⟨fun _ _ _ _ => rfl, fun _ => rfl⟩
    ⟨fun _ _ _ _ => rfl, fun _ => rfl⟩

/-- Everything in a cycle after the DMA's tick. -/
def cycleAfterTick (cb : Callbacks) (line : Int) (c ts : Nat) (s : State) : State :=
  countCycle cb line ts (oddFrameSkip line c (cycleUnits cb.hook line c s))

theorem cycleAfterTick_steady (line : Int) (c ts : Nat) : Steady (cycleAfterTick (callbacks 0) line c ts) :=
  ((Steady.cycleUnits callbacks_zero_hook_steady line c).comp (Steady.oddFrameSkip line c)).comp
    (Steady.countCycle callbacks_zero_hook_steady callbacks_zero_notify_steady line ts)

/-- A host without answers calls back at the innermost depth only. -/
theorem hostCallbacks_of_unscripted {s : State} (h : Unscripted s) : hostCallbacks s = callbacks 0 := by
  obtain ⟨hhooks, hnotices, hreads⟩ := h
  simp [hostCallbacks, scriptLength, hhooks, hnotices, hreads]

end Sys2Proof.Machine
end

section
/-! PROOF. How cycles move the scan position when no callback calls back into the core (O23, O25): as the predictor's replica
moves (R380), since the setup stands. -/

namespace Sys2Proof.Machine

/-! ## The DMA's tick -/

/-- The state in which a phase of the transfer is due: its wait is over. -/
def dmaDue (s : State) : State := { s with dma := { s.dma with timer := 0 } }

section dmaTick

variable (cb : Callbacks) {s : State}

theorem dmaTick_wait (h : 2 ≤ s.dma.timer) :
    dmaTick cb s = { s with dma := { s.dma with timer := s.dma.timer - 1 } } := by
  rw [dmaTick, if_neg (by omega)]
  exact if_pos (show s.dma.timer - 1 > 0 by omega)

theorem dmaTick_due (h : s.dma.timer = 1) {t : State} (hread : s.dma.phase = .read → dmaReadPhase cb (dmaDue s) = t)
    (hwrite : s.dma.phase = .write → dmaWritePhase (dmaDue s) = t) : dmaTick cb s = t := by
  have hdue : { s with dma := { s.dma with timer := s.dma.timer - 1 } } = dmaDue s := by rw [h]; rfl
  rw [dmaTick, if_neg (by omega)]
  dsimp only
  rw [if_neg (by omega), hdue]
  split
  · exact hread ‹_›
  · exact hwrite ‹_›

theorem dmaTick_read (h : s.dma.timer = 1) (hphase : s.dma.phase = .read) :
    dmaTick cb s = dmaReadPhase cb (dmaDue s) :=
  dmaTick_due cb h (fun _ => rfl) fun hw => by simp [hphase] at hw

theorem dmaTick_write (h : s.dma.timer = 1) (hphase : s.dma.phase = .write) :
    dmaTick cb s = dmaWritePhase (dmaDue s) :=
  dmaTick_due cb h (fun hr => by simp [hphase] at hr) fun _ => rfl

/-- The four things a tick can do (R362). -/
theorem dmaTick_cases (s : State) :
    (s.dma.timer = 0 ∧ dmaTick cb s = s) ∨
    (2 ≤ s.dma.timer ∧ dmaTick cb s = { s with dma := { s.dma with timer := s.dma.timer - 1 } }) ∨
    (s.dma.timer = 1 ∧ s.dma.phase = .read ∧ dmaTick cb s = dmaReadPhase cb (dmaDue s)) ∨
    (s.dma.timer = 1 ∧ s.dma.phase = .write ∧ dmaTick cb s = dmaWritePhase (dmaDue s)) := by
  by_cases h0 : s.dma.timer = 0
  · exact .inl ⟨h0, dmaTick_idle cb h0⟩
  by_cases h2 : 2 ≤ s.dma.timer
  · exact .inr (.inl ⟨h2, dmaTick_wait cb h2⟩)
  have h1 : s.dma.timer = 1 := by omega
  cases hphase : s.dma.phase with
  | read => exact .inr (.inr (.inl ⟨h1, rfl, dmaTick_read cb h1 hphase⟩))
  | write => exact .inr (.inr (.inr ⟨h1, rfl, dmaTick_write cb h1 hphase⟩))

end dmaTick

/-! ## The setup stands -/

section reads

variable {hook : Hook} {notify : Notify}

theorem invalidateNmi_setup (hn : ∀ e, Steady (notify e)) (s : State) : setup (invalidateNmi notify s) = setup s := by
  rw [invalidateNmi_frame]
  exact (hn _).setup s

theorem rdStatus_setup (hn : ∀ e, Steady (notify e)) (s : State) : setup (rdStatus notify s) = setup s := by
  change setup (if atRace s then raceRead notify s else s) = setup s
  split
  · unfold raceRead
    split
    · exact (invalidateNmi_setup hn _).trans ((hn _).setup s)
    · rfl
  · rfl

theorem rdData_setup (hh : ∀ e, Steady (hook e)) (s : State) : setup (rdData hook s) = setup s := by
  unfold rdData
  extract_lets a s1 r
  rw [incrementV_frame]
  exact (hh _).setup s

/-- The read of a register, also of one with side effects, leaves the control and the mask register alone. -/
theorem busEffect_read_setup (hh : ∀ e, Steady (hook e)) (hn : ∀ e, Steady (notify e)) (r : BitVec 3) (d : Byte)
    (s : State) : setup (busEffect hook notify (busReadOp r) d s) = setup s := by
  unfold busReadOp
  split
  case h_3 => exact rdStatus_setup hn s
  case h_8 => exact rdData_setup hh s
  all_goals rfl

theorem nestedPortRead_setup (hh : ∀ e, Steady (hook e)) (hn : ∀ e, Steady (notify e)) (a : CpuAddr) (s : State) :
    setup (nestedPortRead hook notify a s) = setup s := by
  cases hop : decodeBus (0#1 ++ a) with
  | none => rw [nestedPortRead_of_not_decodes _ _ _ hop]
  | some op =>
    obtain ⟨r, rfl⟩ := decodeBus_read hop
    rw [nestedPortRead_of_decodes _ _ _ hop]
    exact busEffect_read_setup hh hn r 0 _

end reads

theorem callbacks_zero_cpuRead_setup (a : CpuAddr) (s : State) : setup ((callbacks 0).cpuRead a s).1 = setup s := by
  have hport := nestedPortRead_setup callbacks_zero_hook_steady callbacks_zero_notify_steady a (emit (.cpuRead a) s)
  refine Eq.trans ?_ hport
  simp only [callbacks, callbacksWith, cpuReadWith, runCalls_of_dropped]
  split <;> rfl

theorem dmaTick_setup (s : State) : setup (dmaTick (callbacks 0) s) = setup s := by
  obtain ⟨-, h⟩ | ⟨-, h⟩ | ⟨-, -, h⟩ | ⟨-, -, h⟩ := dmaTick_cases (callbacks 0) s <;> rw [h]
  · rfl
  · exact callbacks_zero_cpuRead_setup _ _
  · unfold dmaWritePhase
    dsimp only
    split <;> rfl

theorem ppuCycle_setup (ts : Nat) (s : State) : setup (ppuCycle (callbacks 0) ts s) = setup s := by
  by_cases h : positionExpected s = true
  · rw [ppuCycle_expected _ _ h]
    exact ((cycleAfterTick_steady _ _ ts).setup _).trans (dmaTick_setup (stamped ts s))
  · rw [ppuCycle_unexpected _ _ h]
    exact (Steady.countOnly _).setup _

/-! ## One cycle moves the position as the replica's cycle does -/

theorem Replica.endsLine_iff (r : Replica) : r.endsLine = true ↔
    (r.line = -1 ∧ r.c = 340 ∧ r.odd = true ∧ r.bg = true) ∨ r.left ≤ 1 := by
  rw [Replica.endsLine, decide_eq_true_eq]
  split
  · simp [*]
  · simp only [*, false_or]
    omega

theorem Replica.cycle_within (cfg : Config) {r : Replica} (h : ¬r.endsLine = true) :
    r.cycle cfg = { r with c := r.c + 1, left := r.left - 1 } := if_neg h

theorem Replica.cycle_end (cfg : Config) {r : Replica} (h : r.endsLine = true) :
    r.cycle cfg = { r with
      line := replicaNextLine cfg r.line
      odd := if replicaNextLine cfg r.line = -1 then !r.odd else r.odd
      c := 1
      left := 341 } := if_pos h

/-- Inside the frame the replica's next line is the machine's. -/
theorem nextLine_eq_replicaNextLine {cfg : Config} {line : Int} (hlow : -1 ≤ line) (hhigh : line ≤ cfg.lastLine) :
    nextLine cfg line = replicaNextLine cfg line := by
  have hcond : (line = cfg.lastLine ∨ line < -1 ∨ cfg.lastLine < line) ↔ line = cfg.lastLine := by omega
  simp only [nextLine, replicaNextLine, hcond]

/-- The position a replica is at. -/
def Replica.scan (r : Replica) : Scan := ⟨r.line, r.c, r.left, r.odd⟩

theorem replicaOf_eq_iff (s : State) (r : Replica) :
    replicaOf s = r ↔ s.scan = r.scan ∧ s.ports.showBg = r.bg ∧ s.ports.nmie = r.nmie := by
  refine ⟨fun h => h ▸ ⟨rfl, rfl, rfl⟩, fun ⟨hscan, hbg, hnmie⟩ => ?_⟩
  simp only [replicaOf, hscan, hbg, hnmie, Replica.scan]

/-- A replica sees the position and the setup only. -/
theorem replicaOf_congr {s t : State} (hscan : t.scan = s.scan) (hsetup : setup t = setup s) : replicaOf t = replicaOf s := by
  obtain ⟨hctrl, hmask⟩ := Prod.mk.inj hsetup
  simp only [replicaOf, Ports.showBg, Ports.nmie, hscan, hctrl, hmask]

theorem Replica.cycle_setup (cfg : Config) (r : Replica) : (r.cycle cfg).bg = r.bg ∧ (r.cycle cfg).nmie = r.nmie := by
  unfold Replica.cycle
  split <;> exact ⟨rfl, rfl⟩

/-- Where the skip's test and the counters put the position. -/
theorem countCycle_oddFrameSkip_scan {cb : Callbacks} (hcb : cb.Keeps) (ts : Nat) {s : State} (hs : 0 < s.clock.syncDepth)
    (hpos : positionExpected s = true) :
    (countCycle cb s.scan.scanline ts (oddFrameSkip s.scan.scanline s.scan.cycleInLine s)).scan =
      ((replicaOf s).cycle s.cfg).scan := by
  obtain ⟨hlow, hhigh, -, -⟩ := (positionExpected_iff s).1 hpos
  rw [oddFrameSkip_eq, (countCycle_step hcb _ ts (by exact hs)).1]
  dsimp only
  rw [nextLine_eq_replicaNextLine hlow hhigh]
  by_cases hend : (replicaOf s).endsLine = true
  · rw [Replica.cycle_end _ hend]
    exact if_pos (of_decide_eq_true hend)
  · have hskip : ¬(s.scan.scanline = -1 ∧ s.scan.cycleInLine = 340 ∧ s.scan.oddFrame = true ∧ s.ports.showBg = true) :=
      fun h => hend ((Replica.endsLine_iff _).2 (.inl h))
    have hleft : ¬s.scan.lineCyclesLeft ≤ 1 := fun h => hend ((Replica.endsLine_iff _).2 (.inr h))
    rw [Replica.cycle_within _ hend, if_neg hskip, if_neg (by omega)]
    rfl

/-- A cycle moves the scan position as the replica's cycle does (R164, R172, R174, R380). -/
theorem replicaOf_ppuCycle (ts : Nat) {s : State} (hs : 0 < s.clock.syncDepth) (hpos : positionExpected s = true) :
    replicaOf (ppuCycle (callbacks 0) ts s) = (replicaOf s).cycle s.cfg := by
  have hsetup : setup (ppuCycle (callbacks 0) ts s) = setup s := ppuCycle_setup ts s
  let t := cycleUnits (callbacks 0).hook s.scan.scanline s.scan.cycleInLine (dmaTick (callbacks 0) (stamped ts s))
  have hunits : InCycle (stamped ts s) t :=
    cycleUnits_inCycle (callbacks_keeps 0) (s := stamped ts s) hs s.scan.cycleInLine s.scan.scanline
  have hscan : t.scan = s.scan := hunits.scan
  have hcfg : t.cfg = s.cfg := hunits.cfg
  have htsetup : setup t = setup s :=
    ((Steady.cycleUnits callbacks_zero_hook_steady _ _).setup _).trans (dmaTick_setup (stamped ts s))
  have htpos : positionExpected t = true := by rwa [positionExpected, hscan, hcfg]
  have hcount := countCycle_oddFrameSkip_scan (callbacks_keeps 0) ts (by rw [hunits.syncDepth]; exact hs) htpos
  rw [replicaOf_congr hscan htsetup, hscan, hcfg] at hcount
  obtain ⟨hbg, hnmie⟩ := Replica.cycle_setup s.cfg (replicaOf s)
  obtain ⟨hctrl, hmask⟩ := Prod.mk.inj hsetup
  refine (replicaOf_eq_iff _ _).2 ⟨?_, ?_, ?_⟩
  · rw [ppuCycle_expected _ _ hpos]
    exact hcount
  · rw [hbg, Ports.showBg, hmask]
    rfl
  · rw [hnmie, Ports.nmie, hctrl]
    rfl

theorem positionExpected_of_scanOk {s : State} (h : ScanOk s) : positionExpected s = true :=
  (positionExpected_iff s).2 ⟨h.lineLow, h.lineHigh, h.cycleLow, h.cycleHigh⟩

/-- Settles O23: one cycle of the replica, case by case. -/
theorem oneCycleMovesTheScanPosition : Obligations.OneCycleMovesTheScanPosition := by
  intro ts s hok hu hdepth u skip
  have hbudget := hok.budget
  have hscan : u.scan = ((replicaOf s).cycle s.cfg).scan := by
    unfold u
    rw [hostCallbacks_of_unscripted hu]
    exact ((replicaOf_eq_iff _ _).1 (replicaOf_ppuCycle ts (by omega) (positionExpected_of_scanOk hok))).1
  have hends : (replicaOf s).endsLine = true ↔ skip ∨ s.scan.lineCyclesLeft ≤ 1 := Replica.endsLine_iff _
  refine ⟨fun hc hskip => ?_, fun hend hline => ?_, fun hc hline => ?_⟩
  · have hwithin : ¬(replicaOf s).endsLine = true := fun h => (hends.1 h).elim hskip fun _ => by omega
    rw [hscan, Replica.cycle_within _ hwithin]
    rfl
  · have hend' : (replicaOf s).endsLine = true := hends.2 (hend.symm.imp_right fun _ => by omega)
    have hnext : replicaNextLine s.cfg s.scan.scanline = s.scan.scanline + 1 := if_neg (by omega)
    have hlow := hok.lineLow
    rw [hscan, Replica.cycle_end _ hend']
    simp only [Replica.scan, replicaOf, hnext]
    rw [if_neg (by omega)]
  · have hend' : (replicaOf s).endsLine = true := hends.2 (.inr (by omega))
    have hnext : replicaNextLine s.cfg s.scan.scanline = -1 := if_pos hline
    rw [hscan, Replica.cycle_end _ hend']
    simp only [Replica.scan, replicaOf, hnext, if_true]

/-! ## A frame of cycles -/

/-- A replay moves the scan position as its number of the replica's cycles do. -/
theorem replicaOf_replay (n ts : Nat) {s : State} (hs : 0 < s.clock.syncDepth) (hok : ScanOk s) :
    replicaOf (replay (callbacks 0) n ts s) = (Replica.cycle s.cfg)^[n] (replicaOf s) := by
  induction n generalizing ts s with
  | zero => rfl
  | succ n ih =>
    have hcycle := ppuCycle_cycled (callbacks_keeps 0) ts hs
    have hstart := replicaOf_ppuCycle ts hs (positionExpected_of_scanOk hok)
    rw [replay, ih _ (by rw [hcycle.clock]; exact hs) (hcycle.kept.scanOk hok), hstart, hcycle.kept.cfg,
      Function.iterate_succ_apply]

/-- The cycles of a frame, with the odd-frame skip or not (R178). -/
def frameCycles (cfg : Config) (skip : Bool) : Nat := (cfg.lastLine + 2).toNat * 341 - if skip then 1 else 0

/-- The replica after `k` cycles of a frame: it counts the cycles by its position, and with the skip line −1 has no cycle
341. -/
structure InFrame (cfg : Config) (skip odd : Bool) (k : Nat) (r : Replica) : Prop where
  lineLow   : -1 ≤ r.line
  lineHigh  : r.line ≤ cfg.lastLine
  cycleLow  : 1 ≤ r.c
  cycleHigh : r.c ≤ 341
  budget    : r.c + r.left = 342
  short     : skip = true → r.line = -1 → r.c ≤ 340
  parity    : r.odd = odd
  skips     : skip = true ↔ r.odd = true ∧ r.bg = true
  place     : skip = false ∨ r.line = -1 → (r.line + 1) * 341 + r.c = k + 1
  skipped   : skip = true → 0 ≤ r.line → (r.line + 1) * 341 + r.c = k + 2

namespace InFrame

variable {cfg : Config} {skip odd : Bool} {k : Nat} {r : Replica}

theorem endsLine_iff (h : InFrame cfg skip odd k r) :
    r.endsLine = true ↔ r.c = 341 ∨ (skip = true ∧ r.line = -1 ∧ r.c = 340) := by
  have hbudget := h.budget
  have hhigh := h.cycleHigh
  rw [Replica.endsLine_iff, h.skips]
  constructor
  · rintro (⟨hline, hc, hskip⟩ | hleft)
    · exact .inr ⟨hskip, hline, hc⟩
    · exact .inl (by omega)
  · rintro (hc | ⟨hskip, hline, hc⟩)
    · exact .inr (by omega)
    · exact .inl ⟨hline, hc, hskip⟩

/-- The last place of a frame is cycle 341 of the last line. -/
theorem isLast_iff (h : InFrame cfg skip odd k r) : k + 1 = frameCycles cfg skip ↔ r.line = cfg.lastLine ∧ r.c = 341 := by
  obtain ⟨hlow, hhigh, hc, hc', -, -, -, -, hplace, hskipped⟩ := h
  have hlast := lastLine_cases cfg
  unfold frameCycles
  cases skip
  · have hk := hplace (.inl rfl)
    simp only [Bool.false_eq_true, if_false]
    omega
  · simp only [Bool.true_eq_false, false_or, true_implies] at hplace hskipped
    simp only [if_true]
    omega

theorem cycle_within (h : InFrame cfg skip odd k r) (hend : ¬r.endsLine = true) : InFrame cfg skip odd (k + 1) (r.cycle cfg) := by
  have hends := h.endsLine_iff
  obtain ⟨hlow, hhigh, hc, hc', hbudget, hshort, hparity, hskips, hplace, hskipped⟩ := h
  rw [hends] at hend
  rw [Replica.cycle_within cfg (hends.not.2 hend)]
  refine ⟨hlow, hhigh, ?_, ?_, ?_, fun hskip hline => ?_, hparity, hskips, fun hfull => ?_,
    fun hskip hline => ?_⟩ <;> dsimp only
  · omega
  · omega
  · omega
  · have := hshort hskip hline
    have : r.c ≠ 340 := fun hc => hend (.inr ⟨hskip, hline, hc⟩)
    omega
  · have := hplace hfull
    omega
  · have := hskipped hskip hline
    omega

theorem cycle_end (h : InFrame cfg skip odd k r) (hend : r.endsLine = true) (hline : r.line ≠ cfg.lastLine) :
    InFrame cfg skip odd (k + 1) (r.cycle cfg) := by
  have hedge := h.endsLine_iff.1 hend
  obtain ⟨hlow, hhigh, -, -, -, hshort, hparity, hskips, hplace, hskipped⟩ := h
  have hnext : replicaNextLine cfg r.line = r.line + 1 := if_neg hline
  have hodd : ¬r.line + 1 = -1 := by omega
  rw [Replica.cycle_end _ hend, hnext, if_neg hodd]
  refine ⟨?_, ?_, le_refl 1, Nat.le_add_left 1 340, rfl, fun _ _ => Nat.le_add_left 1 339, hparity, hskips,
    fun hfull => ?_, fun hskip _ => ?_⟩ <;> dsimp only
  · omega
  · omega
  · have hskip : skip = false := hfull.resolve_right hodd
    have hc : r.c = 341 := hedge.resolve_right fun hs => by simp [hskip] at hs
    have := hplace (.inl hskip)
    omega
  · by_cases hfirst : r.line = -1
    · have := hshort hskip hfirst
      have := hplace (.inr hfirst)
      omega
    · have := hskipped hskip (by omega)
      omega

/-- Before the end of the frame a cycle goes to the next place. -/
theorem cycle (h : InFrame cfg skip odd k r) (hk : k + 1 < frameCycles cfg skip) : InFrame cfg skip odd (k + 1) (r.cycle cfg) := by
  by_cases hend : r.endsLine = true
  · refine h.cycle_end hend fun hline => hk.ne (h.isLast_iff.2 ⟨hline, (h.endsLine_iff.1 hend).resolve_right fun hs => ?_⟩)
    have := lastLine_cases cfg
    omega
  · exact h.cycle_within hend

/-- The cycle after the last place starts the next frame, of the other parity (R176). -/
theorem cycle_last (h : InFrame cfg skip odd k r) (hk : k + 1 = frameCycles cfg skip) :
    (r.cycle cfg).scan = ⟨-1, 1, 341, !odd⟩ := by
  obtain ⟨hline, hc⟩ := h.isLast_iff.1 hk
  have hnext : replicaNextLine cfg r.line = -1 := if_pos hline
  rw [Replica.cycle_end cfg (h.endsLine_iff.2 (.inl hc)), hnext, if_pos rfl, h.parity]
  rfl

/-- The first place of a frame is the only one at its position. -/
theorem isFirst (h : InFrame cfg skip odd k r) (hline : r.line = -1) (hc : r.c = 1) : k = 0 := by
  have := h.place (.inr hline)
  omega

/-- The places of a frame, one cycle after the other. -/
theorem iterate (h : InFrame cfg skip odd 0 r) (hk : k < frameCycles cfg skip) :
    InFrame cfg skip odd k ((Replica.cycle cfg)^[k] r) := by
  induction k with
  | zero => exact h
  | succ k ih =>
    rw [Function.iterate_succ_apply']
    exact (ih (by omega)).cycle hk

end InFrame

/-- Settles O25: a frame of the replica, which the replay follows. -/
theorem frameLength : Obligations.FrameLength := by
  intro ts s hu hdepth hline hc hleft n
  let skip := s.scan.oddFrame && s.ports.mask.getLsbD 3
  have hlast := lastLine_cases s.cfg
  have hok : ScanOk s := ⟨by omega, by omega, by omega, by omega, by omega⟩
  have hreplay (k : Nat) : replicaOf (replay (hostCallbacks s) k ts s) = (Replica.cycle s.cfg)^[k] (replicaOf s) := by
    rw [hostCallbacks_of_unscripted hu]
    exact replicaOf_replay k ts (by omega) hok
  have hstart : InFrame s.cfg skip s.scan.oddFrame 0 (replicaOf s) := by
    refine ⟨hok.lineLow, hok.lineHigh, hok.cycleLow, hok.cycleHigh, hok.budget, fun _ _ => ?_, rfl, Bool.and_eq_true_iff,
      fun _ => ?_, fun _ h0 => ?_⟩ <;> simp only [replicaOf] at *
    · omega
    · omega
    · omega
  have hn : n = frameCycles s.cfg skip := rfl
  have hpos : 0 < n := by
    rw [hn, frameCycles]
    split <;> omega
  refine ⟨?_, fun k hk hkn ⟨hkline, hkc⟩ => ?_⟩
  · obtain ⟨k, hk⟩ := Nat.exists_eq_succ_of_ne_zero hpos.ne'
    have hcycle := (hstart.iterate (k := k) (by omega)).cycle_last (by omega)
    rw [← Function.iterate_succ_apply' (Replica.cycle s.cfg), ← hk, ← hreplay] at hcycle
    exact hcycle
  · have hin := hstart.iterate (hn ▸ hkn)
    rw [← hreplay] at hin
    exact hk.ne' (hin.isFirst hkline hkc)

end Sys2Proof.Machine
end

section
/-! PROOF. Two syncs leave the state of one sync to the later time (O21). With no answers of the host and no DMA read of a
port, a replay reads neither the time it replays up to nor the result, so that cutting it in two changes neither. -/

namespace Sys2Proof.Machine

/-! ## DMA reads that see nothing of the clock -/

/-- A CPU address that is no port, or the write-only `$2000`, whose read returns the shadow only (R213). -/
def QuietRead (a : CpuAddr) : Prop := decodeBus (0#1 ++ a) = none ∨ decodeBus (0#1 ++ a) = some .rdCtrl

/-- The state in which the host is asked for the byte of such a read. -/
def quietReadAsked (a : CpuAddr) (s : State) : State :=
  if decodeBus (0#1 ++ a) = none then emit (.cpuRead a) s
  else returnByte s.ports.lastWritten (diag .reentrantSync (emit (.cpuRead a) s))

theorem callbacks_zero_cpuRead_quiet {a : CpuAddr} (ha : QuietRead a) {s : State} (hs : s.cpuScript = []) :
    (callbacks 0).cpuRead a s =
      ({ quietReadAsked a s with drawCount := s.drawCount + 1 }, Config.freeCpuByte s.drawCount a) := by
  have hport : nestedPortRead (callbacks 0).hook (callbacks 0).notify a (emit (.cpuRead a) s) = quietReadAsked a s := by
    unfold quietReadAsked
    obtain hnone | hctrl := ha
    · rw [if_pos hnone, nestedPortRead_of_not_decodes _ _ _ hnone]
    · rw [if_neg (by simp [hctrl]), nestedPortRead_of_decodes _ _ _ hctrl]
      rfl
  have hscript : (quietReadAsked a s).cpuScript = [] := by
    unfold quietReadAsked
    split <;> exact hs
  have hdraw : (quietReadAsked a s).drawCount = s.drawCount := by
    unfold quietReadAsked
    split <;> rfl
  simp only [callbacks, callbacksWith, cpuReadWith] at hport ⊢
  simp only [hport, hscript, hdraw]

theorem quietReadAsked_retimed (a : CpuAddr) (last rem : Nat) (r : Result) (s : State) :
    ∃ r', quietReadAsked a (retimed last rem r s) = retimed last rem r' (quietReadAsked a s) := by
  unfold quietReadAsked
  split
  · exact ⟨r, rfl⟩
  · exact ⟨.byte s.ports.lastWritten, rfl⟩

theorem quietReadAsked_frame (a : CpuAddr) (s : State) :
    (quietReadAsked a s).dma = s.dma ∧ (quietReadAsked a s).pred = s.pred := by
  unfold quietReadAsked
  split <;> exact ⟨rfl, rfl⟩

/-- The reads a transfer can still make: its write counter runs to 256, from 511 by way of 0 (R362). -/
def readsLeft (d : Dma) : Nat :=
  if d.timer = 0 then 0 else (if d.phase = .read then 1 else 0) + (256 - (d.writeAddress + 1#9).toNat)

/-- Every read a transfer can still make is a quiet one. -/
def QuietDma (d : Dma) : Prop := ∀ k, k < readsLeft d → QuietRead (d.readAddress + BitVec.ofNat 16 k)

theorem quietRead_of_outside {a : CpuAddr} (h : a.extractLsb' 13 3 ≠ 1#3) : QuietRead a := by
  refine .inl (Classical.not_not.1 (mt (inRegisterWindow_iff a).2 ?_))
  simpa [inRegisterWindow] using h

theorem window_iff (a : CpuAddr) : a.extractLsb' 13 3 = 1#3 ↔ 8192 ≤ a.toNat ∧ a.toNat < 16384 := by
  have ha := a.isLt
  rw [← BitVec.toNat_inj, BitVec.extractLsb'_toNat, Nat.shiftRight_eq_div_pow]
  show a.toNat / 8192 % 8 = 1 ↔ _
  omega

/-- The address after the last of 256 addresses outside the ports can only be the first port. -/
theorem quietDma_of_readsNoPort {s : State} (h : ReadsNoPort s) : QuietDma s.dma := by
  intro k hk
  obtain hidle | hout := h
  · simp [readsLeft, hidle] at hk
  · by_cases hlast : k < 256
    · exact quietRead_of_outside (hout k hlast)
    · have hk256 : k = 256 := by
        unfold readsLeft at hk
        split at hk
        · omega
        · split at hk <;> omega
      subst hk256
      by_cases hport : (s.dma.readAddress + BitVec.ofNat 16 256).extractLsb' 13 3 = 1#3
      · have h255 := mt (window_iff _).2 (hout 255 (by omega))
        have h256 := (window_iff _).1 hport
        have hfirst : s.dma.readAddress + BitVec.ofNat 16 256 = 0x2000#16 := by
          apply BitVec.eq_of_toNat_eq
          rw [BitVec.toNat_add, BitVec.toNat_ofNat] at h255 h256 ⊢
          simp only [BitVec.toNat_ofNat]
          omega
        exact .inr (hfirst ▸ by decide)
      · exact quietRead_of_outside hport

/-! ## A tick of such a transfer -/

/-- The DMA after a read phase (R362). -/
def dmaAfterRead (s : State) : Dma :=
  { s.dma with
    buffer := Config.freeCpuByte s.drawCount s.dma.readAddress
    readAddress := s.dma.readAddress + 1#16
    phase := .write
    timer := 3 }

theorem dmaReadPhase_quiet {s : State} (ha : QuietRead s.dma.readAddress) (hs : s.cpuScript = []) :
    dmaReadPhase (callbacks 0) s =
      { quietReadAsked s.dma.readAddress s with drawCount := s.drawCount + 1, dma := dmaAfterRead s } := by
  rw [dmaReadPhase, callbacks_zero_cpuRead_quiet ha hs, (quietReadAsked_frame s.dma.readAddress s).1]
  rfl

theorem dmaReadPhase_retimed {s : State} (ha : QuietRead s.dma.readAddress) (hs : s.cpuScript = []) (last rem : Nat)
    (r : Result) :
    ∃ r', dmaReadPhase (callbacks 0) (retimed last rem r s) = retimed last rem r' (dmaReadPhase (callbacks 0) s) := by
  obtain ⟨r', hr'⟩ := quietReadAsked_retimed s.dma.readAddress last rem r s
  refine ⟨r', ?_⟩
  rw [dmaReadPhase_quiet ha hs, dmaReadPhase_quiet (s := retimed last rem r s) ha hs]
  exact congrArg (fun t => { t with drawCount := s.drawCount + 1, dma := dmaAfterRead s }) hr'

section write

variable {s : State}

theorem dmaWritePhase_more (h : (s.dma.writeAddress + 1#9).toNat < 256) :
    dmaWritePhase s = { oamWrite s.dma.buffer s with
      dma := { s.dma with writeAddress := s.dma.writeAddress + 1#9, phase := .read, timer := 3 } } := if_pos h

theorem dmaWritePhase_last (h : ¬(s.dma.writeAddress + 1#9).toNat < 256) :
    dmaWritePhase s = { oamWrite s.dma.buffer s with
      dma := { s.dma with writeAddress := s.dma.writeAddress + 1#9 } } := if_neg h

theorem dmaWritePhase_retimed (last rem : Nat) (r : Result) :
    dmaWritePhase (retimed last rem r s) = retimed last rem r (dmaWritePhase s) := by
  by_cases h : (s.dma.writeAddress + 1#9).toNat < 256
  · rw [dmaWritePhase_more h, dmaWritePhase_more (s := retimed last rem r s) h]
    rfl
  · rw [dmaWritePhase_last h, dmaWritePhase_last (s := retimed last rem r s) h]
    rfl

end write

section tick

variable {s : State}

theorem quietRead_of_due (hq : QuietDma s.dma) (h1 : s.dma.timer = 1) (hphase : s.dma.phase = .read) :
    QuietRead (dmaDue s).dma.readAddress := by
  have hleft : 0 < readsLeft s.dma := by
    rw [readsLeft, if_neg (by omega), if_pos hphase]
    omega
  simpa [dmaDue] using hq 0 hleft

variable (hs : s.cpuScript = []) (hq : QuietDma s.dma)
include hs hq

theorem dmaTick_retimed (last rem : Nat) (r : Result) :
    ∃ r', dmaTick (callbacks 0) (retimed last rem r s) = retimed last rem r' (dmaTick (callbacks 0) s) := by
  obtain ⟨h0, h⟩ | ⟨h2, h⟩ | ⟨h1, hphase, h⟩ | ⟨h1, hphase, h⟩ := dmaTick_cases (callbacks 0) s <;> rw [h]
  · exact ⟨r, dmaTick_idle _ h0⟩
  · exact ⟨r, dmaTick_wait _ (s := retimed last rem r s) h2⟩
  · rw [dmaTick_read _ (s := retimed last rem r s) h1 hphase]
    exact dmaReadPhase_retimed (s := dmaDue s) (quietRead_of_due hq h1 hphase) hs last rem r
  · rw [dmaTick_write _ (s := retimed last rem r s) h1 hphase]
    exact ⟨r, dmaWritePhase_retimed (s := dmaDue s) last rem r⟩

theorem dmaTick_pendingHorizon : (dmaTick (callbacks 0) s).pred.pendingHorizon = s.pred.pendingHorizon := by
  obtain ⟨-, h⟩ | ⟨-, h⟩ | ⟨h1, hphase, h⟩ | ⟨-, -, h⟩ := dmaTick_cases (callbacks 0) s <;> rw [h]
  · rw [dmaReadPhase_quiet (s := dmaDue s) (quietRead_of_due hq h1 hphase) hs]
    exact congrArg Prediction.pendingHorizon (quietReadAsked_frame s.dma.readAddress (dmaDue s)).2
  · unfold dmaWritePhase
    dsimp only
    split <;> rfl

/-- A tick makes one of the reads that are left, or none. -/
theorem dmaTick_quietDma : QuietDma (dmaTick (callbacks 0) s).dma := by
  obtain ⟨-, h⟩ | ⟨h2, h⟩ | ⟨h1, hphase, h⟩ | ⟨h1, hphase, h⟩ := dmaTick_cases (callbacks 0) s <;> rw [h]
  · exact hq
  · refine fun k hk => hq k ?_
    unfold readsLeft at hk ⊢
    rw [if_neg (show ¬s.dma.timer - 1 = 0 by omega)] at hk
    rw [if_neg (by omega)]
    exact hk
  · rw [dmaReadPhase_quiet (s := dmaDue s) (quietRead_of_due hq h1 hphase) hs]
    intro k hk
    have hnext : s.dma.readAddress + 1#16 + BitVec.ofNat 16 k = s.dma.readAddress + BitVec.ofNat 16 (k + 1) := by
      rw [Nat.add_comm k 1, BitVec.ofNat_add, BitVec.add_assoc]
    change QuietRead (s.dma.readAddress + 1#16 + BitVec.ofNat 16 k)
    rw [hnext]
    refine hq (k + 1) ?_
    rw [readsLeft, if_neg (by omega), if_pos hphase]
    change k < 0 + (256 - (s.dma.writeAddress + 1#9).toNat) at hk
    omega
  · by_cases hmore : (s.dma.writeAddress + 1#9).toNat < 256
    · rw [dmaWritePhase_more (s := dmaDue s) hmore]
      refine fun k hk => hq k ?_
      rw [readsLeft, if_neg (by omega), if_neg (by simp [hphase])]
      change k < 1 + (256 - (s.dma.writeAddress + 1#9 + 1#9).toNat) at hk
      rw [BitVec.toNat_add] at hk
      have hone : (1#9).toNat = 1 := rfl
      omega
    · rw [dmaWritePhase_last (s := dmaDue s) hmore]
      exact fun k hk => absurd hk (Nat.not_lt_zero k)

end tick

/-! ## Cycles of a calm state -/

/-- No answer of the host is left, nothing is asked for at the end of the replay, and the DMA reads no port but `$2000`. -/
structure Calm (s : State) : Prop where
  unscripted : Unscripted s
  remeasure  : s.clock.remeasure = false
  noDeferred : s.pred.pendingHorizon = 0
  quiet      : QuietDma s.dma

theorem ppuCycle_calm (ts : Nat) {s : State} (h : Calm s) (hs : 0 < s.clock.syncDepth) :
    Calm (ppuCycle (callbacks 0) ts s) := by
  obtain ⟨hu, hm, hd, hq⟩ := h
  have howed : owed s = 0 := by
    obtain ⟨hhooks, hnotices, hreads⟩ := hu
    simp [owed, scriptLength, hhooks, hnotices, hreads, hm]
  have hpaid := howed ▸ (ppuCycle_pays (callbacks_pay 0) ts hs).owed
  have hdma : QuietDma (ppuCycle (callbacks 0) ts s).dma ∧ (ppuCycle (callbacks 0) ts s).pred.pendingHorizon = 0 := by
    by_cases hpos : positionExpected s = true
    · have hticks := cycleAfterTick_steady s.scan.scanline s.scan.cycleInLine ts
      rw [ppuCycle_expected _ _ hpos]
      change QuietDma (cycleAfterTick _ _ _ _ _).dma ∧ (cycleAfterTick _ _ _ _ _).pred.pendingHorizon = 0
      rw [hticks.dma, hticks.pendingHorizon]
      exact ⟨dmaTick_quietDma (s := stamped ts s) hu.2.2 hq,
        (dmaTick_pendingHorizon (s := stamped ts s) hu.2.2 hq).trans hd⟩
    · rw [ppuCycle_unexpected _ _ hpos, (Steady.countOnly _).dma, (Steady.countOnly _).pendingHorizon]
      exact ⟨hq, hd⟩
  refine ⟨(KeepsMaps.ppuCycle (callbacks_keepMaps 0) ts s hu).1, ?_, hdma.2, hdma.1⟩
  unfold owed at hpaid
  by_contra hc
  rw [if_pos (Bool.eq_true_of_not_eq_false hc)] at hpaid
  omega

theorem replay_calm (n ts : Nat) {s : State} (h : Calm s) (hs : 0 < s.clock.syncDepth) :
    Calm (replay (callbacks 0) n ts s) := by
  induction n generalizing ts s with
  | zero => exact h
  | succ n ih =>
    refine ih _ (ppuCycle_calm ts h hs) ?_
    rw [(ppuCycle_cycled (callbacks_keeps 0) ts hs).clock]
    exact hs

theorem ppuCycle_retimed (ts : Nat) {s : State} (h : Calm s) (last rem : Nat) (r : Result) :
    ∃ r', ppuCycle (callbacks 0) ts (retimed last rem r s) = retimed last rem r' (ppuCycle (callbacks 0) ts s) := by
  by_cases hpos : positionExpected s = true
  · obtain ⟨r', hr'⟩ := dmaTick_retimed (s := stamped ts s) h.unscripted.2.2 h.quiet last rem r
    refine ⟨r', ?_⟩
    rw [ppuCycle_expected _ _ hpos, ppuCycle_expected _ _ (s := retimed last rem r s) hpos]
    exact (congrArg (cycleAfterTick (callbacks 0) s.scan.scanline s.scan.cycleInLine ts) hr').trans
      ((cycleAfterTick_steady _ _ ts).time last rem r' _)
  · rw [ppuCycle_unexpected _ _ hpos, ppuCycle_unexpected _ _ (s := retimed last rem r s) hpos]
    exact ⟨r, (Steady.countOnly s.scan.scanline).time last rem r (diag .invariantViolation (stamped ts s))⟩

/-- The cycles of a replay do not see the time it replays up to. -/
theorem replay_retimed (n ts : Nat) {s : State} (h : Calm s) (hs : 0 < s.clock.syncDepth) (last rem : Nat) (r : Result) :
    ∃ r', replay (callbacks 0) n ts (retimed last rem r s) = retimed last rem r' (replay (callbacks 0) n ts s) := by
  induction n generalizing ts s r with
  | zero => exact ⟨r, rfl⟩
  | succ n ih =>
    obtain ⟨r', hr'⟩ := ppuCycle_retimed ts h last rem r
    have hs' : 0 < (ppuCycle (callbacks 0) ts s).clock.syncDepth := by
      rw [(ppuCycle_cycled (callbacks_keeps 0) ts hs).clock]
      exact hs
    simp only [replay, hr']
    exact ih _ (ppuCycle_calm ts h hs) hs' r'

theorem replay_add (m n ts : Nat) {s : State} (hs : 0 < s.clock.syncDepth) :
    replay (callbacks 0) (m + n) ts s =
      replay (callbacks 0) n (ts + m * s.cfg.clockDivider) (replay (callbacks 0) m ts s) := by
  induction m generalizing ts s with
  | zero => simp [replay]
  | succ m ih =>
    have hcycle := ppuCycle_cycled (callbacks_keeps 0) ts hs
    rw [Nat.succ_add, replay, ih _ (by rw [hcycle.clock]; exact hs), hcycle.kept.cfg, replay, Nat.add_assoc, Nat.succ_mul,
      Nat.add_comm s.cfg.clockDivider]

/-! ## Two synchronizations -/

/-- The time a synchronization turns into cycles (R160). -/
def dueTime (now : Nat) (s : State) : Nat := (now - s.clock.lastSyncTimestamp) + s.clock.remainder

/-- The end of the first cycle of a replay (R161). -/
def firstEnd (s : State) : Nat := s.clock.lastSyncTimestamp + s.cfg.clockDivider - s.clock.remainder

/-- The state the cycles of a synchronization start from. -/
def passStart (now : Nat) (s : State) : State :=
  { s with clock := { s.clock with
      syncDepth := 1
      remainder := dueTime now s % s.cfg.clockDivider
      lastSyncTimestamp := now } }

/-- The state they end in. -/
def passRun (now : Nat) (s : State) : State :=
  replay (callbacks 0) (dueTime now s / s.cfg.clockDivider) (firstEnd s) (passStart now s)

section sync

variable {now : Nat} {s : State}

theorem passStart_calm (h : Calm s) : Calm (passStart now s) := ⟨h.unscripted, h.remeasure, h.noDeferred, h.quiet⟩

theorem passRun_calm (h : Calm s) : Calm (passRun now s) := replay_calm _ _ (passStart_calm h) Nat.one_pos

theorem passRun_cycled (now : Nat) (s : State) : Cycled (passStart now s) (passRun now s) :=
  replay_cycled (callbacks_keeps 0) _ _ Nat.one_pos

/-- A synchronization of a calm state is one pass (R160). -/
theorem exec_sync_calm (h : Calm s) (hd : s.clock.syncDepth = 0) (hnow : s.clock.lastSyncTimestamp ≤ now) :
    exec (.sync now) s = .next (noResult (endReplay (passRun now s))) := by
  have hcb : hostCallbacks s = callbacks 0 := hostCallbacks_of_unscripted h.unscripted
  have hpass : passesEnded now s = passRun now s :=
    (passesEnded_of_onePass (hcb ▸ (passRun_calm h).remeasure)).trans (by rw [hcb]; rfl)
  rw [exec_sync, catchUp_proper hd hnow, hpass,
    runDeferred_of_none (s := endReplay (passRun now s)) (passRun_calm h).noDeferred]

/-- Ending a replay and starting the next one changes the time and the result only. -/
theorem passStart_endReplay (h : s.clock.syncDepth = 1) :
    passStart now (noResult (endReplay s)) = retimed now (dueTime now s % s.cfg.clockDivider) .none s := by
  have hclock : ({ s.clock with syncDepth := 1 } : Clock) = s.clock := by rw [← h]
  exact congrArg (fun c : Clock => { s with
    clock := { c with lastSyncTimestamp := now, remainder := dueTime now s % s.cfg.clockDivider }
    result := .none }) hclock

end sync

/-- Whole cycles and remainder of a time cut in two (R162). -/
theorem dueTime_split {d last rem a b : Nat} (hd : 0 < d) (hrem : rem ≤ last) (ha : last ≤ a) (hb : a ≤ b) :
    (b - last + rem) / d = (a - last + rem) / d + (b - a + (a - last + rem) % d) / d ∧
    (b - last + rem) % d = (b - a + (a - last + rem) % d) % d ∧
    last + d - rem + (a - last + rem) / d * d = a + d - (a - last + rem) % d := by
  have hsplit := Nat.div_add_mod (a - last + rem) d
  have hlt := Nat.mod_lt (a - last + rem) hd
  have hsum : b - last + rem = b - a + (a - last + rem) % d + d * ((a - last + rem) / d) := by omega
  refine ⟨?_, ?_, ?_⟩
  · rw [hsum, Nat.add_mul_div_left _ _ hd, Nat.add_comm]
  · rw [hsum, Nat.add_mul_mod_self_left]
  · rw [Nat.mul_comm _ d]
    omega

section twoSyncs

variable {a b : Nat} {s : State} (hcalm : Calm s) (hclock : ClockOk s) (ha : s.clock.lastSyncTimestamp ≤ a) (hb : a ≤ b)

/-- The cycles of the second of two syncs, run from where the first one's ended. -/
def laterCycles (b : Nat) (u : State) : State :=
  replay (callbacks 0) (dueTime b u / u.cfg.clockDivider) (firstEnd u) u

include hcalm in
theorem passRun_second : ∃ r, passRun b (noResult (endReplay (passRun a s))) =
    retimed b (dueTime b (passRun a s) % (passRun a s).cfg.clockDivider) r (laterCycles b (passRun a s)) := by
  have hdepth : (passRun a s).clock.syncDepth = 1 := by rw [(passRun_cycled a s).clock]; rfl
  rw [passRun, passStart_endReplay hdepth]
  exact replay_retimed _ _ (passRun_calm hcalm) (by omega) b _ .none

include hcalm hclock ha hb in
theorem passRun_whole : ∃ r, passRun b s =
    retimed b (dueTime b (passRun a s) % (passRun a s).cfg.clockDivider) r (laterCycles b (passRun a s)) := by
  have hdiv : 0 < s.cfg.clockDivider := Nat.zero_lt_of_lt hclock.remainder
  have hcycled := passRun_cycled a s
  have hdepth : (passRun a s).clock.syncDepth = 1 := by rw [hcycled.clock]; rfl
  have hlast : (passRun a s).clock.lastSyncTimestamp = a := by rw [hcycled.clock]; rfl
  have hrem : (passRun a s).clock.remainder = dueTime a s % s.cfg.clockDivider := by rw [hcycled.clock]; rfl
  have hcfg : (passRun a s).cfg = s.cfg := hcycled.kept.cfg
  obtain ⟨hcycles, hrest, hfirst⟩ := dueTime_split hdiv hclock.elapsed ha hb
  have hdue : dueTime b (passRun a s) = b - a + dueTime a s % s.cfg.clockDivider := by rw [dueTime, hlast, hrem]
  have hend : firstEnd s + dueTime a s / s.cfg.clockDivider * s.cfg.clockDivider = firstEnd (passRun a s) := by
    rw [firstEnd, firstEnd, hlast, hrem, hcfg]
    exact hfirst
  have hcount : dueTime b s / s.cfg.clockDivider =
      dueTime a s / s.cfg.clockDivider + dueTime b (passRun a s) / s.cfg.clockDivider := by rw [hdue]; exact hcycles
  have hleft : dueTime b s % s.cfg.clockDivider = dueTime b (passRun a s) % s.cfg.clockDivider := by rw [hdue]; exact hrest
  obtain ⟨r, hr⟩ := replay_retimed (dueTime a s / s.cfg.clockDivider) (firstEnd s) (passStart_calm (now := a) hcalm)
    Nat.one_pos b (dueTime b s % s.cfg.clockDivider) s.result
  have hstart : passStart b s = retimed b (dueTime b s % s.cfg.clockDivider) s.result (passStart a s) := rfl
  rw [passRun, hcount, replay_add _ _ _ Nat.one_pos, hstart, hr]
  change ∃ r', replay (callbacks 0) _ (firstEnd s + dueTime a s / s.cfg.clockDivider * s.cfg.clockDivider)
    (retimed b _ r (passRun a s)) = _
  rw [hend, hleft, laterCycles, hcfg]
  exact replay_retimed _ _ (passRun_calm hcalm) (by omega) b _ r

end twoSyncs

/-- Settles O21: the cycles of the later sync are those of the two, and neither part sees up to what time it replays. -/
theorem cycleConservation : Obligations.CycleConservation := by
  intro a b s hclock hu hports ha hb
  have hcalm : Calm s := ⟨hu, hclock.remeasure, hclock.noDeferred, quietDma_of_readsNoPort hports⟩
  have hrun : Calm (passRun a s) := passRun_calm hcalm
  have hmid : Calm (noResult (endReplay (passRun a s))) := ⟨hrun.unscripted, hrun.remeasure, hrun.noDeferred, hrun.quiet⟩
  have hlast : (passRun a s).clock.lastSyncTimestamp ≤ b := by rw [(passRun_cycled a s).clock]; exact hb
  obtain ⟨r, hsecond⟩ := passRun_second (a := a) (b := b) hcalm
  obtain ⟨r', hwhole⟩ := passRun_whole hcalm hclock ha hb
  refine ⟨noResult (endReplay (passRun a s)), exec_sync_calm hcalm hclock.syncDepth ha, ?_⟩
  rw [exec_sync_calm hmid rfl hlast, exec_sync_calm hcalm hclock.syncDepth (ha.trans hb), hsecond, hwhole]
  rfl

end Sys2Proof.Machine
end

section
/-! PROOF. The register ports (O4, O8, O9, O10, O11, O13, O14, O15, O16, O17). Each access is its catch-up and then a
register effect of the model; the effects are stated once, one equation per case, and the statements put them together. -/

namespace Sys2Proof.Machine

/-! ## Mirrors of a register -/

theorem popPending_presentNext (r : Request) (s : State) : popPending (presentNext r s) = s := rfl

/-- Of an access word a step sees only the operation it decodes to (R135). -/
theorem step_bus {acc : BitVec 17} {op : BusOp} (h : decodeBus acc = some op) (d : Byte) (now : Nat) (s : State) :
    step (presentNext (.bus acc d now) s) = exec (op.instr d now) s := by
  have hdecode : decode (.bus acc d now) = .ok (op.instr d now) := by simp only [decode, h]
  rw [step_of_decodes rfl hdecode, popPending_presentNext]

/-- Settles O4: the masked word alone decides the operation of an access to the window. -/
theorem mirroredAddressesActAlike : Obligations.MirroredAddressesActAlike := by
  intro s acc acc' d now hwindow hsame
  have hop := decodeBus_of_window hwindow
  have hmatch := matches_of_decodeBus hop
  rw [registerOp_tableMask, hsame] at hmatch
  have hop' := decodeBus_of_matches (acc := acc') (by rwa [registerOp_tableMask])
  rw [step_bus hop, step_bus hop']

/-! ## What an invalidation leaves alone -/

theorem invalidateNmi_ports_between {s : State} (h : s.clock.syncDepth = 0) :
    (invalidateNmi callNotify s).ports = s.ports := by
  rw [invalidateNmi_frame, callNotify_between _ h]
  rfl

/-- Within a replay a callback may ask for a re-measure and changes nothing else of the clock. -/
theorem callNotify_clock (e : Event) (s : State) :
    (callNotify e s).clock = { s.clock with remeasure := (callNotify e s).clock.remeasure } := by
  obtain hd | hd := Nat.eq_zero_or_pos s.clock.syncDepth
  · rw [callNotify_between e hd]
    rfl
  · exact ((callbacks_keeps _).notify e s hd).clock

theorem invalidateNmi_clock (s : State) : (invalidateNmi callNotify s).clock =
    { s.clock with remeasure := (invalidateNmi callNotify s).clock.remeasure } := by
  rw [invalidateNmi_frame]
  exact callNotify_clock _ s

theorem cycleClock_invalidateNmi (s : State) : cycleClock (invalidateNmi callNotify s) = cycleClock s := by
  rw [cycleClock, invalidateNmi_clock]
  rfl

theorem invalidateNmi_syncDepth (s : State) : (invalidateNmi callNotify s).clock.syncDepth = s.clock.syncDepth := by
  rw [invalidateNmi_clock]

/-! ## The status read -/

section status

theorem statusByte_bit6 (p : Ports) (b : Bool) : (statusByte p b).getLsbD 6 = p.sprite0Hit := by
  rw [statusByte, BitVec.getLsbD_append, BitVec.getLsbD_append, BitVec.getLsbD_append]
  simp

theorem statusByte_bit5 (p : Ports) (b : Bool) : (statusByte p b).getLsbD 5 = p.spriteOverflow := by
  rw [statusByte, BitVec.getLsbD_append, BitVec.getLsbD_append]
  simp

theorem statusByte_low (p : Ports) (b : Bool) : (statusByte p b).extractLsb' 0 5 = p.lastWritten.extractLsb' 0 5 :=
  BitVec.extractLsb'_append_eq_right

variable {notify : Notify} {s : State}

theorem exec_rdStatus (now : Nat) (s : State) : exec (.rdStatus now) s = .next (rdStatus callNotify (catchUp now s)) := rfl

theorem atRace_iff (s : State) :
    atRace s = true ↔ s.scan.scanline = 241 ∧ s.scan.cycleInLine = 1 ∧ s.ports.vblank = true := by
  simp only [atRace, Bool.and_eq_true, decide_eq_true_eq, and_assoc]

theorem rdStatus_away (h : atRace s = false) :
    rdStatus notify s = returnByte (statusByte s.ports s.ports.vblank) { s with ports := s.ports.statusRead } := by
  simp only [rdStatus, h, Bool.false_eq_true, if_false, Bool.not_false, Bool.and_true]

theorem rdStatus_race (h : atRace s = true) :
    rdStatus notify s = returnByte (statusByte s.ports false)
      { raceRead notify s with ports := (raceRead notify s).ports.statusRead } := by
  simp only [rdStatus, h, if_true, Bool.not_true, Bool.and_false]

theorem raceRead_disabled (h : s.ports.ctrl.getLsbD 7 = false) : raceRead notify s = s :=
  if_neg (Bool.eq_false_iff.1 h)

theorem raceRead_enabled (h : s.ports.ctrl.getLsbD 7 = true) : raceRead notify s =
    invalidateNmi notify (unregisterNmi (cycleClock s) (notify (.clearInterrupt .nmi) s)) := if_pos h

theorem raceRead_ports_between (h : s.clock.syncDepth = 0) : (raceRead callNotify s).ports = s.ports := by
  cases hon : s.ports.ctrl.getLsbD 7 with
  | false => rw [raceRead_disabled hon]
  | true =>
    rw [raceRead_enabled hon, callNotify_between _ h]
    exact invalidateNmi_ports_between h

end status

/-- Settles O8: the status byte's fields and the two flags the read clears. -/
theorem statusReadReturnsAndClears : Obligations.StatusReadReturnsAndClears := by
  intro now s c hpos
  have haway : atRace c = false := by rwa [← Bool.not_eq_true, atRace_iff]
  refine ⟨statusByte c.ports c.ports.vblank, ?_, statusByte_bit7 _ _, statusByte_bit6 _ _, statusByte_bit5 _ _,
    statusByte_low _ _⟩
  rw [exec_rdStatus, rdStatus_away haway, returnByte, Ports.statusRead]

/-- Settles O9: the two cases of `raceRead`, which between replays keep the ports. -/
theorem statusReadRace : Obligations.StatusReadRace := by
  intro now s c forget hline hcycle hvblank
  have hrace : atRace c = true := (atRace_iff c).2 ⟨hline, hcycle, hvblank⟩
  refine ⟨statusByte c.ports false, raceRead callNotify c, ?_, statusByte_bit7 _ _, statusByte_bit6 _ _,
    statusByte_bit5 _ _, statusByte_low _ _, raceRead_disabled, raceRead_enabled,
    fun hd => ⟨raceRead_ports_between hd, fun hon => ?_⟩⟩
  · rw [exec_rdStatus, rdStatus_race hrace, returnByte, Ports.statusRead]
  · rw [raceRead_enabled hon, callNotify_between _ hd]
    rfl

/-! ## The PPUDATA accesses -/

section data

variable {a : PpuAddr} {s : State}

theorem renderingLine_iff (line : Int) : renderingLine line = true ↔ -1 ≤ line ∧ line ≤ 239 := by
  simp only [renderingLine, Bool.and_eq_true, decide_eq_true_eq]

theorem incrementV_glitch (hon : s.ports.renderingEnabled = true) (hlow : -1 ≤ s.scan.scanline)
    (hhigh : s.scan.scanline ≤ 239) (hmode : s.cfg.render2007 = .glitch) :
    (incrementV s).ports.v = yInc (coarseXInc s.ports.v) := by
  have hline := (renderingLine_iff _).2 ⟨hlow, hhigh⟩
  simp only [incrementV, hon, hline, hmode, decide_true, Bool.and_true, if_true, setV]

theorem incrementV_plain (h : s.ports.renderingEnabled = false ∨ s.scan.scanline < -1 ∨ 239 < s.scan.scanline ∨
      s.cfg.render2007 = .plain) :
    (incrementV s).ports.v = s.ports.v + (if s.ports.ctrl.getLsbD 2 then 32#15 else 1#15) := by
  have hoff : ¬(s.ports.renderingEnabled && renderingLine s.scan.scanline &&
      decide (s.cfg.render2007 = .glitch)) = true := by
    rw [Bool.and_eq_true, Bool.and_eq_true, renderingLine_iff, decide_eq_true_eq]
    rintro ⟨⟨hon, hlow, hhigh⟩, hmode⟩
    obtain hoff | hbelow | habove | hplain := h
    · exact Bool.false_ne_true (hoff.symm.trans hon)
    · omega
    · omega
    · exact absurd (hplain.symm.trans hmode) (by decide)
  rw [incrementV, if_neg hoff]
  rfl

/-! ### The read -/

/-- The state in which a PPUDATA read steps `v`, after the address hook left `h` (R216). -/
def bufferRefilled (h : State) (a : PpuAddr) : State :=
  { h with ports := { h.ports with readBuffer := dataReadRefill h a } }

theorem incrementV_bufferRefilled (h : State) (a : PpuAddr) : incrementV (bufferRefilled h a) =
    { h with ports := { h.ports with
      readBuffer := dataReadRefill h a, v := (incrementV (bufferRefilled h a)).ports.v } } :=
  incrementV_frame (bufferRefilled h a)

theorem dataReadValue_below (h : a < 0x3F00#14) : dataReadValue s a = s.ports.readBuffer := if_pos h

theorem dataReadValue_palette (h : 0x3F00#14 ≤ a) :
    dataReadValue s a = (vRead .bg s a &&& 0x3F#8) ||| (s.ports.lastWritten &&& 0xC0#8) := if_neg (BitVec.not_lt.2 h)

theorem dataReadRefill_below (h : a < 0x3F00#14) : dataReadRefill s a = vRead .bg s a := if_pos h

/-- Under the palette lie the name tables of `$2F00–$2FFF` (R216). -/
theorem dataReadRefill_palette (h : 0x3F00#14 ≤ a) :
    dataReadRefill s a = readCell .nt s.nt (ntIndex s.maps.ntMap (a - 0x1000#14)) := by
  rw [dataReadRefill, if_neg (BitVec.not_lt.2 h), vRead_nt .bg s (by bv_omega) (by bv_omega)]

/-! ### The write -/

theorem vWrite_chr (a : PpuAddr) (d : Byte) (s : State) : (vWrite a d s).chr =
    if a < 0x2000#14 ∧ s.cfg.chrByteWritable (chrIndex s.maps.ptMap.bg a) = true then
      writeCell .chr s.chr (chrIndex s.maps.ptMap.bg a) d
    else s.chr := by
  simp only [vWrite, apply_ite State.chr, ite_self, ite_and]

theorem vWrite_nt (a : PpuAddr) (d : Byte) (s : State) : (vWrite a d s).nt =
    if 0x2000#14 ≤ a ∧ a < 0x3F00#14 ∧ s.cfg.ntBankWritable (ntBank s.maps.ntMap a) = true then
      writeCell .nt s.nt (ntIndex s.maps.ntMap a) d
    else s.nt := by
  simp only [vWrite, apply_ite State.nt, ite_self, ite_and, ← BitVec.not_lt, ite_not]

theorem vWrite_pal (a : PpuAddr) (d : Byte) (s : State) : (vWrite a d s).pal =
    if 0x3F00#14 ≤ a then writeCell .pal s.pal (palIndex a).toNat (d &&& 0x3F#8) else s.pal := by
  by_cases hpal : 0x3F00#14 ≤ a
  · rw [vWrite, if_neg (by bv_omega), if_neg (BitVec.not_lt.2 hpal), if_pos hpal]
  · simp only [vWrite, apply_ite State.pal, ite_self, BitVec.not_le.1 hpal, if_true, if_neg hpal]

/-- Reading a memory after a write that is made only on a condition. -/
theorem readCell_writeCellIf (sp : Space) (m : List Host.Cell) (i : Nat) (b : Byte) (k : Nat) (p : Prop) [Decidable p] :
    readCell sp (if p then writeCell sp m i b else m) k = if p ∧ k = i then b else readCell sp m k := by
  by_cases hp : p
  · simp only [hp, if_true, true_and, readCell_writeCell]
  · simp only [hp, if_false, false_and]

theorem vWrite_ports (a : PpuAddr) (d : Byte) (s : State) : (vWrite a d s).ports = s.ports := by
  rw [vWrite_frame]

theorem vWrite_scan (a : PpuAddr) (d : Byte) (s : State) : (vWrite a d s).scan = s.scan := by
  rw [vWrite_frame]

theorem vWrite_cfg (a : PpuAddr) (d : Byte) (s : State) : (vWrite a d s).cfg = s.cfg := by
  rw [vWrite_frame]

theorem incrementV_vWrite (a : PpuAddr) (d : Byte) (s : State) : incrementV (vWrite a d s) =
    { s with
      chr := (vWrite a d s).chr
      nt := (vWrite a d s).nt
      pal := (vWrite a d s).pal
      ports := { s.ports with v := (incrementV s).ports.v } } := by
  have hv : (incrementV (vWrite a d s)).ports.v = (incrementV s).ports.v := by
    simp only [incrementV, vWrite_ports, vWrite_scan, vWrite_cfg]
    split <;> rfl
  rw [incrementV_frame, hv, setV, vWrite_frame]

end data

/-- Settles O10: the two ranges of the address, and `incrementV` in the state with the buffer refilled. -/
theorem ppuDataRead : Obligations.PpuDataRead := by
  intro now s c a h
  refine ⟨dataReadValue h a, dataReadRefill h a, (incrementV (bufferRefilled h a)).ports.v, ?_, fun ha => ?_, fun ha => ?_,
    incrementV_glitch (s := bufferRefilled h a), incrementV_plain (s := bufferRefilled h a)⟩
  · have hread : exec (.rdData now) s = .next (returnByte (dataReadValue h a) (incrementV (bufferRefilled h a))) := rfl
    rw [hread, incrementV_bufferRefilled, returnByte]
  · exact ⟨dataReadValue_below ha, dataReadRefill_below ha⟩
  · exact ⟨dataReadValue_palette ha, dataReadRefill_palette ha⟩

/-- Settles O17: the bytes of the three memories after `vWrite`, and `incrementV`, which reads none of them. -/
theorem ppuDataWrite : Obligations.PpuDataWrite := by
  intro d now s c a h
  refine ⟨(vWrite a d h).chr, (vWrite a d h).nt, (vWrite a d h).pal, (incrementV h).ports.v, ?_, fun k => ?_, fun k => ?_,
    fun k => ?_, incrementV_glitch, incrementV_plain⟩
  · have hwrite : exec (.wrData d now) s = .next (noResult (incrementV (vWrite a d h))) := rfl
    rw [hwrite, incrementV_vWrite, noResult]
  · have hbyte : (h.cfg.chrByteWritable (chrIndex h.maps.ptMap.bg a) = true ∧ k = chrIndex h.maps.ptMap.bg a) ↔
        (h.cfg.chrByteWritable k = true ∧ k = chrIndex h.maps.ptMap.bg a) := and_congr_left fun hk => by rw [hk]
    simp only [vWrite_chr, readCell_writeCellIf, and_assoc, hbyte]
  · simp only [vWrite_nt, readCell_writeCellIf, and_assoc]
  · simp only [vWrite_pal, readCell_writeCellIf]

/-! ## The assembled loopy registers -/

section loopy

theorem coarseY_append_coarseX (t : Loopy) : coarseY t ++ coarseX t = t.extractLsb' 0 10 :=
  BitVec.extractLsb'_append_extractLsb'_eq_extractLsb' rfl

theorem fineY_append_ntSel_append_coarseY (t : Loopy) : fineY t ++ ntSel t ++ coarseY t = t.extractLsb' 5 10 := by
  have hhigh : fineY t ++ ntSel t = t.extractLsb' 10 5 := BitVec.extractLsb'_append_extractLsb'_eq_extractLsb' rfl
  rw [hhigh]
  exact BitVec.extractLsb'_append_extractLsb'_eq_extractLsb' rfl

theorem withNtSel_low (t : Loopy) (d : Byte) : (withNtSel t d).extractLsb' 0 10 = t.extractLsb' 0 10 := by
  rw [← coarseY_append_coarseX, ← coarseY_append_coarseX, withNtSel, coarseY_loopy, coarseX_loopy]

theorem withCoarseX_high (t : Loopy) (d : Byte) : (withCoarseX t d).extractLsb' 5 10 = t.extractLsb' 5 10 := by
  rw [← fineY_append_ntSel_append_coarseY, ← fineY_append_ntSel_append_coarseY, withCoarseX, fineY_loopy, ntSel_loopy,
    coarseY_loopy]

theorem withHighByte_high (t : Loopy) (d : Byte) : (withHighByte t d).extractLsb' 8 6 = d.extractLsb' 0 6 := by
  rw [withHighByte, BitVec.extractLsb'_append_eq_of_le (by decide)]
  exact BitVec.extractLsb'_append_eq_right

theorem withHighByte_bit14 (t : Loopy) (d : Byte) : (withHighByte t d).getLsbD 14 = false := by
  rw [withHighByte, BitVec.getLsbD_append, BitVec.getLsbD_append]
  rfl

theorem withHighByte_low (t : Loopy) (d : Byte) : (withHighByte t d).extractLsb' 0 8 = t.extractLsb' 0 8 :=
  BitVec.extractLsb'_append_eq_right

theorem withLowByte_low (t : Loopy) (d : Byte) : (withLowByte t d).extractLsb' 0 8 = d := BitVec.extractLsb'_append_eq_right

theorem withLowByte_high (t : Loopy) (d : Byte) : (withLowByte t d).extractLsb' 8 7 = t.extractLsb' 8 7 :=
  BitVec.extractLsb'_append_eq_left

end loopy

/-! ## The register writes -/

section writes

variable {notify : Notify} {d : Byte} {s : State}

theorem wrScroll_first (h : s.ports.w = false) : wrScroll d s = { s with
    ports := { s.ports with
      lastWritten := d, t := withCoarseX s.ports.t d, x := d.extractLsb' 0 3, w := true }
    result := .none } := by
  rw [wrScroll, setLastWritten, if_neg (Bool.eq_false_iff.1 h), noResult]

theorem wrScroll_second (h : s.ports.w = true) : wrScroll d s = { s with
    ports := { s.ports with lastWritten := d, t := withY s.ports.t d, w := false }, result := .none } := by
  rw [wrScroll, setLastWritten, if_pos h, noResult]

theorem wrAddr_first (h : s.ports.w = false) : wrAddr d s = { s with
    ports := { s.ports with lastWritten := d, t := withHighByte s.ports.t d, w := true }, result := .none } := by
  rw [wrAddr, setLastWritten, if_neg (Bool.eq_false_iff.1 h), noResult]

theorem wrAddr_second (h : s.ports.w = true) : wrAddr d s = { s with
    ports := { s.ports with
      lastWritten := d, t := withLowByte s.ports.t d, v := withLowByte s.ports.t d, w := false }
    result := .none } := by
  rw [wrAddr, setLastWritten, if_pos h, noResult]

theorem exec_wrScroll (d : Byte) (now : Nat) (s : State) :
    exec (.wrScroll d now) s = .next (wrScroll d (catchUp now s)) := rfl

theorem exec_wrAddr (d : Byte) (now : Nat) (s : State) : exec (.wrAddr d now) s = .next (wrAddr d (catchUp now s)) := rfl

theorem exec_wrMask (d : Byte) (now : Nat) (s : State) :
    exec (.wrMask d now) s = .next (wrMask callNotify d (catchUp now s)) := rfl

theorem exec_wrCtrl (d : Byte) (now : Nat) (s : State) :
    exec (.wrCtrl d now) s = .next (wrCtrl callNotify d (catchUp now s)) := rfl

/-- `WR_MASK` before the invalidation (R204). -/
def maskWritten (d : Byte) (s : State) : State := { s with ports := { s.ports with lastWritten := d, mask := d } }

theorem wrMask_same (h : s.ports.mask.getLsbD 3 = d.getLsbD 3) : wrMask notify d s = noResult (maskWritten d s) :=
  congrArg noResult (if_neg (not_not.2 h))

theorem wrMask_changed (h : s.ports.mask.getLsbD 3 ≠ d.getLsbD 3) :
    wrMask notify d s = noResult (invalidateNmi notify (maskWritten d s)) := congrArg noResult (if_pos h)

/-- `WR_CTRL` before the invalidation and the edge (R205). -/
def ctrlWritten (d : Byte) (s : State) : State :=
  { s with ports := { s.ports with lastWritten := d, ctrl := d, t := withNtSel s.ports.t d } }

/-- The edge of `WR_CTRL` is decided in the state that the invalidation, if any, leaves (R205). -/
theorem wrCtrl_eq {x : State}
    (hx : (if s.ports.ctrl.getLsbD 7 ≠ d.getLsbD 7 then invalidateNmi notify (ctrlWritten d s) else ctrlWritten d s) = x) :
    wrCtrl notify d s = noResult (if s.ports.ctrl.getLsbD 7 = false ∧ d.getLsbD 7 = true ∧ x.ports.vblank = true
      then nmiEdgeNow notify x else x) := by
  subst hx
  rfl

theorem wrCtrl_same (h : s.ports.ctrl.getLsbD 7 = d.getLsbD 7) : wrCtrl notify d s = noResult (ctrlWritten d s) := by
  rw [wrCtrl_eq (if_neg (not_not.2 h)), if_neg]
  rintro ⟨hoff, hon, -⟩
  exact Bool.false_ne_true (hoff.symm.trans (h.trans hon))

theorem wrCtrl_changed (h : s.ports.ctrl.getLsbD 7 ≠ d.getLsbD 7) {x : State}
    (hx : invalidateNmi notify (ctrlWritten d s) = x) : wrCtrl notify d s =
      noResult (if d.getLsbD 7 = true ∧ x.ports.vblank = true then nmiEdgeNow notify x else x) := by
  have hoff (hon : d.getLsbD 7 = true ∧ x.ports.vblank = true) : s.ports.ctrl.getLsbD 7 = false :=
    Bool.eq_false_iff.2 (hon.1 ▸ h)
  rw [wrCtrl_eq ((if_pos h).trans hx)]
  simp only [and_iff_right_of_imp hoff]

end writes

/-- Settles O11: after the catch-up each of the two is one update of the ports. -/
theorem statusAndOamAddrWrites : Obligations.StatusAndOamAddrWrites := fun _ _ _ => ⟨rfl, rfl⟩

/-- Settles O13: the two writes, and the fields of the `t` each assembles. -/
theorem scrollWrites : Obligations.ScrollWrites := by
  intro d now s c
  refine ⟨fun hw => ⟨withCoarseX c.ports.t d, ?_, coarseX_loopy _ _ _ _, withCoarseX_high _ _⟩,
    fun hw => ⟨withY c.ports.t d, ?_, fineY_loopy _ _ _ _, coarseY_loopy _ _ _ _, ntSel_loopy _ _ _ _,
      coarseX_loopy _ _ _ _⟩⟩
  · rw [exec_wrScroll, wrScroll_first hw]
  · rw [exec_wrScroll, wrScroll_second hw]

/-- Settles O14: the two writes, and the bytes of the `t` each assembles. -/
theorem addrWrites : Obligations.AddrWrites := by
  intro d now s c
  refine ⟨fun hw => ⟨withHighByte c.ports.t d, ?_, withHighByte_high _ _, withHighByte_bit14 _ _, withHighByte_low _ _⟩,
    fun hw => ⟨withLowByte c.ports.t d, ?_, withLowByte_low _ _, withLowByte_high _ _⟩⟩
  · rw [exec_wrAddr, wrAddr_first hw]
  · rw [exec_wrAddr, wrAddr_second hw]

/-- Settles O15: the cases of `wrCtrl`; the invalidation moves neither `cycleClock` nor, between replays, the ports. -/
theorem ctrlWrite : Obligations.CtrlWrite := by
  intro d now s c
  refine ⟨withNtSel c.ports.t d, ctrlWritten d c, rfl, ntSel_loopy _ _ _ _, fineY_loopy _ _ _ _, withNtSel_low _ _,
    fun hsame => ?_, fun hchanged => ?_⟩
  · rw [exec_wrCtrl, wrCtrl_same hsame, noResult]
  · extract_lets x
    have hexec := (exec_wrCtrl d now s).trans (congrArg _ (wrCtrl_changed (x := x) hchanged rfl))
    have hclock : cycleClock x = cycleClock c := cycleClock_invalidateNmi (ctrlWritten d c)
    have hedge (hon : d.getLsbD 7 = true) (hv : x.ports.vblank = true) : exec (.wrCtrl d now) s =
        .next { callNotify (.setInterrupt .nmi (cycleClock c)) x with result := .none } := by
      rw [hexec, if_pos ⟨hon, hv⟩, nmiEdgeNow_eq, hclock, noResult]
    refine ⟨fun hno => ?_, hedge, fun hd => ?_⟩
    · have hnone : ¬(d.getLsbD 7 = true ∧ x.ports.vblank = true) := by
        rintro ⟨hon, hv⟩
        obtain hoff | hclear := hno
        · exact Bool.false_ne_true (hoff.symm.trans hon)
        · exact Bool.false_ne_true (hclear.symm.trans hv)
      rw [hexec, if_neg hnone, noResult]
    · have hports : x.ports = (ctrlWritten d c).ports := invalidateNmi_ports_between hd
      refine ⟨hports, fun hon hv => ?_⟩
      have hdx : x.clock.syncDepth = 0 := (invalidateNmi_syncDepth (ctrlWritten d c)).trans hd
      rw [hedge hon (by rw [hports]; exact hv), callNotify_between _ hdx, emit]

/-- Settles O16: the two cases of `wrMask`. -/
theorem maskWrite : Obligations.MaskWrite := by
  intro d now s c p
  refine ⟨fun hsame => ?_, fun hchanged => ?_⟩
  · rw [exec_wrMask, wrMask_same hsame]
    rfl
  · rw [exec_wrMask, wrMask_changed hchanged]
    rfl

end Sys2Proof.Machine
end

section
/-! PROOF. The background pipeline, and its prefetch of the next line's first two tiles (O43). A background cycle is four
units: the shift and reload, the fetch, the update of `v` and the column's pixel. Under a mapper that only watches, the fetch
reads the same bytes whatever was shifted before it, so a statement about a cycle is one about its units. -/

namespace Sys2Proof.Machine

/-! ## The units of a background cycle -/

/-- What a cycle does to the pipeline before its fetch: the fine-X sample, the shift, the reload (R260 to R263). -/
def advanceBg (line : Int) (c : Nat) (x : BitVec 3) (b : Background) : Background :=
  let b := if visibleLine line && decide (c = 1) then { b with fineXLine := x } else b
  let b := if shiftCycle line c then shiftBg b else b
  if reloadCycle line c then reloadBg b else b

/-- The fetch of a fetching cycle (R251, R252). -/
def fetchUnit (hook : Hook) (line : Int) (c : Nat) (s : State) : State :=
  if fetching line c then fetchSlot hook c s else s

/-- The update of `v` after the fetch (R259, R260). -/
def scrollV (line : Int) (c : Nat) (t v : Loopy) : Loopy :=
  if visibleLine line && decide (c = 256) then yInc v
  else if c = 257 then copyHori t v
  else if line = -1 ∧ 280 ≤ c ∧ c ≤ 304 then copyVert t v
  else v

/-- The column's pixel (R264). -/
def columnUnit (line : Int) (c : Nat) (s : State) : State :=
  if visibleLine line && decide (1 ≤ c ∧ c ≤ 256) then bgPixel (c - 1) s else s

/-- Replacing the pipeline registers. -/
def setBg (b : Background) (s : State) : State := { s with bg := b }

@[simp] theorem setBg_ports (b : Background) (s : State) : (setBg b s).ports = s.ports := rfl
@[simp] theorem setBg_bg (b : Background) (s : State) : (setBg b s).bg = b := rfl
@[simp] theorem vRead_setBg (view : PatternView) (b : Background) (s : State) (a : PpuAddr) :
    vRead view (setBg b s) a = vRead view s a := rfl

theorem setBg_ite (p : Bool) (f : Background → Background) (s : State) :
    (if p then setBg (f s.bg) s else s) = setBg (if p then f s.bg else s.bg) s := by
  cases p <;> rfl

/-- The first three conditions of a cycle all act on the pipeline registers only. -/
theorem advance_eq (line : Int) (c : Nat) (s : State) :
    (let s := if visibleLine line && decide (c = 1) then setBg { s.bg with fineXLine := s.ports.x } s else s
     let s := if shiftCycle line c then setBg (shiftBg s.bg) s else s
     if reloadCycle line c then setBg (reloadBg s.bg) s else s) = setBg (advanceBg line c s.ports.x s.bg) s := by
  simp only [setBg_ite _ fun b => { b with fineXLine := s.ports.x }]
  simp only [setBg_ite _ shiftBg, setBg_ite _ reloadBg]
  rfl

/-- At most one of the three updates of `v` applies, as they are in different cycles. -/
theorem scroll_eq (line : Int) (c : Nat) (s : State) :
    (let s := if visibleLine line && decide (c = 256) then setV (yInc s.ports.v) s else s
     let s := if c = 257 then setV (copyHori s.ports.t s.ports.v) s else s
     if line = -1 ∧ 280 ≤ c ∧ c ≤ 304 then setV (copyVert s.ports.t s.ports.v) s else s) =
    setV (scrollV line c s.ports.t s.ports.v) s := by
  have hkeep : setV s.ports.v s = s := rfl
  by_cases h256 : c = 256
  · subst h256
    cases h : visibleLine line <;> simp [scrollV, h, hkeep]
  · by_cases h257 : c = 257
    · simp [scrollV, h257]
    · by_cases h : line = -1 ∧ 280 ≤ c ∧ c ≤ 304 <;> simp [scrollV, h256, h257, h, hkeep]

theorem bgCycle_eq (hook : Hook) (line : Int) (c : Nat) (s : State) :
    let u := fetchUnit hook line c (setBg (advanceBg line c s.ports.x s.bg) s)
    bgCycle hook line c s = columnUnit line c (setV (scrollV line c u.ports.t u.ports.v) u) := by
  rw [← advance_eq]
  intro u
  rw [← scroll_eq line c u]
  rfl

/-! ## The cycles of each unit -/

section cycles

variable {line : Int} {c : Nat}

theorem visibleLine_iff (h : line ≤ 239) : visibleLine line = true ↔ 0 ≤ line := by simp [visibleLine, h]

theorem shiftCycle_iff (h : line ≤ 239) :
    shiftCycle line c = true ↔ (0 ≤ line ∧ 2 ≤ c ∧ c ≤ 257) ∨ (322 ≤ c ∧ c ≤ 337) := by
  simp only [shiftCycle, Bool.or_eq_true, Bool.and_eq_true, decide_eq_true_eq, visibleLine_iff h]

theorem reloadCycle_iff (h : line ≤ 239) :
    reloadCycle line c = true ↔ (0 ≤ line ∧ 9 ≤ c ∧ c ≤ 257 ∧ c % 8 = 1) ∨ c = 329 ∨ c = 337 := by
  simp only [reloadCycle, Bool.or_eq_true, Bool.and_eq_true, decide_eq_true_eq, visibleLine_iff h]
  omega

theorem fetching_iff (h : line ≤ 239) (hc : 1 ≤ c) :
    fetching line c = true ↔ (0 ≤ line ∧ c ≤ 256) ∨ (321 ≤ c ∧ c ≤ 340) := by
  unfold fetching fetchClass
  by_cases hvisible : 1 ≤ c ∧ c ≤ 256
  · rw [if_pos hvisible]
    simp only [visibleLine_iff h]
    omega
  · rw [if_neg hvisible]
    by_cases hnext : 321 ≤ c ∧ c ≤ 340
    · simp [hnext]
    · simp only [if_neg hnext, Bool.false_eq_true, false_iff]
      omega

theorem fetchUnit_fetches (hook : Hook) (s : State) (h : fetching line c = true) :
    fetchUnit hook line c s = fetchSlot hook c s := if_pos h

theorem fetchUnit_idle (hook : Hook) (s : State) (h : ¬fetching line c = true) : fetchUnit hook line c s = s := if_neg h

theorem columnUnit_writes (s : State) (hline : 0 ≤ line) (hhigh : line ≤ 239) (hc : 1 ≤ c) (h : c ≤ 256) :
    columnUnit line c s = bgPixel (c - 1) s := if_pos (by simp [visibleLine, hline, hhigh, hc, h])

theorem columnUnit_keeps (s : State) (h : line = -1 ∨ 257 ≤ c) : columnUnit line c s = s :=
  if_neg (by simp [visibleLine]; omega)

/-- The pixel changes one entry of `bgLine` and nothing else. -/
theorem columnUnit_frame (line : Int) (c : Nat) (s : State) :
    columnUnit line c s = { s with bg := { s.bg with line := (columnUnit line c s).bg.line } } := by
  unfold columnUnit
  split <;> rfl

/-- The value of `v` a background cycle leaves, given the one its fetch left. -/
theorem scrollV_eq {line : Int} (h : line ≤ 239) (c : Nat) (t v : Loopy) : scrollV line c t v =
    if 0 ≤ line ∧ c = 256 then yInc v
    else if c = 257 then copyHori t v
    else if line = -1 ∧ 280 ≤ c ∧ c ≤ 304 then copyVert t v
    else v := by
  simp only [scrollV, Bool.and_eq_true, decide_eq_true_eq, visibleLine_iff h]

theorem scrollV_257 (line : Int) (t v : Loopy) : scrollV line 257 t v = copyHori t v := by simp [scrollV]

variable {x : BitVec 3} {b : Background}

theorem advanceBg_reloads (h : line ≤ 239) (hreload : reloadCycle line c = true) :
    advanceBg line c x b = reloadBg (shiftBg b) := by
  have hcycle := (reloadCycle_iff h).1 hreload
  have hshift : shiftCycle line c = true := (shiftCycle_iff h).2 (by omega)
  have hsample : ¬c = 1 := by omega
  simp [advanceBg, hsample, hshift, hreload]

theorem advanceBg_shifts (h : line ≤ 239) (hshift : shiftCycle line c = true) (hreload : ¬reloadCycle line c = true) :
    advanceBg line c x b = shiftBg b := by
  have hcycle := (shiftCycle_iff h).1 hshift
  have hsample : ¬c = 1 := by omega
  simp [advanceBg, hsample, hshift, hreload]

theorem advanceBg_rests (h : line ≤ 239) (hshift : ¬shiftCycle line c = true) :
    advanceBg line c x b = { b with fineXLine := if 0 ≤ line ∧ c = 1 then x else b.fineXLine } := by
  have hreload : ¬reloadCycle line c = true := by
    rw [shiftCycle_iff h] at hshift
    rw [reloadCycle_iff h]
    omega
  simp only [advanceBg, if_neg hshift, if_neg hreload, Bool.and_eq_true, decide_eq_true_eq, visibleLine_iff h]
  split <;> rfl

theorem advanceBg_fineXLine (h : line ≤ 239) :
    (advanceBg line c x b).fineXLine = if 0 ≤ line ∧ c = 1 then x else b.fineXLine := by
  by_cases hshift : shiftCycle line c = true
  · have hsample : ¬(0 ≤ line ∧ c = 1) := by
      have hcycle := (shiftCycle_iff h).1 hshift
      omega
    rw [if_neg hsample]
    by_cases hreload : reloadCycle line c = true
    · rw [advanceBg_reloads h hreload]
      rfl
    · rw [advanceBg_shifts h hshift hreload]
      rfl
  · rw [advanceBg_rests h hshift]

end cycles

/-! ## The fetch under a mapper that only watches -/

/-- The address hook of a mapper that only watches the bus. -/
abbrev watchHook : Hook := fun h t => { t with trace := .hook h :: t.trace }

section slots

variable {c : Nat} (hook : Hook) (s : State)

theorem fetchSlot_even (h : (c - 1) % 8 % 2 = 0) : fetchSlot hook c s = s := by
  obtain h | h | h | h : (c - 1) % 8 = 0 ∨ (c - 1) % 8 = 2 ∨ (c - 1) % 8 = 4 ∨ (c - 1) % 8 = 6 := by omega
  all_goals simp only [fetchSlot, h]

theorem fetchSlot_nt (h : (c - 1) % 8 = 1 ∨ (c - 1) % 8 = 3 ∧ 337 ≤ c) : fetchSlot hook c s = fetchNt hook s := by
  obtain h | ⟨h, hlate⟩ := h
  · simp only [fetchSlot, h]
  · simp only [fetchSlot, h, if_pos hlate]

theorem fetchSlot_at (h : (c - 1) % 8 = 3) (hc : c ≤ 336) : fetchSlot hook c s = fetchAt hook s := by
  simp only [fetchSlot, h, if_neg (show ¬c ≥ 337 by omega)]

theorem fetchSlot_ptLo (h : (c - 1) % 8 = 5) : fetchSlot hook c s = fetchPtLo hook s := by simp only [fetchSlot, h]

theorem fetchSlot_ptHi (h : (c - 1) % 8 = 7) : fetchSlot hook c s = fetchPtHi hook s := by simp only [fetchSlot, h]

end slots

/-- Which of the five operations a cycle's slot is (R252): the last one in the cycles that are multiples of 8. -/
theorem fetchSlot_cases (hook : Hook) {c : Nat} (hc : 1 ≤ c) :
    (c % 8 ≠ 0 ∧ (fetchSlot hook c = id ∨ fetchSlot hook c = fetchNt hook ∨ fetchSlot hook c = fetchAt hook ∨
      fetchSlot hook c = fetchPtLo hook)) ∨
    (c % 8 = 0 ∧ fetchSlot hook c = fetchPtHi hook) := by
  have hslot : (c - 1) % 8 % 2 = 0 ∨ (c - 1) % 8 = 1 ∨ (c - 1) % 8 = 3 ∨ (c - 1) % 8 = 5 ∨ (c - 1) % 8 = 7 := by omega
  obtain h | h | h | h | h := hslot
  · exact .inl ⟨by omega, .inl (funext fun s => fetchSlot_even hook s h)⟩
  · exact .inl ⟨by omega, .inr (.inl (funext fun s => fetchSlot_nt hook s (.inl h)))⟩
  · by_cases hlate : 337 ≤ c
    · exact .inl ⟨by omega, .inr (.inl (funext fun s => fetchSlot_nt hook s (.inr ⟨h, hlate⟩)))⟩
    · exact .inl ⟨by omega, .inr (.inr (.inl (funext fun s => fetchSlot_at hook s h (by omega))))⟩
  · exact .inl ⟨by omega, .inr (.inr (.inr (funext fun s => fetchSlot_ptLo hook s h)))⟩
  · exact .inr ⟨by omega, funext fun s => fetchSlot_ptHi hook s h⟩

/-- The fetch latches of `l` in the pipeline `b`. -/
def withLatches (b l : Background) : Background :=
  { b with ntByte := l.ntByte, atByte := l.atByte, atShift := l.atShift, ptLo := l.ptLo, ptHi := l.ptHi }

/-- Neither the sample nor a shift nor a reload changes a fetch latch. -/
theorem withLatches_advanceBg (line : Int) (c : Nat) (x : BitVec 3) (b : Background) :
    withLatches (advanceBg line c x b) b = advanceBg line c x b := by
  unfold advanceBg
  cases visibleLine line && decide (c = 1) <;> cases shiftCycle line c <;> cases reloadCycle line c <;> rfl

theorem advanceBg_line (line : Int) (c : Nat) (x : BitVec 3) (b : Background) : (advanceBg line c x b).line = b.line := by
  unfold advanceBg
  cases visibleLine line && decide (c = 1) <;> cases shiftCycle line c <;> cases reloadCycle line c <;> rfl

/-- What a watched fetch can change: the trace, a latch, and `v` in the last slot of a tile. -/
theorem fetchSlot_watch_frame {c : Nat} (hc : 1 ≤ c) (s : State) :
    let u := fetchSlot watchHook c s
    u = { s with
      trace := u.trace
      bg := withLatches s.bg u.bg
      ports := { s.ports with v := if c % 8 = 0 then coarseXInc s.ports.v else s.ports.v } } := by
  obtain ⟨hp, heq | heq | heq | heq⟩ | ⟨hp, heq⟩ := fetchSlot_cases watchHook hc
  case inr =>
    rw [heq, if_pos hp]
    rfl
  all_goals
    rw [heq, if_neg hp]
    rfl

/-- A watched fetch reads the ports, the maps, the memories and the latches, and nothing of what a shift or a reload
changes. -/
theorem fetchSlot_watch_setBg {c : Nat} (hc : 1 ≤ c) (s : State) {b : Background} (hb : withLatches b s.bg = b) :
    fetchSlot watchHook c (setBg b s) =
      setBg (withLatches b (fetchSlot watchHook c s).bg) (fetchSlot watchHook c s) := by
  rw [← hb]
  obtain ⟨-, heq | heq | heq | heq⟩ | ⟨-, heq⟩ := fetchSlot_cases watchHook hc <;> rw [heq] <;> rfl

section watched

variable {line : Int} {c : Nat} {s : State}

theorem fetchUnit_watch_frame (hc : 1 ≤ c) (h : line ≤ 239) (s : State) :
    let u := fetchUnit watchHook line c s
    let fetches := (0 ≤ line ∧ c ≤ 256) ∨ (321 ≤ c ∧ c ≤ 340)
    u = { s with
      trace := u.trace
      bg := withLatches s.bg u.bg
      ports := { s.ports with v := if fetches ∧ c % 8 = 0 then coarseXInc s.ports.v else s.ports.v } } := by
  intro u fetches
  by_cases hf : fetching line c = true
  · have hu : u = fetchSlot watchHook c s := fetchUnit_fetches _ s hf
    rw [hu]
    simp only [fetches, (fetching_iff h hc).1 hf, true_and]
    exact fetchSlot_watch_frame hc s
  · have hu : u = s := fetchUnit_idle _ s hf
    rw [hu, if_neg fun h' => hf ((fetching_iff h hc).2 h'.1)]
    rfl

theorem fetchUnit_watch_setBg (hc : 1 ≤ c) {b : Background} (hb : withLatches b s.bg = b) :
    fetchUnit watchHook line c (setBg b s) =
      setBg (withLatches b (fetchUnit watchHook line c s).bg) (fetchUnit watchHook line c s) := by
  by_cases hf : fetching line c = true
  · rw [fetchUnit_fetches _ _ hf, fetchUnit_fetches _ _ hf, fetchSlot_watch_setBg hc s hb]
  · rw [fetchUnit_idle _ _ hf, fetchUnit_idle _ _ hf, hb]

/-- A watched cycle of a rendering line: the latches are those of its fetch, everything else of the pipeline but `bgLine` is
advanced first, and `v` is updated last. -/
theorem bgCycle_watch_frame (hc : 1 ≤ c) (h : line ≤ 239) (s : State) :
    let u := fetchUnit watchHook line c s
    let w := bgCycle watchHook line c s
    w = { s with
      trace := u.trace
      ports := { s.ports with v := scrollV line c s.ports.t u.ports.v }
      bg := { withLatches (advanceBg line c s.ports.x s.bg) u.bg with line := w.bg.line } } := by
  intro u w
  have hadvance := withLatches_advanceBg line c s.ports.x s.bg
  have hw : w = columnUnit line c (setV (scrollV line c u.ports.t u.ports.v)
      (setBg (withLatches (advanceBg line c s.ports.x s.bg) u.bg) u)) := by
    rw [show w = _ from bgCycle_eq watchHook line c s, fetchUnit_watch_setBg hc hadvance]
    rfl
  obtain ⟨tr, l, v, hu⟩ : ∃ tr l v, u = { s with
      trace := tr, bg := withLatches s.bg l, ports := { s.ports with v := v } } := ⟨_, _, _, fetchUnit_watch_frame hc h s⟩
  clear_value u w
  have hframe := hw.trans (columnUnit_frame line c _)
  rw [← hw] at hframe
  refine hframe.trans ?_
  rw [hu]
  rfl

theorem bgCycle_watch_bg (hc : 1 ≤ c) (h : line ≤ 239) (s : State) :
    (bgCycle watchHook line c s).bg = { withLatches (advanceBg line c s.ports.x s.bg) (fetchUnit watchHook line c s).bg with
      line := (bgCycle watchHook line c s).bg.line } := congrArg State.bg (bgCycle_watch_frame hc h s)

end watched

/-! ## The prefetch -/

section prefetch

variable {hook : Hook} {line : Int} {c : Nat}

/-- From cycle 305 on, a background cycle updates no scroll field and writes no column. -/
theorem bgCycle_afterScroll (h : line ≤ 239) (hc : 305 ≤ c) (s : State) :
    bgCycle hook line c s = fetchUnit hook line c (setBg (advanceBg line c s.ports.x s.bg) s) := by
  rw [bgCycle_eq, columnUnit_keeps _ (by omega), scrollV_eq h, if_neg (by omega), if_neg (by omega), if_neg (by omega)]
  rfl

/-- A shift of the planes. -/
def shifted (s : State) : State := setBg (shiftBg s.bg) s

/-- A watched fetch and a shift commute. -/
theorem fetchSlot_watch_shifted (hc : 1 ≤ c) (s : State) :
    fetchSlot watchHook c (shifted s) = shifted (fetchSlot watchHook c s) := by
  obtain ⟨-, heq | heq | heq | heq⟩ | ⟨-, heq⟩ := fetchSlot_cases watchHook hc <;> rw [heq] <;> rfl

theorem shifted_iterate (n : Nat) (s : State) : shifted^[n] s = setBg (shiftBg^[n] s.bg) s := by
  induction n with
  | zero => rfl
  | succ n ih => rw [Function.iterate_succ_apply', Function.iterate_succ_apply', ih]; rfl

theorem bgCycle_prefetch_shifts (h : line ≤ 239) (hlow : 322 ≤ c) (hhigh : c ≤ 336) (hne : c ≠ 329) (s : State) :
    bgCycle watchHook line c s = shifted (fetchSlot watchHook c s) := by
  rw [← fetchSlot_watch_shifted (by omega), shifted, bgCycle_afterScroll h (by omega),
    fetchUnit_fetches _ _ ((fetching_iff h (by omega)).2 (by omega)),
    advanceBg_shifts h ((shiftCycle_iff h).2 (by omega)) (by rw [reloadCycle_iff h]; omega)]

/-- The cycle in which a fetched tile is taken below the planes. -/
def reloaded (s : State) : State := setBg (reloadBg (shiftBg s.bg)) s

theorem bgCycle_prefetch_reloads (h : line ≤ 239) (hc : c = 329 ∨ c = 337) (s : State) :
    bgCycle hook line c s = reloaded s := by
  rw [bgCycle_afterScroll h (by omega), fetchUnit_fetches _ _ ((fetching_iff h (by omega)).2 (by omega)),
    advanceBg_reloads h ((reloadCycle_iff h).2 (by omega)), fetchSlot_even _ _ (by omega), reloaded]

theorem bgCycle_prefetch_rests (h : line ≤ 239) (hc : c = 321 ∨ 338 ≤ c) (s : State) :
    bgCycle hook line c s = fetchUnit hook line c s := by
  rw [bgCycle_afterScroll h (by omega), advanceBg_rests h (by rw [shiftCycle_iff h]; omega),
    if_neg (show ¬(0 ≤ line ∧ c = 1) by omega)]
  rfl

/-! What each watched fetch leaves in the ports and the pipeline, and that the next one reads the same video memory. -/

@[simp] theorem fetchNt_watch_ports (s : State) : (fetchNt watchHook s).ports = s.ports := rfl
@[simp] theorem fetchNt_watch_bg (s : State) :
    (fetchNt watchHook s).bg = { s.bg with ntByte := vRead .bg s (ntAddr s.ports.v) } := rfl
@[simp] theorem vRead_fetchNt_watch (view : PatternView) (s : State) (a : PpuAddr) :
    vRead view (fetchNt watchHook s) a = vRead view s a := rfl

@[simp] theorem fetchAt_watch_ports (s : State) : (fetchAt watchHook s).ports = s.ports := rfl
@[simp] theorem fetchAt_watch_bg (s : State) : (fetchAt watchHook s).bg =
    { s.bg with atByte := vRead .bg s (atAddr s.ports.v), atShift := atShiftOf s.ports.v } := rfl
@[simp] theorem vRead_fetchAt_watch (view : PatternView) (s : State) (a : PpuAddr) :
    vRead view (fetchAt watchHook s) a = vRead view s a := rfl

@[simp] theorem fetchPtLo_watch_ports (s : State) : (fetchPtLo watchHook s).ports = s.ports := rfl
@[simp] theorem fetchPtLo_watch_bg (s : State) : (fetchPtLo watchHook s).bg =
    { s.bg with ptLo := vRead .bg s (ptAddr s.ports s.bg.ntByte 0#14) } := rfl
@[simp] theorem vRead_fetchPtLo_watch (view : PatternView) (s : State) (a : PpuAddr) :
    vRead view (fetchPtLo watchHook s) a = vRead view s a := rfl

@[simp] theorem fetchPtHi_watch_ports (s : State) :
    (fetchPtHi watchHook s).ports = { s.ports with v := coarseXInc s.ports.v } := rfl
@[simp] theorem fetchPtHi_watch_bg (s : State) : (fetchPtHi watchHook s).bg =
    { s.bg with ptHi := vRead .bg s (ptAddr s.ports s.bg.ntByte 8#14) } := rfl
@[simp] theorem vRead_fetchPtHi_watch (view : PatternView) (s : State) (a : PpuAddr) :
    vRead view (fetchPtHi watchHook s) a = vRead view s a := rfl

/-- The background's cycles `c` to `c + n - 1`, under a mapper that only watches. -/
def bgRun (line : Int) (c n : Nat) (s : State) : State :=
  (List.range' c n).foldl (fun t c => bgCycle watchHook line c t) s

theorem bgRun_one (line : Int) (c : Nat) (s : State) : bgRun line c 1 s = bgCycle watchHook line c s := rfl

theorem bgRun_add (line : Int) (c m n : Nat) (s : State) :
    bgRun line c (m + n) s = bgRun line (c + m) n (bgRun line c m s) := by
  rw [bgRun, ← List.range'_append_1, List.foldl_append]
  rfl

/-- A byte of the pattern row of the tile at the scroll position (R253, R256). -/
def tileRow (s : State) (p : Ports) (plane : PpuAddr) : Byte := vRead .bg s (ptAddr p (vRead .bg s (ntAddr p.v)) plane)

/-- The pipeline with the tile at the scroll position latched. -/
def tileLatched (s : State) : Background :=
  { s.bg with
    ntByte := vRead .bg s (ntAddr s.ports.v)
    atByte := vRead .bg s (atAddr s.ports.v)
    atShift := atShiftOf s.ports.v
    ptLo := tileRow s s.ports 0#14
    ptHi := tileRow s s.ports 8#14 }

/-- The four fetches of a tile: its bytes are latched, and `v` goes to the next column. -/
theorem fetches_of_a_tile (s : State) :
    let u := fetchPtHi watchHook (fetchPtLo watchHook (fetchAt watchHook (fetchNt watchHook s)))
    u.bg = tileLatched s ∧ u.ports = { s.ports with v := coarseXInc s.ports.v } ∧ ∀ a, vRead .bg u a = vRead .bg s a := by
  simp [tileLatched, tileRow]

/-- What the seven cycles that fetch a tile do. -/
structure FetchesTile (s u : State) : Prop where
  pipeline : u.bg = shiftBg^[7] (tileLatched s)
  ports : u.ports = { s.ports with v := coarseXInc s.ports.v }
  video : ∀ a, vRead .bg u a = vRead .bg s a

theorem prefetch_tile (h : line ≤ 239) (hc : c = 321 ∨ c = 329) (s : State) : FetchesTile s (bgRun line (c + 1) 7 s) := by
  have hcycle (k : Nat) (h1 : 1 ≤ k) (h7 : k ≤ 7) (t : State) :
      bgCycle watchHook line (c + k) t = shifted (fetchSlot watchHook (c + k) t) :=
    bgCycle_prefetch_shifts h (by omega) (by omega) (by omega) t
  have hfold (f : State → Nat → State) : (List.range' (c + 1) 7).foldl f s =
      f (f (f (f (f (f (f s (c + 1)) (c + 2)) (c + 3)) (c + 4)) (c + 5)) (c + 6)) (c + 7) := rfl
  have hrun : bgRun line (c + 1) 7 s =
      shifted^[7] (fetchPtHi watchHook (fetchPtLo watchHook (fetchAt watchHook (fetchNt watchHook s)))) := by
    rw [bgRun, hfold, hcycle 1 (by decide) (by decide), hcycle 2 (by decide) (by decide), hcycle 3 (by decide) (by decide),
      hcycle 4 (by decide) (by decide), hcycle 5 (by decide) (by decide), hcycle 6 (by decide) (by decide),
      hcycle 7 (by decide) (by decide)]
    simp only [fetchSlot_watch_shifted (Nat.le_add_left 1 _),
      fetchSlot_nt (c := c + 1) watchHook _ (by omega), fetchSlot_even (c := c + 2) watchHook _ (by omega),
      fetchSlot_at (c := c + 3) watchHook _ (by omega) (by omega), fetchSlot_even (c := c + 4) watchHook _ (by omega),
      fetchSlot_ptLo (c := c + 5) watchHook _ (by omega), fetchSlot_even (c := c + 6) watchHook _ (by omega),
      fetchSlot_ptHi (c := c + 7) watchHook _ (by omega), Function.iterate_succ_apply', Function.iterate_zero_apply]
  obtain ⟨hbg, hports, hread⟩ := fetches_of_a_tile s
  rw [hrun, shifted_iterate, hbg]
  exact ⟨rfl, hports, hread⟩

/-- Eight shifts bring the lower byte of a plane into the upper one. -/
theorem shiftLeft_upper (a b : Byte) : ((a ++ b) <<< 8).extractLsb' 8 8 = b := by
  apply BitVec.eq_of_getLsbD_eq
  intro i hi
  rw [BitVec.getLsbD_extractLsb', BitVec.getLsbD_shiftLeft, BitVec.getLsbD_append]
  simp [hi, show 8 + i < 16 by omega]

theorem shiftBg_iterate (n : Nat) (b : Background) : shiftBg^[n] b =
    { b with patLo := b.patLo <<< n, patHi := b.patHi <<< n, reloadCounter := (shiftBg^[n] b).reloadCounter } := by
  induction n with
  | zero => simp
  | succ n ih =>
    rw [Function.iterate_succ_apply', ih, BitVec.shiftLeft_add, BitVec.shiftLeft_add]
    rfl

theorem FetchesTile.latches {s u : State} (h : FetchesTile s u) :
    u.bg.ptLo = tileRow s s.ports 0#14 ∧ u.bg.ptHi = tileRow s s.ports 8#14 ∧
      (⟨u.bg.atByte, u.bg.atShift⟩ : Attr) = ⟨vRead .bg s (atAddr s.ports.v), atShiftOf s.ports.v⟩ := by
  rw [h.pipeline]
  exact ⟨rfl, rfl, rfl⟩

/-- With the shift after a tile, its eighth, what was in the lower halves of the planes is in the upper ones. -/
theorem FetchesTile.upper {s u : State} (h : FetchesTile s u) {x y lo hi : Byte} (hlo : s.bg.patLo = x ++ lo)
    (hhi : s.bg.patHi = y ++ hi) :
    (shiftBg u.bg).patLo.extractLsb' 8 8 = lo ∧ (shiftBg u.bg).patHi.extractLsb' 8 8 = hi := by
  rw [h.pipeline, ← Function.iterate_succ_apply' shiftBg, shiftBg_iterate]
  simp only [tileLatched, hlo, hhi, shiftLeft_upper, and_self]

/-- Two tiles fetched, the first taken below the planes in between and the second after. -/
theorem reload_two_tiles {s s1 s3 : State} (h1 : FetchesTile s s1) (h3 : FetchesTile (reloaded s1) s3) :
    let p := { s.ports with v := coarseXInc s.ports.v }
    let b := reloadBg (shiftBg s3.bg)
    b.patLo = tileRow s s.ports 0#14 ++ tileRow s p 0#14 ∧ b.patHi = tileRow s s.ports 8#14 ++ tileRow s p 8#14 ∧
      b.attrCur = ⟨vRead .bg s (atAddr s.ports.v), atShiftOf s.ports.v⟩ ∧
      b.attrNext = ⟨vRead .bg s (atAddr p.v), atShiftOf p.v⟩ := by
  intro p b
  have hports : (reloaded s1).ports = p := h1.ports
  have hread (a : PpuAddr) : vRead .bg (reloaded s1) a = vRead .bg s a := h1.video a
  have hrow (k : PpuAddr) : tileRow (reloaded s1) p k = tileRow s p k := by rw [tileRow, hread, hread, tileRow]
  obtain ⟨hlo1, hhi1, hattr1⟩ := h1.latches
  obtain ⟨hlo3, hhi3, hattr3⟩ := h3.latches
  rw [hports, hrow] at hlo3 hhi3
  rw [hports, hread] at hattr3
  have hcur : s3.bg.attrNext = ⟨s1.bg.atByte, s1.bg.atShift⟩ := by
    rw [h3.pipeline, shiftBg_iterate]
    rfl
  obtain ⟨hupperLo, hupperHi⟩ := h3.upper (lo := s1.bg.ptLo) (hi := s1.bg.ptHi) rfl rfl
  rw [← hlo1, ← hhi1, ← hlo3, ← hhi3, ← hattr1, ← hattr3, ← hupperLo, ← hupperHi]
  exact ⟨rfl, rfl, hcur, rfl⟩

/-- Cycles 337 to 341 take the second tile below the planes; the two name-table fetches after that are only watched. -/
theorem prefetch_end (h : line ≤ 239) (s : State) :
    let u := bgRun line 337 5 s
    u.ports = s.ports ∧ u.bg = { reloadBg (shiftBg s.bg) with ntByte := vRead .bg s (ntAddr s.ports.v) } := by
  have hfold (f : State → Nat → State) : (List.range' 337 5).foldl f s =
      f (f (f (f (f s 337) 338) 339) 340) 341 := rfl
  have hfetches (c : Nat) (h1 : 338 ≤ c) (h2 : c ≤ 340) (t : State) :
      bgCycle watchHook line c t = fetchSlot watchHook c t := by
    rw [bgCycle_prefetch_rests h (.inr h1), fetchUnit_fetches _ _ ((fetching_iff h (by omega)).2 (by omega))]
  have hidle (t : State) : bgCycle watchHook line 341 t = t := by
    rw [bgCycle_prefetch_rests h (.inr (by decide)), fetchUnit_idle _ _ (by rw [fetching_iff h (by decide)]; omega)]
  rw [bgRun, hfold, hidle, hfetches 340 (by decide) (by decide), hfetches 339 (by decide) (by decide),
    hfetches 338 (by decide) (by decide), bgCycle_prefetch_reloads h (.inr rfl),
    fetchSlot_nt (c := 340) _ _ (by decide), fetchSlot_even (c := 339) _ _ (by decide),
    fetchSlot_nt (c := 338) _ _ (by decide)]
  exact ⟨rfl, rfl⟩

/-- Cycles 321 to 341: two tiles, each with the cycle before it, and the cycles that take the second one below the planes. -/
theorem prefetch_run (h : line ≤ 239) (s : State) : ∃ s1 s3, FetchesTile s s1 ∧ FetchesTile (reloaded s1) s3 ∧
    bgRun line 321 21 s = bgRun line 337 5 s3 := by
  refine ⟨_, _, prefetch_tile h (.inl rfl) s, prefetch_tile h (.inr rfl) _, ?_⟩
  have hstart : bgCycle watchHook line 321 s = s := by
    rw [bgCycle_prefetch_rests h (.inl rfl), fetchUnit_fetches _ _ ((fetching_iff h (by decide)).2 (by omega)),
      fetchSlot_even _ _ (by decide)]
  calc bgRun line 321 (1 + 7 + 1 + 7 + 5) s
    _ = bgRun line 337 5 (bgRun line 330 7 (bgCycle watchHook line 329
        (bgRun line 322 7 (bgCycle watchHook line 321 s)))) := by
      rw [bgRun_add, bgRun_add, bgRun_add, bgRun_add, bgRun_one, bgRun_one]
    _ = bgRun line 337 5 (bgRun line 330 7 (reloaded (bgRun line 322 7 s))) := by
      rw [hstart, bgCycle_prefetch_reloads h (.inl rfl)]

end prefetch

/-- Settles O43: two tiles are fetched, each in eight cycles; the first one's bytes are taken below the planes at 329,
shifted up eight times and joined by the second one's at 337. -/
theorem prefetchLoadsTheFirstTwoTiles : Obligations.PrefetchLoadsTheFirstTwoTiles := by
  intro line s _ h
  obtain ⟨s1, s3, h1, h3, hrun⟩ := prefetch_run h s
  obtain ⟨hports, hbg⟩ := prefetch_end h s3
  obtain ⟨hlow, hhigh, hcur, hnext⟩ := reload_two_tiles h1 h3
  rw [← hrun] at hports hbg
  have hv : s3.ports = { s.ports with v := coarseXInc (coarseXInc s.ports.v) } :=
    h3.ports.trans (congrArg (fun p : Ports => { p with v := coarseXInc p.v }) h1.ports)
  exact ⟨(congrArg Background.patLo hbg).trans hlow, (congrArg Background.patHi hbg).trans hhigh,
    (congrArg Background.attrCur hbg).trans hcur, (congrArg Background.attrNext hbg).trans hnext,
    congrArg Background.reloadCounter hbg, hports.trans hv⟩

end Sys2Proof.Machine
end

section
/-! PROOF. What a single background cycle does to the latches, the planes and the column (O40, O41, O42). -/

namespace Sys2Proof.Machine

/-! ## The latches -/

/-- Settles O42: the five slots; of the rest of its cycle a watched fetch sees nothing, so the latches are its own. -/
theorem fetchSlotsLatchTheirBytes : Obligations.FetchSlotsLatchTheirBytes := by
  intro c s hc _ watch p u
  refine ⟨fetchSlot_even _ s, fetchSlot_nt _ s, fun hp hearly => fetchSlot_at _ s hp hearly, fetchSlot_ptLo _ s,
    fetchSlot_ptHi _ s, fun line _ h => ?_⟩
  intro b latched
  have hlatched : fetchUnit watchHook line c s = latched := by simp only [fetchUnit, fetching_iff h hc, latched, u, watch]
  have hb : b = _ := bgCycle_watch_frame hc h s
  have hbg : b.bg = _ := bgCycle_watch_bg hc h s
  rw [hlatched] at hb hbg
  refine ⟨?_, ?_⟩
  · rw [hb]
  · rw [hbg]
    exact ⟨rfl, rfl, rfl, rfl, rfl, advanceBg_fineXLine h⟩

/-! ## The planes -/

/-- A shift and a reload: the upper byte of a plane is what was one bit below, the lower one the latch. -/
theorem reload_plane (p : BitVec 16) (b : Byte) :
    ((p <<< 1).extractLsb' 8 8 ++ b).extractLsb' 8 8 = p.extractLsb' 7 8 ∧
      ((p <<< 1).extractLsb' 8 8 ++ b).extractLsb' 0 8 = b := by
  refine ⟨?_, BitVec.extractLsb'_append_eq_right⟩
  rw [BitVec.extractLsb'_append_eq_left]
  apply BitVec.eq_of_getLsbD_eq
  intro i hi
  simp only [BitVec.getLsbD_extractLsb', BitVec.getLsbD_shiftLeft, show 8 + i < 16 by omega, show ¬8 + i < 1 by omega,
    show 8 + i - 1 = 7 + i by omega, decide_true, decide_false, Bool.not_false, Bool.true_and]

theorem shiftLeft_one_toNat (p : BitVec 16) : (p <<< 1).toNat = 2 * p.toNat % 0x10000 := by
  rw [BitVec.toNat_shiftLeft, Nat.shiftLeft_eq, Nat.mul_comm]

theorem reloadBg_shiftBg_planes (b : Background) :
    let u := reloadBg (shiftBg b)
    u.patLo.extractLsb' 8 8 = b.patLo.extractLsb' 7 8 ∧ u.patLo.extractLsb' 0 8 = b.ptLo ∧
      u.patHi.extractLsb' 8 8 = b.patHi.extractLsb' 7 8 ∧ u.patHi.extractLsb' 0 8 = b.ptHi := by
  obtain ⟨hloUpper, hloLower⟩ := reload_plane b.patLo b.ptLo
  obtain ⟨hhiUpper, hhiLower⟩ := reload_plane b.patHi b.ptHi
  exact ⟨hloUpper, hloLower, hhiUpper, hhiLower⟩

/-- Settles O41: a cycle reloads, only shifts or keeps the planes; at 257 it fetches nothing, so no hook is called. -/
theorem reloadHandsTheTileOn : Obligations.ReloadHandsTheTileOn := by
  refine ⟨fun hook line s hlow h => ?_, fun line c s hlow h hc _ => ?_⟩
  · have hcycle : bgCycle hook line 257 s = setV (copyHori s.ports.t s.ports.v) (setBg (reloadBg (shiftBg s.bg)) s) := by
      rw [bgCycle_eq, columnUnit_keeps _ (.inr (by decide)), fetchUnit_idle _ _ (by rw [fetching_iff h (by decide)]; omega),
        advanceBg_reloads h ((reloadCycle_iff h).2 (by omega)), scrollV_257]
      rfl
    intro u
    rw [show u = _ from hcycle]
    exact ⟨rfl, reloadBg_shiftBg_planes s.bg⟩
  · intro watch u shifts reloads
    have hbg : u.bg = _ := bgCycle_watch_bg hc h s
    rw [hbg]
    refine ⟨fun hreload => ?_, fun hshift hreload => ?_, fun hshift => ?_⟩
    · rw [advanceBg_reloads h ((reloadCycle_iff h).2 hreload)]
      obtain ⟨hloUpper, hloLower, hhiUpper, hhiLower⟩ := reloadBg_shiftBg_planes s.bg
      exact ⟨hloUpper, hloLower, hhiUpper, hhiLower, rfl, rfl, rfl⟩
    · rw [advanceBg_shifts h ((shiftCycle_iff h).2 hshift) (mt (reloadCycle_iff h).1 hreload)]
      exact ⟨shiftLeft_one_toNat _, shiftLeft_one_toNat _, rfl, rfl, rfl⟩
    · rw [advanceBg_rests h (mt (shiftCycle_iff h).1 hshift)]
      exact ⟨rfl, rfl, rfl, rfl, rfl⟩

/-! ## The pixel of a column -/

theorem append_ofBool (hi lo : Bool) :
    (BitVec.ofBool hi ++ BitVec.ofBool lo ≠ 0#2 ↔ hi = true ∨ lo = true) ∧
      (BitVec.ofBool hi ++ BitVec.ofBool lo).toNat = 2 * (if hi then 1 else 0) + (if lo then 1 else 0) := by
  revert hi lo
  decide

/-- The tapped pixel is the two plane bits at the tap (R263, R264). -/
theorem tapPixel_bits (b : Background) : let i := 15 - b.fineXLine.toNat
    (tapPixel b ≠ 0#2 ↔ b.patHi.getLsbD i = true ∨ b.patLo.getLsbD i = true) ∧
      (tapPixel b).toNat = 2 * (if b.patHi.getLsbD i then 1 else 0) + (if b.patLo.getLsbD i then 1 else 0) :=
  append_ofBool _ _

theorem paletteOf_toNat (a : Attr) : (paletteOf a).toNat = a.byte.toNat / 2 ^ a.shift.toNat % 4 := by
  rw [paletteOf, BitVec.extractLsb'_toNat, BitVec.toNat_ushiftRight, Nat.shiftRight_zero, Nat.shiftRight_eq_div_pow]

theorem bgPixelAt_opaque {p : Ports} {b : Background} {col : Nat}
    (h : p.showBg = true ∧ (col ≥ 8 ∨ p.bgl = true) ∧ tapPixel b ≠ 0#2) :
    bgPixelAt p b col = ⟨tapPixel b, paletteOf (tapAttr b)⟩ := if_pos h

theorem bgPixelAt_transparent {p : Ports} {b : Background} {col : Nat}
    (h : ¬(p.showBg = true ∧ (col ≥ 8 ∨ p.bgl = true) ∧ tapPixel b ≠ 0#2)) :
    bgPixelAt p b col = BgPixel.transparent := if_neg h

/-- Writing a column's pixel once more, over the line as it was, writes the same pixel. -/
theorem bgPixel_again (col : Nat) (s : State) :
    bgPixel col { bgPixel col s with bg := { (bgPixel col s).bg with line := s.bg.line } } = bgPixel col s := rfl

/-- Before its column's pixel, a watched cycle keeps `bgLine`. -/
theorem bgCycle_watch_column {line : Int} {c : Nat} (hc : 1 ≤ c) (h : line ≤ 239) (s : State) :
    ∃ w, bgCycle watchHook line c s = columnUnit line c w ∧ w.bg.line = s.bg.line := by
  refine ⟨_, bgCycle_eq watchHook line c s, ?_⟩
  rw [setV_bg, fetchUnit_watch_frame hc h]
  exact advanceBg_line line c s.ports.x s.bg

/-- Settles O40: the pixel by its tap and its tile's palette; in its cycle it is what the last unit writes over the kept line. -/
theorem backgroundPixelOfAColumn : Obligations.BackgroundPixelOfAColumn := by
  refine ⟨fun col s => ?_, fun line c s _ h hc _ => ?_⟩
  · intro u i attr opaquePixel
    obtain ⟨hzero, hpix⟩ := tapPixel_bits s.bg
    have hopaque : opaquePixel ↔ s.ports.showBg = true ∧ (col ≥ 8 ∨ s.ports.bgl = true) ∧ tapPixel s.bg ≠ 0#2 := by
      simp only [hzero, opaquePixel, i, Ports.showBg, Ports.bgl, ge_iff_le]
      tauto
    have hcol : bgLineAt u.bg col = bgPixelAt s.ports s.bg col := bgLineAt_setBgLine_same _ _ _
    refine ⟨rfl, fun k hk => bgLineAt_setBgLine_other _ _ _ _ hk, fun hno => ?_, fun hyes => ?_⟩
    · rw [hcol, bgPixelAt_transparent (mt hopaque.2 hno)]
      rfl
    · rw [hcol, bgPixelAt_opaque (hopaque.1 hyes)]
      exact ⟨hpix, paletteOf_toNat _⟩
  · obtain ⟨w, hw, hline⟩ := bgCycle_watch_column hc h s
    intro watch u
    have hu : u = columnUnit line c w := hw
    refine ⟨fun hlow hc' => ?_, fun hkeep => ?_⟩
    · rw [hu, columnUnit_writes w hlow h hc hc', ← hline, bgPixel_again]
    · rw [hu, columnUnit_keeps w hkeep, hline]

end Sys2Proof.Machine
end

section
/-! PROOF. The fetch addresses as sums and the updates of `v`, field by field (O38, O39). -/

namespace Sys2Proof.Machine

/-! ## The fetch addresses -/

/-- An append as a sum: its upper part counts in units of the lower one's size. -/
theorem toNat_append_eq_add {m n : Nat} (x : BitVec m) (y : BitVec n) : (x ++ y).toNat = 2 ^ n * x.toNat + y.toNat := by
  rw [BitVec.toNat_append, ← Nat.shiftLeft_add_eq_or_of_lt y.isLt, Nat.shiftLeft_eq, Nat.mul_comm]

theorem ntAddr_eq (v : Loopy) : ntAddr v = 2#2 ++ v.extractLsb' 0 12 := by
  calc ntAddr v
    _ = (2#2 ++ 0#12) ||| (0#2 ++ v.extractLsb' 0 12) := by
      rw [ntAddr, BitVec.setWidth_eq_append (by decide)]
      rfl
    _ = _ := by rw [BitVec.or_append, BitVec.or_zero, BitVec.zero_or]

/-- The address of R254 field by field: name table, offset `$3C0`, row and column of the 4×4 tile block. -/
theorem atAddr_eq (v : Loopy) : atAddr v =
    2#2 ++ ntSel v ++ 15#4 ++ (coarseY v).extractLsb' 2 3 ++ (coarseX v).extractLsb' 2 3 := by
  apply BitVec.eq_of_getLsbD_eq
  intro i hi
  rw [BitVec.getLsbD_append, BitVec.getLsbD_append, BitVec.getLsbD_append, BitVec.getLsbD_append]
  interval_cases i <;> simp [atAddr, ntSel, coarseY, coarseX]

theorem atShiftOf_eq (v : Loopy) :
    atShiftOf v = (coarseY v).extractLsb' 1 1 ++ (coarseX v).extractLsb' 1 1 ++ 0#1 := by
  apply BitVec.eq_of_getLsbD_eq
  intro i hi
  rw [BitVec.getLsbD_append, BitVec.getLsbD_append]
  interval_cases i <;> simp [atShiftOf, coarseY, coarseX]

theorem ptAddr_toNat (p : Ports) (nt : Byte) {plane : PpuAddr} (h : plane.toNat ≤ 8) : (ptAddr p nt plane).toNat =
    (if p.ctrl.getLsbD 4 then 0x1000 else 0) + 16 * nt.toNat + plane.toNat + (fineY p.v).toNat := by
  have hbase : (patternBase p.bpt).toNat = if p.ctrl.getLsbD 4 then 0x1000 else 0 := by
    rw [patternBase, Ports.bpt, apply_ite BitVec.toNat]
    rfl
  have hnt := nt.isLt
  have hfine := (fineY p.v).isLt
  rw [ptAddr, BitVec.toNat_add, BitVec.toNat_add, BitVec.toNat_add, BitVec.toNat_mul, hbase, BitVec.toNat_setWidth,
    BitVec.toNat_setWidth, BitVec.toNat_ofNat]
  split <;> omega

/-- Settles O39: each address is an append of fields, and an append is a sum. -/
theorem backgroundFetchAddresses : Obligations.BackgroundFetchAddresses := by
  refine fun p nt => ⟨?_, ?_, ?_, ptAddr_toNat p nt (by decide), (ptAddr_toNat p nt (by decide)).trans ?_⟩
  · rw [ntAddr_eq, toNat_append_eq_add, BitVec.extractLsb'_toNat, Nat.shiftRight_zero]
    rfl
  · have hrow : ((coarseY p.v).extractLsb' 2 3).toNat = (coarseY p.v).toNat / 4 := by
      rw [BitVec.extractLsb'_toNat, Nat.shiftRight_eq_div_pow]
      have := (coarseY p.v).isLt
      omega
    have hcol : ((coarseX p.v).extractLsb' 2 3).toNat = (coarseX p.v).toNat / 4 := by
      rw [BitVec.extractLsb'_toNat, Nat.shiftRight_eq_div_pow]
      have := (coarseX p.v).isLt
      omega
    simp only [atAddr_eq, toNat_append_eq_add, hrow, hcol, BitVec.toNat_ofNat]
    omega
  · simp only [atShiftOf_eq, toNat_append_eq_add, BitVec.extractLsb'_toNat, Nat.shiftRight_eq_div_pow, BitVec.toNat_ofNat]
    omega
  · simp only [BitVec.toNat_ofNat]

/-! ## The updates of `v` -/

section loopy

variable (f f' : BitVec 3) (n n' : BitVec 2) (cy cy' cx cx' : BitVec 5)

theorem loopy_toNat : (loopy f n cy cx).toNat = 4096 * f.toNat + 1024 * n.toNat + 32 * cy.toNat + cx.toNat := by
  simp only [loopy, toNat_append_eq_add]
  omega

theorem loopy_and : loopy f n cy cx &&& loopy f' n' cy' cx' = loopy (f &&& f') (n &&& n') (cy &&& cy') (cx &&& cx') := by
  refine BitVec.and_append.trans (congrArg (· ++ _) ?_)
  rw [BitVec.and_append, BitVec.and_append]

theorem loopy_or : loopy f n cy cx ||| loopy f' n' cy' cx' = loopy (f ||| f') (n ||| n') (cy ||| cy') (cx ||| cx') := by
  refine BitVec.or_append.trans (congrArg (· ++ _) ?_)
  rw [BitVec.or_append, BitVec.or_append]

theorem loopy_xor : loopy f n cy cx ^^^ loopy f' n' cy' cx' = loopy (f ^^^ f') (n ^^^ n') (cy ^^^ cy') (cx ^^^ cx') := by
  refine BitVec.xor_append.trans (congrArg (· ++ _) ?_)
  rw [BitVec.xor_append, BitVec.xor_append]

variable {f n cy cx}

/-- A sum within coarse X does not carry. -/
theorem loopy_coarseX_add {k : BitVec 5} (h : cx.toNat + k.toNat < 32) :
    loopy f n cy (cx + k) = loopy f n cy cx + k.setWidth 15 := by
  apply BitVec.eq_of_toNat_eq
  rw [BitVec.toNat_add, loopy_toNat, loopy_toNat, BitVec.toNat_add_of_lt h, BitVec.toNat_setWidth]
  omega

theorem loopy_coarseY_succ (h : cy ≠ 31#5) : loopy f n (cy + 1#5) cx = loopy f n cy cx + 0x20#15 := by
  have hcy : (cy + 1#5).toNat = cy.toNat + 1 := by bv_omega
  apply BitVec.eq_of_toNat_eq
  rw [BitVec.toNat_add, loopy_toNat, loopy_toNat, hcy, BitVec.toNat_ofNat]
  omega

theorem loopy_fineY_succ (h : f ≠ 7#3) : loopy (f + 1#3) n cy cx = loopy f n cy cx + 0x1000#15 := by
  have hf : (f + 1#3).toNat = f.toNat + 1 := by bv_omega
  apply BitVec.eq_of_toNat_eq
  rw [BitVec.toNat_add, loopy_toNat, loopy_toNat, hf, BitVec.toNat_ofNat]
  omega

variable (f n cy cx)

theorem loopy_xor_ntSel (k : BitVec 2) :
    loopy f (n ^^^ k) cy cx = loopy f n cy cx ^^^ loopy 0#3 k 0#5 0#5 := by
  rw [loopy_xor, BitVec.xor_zero, BitVec.xor_zero, BitVec.xor_zero]

theorem loopy_and_belowFineY : loopy f n cy cx &&& 0x0FFF#15 = loopy 0#3 n cy cx := by
  calc loopy f n cy cx &&& 0x0FFF#15
    _ = loopy f n cy cx &&& loopy 0#3 (.allOnes 2) (.allOnes 5) (.allOnes 5) := rfl
    _ = loopy 0#3 n cy cx := by simp only [loopy_and, BitVec.and_zero, BitVec.and_allOnes]

theorem loopy_and_ntSel_coarseX : loopy f n cy cx &&& 0x0C1F#15 = loopy 0#3 n 0#5 cx := by
  calc loopy f n cy cx &&& 0x0C1F#15
    _ = loopy f n cy cx &&& loopy 0#3 (.allOnes 2) 0#5 (.allOnes 5) := rfl
    _ = loopy 0#3 n 0#5 cx := by simp only [loopy_and, BitVec.and_zero, BitVec.and_allOnes]

/-- The vertical fields: fine Y, bit 1 of the name table, coarse Y (R259). -/
theorem loopy_and_vertical : loopy f n cy cx &&& 0x7BE0#15 = loopy f (n &&& 2#2) cy 0#5 := by
  calc loopy f n cy cx &&& 0x7BE0#15
    _ = loopy f n cy cx &&& loopy (.allOnes 3) 2#2 (.allOnes 5) 0#5 := rfl
    _ = loopy f (n &&& 2#2) cy 0#5 := by simp only [loopy_and, BitVec.and_zero, BitVec.and_allOnes]

/-- The horizontal fields: bit 0 of the name table, coarse X (R259). -/
theorem loopy_and_horizontal : loopy f n cy cx &&& 0x041F#15 = loopy 0#3 (n &&& 1#2) 0#5 cx := by
  calc loopy f n cy cx &&& 0x041F#15
    _ = loopy f n cy cx &&& loopy 0#3 1#2 0#5 (.allOnes 5) := rfl
    _ = loopy 0#3 (n &&& 1#2) 0#5 cx := by simp only [loopy_and, BitVec.and_zero, BitVec.and_allOnes]

end loopy

/-! Each update on the fields, as the sum or the masks it comes to. -/

section updates

variable {f f' : BitVec 3} {n n' : BitVec 2} {cy cy' cx cx' : BitVec 5}

theorem coarseXInc_below (h : cx ≠ 31#5) : coarseXInc (loopy f n cy cx) = loopy f n cy cx + 1#15 := by
  have hcx : cx.toNat + (1#5).toNat < 32 := by bv_omega
  simp only [coarseXInc, fineY_loopy, ntSel_loopy, coarseY_loopy, coarseX_loopy, if_neg h]
  exact loopy_coarseX_add hcx

theorem coarseXInc_wraps : coarseXInc (loopy f n cy 31#5) = (loopy f n cy 31#5 - 31#15) ^^^ 0x0400#15 := by
  have hsub : loopy f n cy 31#5 - 31#15 = loopy f n cy 0#5 :=
    sub_eq_of_eq_add (loopy_coarseX_add (cx := 0#5) (k := 31#5) (by decide))
  simp only [coarseXInc, fineY_loopy, ntSel_loopy, coarseY_loopy, coarseX_loopy, if_true, hsub]
  exact loopy_xor_ntSel f n cy 0#5 1#2

theorem yInc_below (h : f ≠ 7#3) : yInc (loopy f n cy cx) = loopy f n cy cx + 0x1000#15 := by
  have hf : f.toNat < 7 := by bv_omega
  simp only [yInc, fineY_loopy, ntSel_loopy, coarseY_loopy, coarseX_loopy, if_pos hf, loopy_fineY_succ h]

/-- At fine Y 7 coarse Y takes a step, by where it stands. -/
theorem yInc_row : yInc (loopy 7#3 n cy cx) =
    if cy = 29#5 then (loopy 7#3 n cy cx &&& 0x0C1F#15) ^^^ 0x0800#15
    else if cy = 31#5 then loopy 7#3 n cy cx &&& 0x0C1F#15
    else (loopy 7#3 n cy cx &&& 0x0FFF#15) + 0x20#15 := by
  have hlast : ¬(7#3).toNat < 7 := by decide
  simp only [yInc, fineY_loopy, ntSel_loopy, coarseY_loopy, coarseX_loopy, if_neg hlast, loopy_and_ntSel_coarseX,
    loopy_and_belowFineY]
  split
  · exact loopy_xor_ntSel 0#3 n 0#5 cx 2#2
  · split
    · rfl
    · rename_i h
      exact loopy_coarseY_succ h

theorem extract_append_extract (a b : BitVec 2) :
    a.extractLsb' 1 1 ++ b.extractLsb' 0 1 = (a &&& 2#2) ||| (b &&& 1#2) := by
  revert a b
  decide

theorem copyHori_eq : copyHori (loopy f' n' cy' cx') (loopy f n cy cx) =
    (loopy f n cy cx &&& 0x7BE0#15) ||| (loopy f' n' cy' cx' &&& 0x041F#15) := by
  simp only [copyHori, fineY_loopy, ntSel_loopy, coarseY_loopy, coarseX_loopy, loopy_and_vertical, loopy_and_horizontal,
    loopy_or, extract_append_extract, BitVec.or_zero, BitVec.zero_or]

theorem copyVert_eq : copyVert (loopy f' n' cy' cx') (loopy f n cy cx) =
    (loopy f n cy cx &&& 0x041F#15) ||| (loopy f' n' cy' cx' &&& 0x7BE0#15) := by
  simp only [copyVert, fineY_loopy, ntSel_loopy, coarseY_loopy, coarseX_loopy, loopy_and_vertical, loopy_and_horizontal,
    loopy_or, extract_append_extract, BitVec.or_zero, BitVec.zero_or]
  rw [BitVec.or_comm (n' &&& 2#2)]

end updates

/-- Settles O38: the updates on the four fields; in a cycle, the fetch's update and then at most one of the other three. -/
theorem scrollRegisterUpdates : Obligations.ScrollRegisterUpdates := by
  refine ⟨fun v t => ?_, fun line c s hlow h hc _ => ?_⟩
  · obtain ⟨f, n, cy, cx, rfl⟩ : ∃ f n cy cx, v = loopy f n cy cx := ⟨_, _, _, _, (loopy_fields v).symm⟩
    obtain ⟨f', n', cy', cx', rfl⟩ : ∃ f n cy cx, t = loopy f n cy cx := ⟨_, _, _, _, (loopy_fields t).symm⟩
    simp only [fineY_loopy, coarseY_loopy, coarseX_loopy]
    refine ⟨coarseXInc_below, ?_, yInc_below, ?_, ?_, ?_, copyHori_eq, copyVert_eq⟩
    · rintro rfl
      exact coarseXInc_wraps
    · rintro rfl h29 h31
      rw [yInc_row, if_neg h29, if_neg h31]
    · rintro rfl rfl
      rw [yInc_row, if_pos rfl]
    · rintro rfl rfl
      rw [yInc_row, if_neg (by decide), if_pos rfl]
  · intro watch fetches
    have hports : (bgCycle watch line c s).ports = _ := congrArg State.ports (bgCycle_watch_frame hc h s)
    have hv : (fetchUnit watchHook line c s).ports.v = if fetches ∧ c % 8 = 0 then coarseXInc s.ports.v else s.ports.v :=
      congrArg (·.ports.v) (fetchUnit_watch_frame hc h s)
    rw [hports, hv, scrollV_eq h]
    refine congrArg (fun v => { s.ports with v := v }) ?_
    by_cases h256 : 0 ≤ line ∧ c = 256
    · have hfetch : fetches ∧ c % 8 = 0 := ⟨.inl ⟨h256.1, h256.2.le⟩, by omega⟩
      simp only [if_pos h256, if_pos hfetch]
    · by_cases hfetch : fetches ∧ c % 8 = 0
      · have hcycle : (0 ≤ line ∧ c ≤ 256) ∨ (321 ≤ c ∧ c ≤ 340) := hfetch.1
        simp only [if_neg h256, if_pos hfetch, if_neg (show ¬c = 257 by omega),
          if_neg (show ¬(line = -1 ∧ 280 ≤ c ∧ c ≤ 304) by omega)]
      · simp only [if_neg h256, if_neg hfetch]

end Sys2Proof.Machine
end

section
/-! PROOF. The sprite evaluator (O44 to O47): what a step does in each of its states, how many steps are left before `Done`,
and the evaluation of a line as the clearing of secondary OAM, a reset and 96 steps. -/

namespace Sys2Proof.Machine

/-! ## The byte read, its range and its place -/

theorem evalByte_eq (s : State) (m : BitVec 2) :
    evalByte s m = readCell .oam s.oam (4 * s.eval.n.toNat + m.toNat) := by
  rw [evalByte, oamByte, toNat_append_eq_add]
  rfl

/-- R295 and R41: the range of a Y coordinate, with the height of the control register. -/
theorem inRange_iff (line : Int) (y : Byte) (p : Ports) :
    inRange line y (spriteHeight p) = true ↔
      0 ≤ line - y.toNat ∧ line - y.toNat < (if p.ctrl.getLsbD 5 then 16 else 8) := by
  rw [inRange, Bool.and_eq_true, decide_eq_true_iff, decide_eq_true_iff, spriteHeight, Nat.cast_ite]
  rfl

/-- R296: no sprite covers line −1. -/
theorem inRange_preRender (y : Byte) (h : Nat) : inRange (-1) y h = false := by
  simp only [inRange, Bool.and_eq_false_iff, decide_eq_false_iff_not]
  omega

theorem secIndexOf_toNat {k : Nat} (m : BitVec 2) (hk : k < 8) : (secIndexOf k m).toNat = 4 * k + m.toNat := by
  have hm := m.isLt
  rw [secIndexOf, BitVec.toNat_ofNat]
  omega

/-- Nothing changes but the evaluator and byte `i` of secondary OAM, which is `b` afterwards. -/
structure Stores (i : Nat) (b : Byte) (s u : State) : Prop where
  frame  : u = { s with eval := u.eval, sec := u.sec }
  stored : readCell .sec u.sec i = b
  others : ∀ k, k ≠ i → readCell .sec u.sec k = readCell .sec s.sec k

theorem setSec_stores (i : BitVec 5) (b : Byte) (s : State) (e : Evaluator) :
    Stores i.toNat b s (setSec i b { s with eval := e }) :=
  ⟨rfl, readCell_writeCell_same _ _ _ _, fun _ hk => readCell_writeCell_other _ _ _ _ _ hk⟩

/-! ## The evaluator's counters -/

/-- `stepByte` by whether `m` wraps. -/
theorem stepByte_eq (e : Evaluator) :
    stepByte e = if e.m = 3#2 then advanceNorDone { e with m := 0 } else { e with m := e.m + 1#2 } := by
  by_cases h : e.m = 3#2
  · simp [stepByte, h]
  · have hwrap : e.m + 1#2 ≠ 0#2 := by bv_omega
    simp [stepByte, h, hwrap]

/-- What stepping the counters leaves: nothing is recorded, and the state changes to `Done` only. -/
structure OnlyCounts (e e' : Evaluator) : Prop where
  copied : e'.copiedCount = e.copiedCount
  index  : e'.secIndex = e.secIndex
  state  : e'.state = e.state ∨ e'.state = .done

namespace OnlyCounts

theorem leaves {e e' : Evaluator} (hc : OnlyCounts e e') (h : e.state ≠ .copyEntry) : e'.state ≠ .copyEntry := by
  rcases hc.state with hkeeps | hdone
  · rwa [hkeeps]
  · simp [hdone]

theorem advanceNorDone (e : Evaluator) : OnlyCounts e (Machine.advanceNorDone e) := by
  unfold Machine.advanceNorDone
  split
  · exact ⟨rfl, rfl, .inr rfl⟩
  · exact ⟨rfl, rfl, .inl rfl⟩

theorem stepByte (e : Evaluator) : OnlyCounts e (Machine.stepByte e) := by
  rw [stepByte_eq]
  split
  · obtain ⟨hcopied, hindex, hstate⟩ := advanceNorDone { e with m := 0 }
    exact ⟨hcopied, hindex, hstate⟩
  · exact ⟨rfl, rfl, .inl rfl⟩

theorem scanStep (e : Evaluator) : OnlyCounts e (Machine.scanStep e) := by
  unfold Machine.scanStep
  split
  · obtain ⟨hcopied, hindex, hstate⟩ := stepByte { e with subState := e.subState + 1 }
    dsimp only
    split <;> exact ⟨hcopied, hindex, hstate⟩
  · exact advanceNorDone e

end OnlyCounts

/-! ## A step in each state -/

/-- The evaluator after a `CopyEntry` step that stores a byte. -/
def afterStore (e : Evaluator) : Evaluator := if e.m = 0#2 then matchEntry e else copyByte e

theorem afterStore_first {e : Evaluator} (h : e.m = 0#2) : afterStore e = matchEntry e := if_pos h

theorem afterStore_middle {e : Evaluator} (h : e.m = 1#2 ∨ e.m = 2#2) : afterStore e = { e with m := e.m + 1#2 } := by
  rcases h with h | h <;> simp [afterStore, copyByte, h]

theorem afterStore_last {e : Evaluator} (h : e.m = 3#2) : afterStore e = finishEntry e := by
  simp [afterStore, copyByte, h]

/-- The evaluator with the entry being copied counted, and locked when it is the eighth (R294). -/
def countEntry (e : Evaluator) : Evaluator :=
  { e with
    m := 0
    copiedCount := e.copiedCount + 1
    writeLocked := if e.copiedCount + 1 = 8 then true else e.writeLocked }

theorem finishEntry_eq (e : Evaluator) : finishEntry e = nextN (countEntry e) := rfl

section step

variable {line : Int} {s : State}

theorem evalStep_passes (hstate : s.eval.state = .copyEntry) (hm : s.eval.m = 0#2)
    (hrange : ¬inRange line (evalByte s 0#2) (spriteHeight s.ports) = true) :
    evalStep line s = { s with eval := nextN s.eval } := by
  simp [evalStep, hstate, copyEntryStep, hm, hrange]

theorem evalStep_stores (hstate : s.eval.state = .copyEntry)
    (hrange : s.eval.m = 0#2 → inRange line (evalByte s 0#2) (spriteHeight s.ports) = true) :
    evalStep line s = setSec (secIndexOf s.eval.copiedCount s.eval.m) (evalByte s s.eval.m)
      { s with eval := afterStore s.eval } := by
  by_cases hm : s.eval.m = 0#2
  · simp [evalStep, hstate, copyEntryStep, afterStore, hm, hrange hm]
  · simp [evalStep, hstate, copyEntryStep, afterStore, hm]

theorem evalStep_hits (hstate : s.eval.state = .overflow)
    (hrange : inRange line (evalByte s s.eval.m) (spriteHeight s.ports) = true) :
    evalStep line s = { s with
      ports := s.ports.setOverflow
      eval := stepByte { s.eval with state := .scan, subState := 1 } } := by
  simp [evalStep, hstate, overflowStep, hrange]

theorem evalStep_misses (hstate : s.eval.state = .overflow)
    (hrange : ¬inRange line (evalByte s s.eval.m) (spriteHeight s.ports) = true) :
    evalStep line s = { s with eval := advanceNorDone { s.eval with m := s.eval.m + 1#2 } } := by
  simp [evalStep, hstate, overflowStep, hrange]

theorem evalStep_scans (hstate : s.eval.state = .scan) : evalStep line s = { s with eval := scanStep s.eval } := by
  simp only [evalStep, hstate]

theorem evalStep_done (hstate : s.eval.state = .done) : evalStep line s = s := by
  simp only [evalStep, hstate]

end step

/-! ## The steps outside `CopyEntry` -/

section scan

variable {e : Evaluator}

theorem scanStep_middle (h : e.subState = 1 ∨ e.subState = 2) :
    scanStep e = stepByte { e with subState := e.subState + 1 } := by
  have hsub := stepByte_subState { e with subState := e.subState + 1 }
  rw [scanStep, if_pos (by omega)]
  dsimp only at hsub ⊢
  rw [if_neg (by omega)]

/-- `stepByte` sets no sub-state, so one can be set after it. -/
theorem stepByte_withSubState (k : Nat) : stepByte { e with subState := k } = { stepByte e with subState := k } := by
  simp only [stepByte_eq, advanceNorDone]
  split
  · split <;> rfl
  · rfl

/-- The last of the three bytes; the fourth sub-state is left at once. -/
theorem scanStep_last (h : e.subState = 3) : scanStep e = { stepByte { e with subState := 0 } with m := 0 } := by
  rw [stepByte_withSubState]
  simp [scanStep, h, stepByte_withSubState]

theorem scanStep_next (h : e.subState = 0 ∨ 4 ≤ e.subState) : scanStep e = advanceNorDone e :=
  if_neg (by omega)

end scan

/-- What a step outside `CopyEntry` does at most: it moves the evaluator's counters and sets the overflow flag. -/
structure CopiesNothing (s u : State) : Prop where
  copied : u.eval.copiedCount = s.eval.copiedCount
  index  : u.eval.secIndex = s.eval.secIndex
  leaves : u.eval.state ≠ .copyEntry
  frame  : u = { s with ports := u.ports, eval := u.eval }
  flag   : u.ports = s.ports ∨ u.ports = s.ports.setOverflow

theorem evalStep_copiesNothing (line : Int) {s : State} (h : s.eval.state ≠ .copyEntry) :
    CopiesNothing s (evalStep line s) := by
  cases hstate : s.eval.state with
  | copyEntry => exact absurd hstate h
  | overflow =>
    by_cases hrange : inRange line (evalByte s s.eval.m) (spriteHeight s.ports) = true
    · rw [evalStep_hits hstate hrange]
      have hc := OnlyCounts.stepByte { s.eval with state := .scan, subState := 1 }
      exact ⟨hc.copied, hc.index, hc.leaves (by simp), rfl, .inr rfl⟩
    · rw [evalStep_misses hstate hrange]
      have hc := OnlyCounts.advanceNorDone { s.eval with m := s.eval.m + 1#2 }
      exact ⟨hc.copied, hc.index, hc.leaves h, rfl, .inl rfl⟩
  | scan =>
    rw [evalStep_scans hstate]
    have hc := OnlyCounts.scanStep s.eval
    exact ⟨hc.copied, hc.index, hc.leaves h, rfl, .inl rfl⟩
  | done =>
    rw [evalStep_done hstate]
    exact ⟨rfl, rfl, h, rfl, .inl rfl⟩

/-- Settles O47: the step in each of the three states, an overflow step by the range of its byte. -/
theorem overflowStepWritesNoSprite : Obligations.OverflowStepWritesNoSprite := by
  intro line s hcopy u e y hit next carried
  have hhit : hit ↔ e.state = .overflow ∧ inRange line (evalByte s e.m) (spriteHeight s.ports) = true := by
    rw [evalByte_eq, inRange_iff]
  have hcarried (e : Evaluator) : carried e = stepByte e := (stepByte_eq e).symm
  have hnothing : CopiesNothing s u := evalStep_copiesNothing line hcopy
  refine ⟨hnothing.copied, hnothing.index, fun h => ?_, fun h => ?_, fun hstate h => ?_, fun hstate h => ?_,
    fun hstate h => ?_, fun hstate h => ?_, evalStep_done⟩
  · obtain ⟨hstate, hrange⟩ := hhit.1 h
    rw [hcarried]
    simp only [u, evalStep_hits hstate hrange]
    exact ⟨rfl, (OnlyCounts.stepByte _).state, rfl⟩
  · cases hstate : s.eval.state with
    | copyEntry => exact absurd hstate hcopy
    | overflow => simp only [u, evalStep_misses hstate fun hrange => h (hhit.2 ⟨hstate, hrange⟩)]
    | scan => simp only [u, evalStep_scans hstate]
    | done => simp only [u, evalStep_done hstate]
  · simp only [u, evalStep_misses hstate fun hrange => h (hhit.2 ⟨hstate, hrange⟩)]
    rfl
  · rw [hcarried]
    simp only [u, evalStep_scans hstate]
    exact scanStep_middle h
  · rw [hcarried]
    simp only [u, evalStep_scans hstate]
    exact scanStep_last h
  · simp only [u, evalStep_scans hstate]
    exact scanStep_next (.inl h)

/-! ## The steps left before `Done` -/

/-- A bound on the steps before `Done`: one for each entry left, three more for each that may still be copied, one for each
byte left of the entry being copied or scanned. -/
def stepsLeft (e : Evaluator) : Nat :=
  match e.state with
  | .copyEntry => (64 - e.n.toNat) + 3 * (8 - e.copiedCount) + (4 - e.m.toNat)
  | .overflow => (64 - e.n.toNat) + 4
  | .scan => (64 - e.n.toNat) + (4 - e.subState) % 4
  | .done => 0

section stepsLeft

variable {e : Evaluator}

theorem stepsLeft_copyEntry (h : e.state = .copyEntry) :
    stepsLeft e = (64 - e.n.toNat) + 3 * (8 - e.copiedCount) + (4 - e.m.toNat) := by simp only [stepsLeft, h]

theorem stepsLeft_overflow (h : e.state = .overflow) : stepsLeft e = (64 - e.n.toNat) + 4 := by simp only [stepsLeft, h]

theorem stepsLeft_scan (h : e.state = .scan) : stepsLeft e = (64 - e.n.toNat) + (4 - e.subState) % 4 := by
  simp only [stepsLeft, h]

theorem stepsLeft_done (h : e.state = .done) : stepsLeft e = 0 := by simp only [stepsLeft, h]

theorem done_of_stepsLeft (h : stepsLeft e = 0) : e.state = .done := by
  have hn := e.n.isLt
  cases hstate : e.state with
  | copyEntry =>
    rw [stepsLeft_copyEntry hstate] at h
    omega
  | overflow =>
    rw [stepsLeft_overflow hstate] at h
    omega
  | scan =>
    rw [stepsLeft_scan hstate] at h
    omega
  | done => rfl

theorem succ_toNat_of_ne_last {n : BitVec 6} (h : n ≠ 63#6) : (n + 1#6).toNat = n.toNat + 1 := by bv_omega

theorem stepsLeft_advanceNorDone (e : Evaluator) : stepsLeft (advanceNorDone e) ≤ stepsLeft e - 1 := by
  unfold advanceNorDone
  split
  · exact Nat.zero_le _
  · rename_i hlast
    simp only [stepsLeft, succ_toNat_of_ne_last hlast]
    split <;> omega

theorem nextN_unlocked (h : e.writeLocked = false) : nextN e = advanceNorDone e := by simp [nextN, advanceNorDone, h]

theorem stepsLeft_nextN (hstate : e.state = .copyEntry) (hm : e.m = 0#2) : stepsLeft (nextN e) ≤ stepsLeft e - 1 := by
  cases hlocked : e.writeLocked with
  | false =>
    rw [nextN_unlocked hlocked]
    exact stepsLeft_advanceNorDone e
  | true =>
    unfold nextN
    split
    · exact Nat.zero_le _
    · rename_i hlast
      have hm0 : e.m.toNat = 0 := congrArg BitVec.toNat hm
      rw [stepsLeft_overflow rfl, stepsLeft_copyEntry hstate, succ_toNat_of_ne_last hlast]
      omega

/-- The three bytes behind a copied entry's first are the three steps that the entry no longer counts for. -/
theorem stepsLeft_countEntry (hstate : e.state = .copyEntry) (hm : e.m = 3#2) (h8 : e.copiedCount < 8) :
    stepsLeft (countEntry e) = stepsLeft e := by
  have hm3 : e.m.toNat = 3 := congrArg BitVec.toNat hm
  have hcounted : stepsLeft (countEntry e) = (64 - e.n.toNat) + 3 * (8 - (e.copiedCount + 1)) + (4 - 0) :=
    stepsLeft_copyEntry hstate
  rw [hcounted, stepsLeft_copyEntry hstate]
  omega

theorem stepsLeft_afterStore (hstate : e.state = .copyEntry) (hcopied : e.copiedCount < 8) :
    stepsLeft (afterStore e) ≤ stepsLeft e - 1 := by
  have hm : e.m = 0#2 ∨ (e.m = 1#2 ∨ e.m = 2#2) ∨ e.m = 3#2 := by bv_omega
  rcases hm with h | h | h
  · rw [afterStore_first h, stepsLeft_copyEntry hstate, stepsLeft_copyEntry (e := matchEntry e) hstate]
    simp [matchEntry, h]
  · rw [afterStore_middle h, stepsLeft_copyEntry hstate, stepsLeft_copyEntry (e := { e with m := e.m + 1#2 }) hstate]
    rcases h with h | h <;> simp [h]
  · rw [afterStore_last h, finishEntry_eq, ← stepsLeft_countEntry hstate h hcopied]
    exact stepsLeft_nextN hstate rfl

/-- `m` counts only in `CopyEntry`. -/
theorem stepsLeft_withM (m : BitVec 2) (h : e.state ≠ .copyEntry) : stepsLeft { e with m := m } = stepsLeft e := by
  cases hstate : e.state with
  | copyEntry => exact absurd hstate h
  | overflow | scan | done => simp only [stepsLeft, hstate]

theorem stepsLeft_stepByte (h : e.state ≠ .copyEntry) : stepsLeft (stepByte e) ≤ stepsLeft e := by
  rw [stepByte_eq]
  split
  · exact (stepsLeft_advanceNorDone _).trans ((Nat.sub_le _ _).trans (stepsLeft_withM 0 h).le)
  · exact (stepsLeft_withM _ h).le

theorem stepsLeft_scanStep (h : e.state = .scan) : stepsLeft (scanStep e) ≤ stepsLeft e - 1 := by
  have hstep (k : Nat) : stepsLeft (stepByte { e with subState := k }) ≤ (64 - e.n.toNat) + (4 - k) % 4 :=
    (stepsLeft_stepByte (by simp [h])).trans (stepsLeft_scan (e := { e with subState := k }) h).le
  have hsub : (e.subState = 1 ∨ e.subState = 2) ∨ e.subState = 3 ∨ (e.subState = 0 ∨ 4 ≤ e.subState) := by omega
  rcases hsub with hsub | hsub | hsub
  · rw [scanStep_middle hsub, stepsLeft_scan h]
    have := hstep (e.subState + 1)
    omega
  · rw [scanStep_last hsub, stepsLeft_withM 0 ((OnlyCounts.stepByte _).leaves (by simp [h])), stepsLeft_scan h]
    have := hstep 0
    omega
  · rw [scanStep_next hsub]
    exact stepsLeft_advanceNorDone e

end stepsLeft

theorem stepsLeft_evalStep (line : Int) {s : State} (h : EvaluatorOk s) :
    stepsLeft (evalStep line s).eval ≤ stepsLeft s.eval - 1 := by
  cases hstate : s.eval.state with
  | copyEntry =>
    by_cases hstores : s.eval.m = 0#2 → inRange line (evalByte s 0#2) (spriteHeight s.ports) = true
    · rw [evalStep_stores hstate hstores]
      exact stepsLeft_afterStore hstate (h.copying hstate).1
    · obtain ⟨hm, hrange⟩ := Classical.not_imp.1 hstores
      rw [evalStep_passes hstate hm hrange]
      exact stepsLeft_nextN hstate hm
  | overflow =>
    by_cases hrange : inRange line (evalByte s s.eval.m) (spriteHeight s.ports) = true
    · rw [evalStep_hits hstate hrange, stepsLeft_overflow hstate]
      exact (stepsLeft_stepByte (by simp)).trans (stepsLeft_scan rfl).le
    · rw [evalStep_misses hstate hrange]
      have hm := stepsLeft_withM (s.eval.m + 1#2) (e := s.eval) (by simp [hstate])
      exact (stepsLeft_advanceNorDone _).trans (Nat.sub_le_sub_right hm.le 1)
  | scan =>
    rw [evalStep_scans hstate]
    exact stepsLeft_scanStep hstate
  | done =>
    rw [evalStep_done hstate, stepsLeft_done hstate]

/-- The state after cycle 65 (R293). -/
def evalStart (s : State) : State := { s with eval := evalReset s.eval }

theorem evalStart_def (s : State) : { s with eval := evalReset s.eval } = evalStart s := rfl

theorem evalStart_ok (s : State) : EvaluatorOk (evalStart s) :=
  ⟨Nat.zero_le 8, fun _ => ⟨Nat.zero_lt_succ 7, rfl⟩, fun h => by simp [evalStart, evalReset] at h, Nat.zero_le 3⟩

theorem stepsLeft_iterate (line : Int) (s : State) (k : Nat) :
    EvaluatorOk ((evalStep line)^[k] (evalStart s)) ∧ stepsLeft ((evalStep line)^[k] (evalStart s)).eval ≤ 92 - k := by
  induction k with
  | zero => exact ⟨evalStart_ok s, le_rfl⟩
  | succ k ih =>
    obtain ⟨hok, hleft⟩ := ih
    rw [Function.iterate_succ_apply']
    have hstep := stepsLeft_evalStep line hok
    exact ⟨(evalStep_inCycle line _).eval hok, by omega⟩

theorem evalStep_iterate_done (line : Int) (s : State) {k : Nat} (h : 92 ≤ k) :
    ((evalStep line)^[k] (evalStart s)).eval.state = .done :=
  done_of_stepsLeft (by have := (stepsLeft_iterate line s k).2; omega)

/-- Settles O44: the bound on the steps left is 92 after the reset, and every step lowers it. -/
theorem evaluationIsDoneInTime : Obligations.EvaluationIsDoneInTime := by
  intro line s
  rw [evalStart_def s]
  exact evalStep_iterate_done line s le_rfl

/-! ## The evaluation of a line -/

theorem clearedByte_toNat {c : Nat} (h : c ≤ 64) : (BitVec.ofNat 5 (c / 2 - 1)).toNat = c / 2 - 1 := by
  rw [BitVec.toNat_ofNat]
  omega

section cycles

variable (line : Int) {c : Nat} (s : State)

theorem spriteEvalCycle_clears (hlow : 1 ≤ c) (hhigh : c ≤ 64) (heven : c % 2 = 0) :
    spriteEvalCycle line c s = setSec (BitVec.ofNat 5 (c / 2 - 1)) 0xFF#8 s := if_pos ⟨hlow, hhigh, heven⟩

theorem spriteEvalCycle_resets : spriteEvalCycle line 65 s = evalStart s := rfl

theorem spriteEvalCycle_steps (hlow : 66 ≤ c) (hhigh : c ≤ 256) (heven : c % 2 = 0) :
    spriteEvalCycle line c s = evalStep line s := by
  rw [spriteEvalCycle, if_neg (by omega), if_neg (by omega), if_pos ⟨hlow, hhigh, heven⟩]

theorem spriteEvalCycle_rests (h : c = 0 ∨ 256 < c ∨ (c % 2 = 1 ∧ c ≠ 65)) : spriteEvalCycle line c s = s := by
  rw [spriteEvalCycle, if_neg (by omega), if_neg (by omega), if_neg (by omega)]

end cycles

/-- The `n` cycles of the evaluation from `c` on. -/
def evalRun (line : Int) (c n : Nat) (s : State) : State :=
  (List.range' c n).foldl (fun t c => spriteEvalCycle line c t) s

theorem evalRun_one (line : Int) (c : Nat) (s : State) : evalRun line c 1 s = spriteEvalCycle line c s := rfl

theorem evalRun_two (line : Int) (c : Nat) (s : State) :
    evalRun line c 2 s = spriteEvalCycle line (c + 1) (spriteEvalCycle line c s) := rfl

theorem evalRun_add (line : Int) (c m n : Nat) (s : State) :
    evalRun line c (m + n) s = evalRun line (c + m) n (evalRun line c m s) := by
  rw [evalRun, ← List.range'_append_1, List.foldl_append]
  rfl

/-- The state with the first `k` bytes of secondary OAM cleared, and nothing else changed. -/
structure Clears (k : Nat) (s u : State) : Prop where
  frame : u = { s with sec := u.sec }
  bytes : ∀ j, j < k → readCell .sec u.sec j = 0xFF#8

theorem evalRun_clears (line : Int) (s : State) {k : Nat} (hk : k ≤ 32) : Clears k s (evalRun line 1 (2 * k) s) := by
  induction k with
  | zero => exact ⟨rfl, fun j hj => absurd hj (Nat.not_lt_zero j)⟩
  | succ k ih =>
    obtain ⟨hframe, hclear⟩ := ih (by omega)
    have hbyte : (1 + 2 * k + 1) / 2 - 1 = k := by omega
    rw [Nat.mul_succ, evalRun_add, evalRun_two, spriteEvalCycle_rests (c := 1 + 2 * k) line _ (by omega),
      spriteEvalCycle_clears line _ (by omega) (by omega) (by omega)]
    generalize evalRun line 1 (2 * k) s = u at hframe hclear ⊢
    refine ⟨?_, fun j hj => ?_⟩
    · rw [hframe]
      rfl
    · rw [setSec_sec, clearedByte_toNat (by omega), hbyte, readCell_writeCell]
      split
      · rfl
      · exact hclear j (by omega)

theorem evalRun_steps (line : Int) (s : State) {k : Nat} (hk : k ≤ 95) :
    evalRun line 66 (2 * k) s = (evalStep line)^[k] s := by
  induction k with
  | zero => rfl
  | succ k ih =>
    rw [Nat.mul_succ, evalRun_add, ih (by omega), evalRun_two,
      spriteEvalCycle_steps (c := 66 + 2 * k) line _ (by omega) (by omega) (by omega),
      spriteEvalCycle_rests line _ (by omega), Function.iterate_succ_apply']

/-- R290 and R291: the evaluation of a line is the clearing of secondary OAM, the reset and 96 steps. -/
theorem evalRun_line (line : Int) (s : State) :
    evalRun line 1 256 s = (evalStep line)^[96] (evalStart (evalRun line 1 (2 * 32) s)) := by
  rw [show 256 = 2 * 32 + (1 + (2 * 95 + 1)) from rfl, evalRun_add, evalRun_add, evalRun_one, evalRun_add, evalRun_one,
    spriteEvalCycle_resets, evalRun_steps line _ le_rfl, spriteEvalCycle_steps line _ (by omega) (by omega) (by omega)]
  exact (Function.iterate_succ_apply' _ 95 _).symm

/-! ## Line −1 -/

/-- The state after some steps that matched nothing: the evaluator looks at Y bytes only, and has recorded nothing. -/
structure PassesOver (s u : State) : Prop where
  frame  : u = { s with eval := u.eval }
  copied : u.eval.copiedCount = 0
  state  : u.eval.state = .done ∨ u.eval.state = .copyEntry ∧ u.eval.m = 0#2 ∧ u.eval.writeLocked = false

theorem PassesOver.sec {s u : State} (h : PassesOver s u) : u.sec = s.sec := by rw [h.frame]

theorem PassesOver.ports {s u : State} (h : PassesOver s u) : u.ports = s.ports := by rw [h.frame]

theorem PassesOver.evalStep {s u : State} (h : PassesOver s u) : PassesOver s (Machine.evalStep (-1) u) := by
  rcases h.state with hdone | ⟨hcopy, hm, hunlocked⟩
  · rwa [evalStep_done hdone]
  · rw [evalStep_passes hcopy hm (by simp [inRange_preRender])]
    unfold nextN
    split
    · exact ⟨by rw [h.frame], h.copied, .inl rfl⟩
    · exact ⟨by rw [h.frame], h.copied, .inr ⟨by simp [hunlocked, hcopy], hm, hunlocked⟩⟩

theorem evalStep_iterate_passesOver (s : State) (k : Nat) : PassesOver s ((evalStep (-1))^[k] (evalStart s)) := by
  induction k with
  | zero => exact ⟨rfl, rfl, .inr ⟨rfl, rfl, rfl⟩⟩
  | succ k ih =>
    rw [Function.iterate_succ_apply']
    exact ih.evalStep

/-- Settles O45: the steps from any state, and then those of the line from the state with secondary OAM cleared. -/
theorem preRenderLineFindsNoSprite : Obligations.PreRenderLineFindsNoSprite := by
  refine ⟨fun k s => ?_, fun s => ?_⟩
  · rw [evalStart_def s]
    have hpasses := evalStep_iterate_passesOver s k
    exact ⟨hpasses.copied, hpasses.sec, hpasses.ports⟩
  · rw [← evalRun, evalRun_line]
    obtain ⟨hcleared, hbytes⟩ := evalRun_clears (-1) s (k := 32) le_rfl
    generalize evalRun (-1) 1 (2 * 32) s = t at hcleared hbytes ⊢
    have hpasses := evalStep_iterate_passesOver t 96
    have hdone := evalStep_iterate_done (-1) t (k := 96) (by omega)
    generalize (evalStep (-1))^[96] (evalStart t) = u at hpasses hdone ⊢
    refine ⟨?_, hpasses.copied, hdone, fun k hk => ?_⟩
    · rw [hpasses.sec, hpasses.frame, hcleared]
    · rw [hpasses.sec]
      exact hbytes k hk

/-! ## A step in `CopyEntry` -/

theorem evalStep_copyEntry_stores {line : Int} {s : State} (hstate : s.eval.state = .copyEntry)
    (h8 : s.eval.copiedCount < 8)
    (hrange : s.eval.m = 0#2 → inRange line (evalByte s 0#2) (spriteHeight s.ports) = true) :
    Stores (4 * s.eval.copiedCount + s.eval.m.toNat) (evalByte s s.eval.m) s (evalStep line s) ∧
      (evalStep line s).eval = afterStore s.eval := by
  rw [evalStep_stores hstate hrange, ← secIndexOf_toNat s.eval.m h8]
  exact ⟨setSec_stores _ _ _ _, rfl⟩

theorem matchEntry_secIndex_same {e : Evaluator} (h8 : e.copiedCount < 8) :
    (matchEntry e).secIndex[e.copiedCount]? = some e.n := by
  simp [matchEntry, h8]

theorem matchEntry_secIndex_other {e : Evaluator} {j : Nat} (h : j ≠ e.copiedCount) :
    (matchEntry e).secIndex[j]? = e.secIndex[j]? := by
  simp [matchEntry, Ne.symm h]

/-! ## Nine sprites in range -/

/-- The evaluator `t` steps after its reset while every entry is in range: it is at byte `t % 4` of entry `t / 4`, which is
also the number of entries it has copied; at 32 it is locked. -/
structure CopiedTo (t : Nat) (e : Evaluator) : Prop where
  state  : e.state = if t = 32 then .overflow else .copyEntry
  locked : e.writeLocked = decide (t = 32)
  n      : e.n = BitVec.ofNat 6 (t / 4)
  m      : e.m = BitVec.ofNat 2 t
  copied : e.copiedCount = t / 4
  index  : ∀ k, 4 * k < t → e.secIndex[k]? = some (BitVec.ofNat 6 k)

namespace CopiedTo

variable {t : Nat} {e : Evaluator} (h : CopiedTo t e)
include h

/-- A byte before an entry's last: only `m` moves on, and the index of the entry may be recorded. -/
theorem withinEntry (ht : t < 32) (hlast : t % 4 ≠ 3) {m : BitVec 2} (hm : m = BitVec.ofNat 2 (t + 1))
    {x : Vector (BitVec 6) 8} (hx : ∀ k, 4 * k < t + 1 → x[k]? = some (BitVec.ofNat 6 k)) :
    CopiedTo (t + 1) { e with m := m, secIndex := x } := by
  have hentry : (t + 1) / 4 = t / 4 := by omega
  refine ⟨?_, ?_, ?_, hm, ?_, hx⟩
  · exact h.state.trans (by rw [if_neg (by omega), if_neg (by omega)])
  · exact h.locked.trans (by rw [decide_eq_false (by omega), decide_eq_false (by omega)])
  · rw [hentry]
    exact h.n
  · rw [hentry]
    exact h.copied

theorem matchEntry (ht : t < 32) (hm : t % 4 = 0) : CopiedTo (t + 1) (Machine.matchEntry e) := by
  refine h.withinEntry ht (by omega) ?_ fun k hk => ?_
  · apply BitVec.eq_of_toNat_eq
    simp only [BitVec.toNat_ofNat]
    omega
  · by_cases hlast : k = e.copiedCount
    · have hn : e.n = BitVec.ofNat 6 e.copiedCount := by rw [h.copied, h.n]
      rw [hlast, ← hn]
      exact matchEntry_secIndex_same (by rw [h.copied]; omega)
    · refine (matchEntry_secIndex_other hlast).trans (h.index k ?_)
      rw [h.copied] at hlast
      omega

theorem nextByte (ht : t < 32) (hm : t % 4 = 1 ∨ t % 4 = 2) : CopiedTo (t + 1) { e with m := e.m + 1#2 } :=
  h.withinEntry ht (by omega) (by rw [h.m, BitVec.ofNat_add]) fun k hk => h.index k (by omega)

theorem finishEntry (ht : t < 32) (hm : t % 4 = 3) : CopiedTo (t + 1) (Machine.finishEntry e) := by
  have hentry : (t + 1) / 4 = t / 4 + 1 := by omega
  have hnotLast : e.n ≠ 63#6 := by
    rw [h.n]
    intro hlast
    have := congrArg BitVec.toNat hlast
    simp only [BitVec.toNat_ofNat] at this
    omega
  have hlocked : (if e.copiedCount + 1 = 8 then true else e.writeLocked) = decide (t + 1 = 32) := by
    rw [h.copied, h.locked]
    by_cases h8 : t / 4 + 1 = 8
    · rw [if_pos h8, decide_eq_true (by omega)]
    · rw [if_neg h8, decide_eq_false (by omega), decide_eq_false (by omega)]
  have hstate : e.state = .copyEntry := h.state.trans (if_neg (by omega))
  simp only [finishEntry_eq, countEntry, nextN, if_neg hnotLast, hlocked, hstate, decide_eq_true_eq]
  refine ⟨rfl, rfl, ?_, ?_, ?_, fun k hk => h.index k (by omega)⟩
  · rw [hentry, BitVec.ofNat_add, h.n]
  · apply BitVec.eq_of_toNat_eq
    simp only [BitVec.ofNat_eq_ofNat, BitVec.toNat_ofNat]
    omega
  · rw [hentry, h.copied]

theorem m_toNat : e.m.toNat = t % 4 := by rw [h.m, BitVec.toNat_ofNat]

theorem afterStore (ht : t < 32) : CopiedTo (t + 1) (Machine.afterStore e) := by
  have hmod := h.m_toNat
  have hm : t % 4 = 0 ∨ (t % 4 = 1 ∨ t % 4 = 2) ∨ t % 4 = 3 := by omega
  rcases hm with hm | hm | hm
  · rw [afterStore_first (by bv_omega)]
    exact h.matchEntry ht hm
  · rw [afterStore_middle (by bv_omega)]
    exact h.nextByte ht hm
  · rw [afterStore_last (by bv_omega)]
    exact h.finishEntry ht hm

end CopiedTo

/-- The state after `t` steps of nine entries in range. -/
structure Copying (t : Nat) (s u : State) : Prop where
  frame : u = { s with eval := u.eval, sec := u.sec }
  eval  : CopiedTo t u.eval
  bytes : ∀ k, k < t → readCell .sec u.sec k = readCell .oam s.oam k

/-- The state after the eight entries are copied and the ninth has set the flag. -/
structure EightCopied (s u : State) : Prop where
  left   : u.eval.state ≠ .copyEntry
  copied : u.eval.copiedCount = 8
  ports  : u.ports = s.ports.setOverflow
  bytes  : ∀ k, k < 32 → readCell .sec u.sec k = readCell .oam s.oam k
  index  : ∀ k, k < 8 → u.eval.secIndex[k]? = some (BitVec.ofNat 6 k)

theorem EightCopied.evalStep {s u : State} (h : EightCopied s u) (line : Int) :
    EightCopied s (Machine.evalStep line u) := by
  obtain ⟨hcopied, hindex, hleaves, hframe, hflag⟩ := evalStep_copiesNothing line h.left
  have hsec : (Machine.evalStep line u).sec = u.sec := by rw [hframe]
  refine ⟨hleaves, hcopied.trans h.copied, ?_, ?_, ?_⟩
  · rcases hflag with hflag | hflag <;> rw [hflag, h.ports]
    rfl
  · rw [hsec]
    exact h.bytes
  · rw [hindex]
    exact h.index

section nine

variable {line : Int} {s u : State}

/-- The Y byte of each of the first nine entries is in range. -/
def NineCover (line : Int) (s : State) : Prop :=
  ∀ k : Nat, k < 9 → inRange line (readCell .oam s.oam (4 * k)) (spriteHeight s.ports) = true

theorem Copying.evalByte_eq {t : Nat} (h : Copying t s u) (ht : t ≤ 32) :
    evalByte u u.eval.m = readCell .oam s.oam t := by
  have hoam : u.oam = s.oam := by rw [h.frame]
  have hn : u.eval.n.toNat = t / 4 := by
    rw [h.eval.n, BitVec.toNat_ofNat]
    omega
  rw [Machine.evalByte_eq, hoam, hn, h.eval.m_toNat, Nat.div_add_mod]

/-- The byte read at the start of an entry is in range. -/
theorem Copying.covers {t : Nat} (h : Copying t s u) (hcover : NineCover line s) (ht : t ≤ 32) (hm : u.eval.m = 0#2) :
    inRange line (evalByte u u.eval.m) (spriteHeight u.ports) = true := by
  have hports : u.ports = s.ports := by rw [h.frame]
  have hmod := h.eval.m_toNat
  have hstart : t = 4 * (t / 4) := by
    rw [hm] at hmod
    have : (0#2).toNat = 0 := rfl
    omega
  rw [h.evalByte_eq ht, hports, hstart]
  exact hcover (t / 4) (by omega)

theorem Copying.evalStep {t : Nat} (h : Copying t s u) (hcover : NineCover line s) (ht : t < 32) :
    Copying (t + 1) s (Machine.evalStep line u) := by
  have hstate : u.eval.state = .copyEntry := h.eval.state.trans (if_neg (by omega))
  have h8 : u.eval.copiedCount < 8 := by
    rw [h.eval.copied]
    omega
  have hplace : 4 * u.eval.copiedCount + u.eval.m.toNat = t := by
    rw [h.eval.copied, h.eval.m_toNat, Nat.div_add_mod]
  obtain ⟨⟨hframe, hstored, hothers⟩, heval⟩ := evalStep_copyEntry_stores hstate h8
    fun hm => hm ▸ h.covers hcover ht.le hm
  rw [hplace] at hstored hothers
  refine ⟨?_, ?_, fun k hk => ?_⟩
  · rw [hframe, h.frame]
  · rw [heval]
    exact h.eval.afterStore ht
  · by_cases hlast : k = t
    · rw [hlast, hstored, h.evalByte_eq ht.le]
    · rw [hothers k hlast]
      exact h.bytes k (by omega)

theorem copying_iterate (hcover : NineCover line s) {t : Nat} (ht : t ≤ 32) :
    Copying t s ((evalStep line)^[t] (evalStart s)) := by
  induction t with
  | zero => exact ⟨rfl, ⟨rfl, rfl, rfl, rfl, rfl, fun k hk => absurd hk (Nat.not_lt_zero _)⟩,
      fun k hk => absurd hk (Nat.not_lt_zero k)⟩
  | succ t ih =>
    rw [Function.iterate_succ_apply']
    exact (ih (by omega)).evalStep hcover ht

/-- The ninth entry, in range, sets the flag. -/
theorem Copying.eightCopied (h : Copying 32 s u) (hcover : NineCover line s) : EightCopied s (Machine.evalStep line u) := by
  have hports : u.ports = s.ports := by rw [h.frame]
  have hc := OnlyCounts.stepByte { u.eval with state := .scan, subState := 1 }
  rw [evalStep_hits h.eval.state (h.covers hcover le_rfl h.eval.m)]
  refine ⟨hc.leaves (by simp), hc.copied.trans h.eval.copied, ?_, h.bytes, fun k hk => ?_⟩
  · rw [hports]
  · exact (congrArg (·[k]?) hc.index).trans (h.eval.index k (by omega))

theorem eightCopied_iterate (hcover : NineCover line s) (k : Nat) :
    EightCopied s ((evalStep line)^[33 + k] (evalStart s)) := by
  induction k with
  | zero =>
    rw [Nat.add_zero, Function.iterate_succ_apply']
    exact (copying_iterate hcover le_rfl).eightCopied hcover
  | succ k ih =>
    rw [← Nat.add_assoc, Function.iterate_succ_apply']
    exact ih.evalStep line

end nine

/-- Settles O46: the cycles; the `CopyEntry` step by the byte it is at; nine entries in range, after 33 steps and after the
96 of a line, which start from the state with secondary OAM cleared. -/
theorem nineSpritesOverflow : Obligations.NineSpritesOverflow := by
  intro line s
  refine ⟨fun c => ⟨fun hlow hhigh heven => ?_, ?_, spriteEvalCycle_steps line s, spriteEvalCycle_rests line s⟩,
    fun hstate h8 => ?_, fun hcover => ?_⟩
  · rw [spriteEvalCycle_clears line s (by omega) hhigh heven]
    have hstores := setSec_stores (BitVec.ofNat 5 (c / 2 - 1)) 0xFF#8 s s.eval
    rw [clearedByte_toNat hhigh] at hstores
    exact ⟨rfl, hstores.stored, hstores.others⟩
  · rintro rfl
    rfl
  · intro e u b covers next stores
    have hb : evalByte s e.m = b := evalByte_eq s e.m
    have hcovers : inRange line (evalByte s e.m) (spriteHeight s.ports) = true ↔ covers := by rw [hb, inRange_iff]
    have hstores (hrange : e.m = 0#2 → covers) : stores ∧ u.eval = afterStore e := by
      obtain ⟨⟨hframe, hstored, hothers⟩, heval⟩ := evalStep_copyEntry_stores hstate h8
        fun hm => hm ▸ hcovers.2 (hrange hm)
      exact ⟨⟨hframe, hstored.trans hb, hothers⟩, heval⟩
    refine ⟨fun hm hrange => ?_, fun hm hrange => ?_, fun hm => ?_, fun hm => ?_⟩
    · obtain ⟨hs, heval⟩ := hstores fun _ => hrange
      rw [afterStore_first hm] at heval
      rw [heval]
      exact ⟨hs, rfl, matchEntry_secIndex_same h8, fun j hj => matchEntry_secIndex_other hj⟩
    · exact evalStep_passes hstate hm fun h => hrange (hcovers.1 (hm ▸ h))
    · rw [← afterStore_middle hm]
      exact hstores fun h0 => by simp [h0] at hm
    · obtain ⟨hs, heval⟩ := hstores fun h0 => by simp [h0] at hm
      rw [afterStore_last hm] at heval
      exact ⟨hs, heval⟩
  · intro copied
    have hcopied {t u : State} (hports : t.ports = s.ports) (hoam : t.oam = s.oam) (h : EightCopied t u) : copied u :=
      ⟨h.copied, by rw [h.ports, hports]; rfl, fun k hk => (h.bytes k hk).trans (by rw [hoam]), h.index⟩
    refine ⟨?_, ?_⟩
    · rw [evalStart_def s]
      exact hcopied rfl rfl (eightCopied_iterate hcover 0)
    · rw [← evalRun, evalRun_line]
      have hframe := (evalRun_clears line s (k := 32) le_rfl).frame
      generalize evalRun line 1 (2 * 32) s = t at hframe ⊢
      have hports : t.ports = s.ports := by rw [hframe]
      have hoam : t.oam = s.oam := by rw [hframe]
      have hcover' : NineCover line t := fun k hk => by
        rw [hports, hoam]
        exact hcover k hk
      exact hcopied hports hoam (eightCopied_iterate hcover' 63)

end Sys2Proof.Machine
end

section
/-! PROOF. The column's composition (O50, O51) and a slot's clock (O52). The colour shown is the palette byte of the index the
priority multiplexer resolves, so each case of the composition is a case of the winner. -/

namespace Sys2Proof.Machine

/-! ## A slot's clock -/

section slot

variable {s : Slot}

theorem Slot.pixel_dead (h : s.dead = true) : s.pixel = 0#2 := if_pos h

theorem Slot.pixel_counting (h : s.dead = false) (hx : s.xCounter ≠ 0#8) : s.pixel = 0#2 := by simp [pixel, h, hx]

/-- A live slot shows the bit pair at the end that its flip bit names (R337). -/
theorem Slot.pixel_live (h : s.dead = false) (hx : s.xCounter = 0#8) : s.pixel =
    if s.attributeLatch.getLsbD 6 then BitVec.ofBool (s.highShift.getLsbD 0) ++ BitVec.ofBool (s.lowShift.getLsbD 0)
    else BitVec.ofBool (s.highShift.getLsbD 7) ++ BitVec.ofBool (s.lowShift.getLsbD 7) := by
  simp [pixel, h, hx]

theorem Slot.clock_dead (h : s.dead = true) : s.clock = s := if_pos h

theorem Slot.clock_counting (h : s.dead = false) (hx : s.xCounter ≠ 0#8) :
    s.clock = { s with xCounter := s.xCounter - 1#8 } := by
  simp [clock, h, hx]

theorem Slot.clock_live (h : s.dead = false) (hx : s.xCounter = 0#8) : s.clock = s.shift := by simp [clock, h, hx]

theorem Slot.shift_plain (hflip : s.attributeLatch.getLsbD 6 = false) :
    s.shift.lowShift = s.lowShift <<< 1 ∧ s.shift.highShift = s.highShift <<< 1 := by
  simp only [shift, hflip, Bool.false_eq_true, if_false, and_self]

theorem Slot.shift_flipped (hflip : s.attributeLatch.getLsbD 6 = true) :
    s.shift.lowShift = s.lowShift >>> 1 ∧ s.shift.highShift = s.highShift >>> 1 := by
  simp only [shift, hflip, if_true, and_self]

theorem Slot.shift_dead_iff (s : Slot) : s.shift.dead = true ↔ s.shift.lowShift = 0#8 ∧ s.shift.highShift = 0#8 := by
  simp only [shift, Bool.and_eq_true, decide_eq_true_eq]

end slot

theorem topBit_toNat (b : Byte) : (if b.getLsbD 7 then 1 else 0) = b.toNat / 128 := by
  have hb := b.isLt
  simp only [BitVec.getLsbD, Nat.testBit_eq_decide_div_mod_eq, decide_eq_true_eq]
  split <;> omega

theorem bottomBit_toNat (b : Byte) : (if b.getLsbD 0 then 1 else 0) = b.toNat % 2 := by
  simp only [BitVec.getLsbD, Nat.testBit_zero, decide_eq_true_eq]
  split <;> omega

theorem byte_shiftLeft_one (b : Byte) : (b <<< 1).toNat = 2 * b.toNat % 256 := by
  rw [BitVec.toNat_shiftLeft, Nat.shiftLeft_eq, Nat.mul_comm]

theorem byte_shiftRight_one (b : Byte) : (b >>> 1).toNat = b.toNat / 2 := by
  rw [BitVec.toNat_ushiftRight, Nat.shiftRight_eq_div_pow]

/-- Settles O52: the branches of `Slot.pixel` and `Slot.clock`, each shift and each pair of bits as arithmetic. -/
theorem slotClock : Obligations.SlotClock := by
  intro s
  refine ⟨fun h => ⟨Slot.clock_dead h, Slot.pixel_dead h⟩,
    fun h hx => ⟨Slot.clock_counting h hx, Slot.pixel_counting h hx⟩, fun h hx hflip => ?_, fun h hx hflip => ?_,
    fun h hx => ?_⟩
  · obtain ⟨hlo, hhi⟩ := Slot.shift_plain hflip
    rw [Slot.clock_live h hx, hlo, hhi, Slot.pixel_live h hx, hflip]
    refine ⟨?_, byte_shiftLeft_one _, byte_shiftLeft_one _⟩
    rw [if_neg Bool.false_ne_true, (append_ofBool _ _).2, topBit_toNat, topBit_toNat]
  · obtain ⟨hlo, hhi⟩ := Slot.shift_flipped hflip
    rw [Slot.clock_live h hx, hlo, hhi, Slot.pixel_live h hx, hflip]
    refine ⟨?_, byte_shiftRight_one _, byte_shiftRight_one _⟩
    rw [if_pos rfl, (append_ofBool _ _).2, bottomBit_toNat, bottomBit_toNat]
  · rw [Slot.clock_live h hx]
    exact ⟨rfl, Slot.shift_dead_iff s⟩

/-! ## The winner of a column -/

theorem firstOpaque_none {l : List Slot} (h : ∀ slot ∈ l, slot.pixel = 0#2) : firstOpaque l = none := by
  induction l with
  | nil => rfl
  | cons slot rest ih =>
    obtain ⟨hslot, hrest⟩ := List.forall_mem_cons.1 h
    rw [firstOpaque, if_neg (not_not.2 hslot), ih hrest]

/-- The first opaque slot wins, whatever the slots after it show (R337). -/
theorem firstOpaque_first {before : List Slot} (after : List Slot) {slot : Slot} (h : ∀ b ∈ before, b.pixel = 0#2)
    (hslot : slot.pixel ≠ 0#2) :
    firstOpaque (before ++ slot :: after) = some ⟨slot.originalIndex, slot.attributeLatch, slot.pixel⟩ := by
  induction before with
  | nil => exact if_pos hslot
  | cons b rest ih =>
    obtain ⟨hb, hrest⟩ := List.forall_mem_cons.1 h
    rw [List.cons_append, firstOpaque, if_neg (not_not.2 hb), ih hrest]

section winner

variable {p : Ports} {col : Nat} (slots : Vector Slot 8)

theorem columnWinner_shown (hspr : p.mask.getLsbD 4 = true) (hcol : 8 ≤ col ∨ p.mask.getLsbD 2 = true) :
    columnWinner p slots col = firstOpaque slots.toList := by
  have hspl : ¬(col < 8 ∧ p.spl = false) := fun ⟨hlow, hclip⟩ =>
    hcol.elim (Nat.not_le.2 hlow) fun h => Bool.false_ne_true (hclip.symm.trans h)
  have hshow : p.showSpr = true := hspr
  exact if_pos (by simp [Ports.renderingEnabled, hshow, hspl])

theorem columnWinner_suppressed (h : p.mask.getLsbD 4 = false ∨ (col < 8 ∧ p.mask.getLsbD 2 = false)) :
    columnWinner p slots col = none := if_neg fun hwin => hwin.2 h

theorem columnWinner_forcedBlank (h : p.renderingEnabled = false) : columnWinner p slots col = none :=
  if_neg fun hwin => Bool.false_ne_true (h.symm.trans hwin.1)

end winner

/-! ## The palette entry it shows -/

/-- The palette entry of a background pixel: the backdrop's where it is transparent (R264, R342). -/
def BgPixel.paletteEntry (bg : BgPixel) : Nat := if bg.pix = 0#2 then 0 else 4 * bg.pal.toNat + bg.pix.toNat

/-- A palette byte as it is shown: grey masks it with `$30` (R343). -/
def shownColour (s : State) (k : Nat) : Byte :=
  let b := readCell .pal s.pal k
  if s.ports.mask.getLsbD 0 then b &&& 0x30#8 else b

theorem palIndex_ofColour (idx : BitVec 5) : (palIndex (0x3F00#14 ||| idx.setWidth 14)).toNat =
    if idx.toNat % 4 = 0 then idx.toNat % 16 else idx.toNat := by
  revert idx
  decide

theorem colour_eq (s : State) (idx : BitVec 5) :
    colour s idx = shownColour s (if idx.toNat % 4 = 0 then idx.toNat % 16 else idx.toNat) := by
  rw [← palIndex_ofColour]
  rfl

/-- An index whose colour bits are not 0 is its own palette entry. -/
theorem colour_append (s : State) (half : BitVec 1) (pal : BitVec 2) {pix : BitVec 2} (h : pix ≠ 0#2) :
    colour s (half ++ pal ++ pix) = shownColour s (16 * half.toNat + 4 * pal.toNat + pix.toNat) := by
  have hpix : pix.toNat ≠ 0 := fun h0 => h (BitVec.eq_of_toNat_eq h0)
  have hlt := pix.isLt
  have hidx : (half ++ pal ++ pix).toNat = 16 * half.toNat + 4 * pal.toNat + pix.toNat := by
    simp only [toNat_append_eq_add]
    omega
  rw [colour_eq, hidx, if_neg (by omega)]

/-- Without a winner the background is shown (R340). -/
theorem colour_background (s : State) (bg : BgPixel) : colour s (resolveIndex none bg) = shownColour s bg.paletteEntry := by
  by_cases h : bg.pix = 0#2
  · simp only [resolveIndex, BgPixel.paletteEntry, h, ne_eq, not_true_eq_false, if_false, if_true]
    exact colour_eq s 0#5
  · simp only [resolveIndex, BgPixel.paletteEntry, if_pos (show bg.pix ≠ 0#2 from h), if_neg h]
    rw [colour_append s 0#1 bg.pal h, BitVec.toNat_ofNat, Nat.zero_mod, Nat.mul_zero, Nat.zero_add]

/-- A winner behind an opaque background is not shown (R342). -/
theorem resolveIndex_behind (i : BitVec 6) {attr : Byte} (pix : BitVec 2) {bg : BgPixel} (hback : attr.getLsbD 5 = true)
    (hbg : bg.pix ≠ 0#2) : resolveIndex (some ⟨i, attr, pix⟩) bg = resolveIndex none bg := by
  simp only [resolveIndex, hback, hbg, Bool.true_eq_false, or_self, if_false]

/-- A winner in front, or over a transparent background, is shown (R342). -/
theorem colour_front (s : State) (i : BitVec 6) {attr : Byte} {pix : BitVec 2} {bg : BgPixel}
    (hfront : attr.getLsbD 5 = false ∨ bg.pix = 0#2) (hpix : pix ≠ 0#2) :
    colour s (resolveIndex (some ⟨i, attr, pix⟩) bg) =
      shownColour s (16 + 4 * (attr.extractLsb' 0 2).toNat + pix.toNat) := by
  have hidx : resolveIndex (some ⟨i, attr, pix⟩) bg = 1#1 ++ attr.extractLsb' 0 2 ++ pix := if_pos hfront
  rw [hidx, colour_append s _ _ hpix]
  rfl

/-! ## The composition -/

section compose

variable (line : Int) (col : Nat) (s : State)

/-- Only the slots, the frame and the hit flag change. -/
theorem composePixel_frame : composePixel line col s = { s with
    slots := (composePixel line col s).slots
    frame := (composePixel line col s).frame
    ports := { s.ports with sprite0Hit := (composePixel line col s).ports.sprite0Hit } } := rfl

theorem composePixel_writes : readCell .frame (composePixel line col s).frame (line.toNat * 256 + col) =
    colour s (resolveIndex (columnWinner s.ports s.slots col) (bgLineAt s.bg col)) := readCell_writeCell_same _ _ _ _

theorem composePixel_others {k : Nat} (hk : k ≠ line.toNat * 256 + col) :
    readCell .frame (composePixel line col s).frame k = readCell .frame s.frame k := readCell_writeCell_other _ _ _ _ _ hk

theorem composePixel_sprite0Hit : (composePixel line col s).ports.sprite0Hit =
    (s.ports.sprite0Hit || sprite0Hits ((columnWinner s.ports s.slots col).map (·.index)) (bgLineAt s.bg col)) := rfl

variable {s}

theorem composePixel_clocks (h : s.ports.renderingEnabled = true) :
    (composePixel line col s).slots.toList = s.slots.toList.map Slot.clock := by
  simp only [composePixel, h, if_true, mapSlots_toList]

theorem composePixel_keepsSlots (h : s.ports.renderingEnabled = false) : (composePixel line col s).slots = s.slots := by
  simp only [composePixel, h, Bool.false_eq_true, if_false]

variable {line col} (hwin : columnWinner s.ports s.slots col = none)
include hwin

/-- Without a winner the flag is kept (R341). -/
theorem composePixel_keepsHit : (composePixel line col s).ports.sprite0Hit = s.ports.sprite0Hit := by
  rw [composePixel_sprite0Hit, hwin]
  exact Bool.or_false _

theorem composePixel_keepsPorts : composePixel line col s =
    { s with slots := (composePixel line col s).slots, frame := (composePixel line col s).frame } :=
  (composePixel_frame line col s).trans (congrArg (fun hit => { s with
    slots := (composePixel line col s).slots
    frame := (composePixel line col s).frame
    ports := { s.ports with sprite0Hit := hit } }) (composePixel_keepsHit hwin))

theorem composePixel_showsBackground : readCell .frame (composePixel line col s).frame (line.toNat * 256 + col) =
    shownColour s (bgLineAt s.bg col).paletteEntry := by
  rw [composePixel_writes, hwin, colour_background]

omit hwin in
/-- In forced blank a transparent column shows the backdrop (R343). -/
theorem composePixel_forcedBlank (line : Int) (hoff : s.ports.renderingEnabled = false)
    (hbg : bgLineAt s.bg col = BgPixel.transparent) :
    readCell .frame (composePixel line col s).frame (line.toNat * 256 + col) = shownColour s 0 := by
  rw [composePixel_showsBackground (columnWinner_forcedBlank s.slots hoff), hbg]
  rfl

end compose

/-- Settles O50: the winner is the first opaque slot, and the colour is its own or the background's. -/
theorem composedPixel : Obligations.ComposedPixel := by
  intro line col s _ hspr hcol u bg grey at'
  have hwinner := columnWinner_shown s.slots hspr hcol
  have hon : s.ports.renderingEnabled = true := (congrArg (s.ports.showBg || ·) hspr).trans (Bool.or_true _)
  refine ⟨composePixel_frame line col s, composePixel_clocks line col hon, fun k => composePixel_others line col s,
    fun hclear => ?_, fun before after slot hslots hbefore hslot => ?_⟩
  · have hwin := hwinner.trans (firstOpaque_none hclear)
    exact ⟨composePixel_keepsHit hwin, composePixel_showsBackground hwin⟩
  · have hwin := hwinner.trans (hslots ▸ firstOpaque_first after hbefore hslot)
    have hcolour := composePixel_writes line col s
    rw [hwin] at hcolour
    refine ⟨?_, fun hfront => hcolour.trans (colour_front s _ hfront hslot), fun hback hbg => ?_⟩
    · rw [composePixel_sprite0Hit, hwin]
      rfl
    · rw [resolveIndex_behind _ _ hback hbg, colour_background] at hcolour
      exact hcolour.trans (congrArg (shownColour s) (if_neg hbg))

/-- Settles O51: a suppressed column and a forced blank have no winner; the cycles of a forced blank are `blankCycle`'s. -/
theorem suppressedSpritesAndForcedBlank : Obligations.SuppressedSpritesAndForcedBlank := by
  refine ⟨fun line col s hlow => ?_, fun line c s hlow h hc _ => ?_⟩
  · intro u bg grey
    refine ⟨fun hsup => ?_, composePixel_clocks line col, composePixel_keepsSlots line col, fun hoff h239 hcol => ?_⟩
    · have hwin := columnWinner_suppressed s.slots hsup
      exact ⟨composePixel_keepsPorts hwin, fun k => composePixel_others line col s, composePixel_showsBackground hwin⟩
    · rw [blankCycle_visible s hlow h239 (Nat.le_add_left 1 col) hcol]
      exact composePixel_forcedBlank line hoff (bgLineAt_setBgLine_same _ _ _)
  · intro u
    refine ⟨fun h0 h256 => ?_, ?_, fun hother => blankCycle_other s (by omega)⟩
    · rw [show u = _ from blankCycle_visible s h0 h hc h256]
      exact ⟨rfl, bgLineAt_setBgLine_same _ _ _, fun k hk => bgLineAt_setBgLine_other _ _ _ _ hk⟩
    · rintro rfl
      rw [show u = _ from blankCycle_257 line s]
      exact ⟨rfl, mapSlots_toList _ _⟩

end Sys2Proof.Machine
end

section
/-! PROOF. The sprite fetches of cycles 257 to 320 (O48) and the pattern address they read (O49). -/

namespace Sys2Proof.Machine

/-! ## The pattern address -/

theorem patternBase_toNat (second : Bool) : (patternBase second).toNat = if second then 0x1000 else 0 := by
  cases second <;> rfl

/-- The address of a tile's row in the low plane is the sum of its parts. -/
theorem patternRow_toNat (second : Bool) (tile : Byte) {row : Nat} (h : row < 8) :
    (patternBase second + 16#14 * tile.setWidth 14 + BitVec.ofNat 14 row + 0#14).toNat =
      (if second then 0x1000 else 0) + 16 * tile.toNat + row := by
  have htile := tile.isLt
  rw [BitVec.add_zero, BitVec.toNat_add, BitVec.toNat_add, BitVec.toNat_mul, patternBase_toNat, BitVec.toNat_setWidth,
    BitVec.toNat_ofNat, BitVec.toNat_ofNat]
  split <;> omega

/-- The even tile of a pair. -/
theorem evenTile_toNat (tile : Byte) : (tile &&& 0xFE#8).toNat = 2 * (tile.toNat / 2) := by
  have heven : tile &&& 0xFE#8 = tile.extractLsb' 1 7 ++ 0#1 := by
    apply BitVec.eq_of_getLsbD_eq
    intro i hi
    rw [BitVec.getLsbD_append]
    interval_cases i <;> simp
  have htile := tile.isLt
  rw [heven, toNat_append_eq_add, BitVec.extractLsb'_toNat, Nat.shiftRight_eq_div_pow, BitVec.toNat_ofNat]
  omega

section sprAddr

variable {p : Ports} (line : Int) (f : SpriteFetch) (valid : Bool) (plane : PpuAddr)

/-- The tile a fetch reads: `$FF` where it is a dummy (R333). -/
def fetchedTile : Byte := if valid then f.tile else 0xFF#8

/-- The row a fetch reads: 0 where it is a dummy (R333). -/
def fetchedRow (p : Ports) : Nat := if valid then spriteRow line f (spriteHeight p) else 0

theorem spriteHeight_small (h : p.ctrl.getLsbD 5 = false) : spriteHeight p = 8 := by
  simp only [spriteHeight, Ports.h16, h, Bool.false_eq_true, if_false]

theorem spriteHeight_tall (h : p.ctrl.getLsbD 5 = true) : spriteHeight p = 16 := if_pos h

theorem sprAddr_small (h : p.ctrl.getLsbD 5 = false) : sprAddr p line f valid plane =
    patternBase p.spt + 16#14 * (fetchedTile f valid).setWidth 14 + BitVec.ofNat 14 (fetchedRow line f valid p) +
      plane := if_pos (spriteHeight_small h)

/-- The upper eight rows of a tall sprite are the even tile of its pair, the lower eight the odd one (R333). -/
theorem sprAddr_tall (h : p.ctrl.getLsbD 5 = true) : sprAddr p line f valid plane =
    let tile := fetchedTile f valid
    let row := fetchedRow line f valid p
    patternBase (tile.getLsbD 0) +
      16#14 * (if row ≥ 8 then (tile &&& 0xFE#8) + 1#8 else tile &&& 0xFE#8).setWidth 14 +
      BitVec.ofNat 14 (if row ≥ 8 then row - 8 else row) + plane :=
  if_neg (by rw [spriteHeight_tall h]; decide)

theorem sprAddr_small_toNat (h : p.ctrl.getLsbD 5 = false) (hrow : fetchedRow line f valid p < 8) :
    (sprAddr p line f valid 0#14).toNat =
      (if p.ctrl.getLsbD 3 then 0x1000 else 0) + 16 * (fetchedTile f valid).toNat + fetchedRow line f valid p := by
  rw [sprAddr_small line f valid _ h, patternRow_toNat _ _ hrow]
  rfl

theorem sprAddr_tall_toNat (h : p.ctrl.getLsbD 5 = true) (hrow : fetchedRow line f valid p < 16) :
    (sprAddr p line f valid 0#14).toNat =
      0x1000 * ((fetchedTile f valid).toNat % 2) +
        16 * (2 * ((fetchedTile f valid).toNat / 2) + fetchedRow line f valid p / 8) + fetchedRow line f valid p % 8 := by
  have heq := sprAddr_tall line f valid 0#14 h
  generalize fetchedRow line f valid p = row at hrow heq ⊢
  generalize fetchedTile f valid = tile at heq ⊢
  have hbank : (if tile.getLsbD 0 then 0x1000 else 0) = 0x1000 * (tile.toNat % 2) := by
    rw [← bottomBit_toNat]
    split <;> rfl
  have heven := evenTile_toNat tile
  have htile := tile.isLt
  rw [heq]
  by_cases hlower : row ≥ 8
  · have hodd : ((tile &&& 0xFE#8) + 1#8).toNat = 2 * (tile.toNat / 2) + 1 := by
      rw [BitVec.toNat_add, heven, BitVec.toNat_ofNat]
      omega
    simp only [if_pos hlower]
    rw [patternRow_toNat _ _ (by omega), hbank, hodd]
    omega
  · simp only [if_neg hlower]
    rw [patternRow_toNat _ _ (by omega), hbank, heven]
    omega

/-- A row in range is not wrapped by the mask with the height. -/
theorem spriteRow_inRange {line : Int} {f : SpriteFetch} {h : Nat} (h0 : 0 ≤ line - f.y.toNat)
    (hlt : (line - f.y.toNat).toNat < h) : spriteRow line f h =
      if f.attr.getLsbD 7 then (h - 1) - (line - f.y.toNat).toNat else (line - f.y.toNat).toNat := by
  rw [spriteRow, Int.emod_eq_of_lt h0 (by omega)]

theorem sprAddr_highPlane : sprAddr p line f valid 8#14 = sprAddr p line f valid 0#14 + 8#14 := by
  cases h : p.ctrl.getLsbD 5
  · simp only [sprAddr_small line f valid _ h, BitVec.add_zero]
  · simp only [sprAddr_tall line f valid _ h, BitVec.add_zero]

end sprAddr

/-- Settles O49: the address of either height as a sum, at the row of a valid slot and at that of a dummy fetch. -/
theorem spritePatternAddress : Obligations.SpritePatternAddress := by
  intro p line f row
  refine ⟨fun h h0 hrow => ?_, fun h h0 hrow => ?_, fun h => ?_, fun h => ?_, fun valid => sprAddr_highPlane line f valid⟩
  · have hfetched : fetchedRow line f true p = if f.attr.getLsbD 7 then 7 - row else row := by
      rw [fetchedRow, if_pos rfl, spriteHeight_small h, spriteRow_inRange h0 hrow]
    have hlt : fetchedRow line f true p < 8 := by
      rw [hfetched]
      split <;> omega
    rw [sprAddr_small_toNat line f true h hlt, hfetched]
    rfl
  · intro r
    have hfetched : fetchedRow line f true p = r := by
      rw [fetchedRow, if_pos rfl, spriteHeight_tall h, spriteRow_inRange h0 hrow]
    have hlt : fetchedRow line f true p < 16 := by
      simp only [hfetched, r]
      split <;> omega
    rw [sprAddr_tall_toNat line f true h hlt, hfetched]
    rfl
  · exact sprAddr_small_toNat line f false h (Nat.zero_lt_succ 7)
  · have htile : (fetchedTile f false).toNat = 255 := rfl
    have hrow : fetchedRow line f false p = 0 := rfl
    rw [sprAddr_tall_toNat line f false h (Nat.zero_lt_succ 15), htile, hrow]

/-! ## The window -/

/-- The cursor reset of every cycle of the window (R330). -/
def clearOamAddr (s : State) : State := { s with ports := { s.ports with oamAddr := 0 } }

section window

variable (hook : Hook) (line : Int) {c : Nat} (s : State)

theorem spriteFetchCycle_outside (h : c < 257 ∨ 320 < c) : spriteFetchCycle hook line c s = s := if_neg (by omega)

theorem spriteFetchCycle_257 :
    spriteFetchCycle hook line 257 s = { clearOamAddr s with slots := killSlots s.slots } := rfl

variable (hlow : 257 < c) (h : c ≤ 320)
include hlow h

theorem spriteFetchCycle_latches (ho : (c - 257) % 8 = 1) : spriteFetchCycle hook line c s =
    { clearOamAddr s with fetch := latchSprite (clearOamAddr s) ((c - 257) / 8) } := by
  simp only [spriteFetchCycle, if_pos (And.intro hlow.le h), if_neg hlow.ne', ho, clearOamAddr]

theorem spriteFetchCycle_lowPlane (ho : (c - 257) % 8 = 5) :
    spriteFetchCycle hook line c s = fetchSprLo hook line ((c - 257) / 8) (clearOamAddr s) := by
  simp only [spriteFetchCycle, if_pos (And.intro hlow.le h), if_neg hlow.ne', ho, clearOamAddr]

theorem spriteFetchCycle_highPlane (ho : (c - 257) % 8 = 7) :
    spriteFetchCycle hook line c s = fetchSprHi hook line ((c - 257) / 8) (clearOamAddr s) := by
  simp only [spriteFetchCycle, if_pos (And.intro hlow.le h), if_neg hlow.ne', ho, clearOamAddr]

theorem spriteFetchCycle_rests (h1 : (c - 257) % 8 ≠ 1) (h5 : (c - 257) % 8 ≠ 5) (h7 : (c - 257) % 8 ≠ 7) :
    spriteFetchCycle hook line c s = clearOamAddr s := by
  simp only [spriteFetchCycle, if_pos (And.intro hlow.le h), if_neg hlow.ne', clearOamAddr]

end window

/-- The four bytes of slot `i` in secondary OAM (R332). -/
theorem latchSprite_eq (s : State) {i : Nat} (h : i < 8) : latchSprite s i =
    ⟨readCell .sec s.sec (4 * i + 0), readCell .sec s.sec (4 * i + 1), readCell .sec s.sec (4 * i + 2),
      readCell .sec s.sec (4 * i + 3), s.fetch.lo⟩ := by
  have hbyte (k : Nat) (hk : k < 4) : secByte s (latchSprite.secIndexOf4 i k) = readCell .sec s.sec (4 * i + k) := by
    rw [secByte, latchSprite.secIndexOf4, BitVec.toNat_ofNat, Nat.mod_eq_of_lt (by omega)]
  rw [latchSprite, hbyte 0 (by decide), hbyte 1 (by decide), hbyte 2 (by decide), hbyte 3 (by decide)]

/-- Every cycle of the window leaves the cursor cleared under a hook that does not move it (R330). -/
theorem spriteFetchCycle_oamAddr {hook : Hook} (hkeep : ∀ e t, (hook e t).ports.oamAddr = t.ports.oamAddr) (line : Int)
    {c : Nat} (s : State) (hlow : 257 ≤ c) (h : c ≤ 320) : (spriteFetchCycle hook line c s).ports.oamAddr = 0 := by
  obtain rfl | hlow := hlow.eq_or_lt
  · rfl
  · obtain ho | ho | ho | ⟨h1, h5, h7⟩ : (c - 257) % 8 = 1 ∨ (c - 257) % 8 = 5 ∨ (c - 257) % 8 = 7 ∨
        (c - 257) % 8 ≠ 1 ∧ (c - 257) % 8 ≠ 5 ∧ (c - 257) % 8 ≠ 7 := by omega
    · rw [spriteFetchCycle_latches hook line s hlow h ho]
      rfl
    · rw [spriteFetchCycle_lowPlane hook line s hlow h ho]
      exact hkeep _ _
    · rw [spriteFetchCycle_highPlane hook line s hlow h ho]
      exact hkeep _ _
    · rw [spriteFetchCycle_rests hook line s hlow h h1 h5 h7]
      rfl

/-- Settles O48: the cycles of the window by their place among a slot's eight. -/
theorem spriteWindowClearsTheCursorAndTheSlots : Obligations.SpriteWindowClearsTheCursorAndTheSlots := by
  intro hook line s
  refine ⟨rfl, ?_, ?_, ?_, fun c hlow h hkeep => spriteFetchCycle_oamAddr hkeep line s hlow h, fun c => ?_⟩
  · rw [spriteFetchCycle_257]
    exact killSlots_dead s.slots
  · rw [blankCycle_257]
    exact killSlots_dead s.slots
  · rw [blankCycle_257]
  · intro u i o q sec valid
    refine ⟨spriteFetchCycle_outside hook line s, ?_, fun hlow h => ⟨fun ho => ?_,
      spriteFetchCycle_lowPlane hook line s hlow h, fun ho => ?_, spriteFetchCycle_rests hook line s hlow h⟩⟩
    · rintro rfl
      exact ⟨mapSlots_toList _ _, rfl⟩
    · rw [show u = _ from spriteFetchCycle_latches hook line s hlow h ho, latchSprite_eq _ (by omega)]
      rfl
    · have hi : i < 8 := by omega
      rw [show u = _ from spriteFetchCycle_highPlane hook line s hlow h ho]
      exact ⟨rfl, Vector.getElem?_setIfInBounds_self_of_lt hi,
        fun j hj => Vector.getElem?_setIfInBounds_ne hj.symm⟩

end Sys2Proof.Machine
end

section
/-! PROOF. The OAM DMA (O53, O18). While the host makes no call and rendering is off, no unit of a cycle but the DMA's own tick
touches what a transfer works on, so a replay is followed on that part of the state alone: three cycles for a read, three for a
write (R362), one byte after the other. -/

namespace Sys2Proof.Machine

/-! ## What a transfer works on -/

/-- The part of the state a transfer reads and changes, with what keeps the other units from it: the mask and the scripts. -/
structure Transfer where
  dma     : Dma
  oam     : List Host.Cell
  cursor  : Byte
  answers : List CpuAnswer
  mask    : Byte
  hooks   : List (List HookCall)
  notices : List (List HookCall)

/-- The transfer of a state. -/
def transferOf (s : State) : Transfer :=
  ⟨s.dma, s.oam, s.ports.oamAddr, s.cpuScript, s.ports.mask, s.hookScript, s.noticeScript⟩

/-- Rendering is off, and the host answers no hook and no callback that returns nothing. -/
def Transfer.Alone (x : Transfer) : Prop := x.mask = 0#8 ∧ x.hooks = [] ∧ x.notices = []

/-- With `k` cycles of its wait over. -/
def Transfer.waited (k : Nat) (x : Transfer) : Transfer := { x with dma := { x.dma with timer := x.dma.timer - k } }

/-- After the read phase that got `b`, with `rest` still to be answered (R362). -/
def Transfer.fetched (b : Byte) (rest : List CpuAnswer) (x : Transfer) : Transfer :=
  { x with
    dma := { x.dma with buffer := b, readAddress := x.dma.readAddress + 1#16, phase := .write, timer := 3 }
    answers := rest }

/-- The DMA after a write phase: on to the next read, or over (R362, R365). -/
def Dma.afterWrite (d : Dma) : Dma :=
  if (d.writeAddress + 1#9).toNat < 256 then
    { d with writeAddress := d.writeAddress + 1#9, phase := .read, timer := 3 }
  else { d with writeAddress := d.writeAddress + 1#9, timer := 0 }

/-- After the write phase (R362). -/
def Transfer.written (x : Transfer) : Transfer :=
  { x with
    dma := x.dma.afterWrite
    oam := writeCell .oam x.oam x.cursor.toNat (Space.stored .oam x.cursor.toNat x.dma.buffer)
    cursor := x.cursor + 1#8 }

/-! ## The units beside the DMA -/

section units

variable {s : State} (h : (transferOf s).Alone)
include h

theorem renderingEnabled_of_alone : s.ports.renderingEnabled = false := by
  obtain ⟨hmask, -, -⟩ : s.ports.mask = 0#8 ∧ _ := h
  simp [renderingEnabled_eq_false, hmask]

theorem callbacks_hook_alone (n : Nat) (e : HookEvent) : transferOf ((callbacks n).hook e s) = transferOf s := by
  obtain ⟨-, hhooks, -⟩ := h
  rw [callbacks_hook_unscripted n e hhooks]
  rfl

theorem callbacks_notify_alone (n : Nat) (e : Event) : transferOf ((callbacks n).notify e s) = transferOf s := by
  obtain ⟨-, -, hnotices⟩ := h
  rw [callbacks_notify_unscripted n e hnotices]
  rfl

theorem cycleUnits_transfer (n : Nat) (line : Int) (c : Nat) :
    transferOf (cycleUnits (callbacks n).hook line c s) = transferOf s := by
  have hhook : transferOf (lineHook (callbacks n).hook line c s) = transferOf s := by
    unfold lineHook
    split
    · exact callbacks_hook_alone h n _
    · split
      · exact callbacks_hook_alone h n _
      · rfl
  have hblank (t : State) : transferOf (blankCycle line c t) = transferOf t := by
    unfold blankCycle
    dsimp only
    split <;> split <;> rfl
  have hcompose (t : State) : transferOf (composeUnit line c t) = transferOf t := by
    unfold composeUnit
    split <;> rfl
  have hoff := renderingEnabled_of_alone (s := lineHook (callbacks n).hook line c s) (hhook ▸ h)
  unfold cycleUnits
  split
  · rw [renderCycle_eq, hcompose, fetchUnits, if_neg (by simp [hoff]), hblank, hhook]
  · rfl

theorem enterVBlank_transfer (n ts : Nat) : transferOf (enterVBlank (callbacks n).notify ts s) = transferOf s := by
  unfold enterVBlank
  dsimp only
  split
  · obtain ⟨-, hedge⟩ | ⟨-, hedge⟩ :=
      realNmiEdge_cases (callbacks n).notify ts { s with ports := s.ports.enterVBlank } <;> rw [hedge]
    · rfl
    · exact callbacks_notify_alone (s := { s with ports := s.ports.enterVBlank }) h n _
  · rfl

theorem countCycle_transfer (n : Nat) (line : Int) (ts : Nat) :
    transferOf (countCycle (callbacks n) line ts s) = transferOf s := by
  by_cases hleft : 2 ≤ s.scan.lineCyclesLeft
  · rw [countCycle_within hleft]
    rfl
  have henter (next : Int) : transferOf (enterLine (callbacks n).notify next ts (countDown s)) = transferOf s := by
    unfold enterLine
    split
    · exact enterVBlank_transfer (s := { countDown s with scan := { (countDown s).scan with scanline := next } }) h n ts
    · split <;> rfl
  rw [countCycle_end (by omega)]
  generalize nextLine s.cfg line = next
  have hentered := henter next
  exact (callbacks_hook_alone (by rw [hentered]; exact h) n (.scanlineStart next)).trans hentered

theorem cycleAfterTick_transfer (n : Nat) (line : Int) (c ts : Nat) :
    transferOf (cycleAfterTick (callbacks n) line c ts s) = transferOf s := by
  have hskip : transferOf (oddFrameSkip line c (cycleUnits (callbacks n).hook line c s)) = transferOf s := by
    rw [oddFrameSkip_eq]
    exact cycleUnits_transfer h n line c
  exact (countCycle_transfer (by rw [hskip]; exact h) n line ts).trans hskip

end units

/-! ## The DMA's tick -/

theorem dmaTick_waited (cb : Callbacks) {s : State} (h : 2 ≤ s.dma.timer) :
    transferOf (dmaTick cb s) = (transferOf s).waited 1 := by
  rw [dmaTick_wait cb h]
  rfl

/-- The read of an address outside the ports, answered without a call. -/
theorem callbacks_cpuRead_plain (n : Nat) {a : CpuAddr} (ha : a.extractLsb' 13 3 ≠ 1#3) {s : State} {b : Byte}
    {rest : List CpuAnswer} (h : s.cpuScript = ⟨[], b⟩ :: rest) :
    (callbacks n).cpuRead a s = ({ emit (.cpuRead a) s with cpuScript := rest }, b) := by
  have hport : inRegisterWindow a = false := decide_eq_false ha
  cases n <;> simp [callbacks, callbacksWith, cpuReadWith, nestedPortRead, hport, h, runCalls]

theorem dmaTick_fetched (n : Nat) {s : State} (htimer : s.dma.timer = 1) (hphase : s.dma.phase = .read)
    (ha : s.dma.readAddress.extractLsb' 13 3 ≠ 1#3) {b : Byte} {rest : List CpuAnswer}
    (h : s.cpuScript = ⟨[], b⟩ :: rest) :
    transferOf (dmaTick (callbacks n) s) = (transferOf s).fetched b rest := by
  have hread : (callbacks n).cpuRead (dmaDue s).dma.readAddress (dmaDue s) = _ := callbacks_cpuRead_plain n ha h
  rw [dmaTick_read _ htimer hphase, dmaReadPhase, hread]
  rfl

theorem dmaTick_written (cb : Callbacks) {s : State} (htimer : s.dma.timer = 1) (hphase : s.dma.phase = .write) :
    transferOf (dmaTick cb s) = (transferOf s).written := by
  rw [dmaTick_write _ htimer hphase, Transfer.written, ← oamStored_eq]
  by_cases hmore : (s.dma.writeAddress + 1#9).toNat < 256
  · have hdma : s.dma.afterWrite = _ := if_pos hmore
    rw [dmaWritePhase_more (s := dmaDue s) hmore, show (transferOf s).dma.afterWrite = _ from hdma]
    rfl
  · have hdma : s.dma.afterWrite = _ := if_neg hmore
    rw [dmaWritePhase_last (s := dmaDue s) hmore, show (transferOf s).dma.afterWrite = _ from hdma]
    rfl

/-! ## Cycles of a replay -/

/-- A replay is running, and its transfer, `x`, is alone. -/
structure Carries (x : Transfer) (s : State) : Prop where
  transfer : transferOf s = x
  alone    : x.Alone
  scan     : ScanOk s
  depth    : 0 < s.clock.syncDepth

/-- A replay cut in two. -/
theorem replay_split (cb : Callbacks) (m n ts : Nat) (s : State) :
    ∃ ts', replay cb (m + n) ts s = replay cb n ts' (replay cb m ts s) := by
  induction m generalizing ts s with
  | zero => exact ⟨ts, by rw [Nat.zero_add]; rfl⟩
  | succ m ih =>
    rw [Nat.succ_add]
    exact ih _ _

namespace Carries

variable {x y : Transfer} {s : State} (h : Carries x s) (n ts : Nat)
include h

theorem timer : s.dma.timer = x.dma.timer := congrArg (·.dma.timer) h.transfer

/-- A cycle changes the transfer as the DMA's tick does. -/
theorem cycle (hy : y.Alone) (htick : transferOf (dmaTick (callbacks n) (stamped ts s)) = y) :
    Carries y (ppuCycle (callbacks n) ts s) := by
  have hcycle := ppuCycle_cycled (callbacks_keeps n) ts h.depth
  refine ⟨?_, hy, hcycle.kept.scanOk h.scan, by rw [hcycle.clock]; exact h.depth⟩
  rw [ppuCycle_expected _ _ (positionExpected_of_scanOk h.scan)]
  exact (cycleAfterTick_transfer (htick ▸ hy) n _ _ ts).trans htick

theorem waits {k : Nat} (hk : k < x.dma.timer) : Carries (x.waited k) (replay (callbacks n) k ts s) := by
  induction k generalizing x ts s with
  | zero => exact h
  | succ k ih =>
    have htimer : (stamped ts s).dma.timer = x.dma.timer := h.timer
    have hcycle : Carries (x.waited 1) (ppuCycle (callbacks n) ts s) :=
      h.cycle n ts h.alone ((dmaTick_waited _ (by omega)).trans (congrArg _ h.transfer))
    have hrest := ih hcycle (ts + s.cfg.clockDivider) (Nat.lt_sub_of_add_lt hk)
    have hwaited : (x.waited 1).waited k = x.waited (k + 1) := by
      simp only [Transfer.waited, Nat.sub_sub, Nat.add_comm]
    exact hwaited ▸ hrest

/-- A phase of a transfer takes three cycles: two of waiting, and the one it is due in (R362). -/
theorem phase (htimer : x.dma.timer = 3) (hy : y.Alone)
    (hdue : ∀ t : State, transferOf t = x.waited 2 → transferOf (dmaTick (callbacks n) t) = y) :
    Carries y (replay (callbacks n) 3 ts s) := by
  obtain ⟨ts', hsplit⟩ := replay_split (callbacks n) 2 1 ts s
  have hwaited := h.waits n ts (k := 2) (by omega)
  rw [hsplit]
  exact hwaited.cycle n ts' hy (hdue _ hwaited.transfer)

theorem fetches (htimer : x.dma.timer = 3) (hphase : x.dma.phase = .read)
    (ha : x.dma.readAddress.extractLsb' 13 3 ≠ 1#3) {b : Byte} {rest : List CpuAnswer}
    (hanswers : x.answers = ⟨[], b⟩ :: rest) : Carries (x.fetched b rest) (replay (callbacks n) 3 ts s) := by
  refine h.phase n ts htimer h.alone fun t ht => ?_
  have hdma : t.dma = (x.waited 2).dma := congrArg Transfer.dma ht
  have hscript : t.cpuScript = x.answers := congrArg Transfer.answers ht
  rw [dmaTick_fetched n (by rw [hdma, Transfer.waited, htimer]) (by rw [hdma]; exact hphase) (by rw [hdma]; exact ha)
    (hscript.trans hanswers), ht]
  rfl

theorem writes (htimer : x.dma.timer = 3) (hphase : x.dma.phase = .write) :
    Carries x.written (replay (callbacks n) 3 ts s) := by
  refine h.phase n ts htimer h.alone fun t ht => ?_
  have hdma : t.dma = (x.waited 2).dma := congrArg Transfer.dma ht
  rw [dmaTick_written _ (by rw [hdma, Transfer.waited, htimer]) (by rw [hdma]; exact hphase), ht]
  rfl

end Carries

/-! ## Byte by byte -/

/-- The answers of a host that gives these bytes and makes no call. -/
def plainAnswers (bytes : List Byte) : List CpuAnswer := bytes.map fun b => ⟨[], b⟩

/-- The transfer `x` is `x₀` with the first `k` of its bytes copied: at the start of the read of byte `k`, or over. -/
structure Copied (bytes : List Byte) (x₀ : Transfer) (k : Nat) (x : Transfer) : Prop where
  timer   : x.dma.timer = if k < 256 then 3 else 0
  phase   : k < 256 → x.dma.phase = .read
  reads   : x.dma.readAddress = x₀.dma.readAddress + BitVec.ofNat 16 k
  writes  : x.dma.writeAddress = BitVec.ofNat 9 k
  cursor  : x.cursor = x₀.cursor + BitVec.ofNat 8 k
  answers : x.answers = plainAnswers (bytes.drop k)
  cells   : ∀ j b, j < k → bytes[j]? = some b →
    readCell .oam x.oam ((x₀.cursor.toNat + j) % 256) = Space.stored .oam (x₀.cursor.toNat + j) b

theorem stored_oam_mod (i : Nat) (b : Byte) : Space.stored .oam (i % 256) b = Space.stored .oam i b := by
  simp only [Space.stored, show i % 256 % 4 = i % 4 by omega]

theorem Dma.afterWrite_eq {d : Dma} {k : Nat} (hk : k < 256) (h : d.writeAddress + 1#9 = BitVec.ofNat 9 (k + 1)) :
    d.afterWrite = { d with
      writeAddress := BitVec.ofNat 9 (k + 1)
      phase := if k + 1 < 256 then .read else d.phase
      timer := if k + 1 < 256 then 3 else 0 } := by
  have hcount : (BitVec.ofNat 9 (k + 1)).toNat = k + 1 := by
    rw [BitVec.toNat_ofNat]
    omega
  rw [Dma.afterWrite, h, hcount]
  split <;> rfl

/-- Reading and writing byte `k` (R362). -/
theorem Copied.next {bytes : List Byte} {x₀ x : Transfer} {k : Nat} (h : Copied bytes x₀ k x) (hk : k < 256) {b : Byte}
    (hb : bytes[k]? = some b) :
    Copied bytes x₀ (k + 1) (x.fetched b (plainAnswers (bytes.drop (k + 1)))).written := by
  have hcount : x.dma.writeAddress + 1#9 = BitVec.ofNat 9 (k + 1) := by rw [h.writes, BitVec.ofNat_add]
  have hcursor : x.cursor.toNat = (x₀.cursor.toNat + k) % 256 := by
    rw [h.cursor, BitVec.toNat_add, BitVec.toNat_ofNat]
    omega
  have hdma := Dma.afterWrite_eq (d := (x.fetched b (plainAnswers (bytes.drop (k + 1)))).dma) hk hcount
  refine ⟨congrArg Dma.timer hdma, fun hmore => (congrArg Dma.phase hdma).trans (if_pos hmore),
    (congrArg Dma.readAddress hdma).trans ?_, congrArg Dma.writeAddress hdma, ?_, rfl, fun j c hj hc => ?_⟩
  · change x.dma.readAddress + 1#16 = _
    rw [h.reads, BitVec.ofNat_add, BitVec.add_assoc]
  · change x.cursor + 1#8 = _
    rw [h.cursor, BitVec.ofNat_add, BitVec.add_assoc]
  · change readCell .oam (writeCell .oam x.oam x.cursor.toNat (Space.stored .oam x.cursor.toNat b)) _ = _
    rw [hcursor, readCell_writeCell, stored_oam_mod]
    obtain hlt | rfl := Nat.lt_succ_iff_lt_or_eq.1 hj
    · rw [if_neg (by omega)]
      exact h.cells j c hlt hc
    · obtain rfl : b = c := Option.some.inj (hb.symm.trans hc)
      rw [if_pos rfl]

section copy

variable {bytes : List Byte} {x₀ : Transfer} {s : State} (hlen : bytes.length = 256)
  (hpage : ∀ k, k < 256 → (x₀.dma.readAddress + BitVec.ofNat 16 k).extractLsb' 13 3 ≠ 1#3)
include hlen hpage

/-- Three cycles that read byte `k`, at the start of the six that copy it. -/
theorem Copied.fetches {x : Transfer} {k : Nat} (h : Copied bytes x₀ k x) (hs : Carries x s) (hk : k < 256) (n ts : Nat) :
    ∃ b, bytes[k]? = some b ∧
      Carries (x.fetched b (plainAnswers (bytes.drop (k + 1)))) (replay (callbacks n) 3 ts s) := by
  have hget : k < bytes.length := by omega
  refine ⟨bytes[k], List.getElem?_eq_getElem hget, hs.fetches n ts (h.timer.trans (if_pos hk)) (h.phase hk)
    (h.reads ▸ hpage k hk) ?_⟩
  rw [h.answers, List.drop_eq_getElem_cons hget, plainAnswers, List.map_cons]
  rfl

/-- After six cycles a byte, the first `k` bytes are copied. -/
theorem copied_replay (h : Copied bytes x₀ 0 x₀) (hs : Carries x₀ s) (n ts : Nat) {k : Nat} (hk : k ≤ 256) :
    ∃ x, Copied bytes x₀ k x ∧ Carries x (replay (callbacks n) (6 * k) ts s) := by
  induction k with
  | zero => exact ⟨x₀, h, hs⟩
  | succ k ih =>
    obtain ⟨x, hx, hcarries⟩ := ih (by omega)
    obtain ⟨ts₁, hread⟩ := replay_split (callbacks n) (6 * k) 6 ts s
    obtain ⟨ts₂, hwrite⟩ := replay_split (callbacks n) 3 3 ts₁ (replay (callbacks n) (6 * k) ts s)
    obtain ⟨b, hb, hfetched⟩ := hx.fetches hlen hpage hcarries (by omega) n ts₁
    refine ⟨_, hx.next (by omega) hb, ?_⟩
    rw [Nat.mul_succ, hread, hwrite]
    exact hfetched.writes n ts₂ rfl rfl

/-- In the sixth of the cycles that copy a byte the transfer is still running. -/
theorem copied_running (h : Copied bytes x₀ 0 x₀) (hs : Carries x₀ s) (n ts : Nat) {k : Nat} (hk : k < 256) :
    ∃ x, x.dma.timer = 1 ∧ Carries x (replay (callbacks n) (6 * k + 5) ts s) := by
  obtain ⟨x, hx, hcarries⟩ := copied_replay hlen hpage h hs n ts hk.le
  obtain ⟨ts₁, hread⟩ := replay_split (callbacks n) (6 * k) 5 ts s
  obtain ⟨ts₂, hwait⟩ := replay_split (callbacks n) 3 2 ts₁ (replay (callbacks n) (6 * k) ts s)
  obtain ⟨b, -, hfetched⟩ := hx.fetches hlen hpage hcarries hk n ts₁
  rw [hread, hwait]
  exact ⟨_, rfl, hfetched.waits n ts₂ (k := 2) (Nat.lt_succ_self 2)⟩

omit hpage in
/-- With all bytes copied the transfer is over, and the cursor is back where it was. -/
theorem Copied.over {x : Transfer} (h : Copied bytes x₀ 256 x) {u : State} (hu : Carries x u) :
    u.dma.timer = 0 ∧ u.dma.writeAddress = 256#9 ∧ u.dma.readAddress = x₀.dma.readAddress + 256#16 ∧
    u.ports.oamAddr = x₀.cursor ∧ u.cpuScript = [] ∧
    ∀ (k : Nat) (b : Byte), bytes[k]? = some b →
      readCell .oam u.oam ((x₀.cursor.toNat + k) % 256) = Space.stored .oam (x₀.cursor.toNat + k) b := by
  obtain ⟨rfl, -, -, -⟩ := hu
  refine ⟨h.timer, h.writes, h.reads, h.cursor.trans (BitVec.add_zero _), ?_, fun k b hb => ?_⟩
  · exact h.answers.trans (congrArg _ (List.drop_eq_nil_of_le hlen.le))
  · obtain ⟨hk, -⟩ := List.getElem?_eq_some_iff.1 hb
    exact h.cells k b (by omega) hb

end copy

/-- No address of a page outside the ports is a port. -/
theorem page_outside {a : CpuAddr} (hlow : a.extractLsb' 0 8 = 0#8) (hout : a.extractLsb' 13 3 ≠ 1#3) {k : Nat}
    (hk : k < 256) : (a + BitVec.ofNat 16 k).extractLsb' 13 3 ≠ 1#3 := by
  have hstart : a.toNat % 256 = 0 := by
    have := congrArg BitVec.toNat hlow
    simpa [BitVec.extractLsb'_toNat] using this
  have ha := a.isLt
  rw [Ne, window_iff] at hout ⊢
  rw [BitVec.toNat_add, BitVec.toNat_ofNat]
  omega

/-- Settles O53: the transfer followed byte by byte, to the cycle before the last byte is stored and to the end. -/
theorem dmaCopiesThePage : Obligations.DmaCopiesThePage := by
  intro ts bytes s hlen hhooks hnotices hscript hdepth hmask hscan htimer hphase hwrites hlow hout u a
  have hpage : ∀ k, k < 256 → ((transferOf s).dma.readAddress + BitVec.ofNat 16 k).extractLsb' 13 3 ≠ 1#3 :=
    fun _ => page_outside hlow hout
  have hstart : Copied bytes (transferOf s) 0 (transferOf s) :=
    ⟨htimer, fun _ => hphase, (BitVec.add_zero _).symm, hwrites, (BitVec.add_zero _).symm, hscript,
      fun _ _ h => absurd h (Nat.not_lt_zero _)⟩
  have hs : Carries (transferOf s) s := ⟨rfl, ⟨hmask, hhooks, hnotices⟩, hscan, by omega⟩
  obtain ⟨x, hx, hrunning⟩ := copied_running hlen hpage hstart hs (scriptLength s) ts (k := 255) (by omega)
  obtain ⟨y, hy, hover⟩ := copied_replay hlen hpage hstart hs (scriptLength s) ts (k := 256) le_rfl
  -- Written as the statement writes the two replays, so that comparing them does not run them.
  have hcallbacks : callbacks (scriptLength s) = hostCallbacks s := rfl
  simp only [hcallbacks, Nat.reduceMul, Nat.reduceAdd] at hrunning hover
  exact ⟨hrunning.timer.trans hx, hy.over hlen hover⟩

/-! ## The trigger -/

/-- The state in which `$4014` has started a transfer of the page `d` (R360). -/
def dmaStarted (d : Byte) (s : State) : State :=
  { s with dma := { s.dma with readAddress := d ++ 0#8, writeAddress := 0, phase := .read, timer := 3 } }

theorem dmaTrigger_between (d : Byte) {s : State} (h : s.clock.syncDepth = 0) :
    dmaTrigger callNotify d s = noResult (emit (.cpuBurn s.cfg.dmaBurnCycles) (dmaStarted d s)) := by
  rw [← callNotify_between _ (s := dmaStarted d s) h]
  refine congrArg noResult (if_neg ?_)
  rw [callNotify_clock]
  exact Nat.not_lt.2 h.le

theorem dmaTrigger_nested (d : Byte) {s : State} (h : 0 < s.clock.syncDepth) :
    dmaTrigger callNotify d s =
      let x := callNotify (.cpuBurn s.cfg.dmaBurnCycles) (dmaStarted d s)
      noResult { x with clock := { x.clock with remeasure := true } } := by
  refine congrArg noResult (if_pos ?_)
  rw [callNotify_clock]
  exact h

theorem pageAddress_eq (d : Byte) : d ++ 0#8 = BitVec.ofNat 16 (256 * d.toNat) := by
  apply BitVec.eq_of_toNat_eq
  rw [BitVec.toNat_append, BitVec.toNat_ofNat, BitVec.toNat_ofNat, Nat.zero_mod, Nat.or_zero, Nat.shiftLeft_eq]
  omega

theorem exec_dmaTrigger (d : Byte) (now : Nat) (s : State) :
    exec (.dmaTrigger d now) s = .next (dmaTrigger callNotify d (catchUp now s)) := rfl

/-- Settles O18: between replays the call is its event alone, in a replay the request to re-measure follows it. -/
theorem dmaTriggerStartsTheTransfer : Obligations.DmaTriggerStartsTheTransfer := by
  intro d now s c started x
  have hstarted : dmaStarted d c = started := by rw [dmaStarted, pageAddress_eq]
  rw [exec_dmaTrigger]
  refine ⟨fun h => ?_, fun h => ?_, fun _ hnone => callbacks_notify_unscripted _ _ hnone⟩
  · rw [dmaTrigger_between d h, hstarted]
    rfl
  · rw [dmaTrigger_nested d h, hstarted]
    rfl

end Sys2Proof.Machine
end

section
/-! PROOF. The predictor (O28, O29, O30). A forecast between calls is a walk over a strictly rising list of edges, `foundEdges`:
what it registers and signals depends on that list and on the set it starts from, and on nothing else. -/

namespace Sys2Proof.Machine

/-! ## The edges a forecast finds -/

/-- The edges of a forecast of `horizon` (R380): those of the cycles that end by its span. -/
def foundEdges (horizon : Nat) (s : State) : List Nat :=
  forecastEdges s.cfg ((s.clock.remainder + (horizon + s.cfg.predictMargin)) / s.cfg.clockDivider) (firstEnd s) (replicaOf s)

theorem forecastEdges_rising {cfg : Config} (h : 0 < cfg.clockDivider) (n first : Nat) (r : Replica) :
    (forecastEdges cfg n first r).Pairwise (· < ·) := by
  induction n generalizing first r with
  | zero => exact .nil
  | succ n ih =>
    simp only [forecastEdges]
    split
    · refine List.pairwise_cons.2 ⟨fun t ht => ?_, ih _ _⟩
      have := (forecastEdges_range ht).1
      omega
    · exact ih _ _

/-- With the NMI disabled no cycle makes an edge (R380). -/
theorem forecastEdges_disabled (cfg : Config) (n first : Nat) {r : Replica} (h : r.nmie = false) :
    forecastEdges cfg n first r = [] := by
  induction n generalizing first r with
  | zero => rfl
  | succ n ih =>
    have hedge : ¬r.edge cfg = true := by simp [Replica.edge, h]
    rw [forecastEdges, if_neg hedge]
    exact ih _ ((Replica.cycle_setup cfg r).2.trans h)

section foundEdges

variable (horizon : Nat) {s : State}

/-- For every configuration: a divider of 0 leaves no cycle to forecast. -/
theorem foundEdges_rising : (foundEdges horizon s).Pairwise (· < ·) := by
  unfold foundEdges
  obtain hd | hd := Nat.eq_zero_or_pos s.cfg.clockDivider
  · rw [hd, Nat.div_zero]
    exact .nil
  · exact forecastEdges_rising hd _ _ _

theorem foundEdges_nodup : (foundEdges horizon s).Nodup := (foundEdges_rising horizon).imp Nat.ne_of_lt

/-- Every edge is after the last executed cycle and within the span. -/
theorem foundEdges_range (hrem : s.clock.remainder ≤ s.clock.lastSyncTimestamp) {ts : Nat} (h : ts ∈ foundEdges horizon s) :
    s.clock.lastSyncTimestamp - s.clock.remainder < ts ∧
      ts ≤ s.clock.lastSyncTimestamp + (horizon + s.cfg.predictMargin) := by
  obtain hd | hd := Nat.eq_zero_or_pos s.cfg.clockDivider
  · rw [foundEdges, hd, Nat.div_zero] at h
    exact absurd h List.not_mem_nil
  · have hspan := Nat.div_mul_le_self (s.clock.remainder + (horizon + s.cfg.predictMargin)) s.cfg.clockDivider
    obtain ⟨hlow, hhigh⟩ := forecastEdges_range h
    unfold firstEnd at hlow hhigh
    omega

end foundEdges

/-! ## Registering them -/

theorem forecastNmi_foldl_registered {l : List Nat} {s : State} (h : ∀ t ∈ l, t ∈ s.pred.nmiRegistered) :
    l.foldl forecastNmi s = s := by
  induction l with
  | nil => rfl
  | cons t rest ih =>
    obtain ⟨ht, hrest⟩ := List.forall_mem_cons.1 h
    rw [List.foldl_cons, (forecastNmi_spec s t).1 ht, ih hrest]

/-- Registered from the empty set, rising edges are the set. -/
theorem forecastNmi_foldl_fresh {l : List Nat} (hl : l.Pairwise (· < ·)) {s : State} (h : s.pred.nmiRegistered = []) :
    (l.foldl forecastNmi s).pred.nmiRegistered = l := by
  have hmem := (forecastNmi_foldl_spec (hl.imp Nat.ne_of_lt) s).1
  have hrising : ForecastOk (l.foldl forecastNmi s) := forecastNmi_foldl_rising l (forecastOk_of_empty h)
  exact hrising.eq_of_mem_iff hl fun t => by simp [hmem, h]

/-! ## The forecast -/

section predict

variable {horizon : Nat} {s : State}

theorem exec_predict (horizon : Nat) (s : State) : exec (.predict horizon) s = .next (noResult (predict horizon s)) := rfl

variable (h : horizon ≠ 0)
include h

theorem predict_nested (hd : 0 < s.clock.syncDepth) : predict horizon s = deferForecast horizon s := by
  rw [predict, if_neg h, if_pos hd]

theorem predict_between (hd : s.clock.syncDepth = 0) :
    predict horizon s =
      let found := (foundEdges horizon s).foldl forecastNmi s
      { found with pred := { found.pred with
          predictedThrough :=
            max s.pred.predictedThrough (s.clock.lastSyncTimestamp + (horizon + s.cfg.predictMargin)) } } := by
  rw [predict, if_neg h, if_neg (by omega)]
  rfl

theorem predict_registered (hd : s.clock.syncDepth = 0) (t : Nat) :
    t ∈ (predict horizon s).pred.nmiRegistered ↔ t ∈ s.pred.nmiRegistered ∨ t ∈ foundEdges horizon s := by
  rw [predict_between h hd]
  exact (forecastNmi_foldl_spec (foundEdges_nodup horizon) s).1 t

theorem predict_trace (hd : s.clock.syncDepth = 0) : (predict horizon s).trace =
    (((foundEdges horizon s).filter fun ts => decide (ts ∉ s.pred.nmiRegistered)).map (Event.setInterrupt .nmi)).reverse ++
      s.trace := by
  rw [predict_between h hd]
  exact (forecastNmi_foldl_spec (foundEdges_nodup horizon) s).2

theorem predict_predictedThrough (hd : s.clock.syncDepth = 0) : (predict horizon s).pred.predictedThrough =
    max s.pred.predictedThrough (s.clock.lastSyncTimestamp + (horizon + s.cfg.predictMargin)) := by
  rw [predict_between h hd]

theorem predict_disabled (hd : s.clock.syncDepth = 0) (hoff : s.ports.ctrl.getLsbD 7 = false) :
    (predict horizon s).trace = s.trace ∧ (predict horizon s).pred.nmiRegistered = s.pred.nmiRegistered := by
  have hnone : foundEdges horizon s = [] := forecastEdges_disabled _ _ _ hoff
  rw [predict_between h hd, hnone]
  exact ⟨rfl, rfl⟩

/-- Where every edge of the span is registered and the span is recorded, a forecast changes nothing. -/
theorem predict_known (hd : s.clock.syncDepth = 0) (hedges : ∀ t ∈ foundEdges horizon s, t ∈ s.pred.nmiRegistered)
    (hspan : s.clock.lastSyncTimestamp + (horizon + s.cfg.predictMargin) ≤ s.pred.predictedThrough) :
    predict horizon s = s := by
  rw [predict_between h hd, forecastNmi_foldl_registered hedges]
  dsimp only
  rw [max_eq_left hspan]

/-- From the empty set a forecast leaves exactly its edges registered, and signals each. -/
theorem predict_fresh (hd : s.clock.syncDepth = 0) (hnone : s.pred.nmiRegistered = []) :
    (predict horizon s).pred.nmiRegistered = foundEdges horizon s ∧
    (predict horizon s).trace = ((foundEdges horizon s).map (Event.setInterrupt .nmi)).reverse ++ s.trace := by
  refine ⟨?_, ?_⟩
  · rw [predict_between h hd]
    exact forecastNmi_foldl_fresh (foundEdges_rising horizon) hnone
  · rw [predict_trace h hd]
    simp [hnone]

end predict

/-! ## The statements -/

/-- Settles O28: the three cases of a forecast, and its edges. -/
theorem predictKeepsTheRealState : Obligations.PredictKeepsTheRealState := by
  intro horizon s reach edges
  refine ⟨_, exec_predict horizon s, congrArg noResult (predict_frame horizon s), ?_, fun h hd => ?_, fun h hd => ?_,
    fun h hd => predict_disabled h hd⟩
  · rintro rfl
    exact ⟨rfl, rfl⟩
  · rw [predict_nested h hd]
    exact ⟨rfl, rfl⟩
  · exact ⟨predict_predictedThrough h hd, predict_pendingHorizon horizon hd, predict_registered h hd, predict_trace h hd,
      fun hrem _ => foundEdges_range horizon hrem⟩

/-- Settles O29: a deferral takes the maximum again; between calls the first run leaves its edges registered and its span
recorded, and the second one sees the same replica. -/
theorem forecastTwiceRegistersOnce : Obligations.ForecastTwiceRegistersOnce := by
  intro horizon s u h hu
  obtain rfl := Host.Outcome.next.inj hu
  refine (exec_predict horizon _).trans (congrArg Host.Outcome.next ?_)
  obtain hd | hd := Nat.eq_zero_or_pos s.clock.syncDepth
  · have hframe : noResult (predict horizon s) = _ := congrArg noResult (predict_frame horizon s)
    have hsame : foundEdges horizon (noResult (predict horizon s)) = foundEdges horizon s := by rw [hframe]; rfl
    have hknown : predict horizon (noResult (predict horizon s)) = noResult (predict horizon s) := by
      refine predict_known h (by rw [hframe]; exact hd) (fun t ht => ?_) ?_
      · exact (predict_registered h hd t).2 (.inr (hsame ▸ ht))
      · change _ ≤ (predict horizon s).pred.predictedThrough
        rw [predict_predictedThrough h hd, hframe]
        exact le_max_right _ _
    rw [hknown]
    rfl
  · have hfirst : predict horizon s = deferForecast horizon s := predict_nested h hd
    rw [hfirst, predict_nested (s := noResult (deferForecast horizon s)) h hd]
    simp [deferForecast, noResult]

theorem invalidateNmi_between {s : State} (hd : s.clock.syncDepth = 0) :
    invalidateNmi callNotify s = predict s.cfg.repredictHorizon (forgetForecast (withdrawNmi s)) := by
  rw [invalidateNmi, callNotify_between _ hd]
  rfl

/-- Settles O30: a forecast from the empty set, after one withdrawal. -/
theorem invalidationReplacesTheForecast : Obligations.InvalidationReplacesTheForecast := by
  intro s hwf hd u h edges
  have hpos : s.cfg.repredictHorizon ≠ 0 := by
    obtain ⟨-, hrepredict⟩ := Bool.and_eq_true_iff.1 hwf
    exact Nat.one_le_iff_ne_zero.1 (of_decide_eq_true hrepredict)
  have hu : u = predict s.cfg.repredictHorizon (forgetForecast (withdrawNmi s)) := invalidateNmi_between hd
  obtain ⟨hset, htrace⟩ := predict_fresh (s := forgetForecast (withdrawNmi s)) hpos hd rfl
  have hspan := predict_predictedThrough (s := forgetForecast (withdrawNmi s)) hpos hd
  rw [← hu] at hset htrace hspan
  refine ⟨?_, hset, hspan.trans (max_eq_right (Nat.le_add_right _ _)), htrace⟩
  have hframe := predict_frame s.cfg.repredictHorizon (forgetForecast (withdrawNmi s))
  rw [← hu] at hframe
  exact hframe

end Sys2Proof.Machine
end

section
/-! PROOF. The forecast against the real cycles (O31). The replica moves as the machine does (`replicaOf_ppuCycle`), so it is
left to show that a cycle tells the host of an edge exactly when the replica's cycle makes one: of the parts of a cycle only
the entry into line 241 tells of an NMI, and none registers a forecast. -/

namespace Sys2Proof.Machine

/-- The NMI registrations the host was told of, and the edges a forecast registered. -/
def nmiView (s : State) : List Nat × List Nat := (nmiSignals s.trace, s.pred.nmiRegistered)

theorem nmiView_iff {s : State} {told registered : List Nat} :
    nmiView s = (told, registered) ↔ nmiSignals s.trace = told ∧ s.pred.nmiRegistered = registered := Prod.mk_inj

/-! ## The parts of a cycle that tell the host of no NMI -/

theorem callbacks_zero_hook_nmiView (e : HookEvent) (s : State) : nmiView ((callbacks 0).hook e s) = nmiView s := by
  rw [callbacks_zero_hook]
  rfl

/-- An evaluator step in any state (R294). -/
theorem evalStep_frame (line : Int) (s : State) :
    evalStep line s = { s with
      ports := (evalStep line s).ports, eval := (evalStep line s).eval, sec := (evalStep line s).sec } := by
  by_cases hcopy : s.eval.state = .copyEntry
  · by_cases hrange : s.eval.m = 0#2 → inRange line (evalByte s 0#2) (spriteHeight s.ports) = true
    · rw [evalStep_stores hcopy hrange]
      rfl
    · obtain ⟨hm, hrange⟩ := Classical.not_imp.1 hrange
      rw [evalStep_passes hcopy hm hrange]
  · rw [(evalStep_copiesNothing line hcopy).frame]

theorem spriteEvalCycle_nmiView (line : Int) (c : Nat) (s : State) : nmiView (spriteEvalCycle line c s) = nmiView s := by
  unfold spriteEvalCycle
  split
  · rfl
  · split
    · rfl
    · split
      · rw [evalStep_frame]
        rfl
      · rfl

theorem blankCycle_nmiView (line : Int) (c : Nat) (s : State) : nmiView (blankCycle line c s) = nmiView s := by
  unfold blankCycle
  dsimp only
  split <;> split <;> rfl

section hooks

variable {hook : Hook} (hh : ∀ e s, nmiView (hook e s) = nmiView s)
include hh

theorem fetchSlot_nmiView (c : Nat) (s : State) : nmiView (fetchSlot hook c s) = nmiView s := by
  unfold fetchSlot
  split
  · exact hh _ s
  · split <;> exact hh _ s
  · exact hh _ s
  · exact hh _ s
  · rfl

theorem bgCycle_nmiView (line : Int) (c : Nat) (s : State) : nmiView (bgCycle hook line c s) = nmiView s := by
  rw [bgCycle_eq, columnUnit_frame]
  change nmiView (fetchUnit hook line c (setBg (advanceBg line c s.ports.x s.bg) s)) = nmiView s
  unfold fetchUnit
  split
  · exact fetchSlot_nmiView hh c _
  · rfl

theorem spriteFetchCycle_nmiView (line : Int) (c : Nat) (s : State) : nmiView (spriteFetchCycle hook line c s) = nmiView s := by
  by_cases hwindow : 257 < c ∧ c ≤ 320
  · obtain ⟨hlow, hhigh⟩ := hwindow
    obtain ho | ho | ho | ⟨h1, h5, h7⟩ : (c - 257) % 8 = 1 ∨ (c - 257) % 8 = 5 ∨ (c - 257) % 8 = 7 ∨
        (c - 257) % 8 ≠ 1 ∧ (c - 257) % 8 ≠ 5 ∧ (c - 257) % 8 ≠ 7 := by omega
    · rw [spriteFetchCycle_latches hook line s hlow hhigh ho]
      rfl
    · rw [spriteFetchCycle_lowPlane hook line s hlow hhigh ho]
      exact hh _ _
    · rw [spriteFetchCycle_highPlane hook line s hlow hhigh ho]
      exact hh _ _
    · rw [spriteFetchCycle_rests hook line s hlow hhigh h1 h5 h7]
      rfl
  · obtain rfl | hc : c = 257 ∨ (c < 257 ∨ 320 < c) := by omega
    · rfl
    · rw [spriteFetchCycle_outside hook line s hc]

theorem cycleUnits_nmiView (line : Int) (c : Nat) (s : State) : nmiView (cycleUnits hook line c s) = nmiView s := by
  have hline : nmiView (lineHook hook line c s) = nmiView s := by
    unfold lineHook
    split
    · exact hh _ s
    · split
      · exact hh _ s
      · rfl
  have hfetch (t : State) : nmiView (fetchUnits hook line c t) = nmiView t := by
    unfold fetchUnits
    split
    · rw [spriteFetchCycle_nmiView hh, spriteEvalCycle_nmiView, bgCycle_nmiView hh]
    · exact blankCycle_nmiView line c t
  have hcompose (t : State) : nmiView (composeUnit line c t) = nmiView t := by
    unfold composeUnit
    split <;> rfl
  unfold cycleUnits
  split
  · rw [renderCycle_eq, hcompose, hfetch, hline]
  · rfl

end hooks

/-- A tick whose read is quiet (R366): the host is asked for a byte, and no more than a diagnostic is emitted. -/
theorem dmaTick_nmiView {s : State} (hs : s.cpuScript = []) (hq : QuietDma s.dma) :
    nmiView (dmaTick (callbacks 0) s) = nmiView s := by
  obtain ⟨-, h⟩ | ⟨-, h⟩ | ⟨h1, hphase, h⟩ | ⟨-, -, h⟩ := dmaTick_cases (callbacks 0) s <;> rw [h]
  · rfl
  · rw [dmaReadPhase_quiet (s := dmaDue s) (quietRead_of_due hq h1 hphase) hs]
    change nmiView (quietReadAsked s.dma.readAddress (dmaDue s)) = nmiView s
    unfold quietReadAsked
    split <;> rfl
  · unfold dmaWritePhase
    dsimp only
    split <;> rfl

/-! ## The edge -/

section edge

variable (ts : Nat) {s : State}

theorem callbacks_zero_notify_nmiView (s : State) :
    nmiView ((callbacks 0).notify (.setInterrupt .nmi ts) s) = (ts :: nmiSignals s.trace, s.pred.nmiRegistered) := by
  rw [callbacks_zero_notify]
  split <;> rfl

variable (hnone : s.pred.nmiRegistered = [])
include hnone

theorem enterVBlank_nmiView : nmiView (enterVBlank (callbacks 0).notify ts s) =
    (if s.ports.nmie = true then ts :: nmiSignals s.trace else nmiSignals s.trace, []) := by
  by_cases hon : s.ports.nmie = true
  · rw [if_pos hon, enterVBlank_edge _ _ hon (by simp [hnone]), callbacks_zero_notify_nmiView, ← hnone]
  · rw [if_neg hon, enterVBlank_disabled _ _ (Bool.eq_false_of_not_eq_true hon), ← hnone]
    rfl

/-- Of the lines only 241 tells of an NMI when it is entered, while the NMI is enabled (R175). -/
theorem enterLine_nmiView (next : Int) : nmiView (enterLine (callbacks 0).notify next ts s) =
    (if next = 241 ∧ s.ports.nmie = true then ts :: nmiSignals s.trace else nmiSignals s.trace, []) := by
  unfold enterLine
  by_cases hnext : next = 241
  · simp only [hnext, true_and]
    exact enterVBlank_nmiView ts (s := { s with scan := { s.scan with scanline := 241 } }) hnone
  · rw [if_neg hnext, if_neg (mt And.left hnext), ← hnone]
    by_cases hfirst : next = -1
    · rw [if_pos hfirst]
      rfl
    · rw [if_neg hfirst]
      rfl

theorem countCycle_nmiView (line : Int) : nmiView (countCycle (callbacks 0) line ts s) =
    (if s.scan.lineCyclesLeft ≤ 1 ∧ nextLine s.cfg line = 241 ∧ s.ports.nmie = true then ts :: nmiSignals s.trace
      else nmiSignals s.trace, []) := by
  by_cases hend : s.scan.lineCyclesLeft ≤ 1
  · rw [countCycle_end hend]
    simp only [hend, true_and]
    exact (callbacks_zero_hook_nmiView _ _).trans (enterLine_nmiView ts (s := countDown s) hnone _)
  · rw [countCycle_within (by omega), if_neg (mt And.left hend), ← hnone]
    rfl

end edge

/-- The line ends in the replica's cycle exactly where it does after the skip's test (R172). -/
theorem oddFrameSkip_endsLine (s : State) : (replicaOf s).endsLine = true ↔
    (oddFrameSkip s.scan.scanline s.scan.cycleInLine s).scan.lineCyclesLeft ≤ 1 := by
  rw [oddFrameSkip_scan, Replica.endsLine, decide_eq_true_eq, Nat.sub_eq_zero_iff_le]
  rfl

/-- The counters tell of an NMI exactly where the replica's cycle makes an edge (R380). -/
theorem countCycle_oddFrameSkip_nmiView (ts : Nat) {s : State} (hpos : positionExpected s = true)
    (hnone : s.pred.nmiRegistered = []) :
    nmiView (countCycle (callbacks 0) s.scan.scanline ts (oddFrameSkip s.scan.scanline s.scan.cycleInLine s)) =
      (if (replicaOf s).edge s.cfg = true then ts :: nmiSignals s.trace else nmiSignals s.trace, []) := by
  obtain ⟨hlow, hhigh, -, -⟩ := (positionExpected_iff s).1 hpos
  have hedge : (replicaOf s).edge s.cfg = true ↔
      (oddFrameSkip s.scan.scanline s.scan.cycleInLine s).scan.lineCyclesLeft ≤ 1 ∧
        nextLine s.cfg s.scan.scanline = 241 ∧ s.ports.nmie = true := by
    rw [← oddFrameSkip_endsLine, nextLine_eq_replicaNextLine hlow hhigh, Replica.edge, Bool.and_eq_true, Bool.and_eq_true,
      decide_eq_true_eq, and_assoc]
    rfl
  rw [countCycle_nmiView ts (by rw [oddFrameSkip_eq]; exact hnone)]
  simp only [hedge, oddFrameSkip_eq]

/-! ## Cycles with nothing forecast -/

/-- A replay with nothing forecast, no answer of the host left, and no DMA read of a port but `$2000`. -/
structure Unforecast (s : State) : Prop where
  scan         : ScanOk s
  depth        : 0 < s.clock.syncDepth
  unscripted   : Unscripted s
  quiet        : QuietDma s.dma
  unregistered : s.pred.nmiRegistered = []

/-- A cycle registers no forecast, and tells of an NMI exactly where the replica's cycle makes an edge. -/
theorem ppuCycle_nmiView (ts : Nat) {s : State} (h : Unforecast s) :
    nmiView (ppuCycle (callbacks 0) ts s) =
      (if (replicaOf s).edge s.cfg = true then ts :: nmiSignals s.trace else nmiSignals s.trace, []) := by
  let t := cycleUnits (callbacks 0).hook s.scan.scanline s.scan.cycleInLine (dmaTick (callbacks 0) (stamped ts s))
  have hpos := positionExpected_of_scanOk h.scan
  have hunits : InCycle (stamped ts s) t :=
    cycleUnits_inCycle (callbacks_keeps 0) (s := stamped ts s) h.depth s.scan.cycleInLine s.scan.scanline
  have hscan : t.scan = s.scan := hunits.scan
  have hcfg : t.cfg = s.cfg := hunits.cfg
  have hsetup : setup t = setup s :=
    ((Steady.cycleUnits callbacks_zero_hook_steady _ _).setup _).trans (dmaTick_setup (stamped ts s))
  have hview : nmiView t = nmiView s :=
    (cycleUnits_nmiView callbacks_zero_hook_nmiView _ _ _).trans
      (dmaTick_nmiView (s := stamped ts s) h.unscripted.2.2 h.quiet)
  obtain ⟨htold, hregistered⟩ := nmiView_iff.1 hview
  have hcount := countCycle_oddFrameSkip_nmiView ts (s := t) (by rwa [positionExpected, hscan, hcfg])
    (hregistered.trans h.unregistered)
  rw [replicaOf_congr hscan hsetup, hscan, hcfg, htold] at hcount
  rw [ppuCycle_expected _ _ hpos]
  exact hcount

theorem ppuCycle_quietDma (ts : Nat) {s : State} (hs : s.cpuScript = []) (hq : QuietDma s.dma) :
    QuietDma (ppuCycle (callbacks 0) ts s).dma := by
  by_cases hpos : positionExpected s = true
  · have hrest := (cycleAfterTick_steady s.scan.scanline s.scan.cycleInLine ts).dma (dmaTick (callbacks 0) (stamped ts s))
    rw [ppuCycle_expected _ _ hpos]
    exact hrest ▸ dmaTick_quietDma (s := stamped ts s) hs hq
  · rw [ppuCycle_unexpected _ _ hpos, (Steady.countOnly _).dma]
    exact hq

theorem ppuCycle_unforecast (ts : Nat) {s : State} (h : Unforecast s) : Unforecast (ppuCycle (callbacks 0) ts s) := by
  have hcycle := ppuCycle_cycled (callbacks_keeps 0) ts h.depth
  refine ⟨hcycle.kept.scanOk h.scan, by rw [hcycle.clock]; exact h.depth, ?_,
    ppuCycle_quietDma ts h.unscripted.2.2 h.quiet, (nmiView_iff.1 (ppuCycle_nmiView ts h)).2⟩
  exact (KeepsMaps.ppuCycle (callbacks_keepMaps 0) ts s h.unscripted).1

/-- Cycle by cycle, the NMIs the host is told of are the forecast's edges. -/
theorem replay_nmiSignals (n ts : Nat) {s : State} (h : Unforecast s) :
    nmiSignals (replay (callbacks 0) n ts s).trace =
      (forecastEdges s.cfg n ts (replicaOf s)).reverse ++ nmiSignals s.trace := by
  induction n generalizing ts s with
  | zero => rfl
  | succ n ih =>
    have hnext : replicaOf (ppuCycle (callbacks 0) ts s) = (replicaOf s).cycle s.cfg :=
      replicaOf_ppuCycle ts h.depth (positionExpected_of_scanOk h.scan)
    have hcfg : (ppuCycle (callbacks 0) ts s).cfg = s.cfg := (ppuCycle_cycled (callbacks_keeps 0) ts h.depth).kept.cfg
    have htold := (nmiView_iff.1 (ppuCycle_nmiView ts h)).1
    rw [replay, ih _ (ppuCycle_unforecast ts h), hnext, hcfg, htold]
    simp only [forecastEdges]
    split <;> simp

/-- Settles O31: an induction over the cycles, from a state whose DMA reads no port. -/
theorem forecastMatchesTheRealCycles : Obligations.ForecastMatchesTheRealCycles := by
  intro n ts s hscan hu hdepth hports hnone
  rw [hostCallbacks_of_unscripted hu]
  exact replay_nmiSignals n ts ⟨hscan, by omega, hu, quietDma_of_readsNoPort hports, hnone⟩

end Sys2Proof.Machine
end

section
/-! PROOF. Power-on and reset (O32, O33): a canonical draw is loaded as it is, and power-on's pattern memory reads the draw where
it is RAM and the memory before where it is ROM. -/

namespace Sys2Proof.Machine

/-! ## Reset -/

/-- Between calls and not backwards in time, `reset` withdraws the NMI registrations and starts over (R441). -/
theorem resetCore_restarts {now : Nat} {s : State} (hdepth : s.clock.syncDepth = 0) (hnow : s.clock.lastSyncTimestamp ≤ now) :
    resetCore now s = resetRegisters (restartClock now (withdrawNmi s)) := by
  rw [resetCore, if_neg (by omega), if_neg (by omega)]

/-- The clock of R441 is wholly new where no replay is running. -/
theorem restartClock_clock (now : Nat) {s : State} (hdepth : s.clock.syncDepth = 0) :
    (restartClock now s).clock = ⟨now, 0, 0, false, now⟩ :=
  congrArg (fun depth => (⟨now, 0, depth, false, now⟩ : Clock)) hdepth

/-- Settles O32: the registers of R442 on the clock of R441; an unlisted byte of secondary OAM reads as `$FF`. -/
theorem resetSetsTheResetValues : Obligations.ResetSetsTheResetValues := by
  intro now s hdepth hnow
  have hclock : (restartClock now (withdrawNmi s)).clock = ⟨now, 0, 0, false, now⟩ := restartClock_clock now hdepth
  refine ⟨?_, fun _ => rfl⟩
  change Host.Outcome.next (noResult (resetCore now s)) = _
  rw [resetCore_restarts hdepth hnow]
  exact congrArg (fun c => Host.Outcome.next (noResult
    { resetRegisters (restartClock now (withdrawNmi s)) with clock := c })) hclock

/-! ## Reading cell lists -/

theorem cellsRead_filter {α : Type} (d : α) (m : List (Nat × α)) (p : Nat → Bool) (k : Nat) :
    cellsRead d (m.filter fun c => p c.1) k = if p k = true then cellsRead d m k else d := by
  induction m with
  | nil => simp [cellsRead]
  | cons c rest ih =>
    by_cases hp : p c.1 = true
    · rw [List.filter_cons, if_pos hp]
      by_cases hk : c.1 = k
      · subst hk
        simp only [cellsRead, hp, if_true]
      · simp only [cellsRead, if_neg hk, ih]
    · rw [List.filter_cons, if_neg hp, ih]
      by_cases hk : c.1 = k
      · subst hk
        simp only [hp, Bool.false_eq_true, if_false]
      · simp only [cellsRead, if_neg hk]

/-- Some bytes of a memory, by their addresses. -/
theorem readCell_filter (sp : Space) (m : List Host.Cell) (p : Nat → Bool) (k : Nat) :
    readCell sp (m.filter fun c => p c.1) k = if p k = true then readCell sp m k else sp.unlisted :=
  cellsRead_filter _ m p k

theorem readCell_cons (sp : Space) (c : Host.Cell) (m : List Host.Cell) (k : Nat) :
    readCell sp (c :: m) k = if c.1 = k then c.2 else readCell sp m k := rfl

/-! ## Loading a draw -/

theorem loadCells_cons (sp : Space) (base : List Host.Cell) (c : Host.Cell) (draw : List Host.Cell) :
    loadCells sp base (c :: draw) =
      loadCells sp (if sp.holds c.1 = true then writeCell sp base c.1 (sp.stored c.1 c.2) else base) draw := rfl

/-- What a draw does not name, it leaves alone. -/
theorem readCell_loadCells_unnamed {sp : Space} {draw : List Host.Cell} {k : Nat} (h : ∀ c ∈ draw, c.1 ≠ k)
    (base : List Host.Cell) : readCell sp (loadCells sp base draw) k = readCell sp base k := by
  induction draw generalizing base with
  | nil => rfl
  | cons c draw ih =>
    obtain ⟨hc, hdraw⟩ := List.forall_mem_cons.1 h
    rw [loadCells_cons, ih hdraw]
    split
    · exact readCell_writeCell_other _ _ _ _ _ hc.symm
    · rfl

/-- A canonical memory starts with a cell that exists and lists it once, before the others. -/
theorem Memory.wf_cons {sp : Space} {c : Host.Cell} {m : List Host.Cell} (h : Memory.wf sp (c :: m)) :
    (sp.holds c.1 = true ∧ sp.stored c.1 c.2 = c.2 ∧ c.2 ≠ sp.unlisted ∧ ∀ e ∈ m, c.1 < e.1) ∧ Memory.wf sp m := by
  obtain ⟨⟨hrising, hlisted⟩, hexists⟩ := h
  obtain ⟨hfirst, hrising⟩ := List.pairwise_cons.1 hrising
  obtain ⟨hc, hlisted⟩ := List.forall_mem_cons.1 hlisted
  obtain ⟨⟨hholds, hstored⟩, hexists⟩ := List.forall_mem_cons.1 hexists
  exact ⟨⟨hholds, hstored, hc, hfirst⟩, ⟨hrising, hlisted⟩, hexists⟩

/-- A canonical draw shows through where nothing lay under it. -/
theorem readCell_loadCells {sp : Space} {draw : List Host.Cell} (h : Memory.wf sp draw) {base : List Host.Cell} {k : Nat}
    (hbase : readCell sp base k = sp.unlisted) : readCell sp (loadCells sp base draw) k = readCell sp draw k := by
  induction draw generalizing base with
  | nil => exact hbase
  | cons c draw ih =>
    obtain ⟨⟨hholds, hstored, -, hfirst⟩, hdraw⟩ := Memory.wf_cons h
    rw [loadCells_cons, if_pos hholds, hstored, readCell_cons]
    by_cases hk : c.1 = k
    · subst hk
      rw [readCell_loadCells_unnamed fun e he => (hfirst e he).ne', readCell_writeCell_same, if_pos rfl]
    · rw [if_neg hk]
      exact ih hdraw ((readCell_writeCell_other _ _ _ _ _ (Ne.symm hk)).trans hbase)

theorem cellsInsert_last {α : Type} {m : List (Nat × α)} {a : Nat} (b : α) (h : ∀ c ∈ m, c.1 < a) :
    cellsInsert m a b = m ++ [(a, b)] := by
  induction m with
  | nil => rfl
  | cons c m ih =>
    obtain ⟨hc, hm⟩ := List.forall_mem_cons.1 h
    rw [cellsInsert, if_neg (by omega), if_neg (by omega), ih hm, List.cons_append]

/-- A canonical draw of addresses above those of the memory it is loaded into is appended to it. -/
theorem loadCells_above {sp : Space} {base draw : List Host.Cell} (hdraw : Memory.wf sp draw)
    (habove : ∀ c ∈ base, ∀ e ∈ draw, c.1 < e.1) : loadCells sp base draw = base ++ draw := by
  induction draw generalizing base with
  | nil => exact (List.append_nil base).symm
  | cons e draw ih =>
    obtain ⟨⟨hholds, hstored, hlisted, hfirst⟩, hdraw⟩ := Memory.wf_cons hdraw
    have hwrite : writeCell sp base e.1 e.2 = base ++ [e] :=
      (if_neg hlisted).trans (cellsInsert_last e.2 fun c hc => habove c hc e List.mem_cons_self)
    have hnext : ∀ c ∈ base ++ [e], ∀ f ∈ draw, c.1 < f.1 := by
      intro c hc f hf
      obtain hc | hc := List.mem_append.1 hc
      · exact habove c hc f (List.mem_cons_of_mem e hf)
      · exact List.mem_singleton.1 hc ▸ hfirst f hf
    rw [loadCells_cons, if_pos hholds, hstored, hwrite, ih hdraw hnext, List.append_assoc, List.singleton_append]

/-- A canonical draw is loaded as it is. -/
theorem loadCells_canonical {sp : Space} {draw : List Host.Cell} (h : Memory.wf sp draw) : loadCells sp [] draw = draw :=
  loadCells_above h fun _ hc => absurd hc List.not_mem_nil

/-! ## Power-on -/

section drawnChr

variable (cfg : Config) (chr : List Host.Cell) {draw : List Host.Cell} {k : Nat}

/-- Pattern ROM is kept by a power-on, whatever the draw. -/
theorem readCell_drawnChr_rom (draw : List Host.Cell) (h : cfg.chrByteWritable k = false) :
    readCell .chr (drawnChr cfg chr draw) k = readCell .chr chr k := by
  have hunnamed : ∀ c ∈ draw.filter fun c => cfg.chrByteWritable c.1, c.1 ≠ k := by
    rintro c hc rfl
    simp [h] at hc
  rw [drawnChr, readCell_loadCells_unnamed hunnamed, readCell_filter .chr chr (fun k => !cfg.chrByteWritable k), h]
  rfl

/-- Pattern RAM is drawn. -/
theorem readCell_drawnChr_ram (hdraw : Memory.wf .chr draw) (h : cfg.chrByteWritable k = true) :
    readCell .chr (drawnChr cfg chr draw) k = readCell .chr draw k := by
  have hbase : readCell .chr (chr.filter fun c => !cfg.chrByteWritable c.1) k = Space.chr.unlisted := by
    rw [readCell_filter .chr chr (fun k => !cfg.chrByteWritable k), h]
    rfl
  rw [drawnChr, readCell_loadCells (Memory.wf_filter _ hdraw) hbase, readCell_filter .chr draw cfg.chrByteWritable, if_pos h]

end drawnChr

/-- Settles O33: the memories are loaded canonical draws, the pattern memory `drawnChr`. -/
theorem powerOnTakesTheDraw : Obligations.PowerOnTakesTheDraw := by
  intro now draw ntMap ptMap s hnt hpal hoam hframe
  refine ⟨drawnChr s.cfg s.chr draw.chr, ?_, fun k => readCell_drawnChr_rom s.cfg s.chr draw.chr,
    fun hchr k => readCell_drawnChr_ram s.cfg s.chr hchr⟩
  change Host.Outcome.next (noResult (powerOnCore now draw ntMap ptMap s)) = _
  rw [powerOnCore, loadCells_canonical hnt, loadCells_canonical hpal, loadCells_canonical hoam, loadCells_canonical hframe]
  rfl

end Sys2Proof.Machine
end

section
/-! PROOF. The first vertical blank after a reset (O26). Of the parts of a cycle only the entry into line 241 sets `vblank`, and
nothing but the frame start and a status read clears it, so a cycle that starts with the flag clear leaves it set exactly when it
arrives at the first place of line 241. In a frame without the skip that place has one number (`InFrame`). -/

namespace Sys2Proof.Machine

/-! ## The units leave the flag alone -/

theorem evalStep_vblank (line : Int) (s : State) : (evalStep line s).ports.vblank = s.ports.vblank := by
  by_cases hcopy : s.eval.state = .copyEntry
  · by_cases hrange : s.eval.m = 0#2 → inRange line (evalByte s 0#2) (spriteHeight s.ports) = true
    · rw [evalStep_stores hcopy hrange]
      rfl
    · obtain ⟨hm, hrange⟩ := Classical.not_imp.1 hrange
      rw [evalStep_passes hcopy hm hrange]
  · obtain hkept | hset := (evalStep_copiesNothing line hcopy).flag
    · rw [hkept]
    · rw [hset]
      rfl

theorem spriteEvalCycle_vblank (line : Int) (c : Nat) (s : State) :
    (spriteEvalCycle line c s).ports.vblank = s.ports.vblank := by
  unfold spriteEvalCycle
  split
  · rfl
  · split
    · rfl
    · split
      · exact evalStep_vblank line s
      · rfl

theorem blankCycle_vblank (line : Int) (c : Nat) (s : State) : (blankCycle line c s).ports.vblank = s.ports.vblank := by
  unfold blankCycle
  dsimp only
  split <;> split <;> rfl

section hooks

variable {hook : Hook} (hh : ∀ e s, (hook e s).ports.vblank = s.ports.vblank)
include hh

theorem bgCycle_vblank (line : Int) (c : Nat) (s : State) : (bgCycle hook line c s).ports.vblank = s.ports.vblank := by
  have hslot (t : State) : (fetchSlot hook c t).ports.vblank = t.ports.vblank := by
    unfold fetchSlot
    split
    · exact hh _ t
    · split <;> exact hh _ t
    · exact hh _ t
    · exact hh _ t
    · rfl
  rw [bgCycle_eq, columnUnit_frame]
  change (fetchUnit hook line c (setBg (advanceBg line c s.ports.x s.bg) s)).ports.vblank = s.ports.vblank
  unfold fetchUnit
  split
  · exact hslot _
  · rfl

theorem spriteFetchCycle_vblank (line : Int) (c : Nat) (s : State) :
    (spriteFetchCycle hook line c s).ports.vblank = s.ports.vblank := by
  by_cases hfirst : c = 257
  · subst hfirst
    rfl
  · simp only [spriteFetchCycle, if_neg hfirst]
    split
    · split
      · rfl
      · exact hh _ _
      · exact hh _ _
      · rfl
    · rfl

theorem cycleUnits_vblank (line : Int) (c : Nat) (s : State) :
    (cycleUnits hook line c s).ports.vblank = s.ports.vblank := by
  have hline : (lineHook hook line c s).ports.vblank = s.ports.vblank := by
    unfold lineHook
    split
    · exact hh _ s
    · split
      · exact hh _ s
      · rfl
  have hfetch (t : State) : (fetchUnits hook line c t).ports.vblank = t.ports.vblank := by
    unfold fetchUnits
    split
    · rw [spriteFetchCycle_vblank hh, spriteEvalCycle_vblank, bgCycle_vblank hh]
    · exact blankCycle_vblank line c t
  have hcompose (t : State) : (composeUnit line c t).ports.vblank = t.ports.vblank := by
    unfold composeUnit
    split <;> rfl
  unfold cycleUnits
  split
  · rw [renderCycle_eq, hcompose, hfetch, hline]
  · rfl

/-! ## A register read sets no flag -/

theorem busEffect_read_dark (notify : Notify) (r : BitVec 3) (d : Byte) {s : State} (hdark : s.ports.vblank = false) :
    (busEffect hook notify (busReadOp r) d s).ports.vblank = false := by
  unfold busReadOp
  split
  case h_3 => rfl
  case h_8 =>
    change (rdData hook s).ports.vblank = false
    unfold rdData
    extract_lets a s1 r
    rw [incrementV_frame]
    exact (hh _ s).trans hdark
  all_goals exact hdark

theorem nestedPortRead_dark (notify : Notify) (a : CpuAddr) {s : State} (hdark : s.ports.vblank = false) :
    (nestedPortRead hook notify a s).ports.vblank = false := by
  cases hop : decodeBus (0#1 ++ a) with
  | none => rwa [nestedPortRead_of_not_decodes _ _ _ hop]
  | some op =>
    obtain ⟨r, rfl⟩ := decodeBus_read hop
    rw [nestedPortRead_of_decodes _ _ _ hop]
    exact busEffect_read_dark hh notify r 0 (s := diag .reentrantSync s) hdark

end hooks

theorem callbacks_zero_hook_vblank (e : HookEvent) (s : State) :
    ((callbacks 0).hook e s).ports.vblank = s.ports.vblank := by
  rw [callbacks_zero_hook]
  rfl

theorem callbacks_zero_notify_ports (e : Event) (s : State) : ((callbacks 0).notify e s).ports = s.ports := by
  rw [callbacks_zero_notify]
  split <;> rfl

theorem dmaTick_dark {s : State} (hdark : s.ports.vblank = false) : (dmaTick (callbacks 0) s).ports.vblank = false := by
  obtain ⟨-, h⟩ | ⟨-, h⟩ | ⟨-, -, h⟩ | ⟨-, -, h⟩ := dmaTick_cases (callbacks 0) s <;> rw [h]
  · exact hdark
  · exact hdark
  · have hport := nestedPortRead_dark callbacks_zero_hook_vblank (callbacks 0).notify s.dma.readAddress
      (s := emit (.cpuRead s.dma.readAddress) (dmaDue s)) hdark
    refine Eq.trans ?_ hport
    simp only [dmaReadPhase, callbacks, callbacksWith, cpuReadWith, runCalls_of_dropped]
    split <;> rfl
  · unfold dmaWritePhase
    dsimp only
    split <;> exact hdark

/-! ## The cycle that sets it -/

theorem enterVBlank_vblank (ts : Nat) (s : State) : (enterVBlank (callbacks 0).notify ts s).ports.vblank = true := by
  unfold enterVBlank
  extract_lets lit
  split
  · obtain ⟨-, h⟩ | ⟨-, h⟩ := realNmiEdge_cases (callbacks 0).notify ts lit <;> rw [h]
    · rfl
    · rw [callbacks_zero_notify_ports]
      rfl
  · rfl

theorem enterLine_vblank (next : Int) (ts : Nat) {s : State} (hdark : s.ports.vblank = false) :
    (enterLine (callbacks 0).notify next ts s).ports.vblank = decide (next = 241) := by
  unfold enterLine
  by_cases hnext : next = 241
  · rw [if_pos hnext, enterVBlank_vblank, decide_eq_true hnext]
  · rw [if_neg hnext, decide_eq_false hnext]
    split
    · rfl
    · exact hdark

theorem countCycle_vblank (line : Int) (ts : Nat) {s : State} (hdark : s.ports.vblank = false) :
    (countCycle (callbacks 0) line ts s).ports.vblank =
      decide (s.scan.lineCyclesLeft ≤ 1 ∧ nextLine s.cfg line = 241) := by
  by_cases hend : s.scan.lineCyclesLeft ≤ 1
  · rw [countCycle_end hend]
    simp only [hend, true_and]
    exact (callbacks_zero_hook_vblank _ _).trans (enterLine_vblank _ ts (s := countDown s) hdark)
  · rw [countCycle_within (by omega), decide_eq_false (mt And.left hend)]
    exact hdark

/-- The counters set the flag where they arrive at the first place of line 241. -/
theorem countCycle_sets_vblank (line : Int) (ts : Nat) {s : State} (hs : 0 < s.clock.syncDepth) (hc : 1 ≤ s.scan.cycleInLine)
    (hdark : s.ports.vblank = false) :
    let u := countCycle (callbacks 0) line ts s
    u.ports.vblank = true ↔ u.scan.scanline = 241 ∧ u.scan.cycleInLine = 1 := by
  intro u
  have hscan : u.scan = _ := (countCycle_step (callbacks_keeps 0) line ts hs).1
  have hflag : u.ports.vblank = _ := countCycle_vblank line ts hdark
  rw [hflag, hscan, decide_eq_true_eq]
  split <;> dsimp only <;> omega

/-- From a clear flag, a cycle sets it where it arrives at the first place of line 241 (R174, R175). -/
theorem ppuCycle_sets_vblank (ts : Nat) {s : State} (hs : 0 < s.clock.syncDepth) (hok : ScanOk s)
    (hdark : s.ports.vblank = false) :
    let u := ppuCycle (callbacks 0) ts s
    u.ports.vblank = true ↔ u.scan.scanline = 241 ∧ u.scan.cycleInLine = 1 := by
  let t := cycleUnits (callbacks 0).hook s.scan.scanline s.scan.cycleInLine (dmaTick (callbacks 0) (stamped ts s))
  have hunits : InCycle (stamped ts s) t :=
    cycleUnits_inCycle (callbacks_keeps 0) (s := stamped ts s) hs s.scan.cycleInLine s.scan.scanline
  have hscan : t.scan = s.scan := hunits.scan
  have hdepth : 0 < t.clock.syncDepth := by rw [hunits.syncDepth]; exact hs
  have hcycle : 1 ≤ t.scan.cycleInLine := by rw [hscan]; exact hok.cycleLow
  have hflag : t.ports.vblank = false :=
    (cycleUnits_vblank callbacks_zero_hook_vblank _ _ _).trans (dmaTick_dark (s := stamped ts s) hdark)
  rw [ppuCycle_expected _ _ (positionExpected_of_scanOk hok), oddFrameSkip_eq]
  exact countCycle_sets_vblank _ ts hdepth hcycle hflag

/-! ## The cycles of the first frame -/

/-- The first place of an even frame, which has no skip. -/
theorem inFrame_of_reset {s : State} (h : s.scan = ⟨-1, 1, 341, false⟩) : InFrame s.cfg false false 0 (replicaOf s) := by
  have hok : ScanOk s := scanOk_of_reset h
  refine ⟨hok.lineLow, hok.lineHigh, hok.cycleLow, hok.cycleHigh, hok.budget, fun hskip => ?_, ?_, ?_, fun _ => ?_,
    fun hskip => ?_⟩
  · simp at hskip
  · simp [replicaOf, h]
  · simp [replicaOf, h]
  · simp [replicaOf, h]
  · simp at hskip

/-- The place a frame without the skip reaches after 82522 cycles, 242 lines of 341, is the first one of line 241. -/
theorem InFrame.isVBlankStart {cfg : Config} {odd : Bool} {k : Nat} {r : Replica} (h : InFrame cfg false odd k r) :
    r.line = 241 ∧ r.c = 1 ↔ k = 82522 := by
  have hplace := h.place (.inl rfl)
  have hlow := h.cycleLow
  have hhigh := h.cycleHigh
  omega

/-- From the reset position the flag is set by the 82522nd cycle. -/
theorem replay_vblank (k ts : Nat) {s : State} (hs : 0 < s.clock.syncDepth) (hstart : s.scan = ⟨-1, 1, 341, false⟩)
    (hdark : s.ports.vblank = false) (hk : k ≤ 82522) :
    (replay (callbacks 0) k ts s).ports.vblank = true ↔ k = 82522 := by
  induction k with
  | zero => simp [replay, hdark]
  | succ k ih =>
    let t := replay (callbacks 0) k ts s
    have ht : Cycled s t := replay_cycled (callbacks_keeps 0) k ts hs
    have hok : ScanOk s := scanOk_of_reset hstart
    have htdark : t.ports.vblank = false :=
      Bool.eq_false_of_not_eq_true (mt (ih (by omega)).1 (by omega))
    have hdepth : 0 < t.clock.syncDepth := by rw [ht.clock]; exact hs
    obtain ⟨ts', hsplit⟩ := replay_split (callbacks 0) k 1 ts s
    have hlast := lastLine_cases s.cfg
    have hframe : InFrame s.cfg false false (k + 1) (replicaOf (replay (callbacks 0) (k + 1) ts s)) := by
      rw [replicaOf_replay _ ts hs hok]
      refine (inFrame_of_reset hstart).iterate ?_
      simp only [frameCycles, Bool.false_eq_true, if_false]
      omega
    have hplace := hframe.isVBlankStart
    rw [hsplit] at hplace ⊢
    exact (ppuCycle_sets_vblank ts' hdepth (ht.kept.scanOk hok) htdark).trans hplace

/-- Settles O26: the flag follows the scan position through the first frame. -/
theorem firstVBlankAfterReset : Obligations.FirstVBlankAfterReset := by
  intro ts s hu hdepth hstart hdark
  rw [hostCallbacks_of_unscripted hu]
  have hflag (k : Nat) (hk : k ≤ 82522) := replay_vblank k ts (s := s) (by omega) hstart hdark hk
  exact ⟨fun k hk => Bool.eq_false_of_not_eq_true fun h => hk.ne ((hflag k hk.le).1 h), (hflag 82522 le_rfl).2 rfl⟩

end Sys2Proof.Machine
end
